-- ==== Sys2Proof/Word.lean ====
section
/-! DEFINITION. The word types of the Culen C5 (R3: multi-byte values are little-endian; R254: register widths). -/
namespace Sys2Proof

/-- One byte. -/
abbrev Byte := BitVec 8

/-- A 64-bit word: a scalar register, a word of memory, a control register (R254). -/
abbrev Word := BitVec 64

/-- A vector register, 4096 bits (R208, R254). -/
abbrev VReg := BitVec 4096

/-- A mask register, 1024 bits (R254). -/
abbrev MReg := BitVec 1024

/-- A descriptor slot, 64 bytes (R54, R254). -/
abbrev DReg := BitVec 512

end Sys2Proof
end

