-- ==== Sys2Proof/Config.lean ====
section
/-! DEFINITION. What an implementation fixes and the spec does not state: opaque constants, no body, so nothing can
be proved of their values. -/
namespace Sys2Proof.Config

/-- The byte that an undefined row holds: `freeByte e a` is the byte at address `a` of a row whose contents became
undefined in epoch `e` (R43 unmarked state, R145 launch contents, R386 overlapping copies). DESIGN CHOICE, log 3. -/
opaque freeByte : Nat → Nat → Byte

/-- A register word that the spec leaves undefined, one fresh value for each draw (R43). DESIGN CHOICE, log 3. -/
opaque freeWord : Nat → Word

/-- The uniform 32-bit value U of one stochastic rounding (R213). DESIGN CHOICE, log 8. -/
opaque drawU : Nat → BitVec 32

/-- The magnitude bits that an approximate function of R353 returns for a function code, a type code and operand
bits: one fixed value per input, type and function. DESIGN CHOICE, log 9. -/
opaque approx : Nat → Nat → Nat → Nat

/-- The station address fused into an Ethernet port of a package (R414). DESIGN CHOICE, log 22. -/
opaque fusedMac : Nat → Nat → BitVec 48

/-- The 256-bit seed fused into a package, from which its identity key is derived (R409). DESIGN CHOICE, log 20. -/
opaque fusedSeed : Nat → BitVec 256

/-- The VLAN of the management network, set in a package's fuses (R408). DESIGN CHOICE, log 20. -/
opaque fusedVlan : Nat → BitVec 12

/-- The frame with which a package asks for its image over the management network, without its tag (R408 gives no protocol). DESIGN
CHOICE, log 20. -/
opaque fetchRequest : Nat → List Byte

/-- Vendor and device number of a root port, by its device on bus 0 (R419 gives none). DESIGN CHOICE, log 67. -/
opaque rootId : Nat → BitVec 32

/-- The row count that a ring sequencer sends when it opens a merge group (R117 gives none), for a program's header
address. DESIGN CHOICE, log 42. -/
opaque collRows : Nat → Nat

/-- The set of a translation unit's TLB in which a leaf lies, taken modulo 4096 (R10 gives 4096 sets and no index): for ASID,
generation, first byte and bytes of its page. DESIGN CHOICE, log 52. -/
opaque tlbSet : Nat → Nat → Nat → Nat → Nat

/-- The timer code with which the RDMA engine answers that a receiver is not ready (R417 gives a queue pair none). DESIGN CHOICE, log 48. -/
opaque rnrTimer : BitVec 5

/-- Which of the slots that a claim or a refill may take is taken (R250, R252 name the set, not the slot): an index, taken
modulo their number. DESIGN CHOICE, log 43. -/
opaque poolPick : Nat → Nat

end Sys2Proof.Config
end

