-- ==== Sys2Proof/Syntax.lean ====
section
/-! DEFINITION. The instructions of the Culen C5: one constructor for each row of the operation table. A row with an
encoding carries its bit fields, named as the table names them, lowest field first. A row without an encoding is a
step of a unit of the device (a port, a translation unit, a Caliper, a sequencer) or an event from outside; its
operands name what the step acts on: the id of a message in flight, a unit's key, a value written. The rows with
fields stand first, then the device's rows, then the encoded rows without fields: Lean's compiler builds no constructor
with fields beyond the 245th, and the decoder builds the encoded ones. -/
namespace Sys2Proof

/-- A received RoCE v2 packet, as its transport headers say (R416; the header layouts are those of the InfiniBand
specification, not of this one). -/
structure RocePacket where
  /-- operation: 0 SEND, 1 SEND with immediate, 2 WRITE, 3 WRITE with immediate, 4 READ request, 5 compare-and-swap,
  6 fetch-and-add, 7 acknowledgement, 8 READ or ATOMIC response, 9 negative acknowledgement, 10 receiver not ready, 16 congestion
  notification; a message of SEND, WRITE or a READ response may take several packets -/
  op    : Nat
  qpn   : BitVec 24
  psn   : BitVec 24
  srcQp : BitVec 24
  qkey  : BitVec 32
  key   : BitVec 32
  /-- the address that a request names; of an answer, its message sequence number -/
  va    : Word
  len   : BitVec 32
  cmp   : Word
  swp   : Word
  imm   : BitVec 32
  data  : List Byte
  /-- the first, the last packet of its message -/
  first : Bool := true
  last  : Bool := true
  /-- the IP header that it came with: of a datagram of UD, what stands before its data in the receive buffer -/
  ip    : List Byte := []
  deriving DecidableEq, Repr

inductive Instr where
  /-- ADD_16: 16-bit add rd, rd, ra. (R258) -/
  | add16 (d : BitVec 5) (a : BitVec 5)
  /-- MOV: 16-bit mov, or rd, ra, s0. (R258) -/
  | mov (d : BitVec 5) (a : BitVec 5)
  /-- SUB_16: 16-bit sub rd, rd, ra. (R258) -/
  | sub16 (d : BitVec 5) (a : BitVec 5)
  /-- ADDI6: 16-bit add of a signed 6-bit immediate. (R258) -/
  | addi6 (d : BitVec 5) (i : BitVec 6)
  /-- LI6: 16-bit load of a signed 6-bit immediate. (R258) -/
  | li6 (d : BitVec 5) (i : BitVec 6)
  /-- AND_16: 16-bit and rd, rd, ra. (R258) -/
  | and16 (d : BitVec 5) (a : BitVec 5)
  /-- OR_16: 16-bit or rd, rd, ra. (R258) -/
  | or16 (d : BitVec 5) (a : BitVec 5)
  /-- LD_D_SHORT: 16-bit own-pool ld.d at 8 × imm6 from s9. (R258) -/
  | ldDShort (d : BitVec 5) (i : BitVec 6)
  /-- ST_D_SHORT: 16-bit own-pool st.d at 8 × imm6 from s9. (R258) -/
  | stDShort (d : BitVec 5) (i : BitVec 6)
  /-- BZ: 16-bit branch if rd is zero. (R258) -/
  | bz (d : BitVec 5) (i : BitVec 6)
  /-- BNZ: 16-bit branch if rd is nonzero. (R258) -/
  | bnz (d : BitVec 5) (i : BitVec 6)
  /-- B_16: 16-bit unconditional branch by off11. (R258) -/
  | b16 (o : BitVec 11)
  /-- SHLI_16: 16-bit shift left by imm6. (R258) -/
  | shli16 (d : BitVec 5) (i : BitVec 6)
  /-- SHRI_16: 16-bit logical shift right by imm6. (R258) -/
  | shri16 (d : BitVec 5) (i : BitVec 6)
  /-- ADD: Integer add modulo 2^64. (R284) -/
  | add (d : BitVec 5) (a : BitVec 5) (b : BitVec 5)
  /-- SUB: Integer subtract. (R284) -/
  | sub (d : BitVec 5) (a : BitVec 5) (b : BitVec 5)
  /-- MUL: Low 64 bits of the product. (R285) -/
  | mul (d : BitVec 5) (a : BitVec 5) (b : BitVec 5)
  /-- MULH: High bits of the signed product. (R285) -/
  | mulh (d : BitVec 5) (a : BitVec 5) (b : BitVec 5)
  /-- MULHZ: High bits of the unsigned product. (R285) -/
  | mulhz (d : BitVec 5) (a : BitVec 5) (b : BitVec 5)
  /-- DIV: Signed division with defined results. (R286) -/
  | div (d : BitVec 5) (a : BitVec 5) (b : BitVec 5)
  /-- DIVZ: Unsigned division. (R286) -/
  | divz (d : BitVec 5) (a : BitVec 5) (b : BitVec 5)
  /-- REM: Signed remainder. (R286) -/
  | rem (d : BitVec 5) (a : BitVec 5) (b : BitVec 5)
  /-- REMZ: Unsigned remainder. (R286) -/
  | remz (d : BitVec 5) (a : BitVec 5) (b : BitVec 5)
  /-- AND: Bitwise and. (R284) -/
  | and (d : BitVec 5) (a : BitVec 5) (b : BitVec 5)
  /-- ANDN: a and not b. (R284) -/
  | andn (d : BitVec 5) (a : BitVec 5) (b : BitVec 5)
  /-- OR: Bitwise or. (R284) -/
  | or (d : BitVec 5) (a : BitVec 5) (b : BitVec 5)
  /-- XOR: Bitwise xor. (R284) -/
  | xor (d : BitVec 5) (a : BitVec 5) (b : BitVec 5)
  /-- SHL: Shift left by register. (R287) -/
  | shl (d : BitVec 5) (a : BitVec 5) (b : BitVec 5)
  /-- SHR: Logical shift right by register. (R287) -/
  | shr (d : BitVec 5) (a : BitVec 5) (b : BitVec 5)
  /-- SRA: Arithmetic shift right by register. (R287) -/
  | sra (d : BitVec 5) (a : BitVec 5) (b : BitVec 5)
  /-- ROL: Rotate left by register. (R287) -/
  | rol (d : BitVec 5) (a : BitVec 5) (b : BitVec 5)
  /-- CLZ: Count leading zeros. (R288) -/
  | clz (d : BitVec 5) (a : BitVec 5)
  /-- CTZ: Count trailing zeros. (R288) -/
  | ctz (d : BitVec 5) (a : BitVec 5)
  /-- POPC: Count one bits. (R288) -/
  | popc (d : BitVec 5) (a : BitVec 5)
  /-- MIN: Signed minimum. (R289) -/
  | min (d : BitVec 5) (a : BitVec 5) (b : BitVec 5)
  /-- MAX: Signed maximum. (R289) -/
  | max (d : BitVec 5) (a : BitVec 5) (b : BitVec 5)
  /-- MINZ: Unsigned minimum. (R289) -/
  | minz (d : BitVec 5) (a : BitVec 5) (b : BitVec 5)
  /-- MAXZ: Unsigned maximum. (R289) -/
  | maxz (d : BitVec 5) (a : BitVec 5) (b : BitVec 5)
  /-- SEQ: Set if equal. (R289) -/
  | seq (d : BitVec 5) (a : BitVec 5) (b : BitVec 5)
  /-- SNE: Set if not equal. (R289) -/
  | sne (d : BitVec 5) (a : BitVec 5) (b : BitVec 5)
  /-- SLT: Set if signed less than. (R289) -/
  | slt (d : BitVec 5) (a : BitVec 5) (b : BitVec 5)
  /-- SLTZ: Set if unsigned less than. (R289) -/
  | sltz (d : BitVec 5) (a : BitVec 5) (b : BitVec 5)
  /-- SEL: Select ra or rb by the old rd. (R289) -/
  | sel (d : BitVec 5) (a : BitVec 5) (b : BitVec 5)
  /-- BSWAP: Reverse byte order. (R288) -/
  | bswap (d : BitVec 5) (a : BitVec 5)
  /-- CLMUL: Low half of the carry-less product. (R290) -/
  | clmul (d : BitVec 5) (a : BitVec 5) (b : BitVec 5)
  /-- CLMULH: High half of the carry-less product. (R290) -/
  | clmulh (d : BitVec 5) (a : BitVec 5) (b : BitVec 5)
  /-- CRC: CRC-32C step over eight bytes. (R291) -/
  | crc (d : BitVec 5) (a : BitVec 5) (b : BitVec 5)
  /-- HDR_PACK: Insert a field described by HDRF into a header word. (R293) -/
  | hdrPack (d : BitVec 5) (a : BitVec 5) (b : BitVec 5)
  /-- HDR_UNPK: Extract a field described by HDRF from a header word. (R293) -/
  | hdrUnpk (d : BitVec 5) (a : BitVec 5) (b : BitVec 5)
  /-- ADDI: Add a signed 15-bit immediate. (R294) -/
  | addi (d : BitVec 5) (a : BitVec 5) (i : BitVec 15)
  /-- ANDI: And with an immediate. (R294) -/
  | andi (d : BitVec 5) (a : BitVec 5) (i : BitVec 15)
  /-- ORI: Or with an immediate. (R294) -/
  | ori (d : BitVec 5) (a : BitVec 5) (i : BitVec 15)
  /-- XORI: Xor with an immediate. (R294) -/
  | xori (d : BitVec 5) (a : BitVec 5) (i : BitVec 15)
  /-- SLTI: Set if signed less than an immediate. (R294) -/
  | slti (d : BitVec 5) (a : BitVec 5) (i : BitVec 15)
  /-- LI: Load a signed 15-bit immediate. (R295) -/
  | li (d : BitVec 5) (i : BitVec 15)
  /-- SHLI: Shift left by an immediate. (R297) -/
  | shli (d : BitVec 5) (a : BitVec 5) (n : BitVec 6)
  /-- SHRI: Logical shift right by an immediate. (R297) -/
  | shri (d : BitVec 5) (a : BitVec 5) (n : BitVec 6)
  /-- SRAI: Arithmetic shift right by an immediate. (R297) -/
  | srai (d : BitVec 5) (a : BitVec 5) (n : BitVec 6)
  /-- RORI: Rotate right by an immediate. (R297) -/
  | rori (d : BitVec 5) (a : BitVec 5) (n : BitVec 6)
  /-- EXT: Extract a bit field, zero-extended. (R298) -/
  | ext (d : BitVec 5) (a : BitVec 5) (p : BitVec 6) (l : BitVec 6)
  /-- EXT_S: Extract a bit field, sign-extended. (R298) -/
  | extS (d : BitVec 5) (a : BitVec 5) (p : BitVec 6) (l : BitVec 6)
  /-- INS: Insert a bit field. (R298) -/
  | ins (d : BitVec 5) (a : BitVec 5) (p : BitVec 6) (l : BitVec 6)
  /-- LIH: Shift rd left 20 and or in a 20-bit immediate. (R296) -/
  | lih (d : BitVec 5) (i : BitVec 20)
  /-- FADD: Floating-point add. (R299) -/
  | fadd (d : BitVec 5) (a : BitVec 5) (b : BitVec 5) (m : BitVec 3) (p : BitVec 1)
  /-- FSUB: Floating-point subtract. (R299) -/
  | fsub (d : BitVec 5) (a : BitVec 5) (b : BitVec 5) (m : BitVec 3) (p : BitVec 1)
  /-- FMUL: Floating-point multiply. (R299) -/
  | fmul (d : BitVec 5) (a : BitVec 5) (b : BitVec 5) (m : BitVec 3) (p : BitVec 1)
  /-- FMA: Fused multiply-add into fd. (R299) -/
  | fma (d : BitVec 5) (a : BitVec 5) (b : BitVec 5) (m : BitVec 3) (p : BitVec 1)
  /-- FDIV: Floating-point divide. (R299) -/
  | fdiv (d : BitVec 5) (a : BitVec 5) (b : BitVec 5) (m : BitVec 3) (p : BitVec 1)
  /-- FSQRT: Floating-point square root. (R299) -/
  | fsqrt (d : BitVec 5) (a : BitVec 5) (m : BitVec 3) (p : BitVec 1)
  /-- FMIN: Floating-point minimum. (R300) -/
  | fmin (d : BitVec 5) (a : BitVec 5) (b : BitVec 5) (p : BitVec 1)
  /-- FMAX: Floating-point maximum. (R300) -/
  | fmax (d : BitVec 5) (a : BitVec 5) (b : BitVec 5) (p : BitVec 1)
  /-- FCMP: Floating-point compare into a scalar register. (R301) -/
  | fcmp (d : BitVec 5) (a : BitVec 5) (b : BitVec 5) (m : BitVec 3) (p : BitVec 1)
  /-- FCVT: Conversion between an FP precision and another type. (R302) -/
  | fcvt (d : BitVec 5) (a : BitVec 5) (t : BitVec 4) (r : BitVec 1) (m : BitVec 3) (p : BitVec 1)
  /-- FMV_S: Move bits from an f register to a scalar register. (R303) -/
  | fmvS (d : BitVec 5) (a : BitVec 5) (p : BitVec 1)
  /-- FMV_F: Move bits from a scalar register to an f register. (R303) -/
  | fmvF (d : BitVec 5) (a : BitVec 5) (p : BitVec 1)
  /-- FCLASS: Classify a floating-point value. (R304) -/
  | fclass (d : BitVec 5) (a : BitVec 5) (p : BitVec 1)
  /-- B_EQ: Branch if equal. (R305) -/
  | bEq (a : BitVec 5) (b : BitVec 5) (o : BitVec 12)
  /-- B_NE: Branch if not equal. (R305) -/
  | bNe (a : BitVec 5) (b : BitVec 5) (o : BitVec 12)
  /-- B_LT: Branch if signed less. (R305) -/
  | bLt (a : BitVec 5) (b : BitVec 5) (o : BitVec 12)
  /-- B_GE: Branch if signed greater or equal. (R305) -/
  | bGe (a : BitVec 5) (b : BitVec 5) (o : BitVec 12)
  /-- B_LTZ: Branch if negative. (R305) -/
  | bLtz (a : BitVec 5) (o : BitVec 12)
  /-- B_GEZ: Branch if not negative. (R305) -/
  | bGez (a : BitVec 5) (o : BitVec 12)
  /-- JAL: Jump and link. (R306) -/
  | jal (d : BitVec 5) (o : BitVec 20)
  /-- JALR: Jump to a register plus offset and link. (R307) -/
  | jalr (d : BitVec 5) (a : BitVec 5) (i : BitVec 15)
  /-- LOOP: Start a hardware loop of S[ra] iterations. (R309) -/
  | loop (a : BitVec 5) (i : BitVec 15)
  /-- LOOPI: Start a hardware loop of n iterations. (R310) -/
  | loopi (d : BitVec 10) (n : BitVec 10)
  /-- CSRR: Read a control register. (R314) -/
  | csrr (d : BitVec 5) (c : BitVec 12)
  /-- CSRW: Write a control register. (R314) -/
  | csrw (d : BitVec 5) (a : BitVec 5) (c : BitVec 12)
  /-- CSRS: Set bits of a control register. (R314) -/
  | csrs (d : BitVec 5) (a : BitVec 5) (c : BitVec 12)
  /-- CSRC: Clear bits of a control register. (R314) -/
  | csrc (d : BitVec 5) (a : BitVec 5) (c : BitVec 12)
  /-- IDR: Read an identity register. (R317) -/
  | idr (d : BitVec 5) (n : BitVec 12)
  /-- TRAP: Terminate with cause 0x10, a code and a value. (R318) -/
  | trap (a : BitVec 5) (c : BitVec 12)
  /-- BRK: Breakpoint; terminate with cause 0x11. (R319) -/
  | brk (c : BitVec 12)
  /-- YIELD: Make the context not ready for n cycles or one rotation. (R320) -/
  | yield (n : BitVec 12)
  /-- LD: Scalar load from global, own pool or gang core. (R322) -/
  | ld (d : BitVec 5) (b : BitVec 5) (z : BitVec 3) (s : BitVec 2) (o : BitVec 10)
  /-- ST: Scalar store. (R322) -/
  | st (d : BitVec 5) (b : BitVec 5) (z : BitVec 3) (s : BitVec 2) (o : BitVec 10)
  /-- VLD: Load a 512-byte row into a vector register. (R323) -/
  | vld (d : BitVec 5) (b : BitVec 5) (s : BitVec 2) (o : BitVec 10)
  /-- VST: Store a vector register as a 512-byte row. (R323) -/
  | vst (d : BitVec 5) (b : BitVec 5) (s : BitVec 2) (o : BitVec 10)
  /-- LDX: Indexed scalar load. (R324) -/
  | ldx (d : BitVec 5) (a : BitVec 5) (b : BitVec 5) (y : BitVec 2) (z : BitVec 1) (s : BitVec 2)
  /-- PRF: Prefetch a translation. (R326) -/
  | prf (a : BitVec 5) (b : BitVec 5)
  /-- VLDX: Gather lanes by a vector of indices. (R325) -/
  | vldx (d : BitVec 5) (a : BitVec 5) (b : BitVec 5) (t : BitVec 4) (s : BitVec 2)
  /-- VSTX: Scatter lanes by a vector of indices. (R325) -/
  | vstx (d : BitVec 5) (a : BitVec 5) (b : BitVec 5) (t : BitVec 4) (s : BitVec 2)
  /-- DLD: Load and check a tensor descriptor. (R327) -/
  | dld (d : BitVec 3) (a : BitVec 5)
  /-- TLD: Copy a tile from a far descriptor into a pool descriptor. (R328) -/
  | tld (d : BitVec 3) (a : BitVec 3) (o : BitVec 5)
  /-- TST: Copy a pool tile out through a far descriptor. (R328) -/
  | tst (d : BitVec 3) (a : BitVec 3) (o : BitVec 5)
  /-- RANGE_NEXT: Take a chunk from a range object. (R330) -/
  | rangeNext (d : BitVec 5) (a : BitVec 5) (b : BitVec 5)
  /-- ATOM_ADD: Atomic integer add at the owner. (R329) -/
  | atomAdd (d : BitVec 5) (a : BitVec 5) (b : BitVec 5) (z : BitVec 2) (q : BitVec 2)
  /-- ATOM_FADD_F32: Atomic f32 add. (R329) -/
  | atomFaddF32 (d : BitVec 5) (a : BitVec 5) (b : BitVec 5) (q : BitVec 2)
  /-- ATOM_FADD_F64: Atomic f64 add. (R329) -/
  | atomFaddF64 (d : BitVec 5) (a : BitVec 5) (b : BitVec 5) (q : BitVec 2)
  /-- ATOM_FADD_BF16: Atomic bf16 add. (R329) -/
  | atomFaddBf16 (d : BitVec 5) (a : BitVec 5) (b : BitVec 5) (q : BitVec 2)
  /-- ATOM_MIN: Atomic signed minimum. (R329) -/
  | atomMin (d : BitVec 5) (a : BitVec 5) (b : BitVec 5) (z : BitVec 2) (q : BitVec 2)
  /-- ATOM_MAX: Atomic signed maximum. (R329) -/
  | atomMax (d : BitVec 5) (a : BitVec 5) (b : BitVec 5) (z : BitVec 2) (q : BitVec 2)
  /-- ATOM_MINZ: Atomic unsigned minimum. (R329) -/
  | atomMinz (d : BitVec 5) (a : BitVec 5) (b : BitVec 5) (z : BitVec 2) (q : BitVec 2)
  /-- ATOM_MAXZ: Atomic unsigned maximum. (R329) -/
  | atomMaxz (d : BitVec 5) (a : BitVec 5) (b : BitVec 5) (z : BitVec 2) (q : BitVec 2)
  /-- ATOM_AND: Atomic and. (R329) -/
  | atomAnd (d : BitVec 5) (a : BitVec 5) (b : BitVec 5) (z : BitVec 2) (q : BitVec 2)
  /-- ATOM_OR: Atomic or. (R329) -/
  | atomOr (d : BitVec 5) (a : BitVec 5) (b : BitVec 5) (z : BitVec 2) (q : BitVec 2)
  /-- ATOM_XOR: Atomic xor. (R329) -/
  | atomXor (d : BitVec 5) (a : BitVec 5) (b : BitVec 5) (z : BitVec 2) (q : BitVec 2)
  /-- ATOM_SWAP: Atomic swap. (R329) -/
  | atomSwap (d : BitVec 5) (a : BitVec 5) (b : BitVec 5) (z : BitVec 2) (q : BitVec 2)
  /-- RED_ADD: Integer add reduction. (R329) -/
  | redAdd (a : BitVec 5) (b : BitVec 5) (z : BitVec 2)
  /-- RED_FADD_F32: f32 add reduction. (R329) -/
  | redFaddF32 (a : BitVec 5) (b : BitVec 5)
  /-- RED_FADD_F64: f64 add reduction. (R329) -/
  | redFaddF64 (a : BitVec 5) (b : BitVec 5)
  /-- RED_FADD_BF16: bf16 add reduction. (R329) -/
  | redFaddBf16 (a : BitVec 5) (b : BitVec 5)
  /-- RED_MIN: Signed minimum reduction. (R329) -/
  | redMin (a : BitVec 5) (b : BitVec 5) (z : BitVec 2)
  /-- RED_MAX: Signed maximum reduction. (R329) -/
  | redMax (a : BitVec 5) (b : BitVec 5) (z : BitVec 2)
  /-- RED_MINZ: Unsigned minimum reduction. (R329) -/
  | redMinz (a : BitVec 5) (b : BitVec 5) (z : BitVec 2)
  /-- RED_MAXZ: Unsigned maximum reduction. (R329) -/
  | redMaxz (a : BitVec 5) (b : BitVec 5) (z : BitVec 2)
  /-- RED_AND: And reduction. (R329) -/
  | redAnd (a : BitVec 5) (b : BitVec 5) (z : BitVec 2)
  /-- RED_OR: Or reduction. (R329) -/
  | redOr (a : BitVec 5) (b : BitVec 5) (z : BitVec 2)
  /-- RED_XOR: Xor reduction. (R329) -/
  | redXor (a : BitVec 5) (b : BitVec 5) (z : BitVec 2)
  /-- CAS: Compare and swap at the owner. (R329) -/
  | cas (d : BitVec 5) (a : BitVec 5) (b : BitVec 5) (z : BitVec 2) (q : BitVec 2)
  /-- FENCE: Order accesses within a scope. (R332) -/
  | fence (s : BitVec 3)
  /-- DRAIN: Wait for an access path to complete. (R333) -/
  | drain (p : BitVec 3)
  /-- ARRIVE: Send an arrival to a join target, optionally as a release. (R334) -/
  | arrive (a : BitVec 5) (s : BitVec 3) (m : BitVec 7) (r : BitVec 1)
  /-- BAR_ARRIVE: Arrive at a barrier object. (R335) -/
  | barArrive (d : BitVec 5) (a : BitVec 5)
  /-- BAR_WAIT: Wait for a barrier phase to change. (R336) -/
  | barWait (d : BitVec 5) (a : BitVec 5)
  /-- SEM_WAIT: Wait until a semaphore is at or below 0. (R337) -/
  | semWait (d : BitVec 5) (k : BitVec 4)
  /-- SEM_ADD: Signal a semaphore of this or another core. (R338) -/
  | semAdd (d : BitVec 5) (a : BitVec 5) (s : BitVec 3) (k : BitVec 4) (e : BitVec 1)
  /-- OWN_GIVE: Give a slot to the engines. (R339) -/
  | ownGive (a : BitVec 5) (n : BitVec 6)
  /-- OWN_TAKE: Take a slot back to the thread. (R339) -/
  | ownTake (a : BitVec 5) (n : BitVec 6)
  /-- OWN_WAIT: Wait for a slot to return. (R339) -/
  | ownWait (a : BitVec 5) (n : BitVec 6)
  /-- CB_WAIT: Wait for n filled ring slots. (R340) -/
  | cbWait (h : BitVec 3) (n : BitVec 4)
  /-- CB_ROOM: Wait for n free ring slots. (R340) -/
  | cbRoom (h : BitVec 3) (n : BitVec 4)
  /-- CB_PUSH: Mark n ring slots filled. (R340) -/
  | cbPush (h : BitVec 3) (n : BitVec 4)
  /-- CB_POP: Mark n ring slots consumed. (R340) -/
  | cbPop (h : BitVec 3) (n : BitVec 4)
  /-- SPAWN: Spawn a single task. (R341) -/
  | spawn (a : BitVec 5) (b : BitVec 5) (h : BitVec 1)
  /-- SPAWNG: Spawn a gang. (R341) -/
  | spawng (a : BitVec 5) (b : BitVec 5) (h : BitVec 1)
  /-- WTT_ARM: Arm a waiting-task entry from an arming record. (R342) -/
  | wttArm (a : BitVec 5) (b : BitVec 5)
  /-- WTT_DISARM: Disarm a waiting-task entry and read its count. (R343) -/
  | wttDisarm (d : BitVec 5) (b : BitVec 5)
  /-- SEND: Send a pool payload to a global destination, optionally converted and with an arrival. (R344) -/
  | send (d : BitVec 5) (a : BitVec 5) (b : BitVec 5) (w : BitVec 4) (r : BitVec 1) (s : BitVec 3) (y : BitVec 1)
  /-- VADD: Lane-wise add. (R351) -/
  | vadd (d : BitVec 5) (a : BitVec 5) (b : BitVec 5) (t : BitVec 4)
  /-- VSUB: Lane-wise subtract. (R351) -/
  | vsub (d : BitVec 5) (a : BitVec 5) (b : BitVec 5) (t : BitVec 4)
  /-- VMUL: Lane-wise multiply. (R351) -/
  | vmul (d : BitVec 5) (a : BitVec 5) (b : BitVec 5) (t : BitVec 4)
  /-- VFMA: Lane-wise fused multiply-add. (R351) -/
  | vfma (d : BitVec 5) (a : BitVec 5) (b : BitVec 5) (t : BitVec 4)
  /-- VFMS: Lane-wise fused multiply-subtract. (R351) -/
  | vfms (d : BitVec 5) (a : BitVec 5) (b : BitVec 5) (t : BitVec 4)
  /-- VFNMA: Lane-wise negated fused multiply-add. (R351) -/
  | vfnma (d : BitVec 5) (a : BitVec 5) (b : BitVec 5) (t : BitVec 4)
  /-- VDIV: Lane-wise divide. (R351) -/
  | vdiv (d : BitVec 5) (a : BitVec 5) (b : BitVec 5) (t : BitVec 4)
  /-- VSQRT: Lane-wise square root. (R351) -/
  | vsqrt (d : BitVec 5) (a : BitVec 5) (t : BitVec 4)
  /-- VRCP: Approximate reciprocal. (R353) -/
  | vrcp (d : BitVec 5) (a : BitVec 5) (t : BitVec 4)
  /-- VRSQRT: Approximate reciprocal square root. (R353) -/
  | vrsqrt (d : BitVec 5) (a : BitVec 5) (t : BitVec 4)
  /-- VEXP2: Approximate 2^a. (R353) -/
  | vexp2 (d : BitVec 5) (a : BitVec 5) (t : BitVec 4)
  /-- VLOG2: Approximate log2. (R353) -/
  | vlog2 (d : BitVec 5) (a : BitVec 5) (t : BitVec 4)
  /-- VTANH: Approximate tanh. (R353) -/
  | vtanh (d : BitVec 5) (a : BitVec 5) (t : BitVec 4)
  /-- VSIGM: Approximate sigmoid. (R353) -/
  | vsigm (d : BitVec 5) (a : BitVec 5) (t : BitVec 4)
  /-- VSIN: Approximate sine. (R353) -/
  | vsin (d : BitVec 5) (a : BitVec 5) (t : BitVec 4)
  /-- VCOS: Approximate cosine. (R353) -/
  | vcos (d : BitVec 5) (a : BitVec 5) (t : BitVec 4)
  /-- VMIN: Lane-wise minimum. (R351) -/
  | vmin (d : BitVec 5) (a : BitVec 5) (b : BitVec 5) (t : BitVec 4)
  /-- VMAX: Lane-wise maximum. (R351) -/
  | vmax (d : BitVec 5) (a : BitVec 5) (b : BitVec 5) (t : BitVec 4)
  /-- VABS: Lane-wise absolute value. (R351) -/
  | vabs (d : BitVec 5) (a : BitVec 5) (t : BitVec 4)
  /-- VNEG: Lane-wise negation. (R351) -/
  | vneg (d : BitVec 5) (a : BitVec 5) (t : BitVec 4)
  /-- VAND: Lane-wise and. (R354) -/
  | vand (d : BitVec 5) (a : BitVec 5) (b : BitVec 5) (t : BitVec 4)
  /-- VOR: Lane-wise or. (R354) -/
  | vor (d : BitVec 5) (a : BitVec 5) (b : BitVec 5) (t : BitVec 4)
  /-- VXOR: Lane-wise xor. (R354) -/
  | vxor (d : BitVec 5) (a : BitVec 5) (b : BitVec 5) (t : BitVec 4)
  /-- VNOT: Lane-wise not. (R354) -/
  | vnot (d : BitVec 5) (a : BitVec 5) (t : BitVec 4)
  /-- VSHL: Lane-wise shift left. (R354) -/
  | vshl (d : BitVec 5) (a : BitVec 5) (b : BitVec 5) (t : BitVec 4)
  /-- VSHR: Lane-wise logical shift right. (R354) -/
  | vshr (d : BitVec 5) (a : BitVec 5) (b : BitVec 5) (t : BitVec 4)
  /-- VSRA: Lane-wise arithmetic shift right. (R354) -/
  | vsra (d : BitVec 5) (a : BitVec 5) (b : BitVec 5) (t : BitVec 4)
  /-- VCMP: Lane-wise compare into a mask register. (R356) -/
  | vcmp (d : BitVec 3) (a : BitVec 5) (b : BitVec 5) (t : BitVec 4)
  /-- VSEL: Select lanes of va or vb by the prefix mask. (R357) -/
  | vsel (d : BitVec 5) (a : BitVec 5) (b : BitVec 5) (t : BitVec 4)
  /-- VMOV: Copy active lanes. (R357) -/
  | vmov (d : BitVec 5) (a : BitVec 5) (t : BitVec 4)
  /-- VBCAST: Broadcast a scalar into every lane. (R358) -/
  | vbcast (d : BitVec 5) (a : BitVec 5) (t : BitVec 4)
  /-- VINS: Insert a scalar into one lane. (R358) -/
  | vins (d : BitVec 5) (a : BitVec 5) (b : BitVec 5) (t : BitVec 4)
  /-- VEXT: Extract one lane to a scalar. (R358) -/
  | vext (d : BitVec 5) (a : BitVec 5) (b : BitVec 5) (t : BitVec 4)
  /-- VCVT: Lane-wise type conversion. (R359) -/
  | vcvt (d : BitVec 5) (a : BitVec 5) (s : BitVec 4) (t : BitVec 4)
  /-- VQUANT: Quantise FP32 lanes to a narrow type with block scales. (R360) -/
  | vquant (d : BitVec 5) (a : BitVec 5) (b : BitVec 5) (t : BitVec 4)
  /-- VDEQUANT: Dequantise narrow lanes with block scales. (R361) -/
  | vdequant (d : BitVec 5) (a : BitVec 5) (b : BitVec 5) (t : BitVec 4)
  /-- VREDSUM: Tree sum of active lanes. (R362) -/
  | vredsum (d : BitVec 5) (a : BitVec 5) (t : BitVec 4)
  /-- VREDMAX: Maximum of active lanes. (R363) -/
  | vredmax (d : BitVec 5) (a : BitVec 5) (t : BitVec 4)
  /-- VREDMIN: Minimum of active lanes. (R363) -/
  | vredmin (d : BitVec 5) (a : BitVec 5) (t : BitVec 4)
  /-- VREDMAXI: Maximum of active lanes with its index. (R363) -/
  | vredmaxi (d : BitVec 5) (a : BitVec 5) (b : BitVec 5) (t : BitVec 4)
  /-- VREDMINI: Minimum of active lanes with its index. (R363) -/
  | vredmini (d : BitVec 5) (a : BitVec 5) (b : BitVec 5) (t : BitVec 4)
  /-- VSCAN_ADD: Sequential inclusive add scan. (R364) -/
  | vscanAdd (d : BitVec 5) (a : BitVec 5) (t : BitVec 4)
  /-- VSCAN_XOR: Sequential inclusive xor scan. (R364) -/
  | vscanXor (d : BitVec 5) (a : BitVec 5) (t : BitVec 4)
  /-- VCLMUL: Carry-less multiply of even lanes. (R355) -/
  | vclmul (d : BitVec 5) (a : BitVec 5) (b : BitVec 5) (t : BitVec 4)
  /-- VPOPC: Lane-wise population count. (R354) -/
  | vpopc (d : BitVec 5) (a : BitVec 5) (t : BitVec 4)
  /-- VCLZ: Lane-wise count leading zeros. (R354) -/
  | vclz (d : BitVec 5) (a : BitVec 5) (t : BitVec 4)
  /-- VPERM: Permute lanes by an index vector. (R365) -/
  | vperm (d : BitVec 5) (a : BitVec 5) (b : BitVec 5) (t : BitVec 4)
  /-- VSLIDE: Slide lanes by a scalar count. (R366) -/
  | vslide (d : BitVec 5) (a : BitVec 5) (b : BitVec 5) (t : BitVec 4)
  /-- VZIP: Interleave lower halves. (R367) -/
  | vzip (d : BitVec 5) (a : BitVec 5) (b : BitVec 5) (t : BitVec 4)
  /-- VUNZIP: De-interleave even lanes. (R367) -/
  | vunzip (d : BitVec 5) (a : BitVec 5) (b : BitVec 5) (t : BitVec 4)
  /-- VTRW: Write four rows of the transpose tile. (R368) -/
  | vtrw (a : BitVec 5) (b : BitVec 5) (t : BitVec 4)
  /-- VTRC: Read four columns of the transpose tile. (R368) -/
  | vtrc (d : BitVec 5) (a : BitVec 5) (t : BitVec 4)
  /-- MAND: Mask and. (R369) -/
  | mand (d : BitVec 3) (a : BitVec 3) (b : BitVec 3)
  /-- MOR: Mask or. (R369) -/
  | mor (d : BitVec 3) (a : BitVec 3) (b : BitVec 3)
  /-- MXOR: Mask xor. (R369) -/
  | mxor (d : BitVec 3) (a : BitVec 3) (b : BitVec 3)
  /-- MNOT: Mask not. (R369) -/
  | mnot (d : BitVec 3) (a : BitVec 3)
  /-- MPOP: Count ones of a mask. (R369) -/
  | mpop (d : BitVec 5) (a : BitVec 3)
  /-- MFIRST: Index of the lowest one of a mask. (R369) -/
  | mfirst (d : BitVec 5) (a : BitVec 3)
  /-- MSET: Set the first S[sa] mask bits. (R369) -/
  | mset (d : BitVec 3) (a : BitVec 5)
  /-- MMA_F64: f64 matrix step into an FP64 tile. (R377) -/
  | mmaF64 (c : BitVec 2) (a : BitVec 3) (b : BitVec 5) (s : BitVec 1) (j : BitVec 2) (k : BitVec 1) (f : BitVec 4) (r : BitVec 1) (z : BitVec 1) (l : BitVec 1) (n : BitVec 1)
  /-- MMA_F32: f32 matrix step. (R377) -/
  | mmaF32 (c : BitVec 2) (a : BitVec 3) (b : BitVec 5) (s : BitVec 1) (j : BitVec 2) (k : BitVec 1) (f : BitVec 4) (r : BitVec 1) (z : BitVec 1) (l : BitVec 1) (n : BitVec 1)
  /-- MMA_BF16: bf16 matrix step. (R377) -/
  | mmaBf16 (c : BitVec 2) (a : BitVec 3) (b : BitVec 5) (s : BitVec 1) (j : BitVec 2) (k : BitVec 1) (f : BitVec 4) (r : BitVec 1) (z : BitVec 1) (l : BitVec 1) (n : BitVec 1)
  /-- MMA_F16: f16 matrix step. (R377) -/
  | mmaF16 (c : BitVec 2) (a : BitVec 3) (b : BitVec 5) (s : BitVec 1) (j : BitVec 2) (k : BitVec 1) (f : BitVec 4) (r : BitVec 1) (z : BitVec 1) (l : BitVec 1) (n : BitVec 1)
  /-- MMA_E4E4: e4m3 by e4m3 matrix step. (R377) -/
  | mmaE4e4 (c : BitVec 2) (a : BitVec 3) (b : BitVec 5) (s : BitVec 1) (j : BitVec 2) (k : BitVec 1) (f : BitVec 4) (r : BitVec 1) (z : BitVec 1) (l : BitVec 1) (n : BitVec 1)
  /-- MMA_E4E5: e4m3 by e5m2 matrix step. (R377) -/
  | mmaE4e5 (c : BitVec 2) (a : BitVec 3) (b : BitVec 5) (s : BitVec 1) (j : BitVec 2) (k : BitVec 1) (f : BitVec 4) (r : BitVec 1) (z : BitVec 1) (l : BitVec 1) (n : BitVec 1)
  /-- MMA_E5E4: e5m2 by e4m3 matrix step. (R377) -/
  | mmaE5e4 (c : BitVec 2) (a : BitVec 3) (b : BitVec 5) (s : BitVec 1) (j : BitVec 2) (k : BitVec 1) (f : BitVec 4) (r : BitVec 1) (z : BitVec 1) (l : BitVec 1) (n : BitVec 1)
  /-- MMA_E5E5: e5m2 by e5m2 matrix step. (R377) -/
  | mmaE5e5 (c : BitVec 2) (a : BitVec 3) (b : BitVec 5) (s : BitVec 1) (j : BitVec 2) (k : BitVec 1) (f : BitVec 4) (r : BitVec 1) (z : BitVec 1) (l : BitVec 1) (n : BitVec 1)
  /-- MMA_E3M2: e3m2 matrix step. (R377) -/
  | mmaE3m2 (c : BitVec 2) (a : BitVec 3) (b : BitVec 5) (s : BitVec 1) (j : BitVec 2) (k : BitVec 1) (f : BitVec 4) (r : BitVec 1) (z : BitVec 1) (l : BitVec 1) (n : BitVec 1)
  /-- MMA_E2M3: e2m3 matrix step. (R377) -/
  | mmaE2m3 (c : BitVec 2) (a : BitVec 3) (b : BitVec 5) (s : BitVec 1) (j : BitVec 2) (k : BitVec 1) (f : BitVec 4) (r : BitVec 1) (z : BitVec 1) (l : BitVec 1) (n : BitVec 1)
  /-- MMA_E2M1: e2m1 matrix step. (R377) -/
  | mmaE2m1 (c : BitVec 2) (a : BitVec 3) (b : BitVec 5) (s : BitVec 1) (j : BitVec 2) (k : BitVec 1) (f : BitVec 4) (r : BitVec 1) (z : BitVec 1) (l : BitVec 1) (n : BitVec 1)
  /-- MMA_I8: i8 matrix step into an INT32 tile. (R377) -/
  | mmaI8 (c : BitVec 2) (a : BitVec 3) (b : BitVec 5) (s : BitVec 1) (j : BitVec 2) (k : BitVec 1) (f : BitVec 4) (r : BitVec 1) (z : BitVec 1) (l : BitVec 1) (n : BitVec 1)
  /-- MMA_I4: i4 matrix step into an INT32 tile. (R377) -/
  | mmaI4 (c : BitVec 2) (a : BitVec 3) (b : BitVec 5) (s : BitVec 1) (j : BitVec 2) (k : BitVec 1) (f : BitVec 4) (r : BitVec 1) (z : BitVec 1) (l : BitVec 1) (n : BitVec 1)
  /-- MZERO: Zero an accumulator tile. (R380) -/
  | mzero (c : BitVec 2)
  /-- MLD: Load the operand latch through a descriptor. (R381) -/
  | mld (c : BitVec 2) (a : BitVec 3) (b : BitVec 5)
  /-- MLD_T: Load the operand latch transposed. (R381) -/
  | mldT (c : BitVec 2) (a : BitVec 3) (b : BitVec 5)
  /-- MST: Scale, convert and store an accumulator tile. (R382) -/
  | mst (c : BitVec 2) (a : BitVec 3) (b : BitVec 5) (f : BitVec 4) (z : BitVec 1) (l : BitVec 1) (t : BitVec 1)
  /-- MSC: Load FP32 row scales into the scale latch. (R384) -/
  | msc (c : BitVec 2) (a : BitVec 5)
  /-- MSC_E8M0: Load E8M0 block scales into the scale latch. (R384) -/
  | mscE8m0 (c : BitVec 2) (a : BitVec 5)
  /-- ESET: Write a field of the copy-engine shadow set. (R389) -/
  | eset (a : BitVec 5) (n : BitVec 6)
  /-- CPY: Queue a one-row copy. (R389) -/
  | cpy (d : BitVec 5) (a : BitVec 5) (b : BitVec 5) (t : BitVec 2) (s : BitVec 2)
  /-- CPY_CHAIN: Queue the shadow set with a follow-on mma. (R390) -/
  | cpyChain (a : BitVec 5)
  /-- BGATH: Indexed gather performed at the source's Plinth dies. (R391) -/
  | bgath (a : BitVec 5)
  /-- BIM_OPEN: Open a merge group in a domain. (R393) -/
  | bimOpen (a : BitVec 5) (b : BitVec 5) (m : BitVec 4)
  /-- BIM_PUSH: Push a pool row to a total row. (R394) -/
  | bimPush (a : BitVec 5) (b : BitVec 5)
  /-- BIM_WAIT: Wait until a counter reaches a target. (R396) -/
  | bimWait (d : BitVec 5) (a : BitVec 5) (b : BitVec 5)
  /-- OFT_DECL: Declare a tile in mode R or W. (R397) -/
  | oftDecl (a : BitVec 5) (w : BitVec 1)
  /-- OFT_SUB: Submit an order-first transaction. (R397) -/
  | oftSub (d : BitVec 5) (a : BitVec 5)
  /-- COLL_GO: Queue a collective program at a panel port. (R399) -/
  | collGo (a : BitVec 5) (p : BitVec 1)
  /-- TOPK_SEND: Send a top-k list for a token. (R400) -/
  | topkSend (a : BitVec 5) (b : BitVec 5)
  /-- SLOT_CLAIM: Claim an expert slot from a pool. (R401) -/
  | slotClaim (d : BitVec 5) (a : BitVec 5) (b : BitVec 5)
  /-- SLOT_RET: Return a slot with a row count. (R401) -/
  | slotRet (a : BitVec 5) (b : BitVec 5)
  /-- CTR_SNAP: Snapshot and clear a routing-counter table. (R402) -/
  | ctrSnap (a : BitVec 5) (b : BitVec 5)
  /-- VX_PREFIX: Prefix supplying mask, zeroing, rounding, fourth operand and saturation to the next instruction. (R262) -/
  | vxPrefix (m : BitVec 3) (z : BitVec 1) (r : BitVec 3) (c : BitVec 5) (v : BitVec 1) (s : BitVec 1)
  /-- TRANSLATE: A request taken at the owner's memory-side translation unit is checked against the ASDT, looked up in the TLB, walked if needed, checked against the leaf and dispatched, or it ends in a fault record. (R26) -/
  | translate (id : Nat) (dropTlb dropPtr dropAsdt : Bool)
  /-- PAGE_WALK_RETURN: A page walk completes, installs its leaf and serves every coalesced request that waited on it. (R11) -/
  | pageWalkReturn (id : Nat) (dropPtr : Bool)
  /-- PEER_UNREACHABLE: The fabric's delivery timeout expires or no path exists, and the request completes with kind 0x0E. (R8) -/
  | peerUnreachable (id : Nat)
  /-- FORWARDED_REQUEST: A request forwarded by aperture 1 is admitted by an export window of the peer die and performed at its frame, or refused with kind 0x11. (R25) -/
  | forwardedRequest (id : Nat)
  /-- PORT_ACCESS: A translated load or store is performed at the memory port that owns it, where it becomes visible to every agent. (R69) -/
  | portAccess (id : Nat)
  /-- FAULT_NACK: A NACK carrying a fault record reaches the requester, which terminates, aborts, or parks the activation by the class rule. (R187) -/
  | faultNack (id : Nat)
  /-- REPLY_ARRIVE: A reply reaches the core, is written to the register or the context area, and makes its parked activation ready. (R185) -/
  | replyArrive (id : Nat)
  /-- ACKNOWLEDGE: An acknowledgement frees the operation's slot and lets operations held behind it on the same word be sent. (R186) -/
  | acknowledge (id : Nat)
  /-- INV_PAGE: A write of OP 1 to MTU_INV_CMD queues a PAGE command for the ASID and MTU_INV_VA. (R33) -/
  | invPage (unit : Nat) (asid : BitVec 16)
  /-- INV_ASID: A write of OP 2 to MTU_INV_CMD queues an ASID command. (R33) -/
  | invAsid (unit : Nat) (asid : BitVec 16)
  /-- INV_ALL: A write of OP 3 to MTU_INV_CMD queues an ALL command. (R33) -/
  | invAll (unit : Nat) (asid : BitVec 16)
  /-- INV_REFRESH: A write of OP 4 to MTU_INV_CMD queues a REFRESH command for the ASID's cached ASDT entry. (R33) -/
  | invRefresh (unit : Nat) (asid : BitVec 16)
  /-- INV_NOP: A write of OP 0 or 5 to 15 to MTU_INV_CMD queues a command that completes with no effect. (R33) -/
  | invNop (unit : Nat) (asid : BitVec 16) (op : BitVec 4)
  /-- INV_COMMAND_COMPLETE: The oldest invalidation command completes once its entries cannot hit, their requests are performed and affected walks are restarted, and DONE increments. (R34) -/
  | invCommandComplete (die : Nat)
  /-- PARTW_WRITE: A write to PARTW is ignored if it overflows the pool, otherwise held until the core holds no activation. (R39) -/
  | partwWrite (core : Nat) (v : Word)
  /-- PARTW_APPLY: A held PARTW value takes effect when the core becomes empty, resetting slot ownership. (R39) -/
  | partwApply (core : Nat)
  /-- CORE_ASID_WRITE: A write to CORE_ASID saves suspend rows and resets semaphores, HDRF entries, the shadow set, waiting-task entries and named regions. (R39) -/
  | coreAsidWrite (core : Nat) (v : Word)
  /-- CONTEXT_FILL: Issue selects a ready activation whose context is not resident, which stalls while a frame is freed and filled from the context area. (R43) -/
  | contextFill (ctx : Nat)
  /-- CONTEXT_FILL_DONE: A context fill from the context area completes and the activation can issue. (R43) -/
  | contextFillDone (ctx : Nat)
  /-- OWNER_FLIP: After the activation's earlier accesses to the slot are performed, own.give flips the slot to engine ownership. (R48) -/
  | ownerFlip (ctx : Nat)
  /-- COPY_COMMAND_START: A queued copy-engine command becomes active and its named slots are judged for engine ownership. (R48) -/
  | copyCommandStart (core : Nat)
  /-- COPY_COMMAND_COMPLETE: A copy-engine command's last write is performed; its slots are counted down, its events counted and its join arrival sent. (R386) -/
  | copyCommandComplete (core : Nat)
  /-- GANG_CORE_ACCESS: A gang-core access is performed at the target core's pool port, or refused with a pool-bounds trap. (R52) -/
  | gangCoreAccess (id : Nat)
  /-- WINDOW_ACCESS: An aperture-5 access is performed at the target pool port, held, or refused with kind 0x12 or 0x13. (R53) -/
  | windowAccess (id : Nat)
  /-- DRAIN_COMPLETE: Every earlier operation of the activation on the drained path is complete and the drain returns. (R51) -/
  | drainComplete (ctx : Nat)
  /-- FENCE_COMPLETE: The earlier accesses within a fence's scope complete and later accesses may be performed. (R76) -/
  | fenceComplete (ctx : Nat)
  /-- RELEASE_READY: A held release takes effect once the earlier loads have returned and stores are performed, and its arrival, signal, spawn or program is sent. (R73) -/
  | releaseReady (id : Nat)
  /-- REDUCTION_MERGE: A reduction arriving at a Plinth write queue opens, merges into or closes an entry, or is held while the oldest entry closes. (R59) -/
  | reductionMerge (id : Nat)
  /-- WRITE_QUEUE_APPLY: A closed write-queue entry is applied to the array and held reductions proceed. (R59) -/
  | writeQueueApply (port : Nat)
  /-- PLINTH_COMMAND: A bgath or bcvt arrives at the owner die and is divided by granule among its Plinth engines. (R58) -/
  | plinthCommand (id : Nat)
  /-- PLINTH_PART_COMPLETE: One part of a bgath or bcvt completes; the command completes when all parts have. (R58) -/
  | plinthPartComplete (id stack : Nat)
  /-- FR_TAKE: A read of FR_TAKE pops one frame from the free ring atomically, or returns all ones when empty. (R60) -/
  | frTake (eng : Nat)
  /-- FR_PUT: A write to FR_PUT pushes one frame, or is discarded and counted in LOST when the ring is full. (R60) -/
  | frPut (eng : Nat) (frame : Word)
  /-- DEMOTE_STEP: An enabled demotion engine below its low watermark visits one candidate, clearing AC, ageing or starting a demotion. (R61) -/
  | demoteStep (eng : Nat)
  /-- DEMOTE_COPY_DONE: A page copy to the lower tier completes; the leaf is rewritten, invalidated, the old frame freed and DEMOTED posted. (R61) -/
  | demoteCopyDone (eng : Nat)
  /-- PORT_ATOMIC: An atom or cas is performed indivisibly at the port that owns the word, closing any open write-queue entry first. (R97) -/
  | portAtomic (id : Nat)
  /-- RANGE_NEXT_PERFORM: A range.next request is performed indivisibly at the port and returns the first index and count. (R99) -/
  | rangeNextPerform (id : Nat)
  /-- MERGE_OPEN_ENTRY: An open arrives at the entry Caliper of its die and is passed to the domain's leader, or refused with kind 0x15. (R105) -/
  | mergeOpenEntry (id : Nat)
  /-- MERGE_OPEN_LEADER: The leader numbers a received open and forwards it in that order to every member. (R105) -/
  | mergeOpenLeader (id : Nat)
  /-- CALIPER_OPEN: A member handles a forwarded open: it reserves rows and a slot, discards an older generation, holds it, or refuses it. (R116) -/
  | caliperOpen (id : Nat)
  /-- MERGE_OPEN_ACK: The core receives every member's acknowledgement of an open and releases the group's held pushes. (R105) -/
  | mergeOpenAck (id : Nat)
  /-- CALIPER_PUSH: A push arriving at its row's home Caliper is added into a staging row, or refused with kind 0x14 or 0x15. (R106) -/
  | caliperPush (id : Nat)
  /-- CLOSE_MARKER_SEND: Once all of a group's pushes are acknowledged, the core sends close markers to every member; this is the commit point. (R107) -/
  | closeMarkerSend (id : Nat)
  /-- CALIPER_CLOSE: A member receiving a close marker seals the slot and sends its partial sum of squares to the leader. (R112) -/
  | caliperClose (id : Nat)
  /-- LEADER_PARTIAL: The leader receives a partial; with all partials held it computes norm, factor and sequence number and sends them to the members. (R112) -/
  | leaderPartial (id : Nat)
  /-- CALIPER_APPLY: A member applies commit n once commit n-1 is applied, scaling its staged rows into the total, then frees the slot and acknowledges. (R113) -/
  | caliperApply (cal dom : Nat)
  /-- LEADER_COMMIT_ACK: When every member has acknowledged commit n, the leader writes the log record and then the commit sequence word. (R114) -/
  | leaderCommitAck (id : Nat)
  /-- ABORT_MARKER_ENTRY: A terminated activation's abort marker reaches its die's entry Caliper and is passed to the leader. (R110) -/
  | abortMarkerEntry (id : Nat)
  /-- ABORT_MARKER_LEADER: The leader forwards an abort marker to every member after the group's open and posts a merge-aborted event. (R110) -/
  | abortMarkerLeader (id : Nat)
  /-- CALIPER_ABORT: A member receiving an abort marker frees the group's slot, rows and reservation. (R110) -/
  | caliperAbort (id : Nat)
  /-- BIM_DISC: A write to BIM_DISC frees an unsealed slot whose domain and ID match exactly. (R118) -/
  | bimDisc (cal : Nat) (v : Word)
  /-- BIM_CTL_WRITE: A write to a domain entry's BIM_CTL is ignored for locked fields while V is set; setting V clears SEQ and zeroes the sequence word. (R120) -/
  | bimCtlWrite (cal dom off : Nat) (v : Word)
  /-- BIM_LIM_WRITE: A write of L is ignored when it is NaN or negative, otherwise it applies to groups measured afterwards. (R120) -/
  | bimLimWrite (cal dom : Nat) (v : Word)
  /-- OSQ_SUBMIT: The order sequencer accepts a submission into the current batch, or holds it at a limit. (R123) -/
  | osqSubmit (id : Nat)
  /-- BEAT_END: A beat ends; the sequencer sends its batch to every member and applies any pending OSQ_CTL write. (R126) -/
  | beatEnd (die : Nat)
  /-- BATCH_RECEIVE: A sequencer receives another member's batch for a beat. (R126) -/
  | batchReceive (id : Nat)
  /-- BATCH_MERGE: With every member's batch held, the sequencer merges them into the global order and enqueues its die's entries. (R127) -/
  | batchMerge (die : Nat)
  /-- HOME_GRANT: The home receives a grant; with all grants held the body is placed in the home cluster queue. (R130) -/
  | homeGrant (id : Nat)
  /-- TXN_RELEASE_SEND: After a transaction's writes are performed, release messages go to every slice queue holding its entries. (R137) -/
  | txnReleaseSend (id : Nat)
  /-- SLICE_RELEASE: A slice queue receives a release message, removes the entry and resumes held enqueues and grants. (R137) -/
  | sliceRelease (id : Nat)
  /-- TXN_TIME_LIMIT: A transactional activation's cycle count passes 2^20 and it is terminated with kind 0x17. (R134) -/
  | txnTimeLimit (ctx : Nat)
  /-- OSQ_STALL: A member's batch is missing at the end of beat b+8; the sequencer sets STALL, posts an event and stops merging. (R138) -/
  | osqStall (die : Nat)
  /-- OSQ_CTL_WRITE: A write to OSQ_CTL is held to the next beat, ignored for membership fields while EN is set; setting EN clears STALL. (R139) -/
  | osqCtlWrite (die off : Nat) (v : Word)
  /-- TASK_TAKE: A core with a free context takes the first task of its cluster queue whose needs it meets and launches it. (R150) -/
  | taskTake (clus : Nat)
  /-- GANG_LAUNCH: When every core of a gang is reserved, all members begin in the same cycle. (R155) -/
  | gangLaunch (gid : Nat)
  /-- SPLIT_DESCRIPTOR_READ: The launch unit's read of a split gang's descriptor returns; extents are set, or the task is dropped or put in fault-wait. (R157) -/
  | splitDescriptorRead (gid : Nat)
  /-- DONE_COMPLETE: A done whose paths have completed sends the join arrival and frees the activation's context, tiles and allocation. (R151) -/
  | doneComplete (ctx : Nat)
  /-- GANG_JOIN: When every gang member has completed its paths, the launch unit sends the gang's one join arrival. (R158) -/
  | gangJoin (gid : Nat)
  /-- CLS_INV: A write to CLS_INV invalidates cached class entries and routine-store lines of the named classes on every core of the die. (R148) -/
  | clsInv (die : Nat) (v : Word)
  /-- CLS_INV_COMPLETE: No core can use an invalidated class copy any longer, and CLS_STAT.DONE increments. (R148) -/
  | clsInvComplete (die : Nat)
  /-- ARRIVAL: A core's entry port applies an arrival to a waiting-task entry: held, counted in WTT_OVF, decremented, or firing. (R160) -/
  | arrival (id : Nat)
  /-- WTT_FIRE_READ: A firing's read returns; the entry spawns the template, re-arms or disarms, applies held arrivals, or enters FAULT. (R161) -/
  | wttFireRead (core ent : Nat)
  /-- WTT_RETRY: A write to WTT_RETRY resumes a faulted firing at its recorded step, or disarms the entry when DIS is set. (R163) -/
  | wttRetry (core : Nat) (v : Word)
  /-- ETH_FRAME_RECEIVE: A received Ethernet frame is dropped for FCS or length, or dispatched to steering, RDMA or a receive ring. (R413) -/
  | ethFrameReceive (pkg port : Nat) (frame : List Byte) (fcsOk : Bool)
  /-- STEER_PACKET: The steering engine writes a launch packet into its rule's inbox slot and sends the arrival, or drops it. (R166) -/
  | steerPacket (pkg : Nat)
  /-- STR_CTL_WRITE: A write setting V in STR_CTL is ignored for bad slot geometry, otherwise it sets the written count W to 0. (R165) -/
  | strCtlWrite (pkg rule : Nat) (v : Word)
  /-- RELIEF_TICK: Every 16 ns each router samples pressure, computes and publishes its distance, and handles the tasks present. (R170) -/
  | reliefTick (pkg : Nat)
  /-- LINK_SILENCE: Nothing has been received from a link's peer for 4 ticks and the link becomes unreachable. (R170) -/
  | linkSilence (clus port : Nat)
  /-- RLF_FENCE_WRITE: A write to RLF_FENCE fences clusters, whose queued tasks are put in transit for eviction. (R177) -/
  | rlfFenceWrite (die : Nat) (v : Word)
  /-- DIE_FAILURE: A die stops answering on its links and sideband; neighbours treat it as unreachable and Patina records it failed. (R178) -/
  | dieFailure (die : Nat)
  /-- FLT_PAGE: A write to FLT_PAGE releases every fault-wait task, parked activation and held barrier arrival of the die whose faulting VA lies in the region. (R191) -/
  | fltPage (die : Nat) (v : Word)
  /-- FLT_CTX_RESUME: FLT_CTX with OP 0 resumes the named context's replay list. (R191) -/
  | fltCtxResume (die : Nat) (v : Word)
  /-- FLT_CTX_TERMINATE: FLT_CTX with OP 1 terminates the activation of the named context. (R191) -/
  | fltCtxTerminate (die : Nat) (v : Word)
  /-- FLT_CTX_NOP: FLT_CTX with OP 2 or 3 has no effect. (R191) -/
  | fltCtxNop (die : Nat) (v : Word)
  /-- EVENT_BUFFER_SEND: The overflow buffer sends its oldest record to the event queue when the queue has room. (R195) -/
  | eventBufferSend (die : Nat)
  /-- EVQ_HEAD_WRITE: The supervisor writes HEAD, freeing queue room and updating the event interrupt. (R194) -/
  | evqHeadWrite (pkg : Nat) (v : Word)
  /-- EVO_STAT_CLR: Writing CLR sets LOST to 0 and deasserts the sideband interrupt. (R195) -/
  | evoStatClr (die : Nat)
  /-- PRE_CTL_REQ: Setting REQ bits requests pre-emption of hardware contexts. (R197) -/
  | preCtlReq (core : Nat) (bits : BitVec 8)
  /-- SUSPEND: A stopped activation with empty operation slots is written to a free suspend slot and its context freed. (R197) -/
  | suspend (ctx : Nat)
  /-- PREEMPT_BOUND: 65 536 cycles after a request an idempotent activation that has not stopped is aborted and re-queued. (R198) -/
  | preemptBound (ctx : Nat)
  /-- PRE_CTL_RES: Setting RES bit j requests resumption of suspend slot j, or sets ERR if PARTW or CORE_ASID differ. (R200) -/
  | preCtlRes (core : Nat) (bits : BitVec 8)
  /-- SUSPEND_RESUME: With a free context and free rows, a suspend slot's rows and context are restored and its cost added. (R200) -/
  | suspendResume (core slot ctx : Nat)
  /-- PRE_CTL_DISC: Setting DISC bit j terminates the suspended activation without restoring it. (R200) -/
  | preCtlDisc (core : Nat) (bits : BitVec 8)
  /-- MIG_CMD: A write to MIG_CMD queues a move of a parked activation, or refuses it and posts event 0x12. (R201) -/
  | migCmd (core : Nat) (v : Word)
  /-- MIGRATION_SEND: When only plain loads remain outstanding, the core sends the register-context message and keeps a forwarding entry. (R202) -/
  | migrationSend (ctx : Nat)
  /-- MIGRATION_INSTALL: The target core installs a migrated activation as parked and its cost moves to the new cluster. (R202) -/
  | migrationInstall (id : Nat)
  /-- FORWARD_EXPIRE: A forwarding entry expires after 4096 cycles. (R202) -/
  | forwardExpire (core : Nat)
  /-- REPLY_DROPPED: A reply arriving after forwarding expired is dropped, counted, and the activation takes a reply-lost fault 0x18. (R202) -/
  | replyDropped (id : Nat)
  /-- ROUTINE_LINE_FILL: A routine-store line fetch returns, or faults and marks the class not loaded on the die. (R203) -/
  | routineLineFill (id : Nat)
  /-- XS_WINDOW_END: The cycle count crosses a window boundary and CNT returns to 0. (R226) -/
  | xsWindowEnd (core k : Nat)
  /-- XS_CFG_WRITE: A write to XS_CFGk sets its configuration and clears CNT. (R226) -/
  | xsCfgWrite (core k : Nat) (v : Word)
  /-- SIGNAL_APPLY: A core applies a signal to a semaphore, saturating, or discards it for another address space. (R232) -/
  | signalApply (id : Nat)
  /-- BARRIER_ARRIVE: A barrier unit counts an arrival, holds it, sends one upward, or flips the object. (R235) -/
  | barrierArrive (id : Nat)
  /-- BARRIER_WAIT_REQUEST: A barrier unit reads PHASE for a bar.wait and records the waiting pair in one action. (R336) -/
  | barrierWaitRequest (id : Nat)
  /-- BARRIER_FLIP_RECEIVE: A child object receives a flip and flips in turn. (R235) -/
  | barrierFlipReceive (id : Nat)
  /-- BARRIER_WAKE: A flip reaches a core and its waiting activation becomes ready. (R236) -/
  | barrierWake (id : Nat)
  /-- BARRIER_POLL: A core with an unrecorded waiter rereads PHASE every 1024 cycles. (R236) -/
  | barrierPoll (ctx : Nat)
  /-- BIM_WAIT_POLL: A parked bim.wait rereads its word every 1024 cycles. (R396) -/
  | bimWaitPoll (ctx : Nat)
  /-- COLL_PROGRAM_START: A ring sequencer starts the next queued collective program and reads its header. (R238) -/
  | collProgramStart (seq : Nat)
  /-- COLL_CHUNK_RECEIVE: A chunk from a peer is matched to the next receiving step and written, combined or forwarded. (R240) -/
  | collChunkReceive (seq : Nat)
  /-- COLL_PROGRAM_END: After its writes are performed a program signals −1 to every core of CMASK. (R242) -/
  | collProgramEnd (seq : Nat)
  /-- COLL_STEP_TIMEOUT: A step waits longer than TMO and the program ends early with ERR set. (R242) -/
  | collStepTimeout (seq : Nat)
  /-- COLL_STAT_ERR_CLEAR: Writing 1 to ERR clears it so queued programs may run. (R243) -/
  | collStatErrClear (seq : Nat)
  /-- BULK_DROP_NOTICE: A dropped bulk packet's notice makes the source reserve and resend it. (R230) -/
  | bulkDropNotice (id : Nat)
  /-- TOPK_LIST: A die's top-k tree receives a list and merges it, passing its result to the root die. (R246) -/
  | topkList (id : Nat)
  /-- TOPK_ROOT_MERGE: The root completes a token's merge, writes the result, increments routing counters and sends the join arrival. (R247) -/
  | topkRootMerge (die group : Nat) (token : BitVec 32)
  /-- TK_CTL_WRITE: A write to TK_CTL sets the tree; clearing EN discards every open merge. (R247) -/
  | tkCtlWrite (die : Nat) (v : Word)
  /-- CTR_SNAP_TABLE: A routing table copies its 256 counters and clears them as one action, then writes them out. (R248) -/
  | ctrSnapTable (id : Nat)
  /-- SLOT_CLAIM_PERFORM: A pool unit performs a claim from partitions, free pool, steals, replicas or overflow. (R250) -/
  | slotClaimPerform (id : Nat)
  /-- SLOT_RET_PERFORM: A pool unit performs a slot return, freeing the slot or entering it into its expert's open buffer. (R251) -/
  | slotRetPerform (id : Nat)
  /-- BUFFER_SEAL: An open buffer with BSLOTS filled slots, or past TSEAL, and a free record seals and spawns its expert task. (R252) -/
  | bufferSeal (hdr expert : Nat)
  /-- MATRIX_COMMAND_START: The matrix unit takes the next command of its queue. (R371) -/
  | matrixCommandStart (core : Nat)
  /-- MATRIX_COMMAND_COMPLETE: A matrix command completes and delivers its arithmetic events. (R371) -/
  | matrixCommandComplete (core : Nat)
  /-- LATCH_MOVE_IN: An operand in an incoming buffer moves into an empty latch. (R375) -/
  | latchMoveIn (core tile : Nat)
  /-- LU_LAUNCH: A write to LU_LAUNCH reads a task descriptor and places the task as a spawn from cluster 0. (R405) -/
  | luLaunch (die : Nat) (v : Word)
  /-- PART_MODE_WRITE: A write of a new MODE sets PEND and AFF and fences the affected dies. (R407) -/
  | partModeWrite (pkg : Nat) (v : Word)
  /-- PART_MODE_COMPLETE: When affected dies hold no activation and their sequencers are idle, the mode changes and fences lift. (R407) -/
  | partModeComplete (pkg : Nat)
  /-- BOOT_RELEASE: On release from reset the boot ROM reads the image from PCIe port 0. (R408) -/
  | bootRelease (pkg : Nat) (image : List Byte)
  /-- BOOT_VERIFY: The local image's signature is judged and the management core started or a network fetch begun. (R408) -/
  | bootVerify (pkg : Nat) (valid : Bool)
  /-- BOOT_FETCH_VERIFY: A fetched image is verified and written back, or a Patina record is made. (R408) -/
  | bootFetchVerify (pkg : Nat) (image : List Byte) (valid : Bool)
  /-- BOOT_RETRY: After 10 s a failed boot retries from local verification. (R408) -/
  | bootRetry (pkg : Nat) (image : List Byte)
  /-- ATTESTATION: An attestation request is answered with a signed report. (R409) -/
  | attestation (pkg : Nat) (nonce : BitVec 256)
  /-- POWER_UNIT_TRANSFER: Dies lend and borrow power budget units over the sideband and lower their clocks when over budget. (R410) -/
  | powerUnitTransfer (pkg src dst units : Nat) (draws : List Nat)
  /-- POWER_RECLAIM: 1 ms after a die stops answering the management core gives its units to its neighbours. (R410) -/
  | powerReclaim (die : Nat)
  /-- PWR_GUARD_WRITE: A write of GUARD above UNITS is ignored. (R410) -/
  | pwrGuardWrite (pkg : Nat) (v : Word)
  /-- SENSOR_CROSSING: A temperature, droop or process monitor crossing is reported to the management core and Patina. (R411) -/
  | sensorCrossing (clus : Nat) (droop : Bool) (detail : Word)
  /-- WATCHDOG_EXPIRE: The management core's watchdog expires, a fatal error. (R411) -/
  | watchdogExpire (pkg : Nat)
  /-- SCRUB: Each Plinth die scrubs its stack once every 24 hours. (R412) -/
  | scrub (die stack : Nat) (corrected : List Word)
  /-- ECC_ERROR: An ECC error is detected and posted as a soft-error event. (R412) -/
  | eccError (die : Nat) (kind : BitVec 3) (unc : Bool) (place : Word) (uid : Nat)
  /-- ETH_TX_TAIL: A write to TX_TAILk lets the port transmit posted descriptors. (R415) -/
  | ethTxTail (pkg port ring : Nat) (v : Word)
  /-- ETH_TRANSMIT: The port reads a transmit descriptor's fragment, sends the frame and writes back DONE or ERR. (R415) -/
  | ethTransmit (pkg port ring : Nat)
  /-- ETH_RX_TAIL: A write to RX_TAILk posts receive buffers. (R415) -/
  | ethRxTail (pkg port ring : Nat) (v : Word)
  /-- ROCE_PACKET: The RDMA engine handles a received RoCE v2 packet for a queue pair. (R416) -/
  | rocePacket (pkg : Nat) (p : RocePacket)
  /-- RDMA_CNP: A congestion notification lowers the pair's send rate. (R416) -/
  | rdmaCnp (pkg qpn : Nat)
  /-- RDMA_RATE_RECOVER: After 50 µs without notification the pair's rate rises by STEP. (R416) -/
  | rdmaRateRecover (pkg qpn : Nat)
  /-- RDMA_RETRANSMIT_TIMEOUT: A reliable pair's retransmission timeout expires and it retransmits or enters the error state. (R417) -/
  | rdmaRetransmitTimeout (pkg qpn : Nat)
  /-- RDMA_DOORBELL: A write to RDMA_DB posts work requests to a queue. (R418) -/
  | rdmaDoorbell (pkg : Nat) (v : Word)
  /-- RDMA_DBW_POLL: The engine reads a pair's doorbell word every POLLI × 1024 cycles as an acquire. (R418) -/
  | rdmaDbwPoll (pkg qpn : Nat)
  /-- RDMA_COMPLETION: After an operation's writes are performed the engine writes a completion, sends its arrival and interrupt. (R418) -/
  | rdmaCompletion (pkg qpn : Nat)
  /-- PCIE_DEVICE_REQUEST: A device memory request is delivered as an interrupt or translated through the RID table. (R420) -/
  | pcieDeviceRequest (pkg rid : Nat) (write : Bool) (addr : Word) (n : Nat) (data : List Byte)
  /-- INTERRUPT_WRITE: A 4-byte write to an interrupt file sets an identity pending. (R422) -/
  | interruptWrite (pkg : Nat) (addr : Word) (v : BitVec 32)
  /-- REGISTER_WRITE: A write to a device register without behaviour of its own stores its RW fields or clears its W1C bits. (R4) -/
  | registerWrite (pkg off : Nat) (v : Word)
  /-- LAUNCH_DESCRIPTOR_READ: The launch unit's LOAD of the descriptor named by LU_LAUNCH returns or faults, and the task is checked and placed as a spawn from cluster 0, or a launch-fault event is posted. (R405) -/
  | launchDescriptorRead (die : Nat)
  /-- WARM_RESET: A warm reset puts the package back into reset while Patina's ring and PAT_HEAD survive. (R411) -/
  | warmReset (pkg : Nat)
  /-- POWER_CYCLE: Loss and return of supply resets the package and discards Patina's ring. (R411) -/
  | powerCycle (pkg : Nat)
  /-- PCIE_LINK_TRAINING: A PCIe port's links train, at which point the RC_CFG split of that port takes effect and the links settle at a rate and width. (R419) -/
  | pcieLinkTraining (pkg port : Nat) (rate width : Nat)
  /-- NOP: No operation. (R313) -/
  | nop
  /-- DONE: Ends the activation by R151. (R312) -/
  | done
  /-- BRK_16: 16-bit breakpoint, brk 0. (R319) -/
  | brk16
  /-- RET: 16-bit return, jalr s0, s31, 0. (R307) -/
  | ret
  /-- EGO: Queue the shadow set as a copy command. (R389) -/
  | ego
  /-- BCVT: Conversion performed at the source's Plinth dies. (R391) -/
  | bcvt
  /-- BIM_CLOSE: Close the open merge group. (R395) -/
  | bimClose
  /-- OFT_REL: End the current transaction. (R397) -/
  | oftRel
  deriving DecidableEq, Repr

end Sys2Proof
end

