-- ==== Sys2Proof/Machine/State.lean ====
section
/-! DEFINITION. The state of the machine: every piece of state the spec names, for every package of the system, as
plain data. A collection indexed by a unit (a core, a die, a Caliper) is a sparse list of (key, record) pairs in
ascending key order; a key that is not listed stands for the record a unit has after reset. Keys:
die = package * 16 + die (8 is the I/O die); core = (package * 8 + die) * 256 + core; context = core * 8 + h;
cluster = package * 128 + die * 16 + cluster; Caliper = package * 24 + 3 * die + stack;
ring sequencer = (package * 8 + die) * 2 + port. -/
namespace Sys2Proof.Machine

/-- A sparse table in ascending key order. -/
abbrev SMap (α : Type) := List (Nat × α)

/-- The memory of the whole system (R24, R36, R57): the bytes that differ from what an unlisted address reads as, in
strictly rising address order, and the 512-byte rows whose contents are undefined with the epoch in which they became
so. Addresses carry a region number above bit 56. -/
structure Memory where
  cells  : List Host.Cell
  undef  : SMap Nat
  deriving DecidableEq, Repr

/-- Access kinds: the ACC codes 0 to 8 of a fault record (R31). -/
inductive Acc where
  | load | store | atom | cas | red | fetch | erd | ewr | mobj
  deriving DecidableEq, Repr

/-- A fault record (R31). -/
structure FRec where
  rsys : Nat
  nc   : Bool
  txn  : Bool
  rctx : Nat
  rcore : Nat
  rdie : Nat
  asid : Nat
  gen  : Nat
  lvl  : Nat
  acc  : Nat
  kind : Nat
  va   : Nat
  entry : Word
  seq  : Nat
  deriving DecidableEq, Repr

/-- An event record (R193): word 0 as fields, then words 1 to 4 (FREC), 5, 6 (DETAIL) and 7 (TIME). -/
structure Event where
  kind  : Nat
  count : Nat
  sys   : Nat
  iod   : Bool
  die   : Nat
  frec  : Bool
  w1 : Word
  w2 : Word
  w3 : Word
  w4 : Word
  w5 : Word
  w6 : Word
  w7 : Word
  deriving DecidableEq, Repr

/-- Who makes a request (R9, R31): package, die (8: the I/O die), core, context, and the agent code of an agent with no
activation behind it. -/
structure Src where
  pkg  : Nat
  die  : Nat
  core : Nat
  ctx  : Nat
  agent : Option Nat
  deriving DecidableEq, Repr

/-- A memory request as its owner sees it (R9). -/
structure Req where
  acc  : Acc
  va   : Nat
  n    : Nat
  asid : Nat
  gen  : Nat
  src  : Src
  txn  : Option Word
  deriving DecidableEq, Repr

/-- A merge group as bim.open names it (R103): domain, contributor, group, generation. -/
structure GroupId where
  dom : Nat
  contrib : Nat
  group : Nat
  gen : Nat
  deriving DecidableEq, Repr

/-- An arrival on its way (R143, R160): target core and entry, amount, address space. -/
structure Arrive where
  target : Word
  amount : Nat
  asid : Nat
  gen : Nat
  deriving DecidableEq, Repr

/-- A task (R142) with what the hardware keeps for it: its eight words, its address space, its replay count, the
transaction it is the body of, COST of its class, its spawning package, its home cluster and pull weight (R172). -/
structure Task where
  words : List Word
  asid : Nat
  gen  : Nat
  rc   : Nat
  txn  : Option Word
  cost : Nat
  pkg  : Nat
  home : Nat
  w    : Nat
  body : Bool := false     -- the body of a transaction, also once the transaction has ended (R144)
  deriving DecidableEq, Repr

/-- A submission of a batch: transaction id, descriptor, tiles, ASID, generation. -/
structure Sub where
  tid : Word
  desc : List Word
  tiles : List (Nat × Bool)
  asid : Nat
  gen : Nat
  deriving DecidableEq, Repr

/-- What a request or message does where it is performed. -/
inductive Pay where
  | load
  | fetch
  | prf
  | store (bs : List Byte)
  | atom (op size : Nat) (v : Word)
  | cas (size : Nat) (e v : Word)
  | red (op size : Nat) (v : Word)
  | range
  | dec
  | barArrive (child : Option Nat) (childVa : Nat)
  | barWait (p : Word)
  | claim (expert sender : Nat)
  | slotRet (slot n : Nat)
  | push (row : List Byte) (g : GroupId)
  /-- an arrival to a waiting-task entry -/
  | arrival (a : Arrive)
  /-- a signal to a semaphore of a core (R232) -/
  | signal (core k : Nat) (amount : Int) (asid gen : Nat)
  /-- a spawn whose release is awaited (R341): the task, and the spawning cluster -/
  | spawn (t : Task) (clus : Nat)
  /-- a collective program on its way to a ring sequencer (R238) -/
  | coll (seq hdr asid gen : Nat)
  /-- a submission to the die's order sequencer (R123): descriptor words, tiles with W flags -/
  | oftSub (die : Nat) (desc : List Word) (tiles : List (Nat × Bool))
  /-- an open on its way to the entry Caliper, the leader, a member, and a member's answer, with the operation (R105) -/
  | mopen (g : GroupId) (rows die : Nat)
  | mopenLead (g : GroupId) (rows leader op : Nat)
  | mopenMem (g : GroupId) (rows cal op : Nat)
  | mopenAck (g : GroupId) (cal op : Nat)
  /-- bim.close waiting for its pushes (R107), and its close marker at a member -/
  | mclose (g : GroupId)
  | mcloseMem (g : GroupId) (cal : Nat)
  /-- a member's partial for the leader (R112): sum of squares as f64 bits, staged rows, REPLAYED -/
  | mpart (g : GroupId) (leader cal : Nat) (sum : Word) (rows : Nat) (replayed : Bool)
  /-- a member's acknowledgement of commit n for the leader (R113) -/
  | mack (dom n leader cal : Nat)
  /-- an abort marker at the entry Caliper, the leader, a member (R110) -/
  | mabort (g : GroupId) (die : Nat)
  | mabortLead (g : GroupId) (leader : Nat)
  | mabortMem (g : GroupId) (cal : Nat)
  /-- a batch for another member of a transaction domain (R126): receiver die, beat, sender -/
  | batch (die beat sender : Nat) (subs : List Sub)
  /-- a grant for the home of a transaction (R129) -/
  | grant (home : Nat) (tid : Word)
  /-- the end of a transaction: releases wait for its writes (R137), then a release for one die -/
  | txnEnd (tid : Word) (dies : List Nat) (home : Nat)
  | release (die : Nat) (tid : Word) (home : Nat)
  /-- a flip for a child barrier object, or for a waiting core (R235) -/
  | flip (obj : Nat)
  | wake (uid obj : Nat) (phase : Word)
  /-- a bgath or bcvt (R391) with the parts still to be done -/
  | plinth (gather : Bool) (shadow : List Word) (list : Nat) (parts : List Nat)
  /-- an engine command of the copy engine or the matrix unit as an operation of its activation -/
  | command
  /-- a top-k list for a die's tree, or a tree's list for the root (R245, R246) -/
  | topk (die group : Nat) (token : Nat) (core : Nat) (entries : List Word)
  | topkRoot (die group : Nat) (token : Nat) (src : Nat) (entries : List Word)
  /-- a snapshot of a routing table (R248) -/
  | snap (die table : Nat)
  /-- a chunk between ring sequencers (R240): receiver, sender, order number, wire type and bytes -/
  | chunk (dst src : Nat) (num : Nat) (data : List Byte)
  /-- a register-context message (R202): target context -/
  | migrate (uid core : Nat)
  deriving DecidableEq, Repr

/-- Where the result of a request goes. -/
inductive Dst where
  | none
  /-- scalar register: bytes read, sign-extended or not -/
  | sreg (d bytes : Nat) (sx : Bool)
  | sreg2 (d b : Nat)
  /-- the row of the vector window that v named at issue, under VWB -/
  | vrow (v : Nat) (vwb : Word)
  | vlane (v lane w : Nat) (vwb : Word)
  | dreg (k : Nat)
  /-- the descriptor or record read by spawn, spawng, wtt.arm, oft.sub; bim.wait's word; a routine line -/
  | spawn (gang home : Bool) (bytes : Word)
  | wttArm (ent : Nat)
  | oftSub (d : Nat)
  | bimWait (d : Nat) (target : Word)
  | line (cls off : Nat)
  /-- bar.wait: the phase register -/
  | phase (d : Nat)
  deriving DecidableEq, Repr

/-- How far an operation has come (R26, R69, R186). -/
inductive Stage where
  /-- at the core, unsent -/
  | held
  /-- a release that waits at the core until R73 holds at this scope -/
  | relWait (scope : Nat)
  /-- on its way to the owner's translation unit, or a message on its way to its unit -/
  | sent
  /-- waiting on a page walk (R11) -/
  | walking
  /-- translated: performed at this location; the aperture and the leaf are kept for R34 -/
  | port (loc : Nat) (len : Nat) (aper : Nat) (leaf : Word)
  /-- forwarded to a peer die at this frame address (R25) -/
  | fwd (die : Nat) (pa : Nat) (len : Nat) (leaf : Word)
  /-- performed: the reply with its data is on its way -/
  | reply (bs : List Byte)
  /-- performed: the acknowledgement is on its way -/
  | ack
  /-- refused: the NACK is on its way -/
  | nack (r : FRec)
  /-- NACKed and on the replay list of its parked activation (R189) -/
  | replay
  /-- held at the barrier unit for the next phase (R235), at a pool port (R47), at a pool or queue limit -/
  | waiting
  deriving DecidableEq, Repr

/-- The place of an activation in its gang (R156). -/
structure Place where
  gang : Option Nat
  gx : Nat
  gy : Nat
  gw : Nat
  deriving DecidableEq, Repr

/-- Where a matrix step takes an operand (R374): a descriptor, a ring by its handle as it was read, the latch. -/
inductive OpSrc where
  | desc (d : DReg)
  | ring (h : Word)
  | lat
  deriving DecidableEq, Repr

/-- A command of the matrix unit's queue (R371) with the operands read in program order. -/
structure MatrixCmd where
  id   : Nat
  uid  : Nat
  word : Nat               -- the instruction word
  rnd  : Nat
  sat  : Bool
  tile : Nat               -- partition tile
  name : Nat               -- its name in the activation
  etype : Nat              -- element type of mld
  a    : List Nat          -- operand elements A, of mld the latch elements, of msc the scale bytes
  b    : List Nat
  scale : Word             -- F[fs]
  org  : Word              -- S[so]
  desc : DReg
  tx   : Nat               -- clip extents
  ty   : Nat
  asid : Nat
  gen  : Nat
  cls  : Nat
  chain : Option (Nat × List Nat)  -- the copy it follows (R390): its operation and the slots that return with it
  started : Bool
  place : Place            -- the place in its gang of the activation that issued it (R375)
  deriving DecidableEq, Repr

/-- What an operation of the core, held for an earlier one, still has to read in its own pool before it leaves (R328, R344, R394): the payload of a
send, with its types, the row of a push, the entries of a list, or the operands of a matrix command, which enters the queue with them: its
sources, and the address of scales. -/
inductive Late where
  | send (src len : Nat) (typed : Bool) (lt wt : Nat)
  | push (p : Nat)
  | list (p : Nat)
  | matrix (m : MatrixCmd) (a b : OpSrc) (p n : Nat)
  deriving DecidableEq, Repr

/-- An operation or message in flight. Ids rise in issue order. -/
structure Flight where
  id    : Nat
  uid   : Nat              -- the activation whose operation it is; 0: none
  pc    : Nat              -- address of the instruction that issued it
  path  : Option Nat       -- access path (R51)
  slot  : Bool             -- holds an operation slot (R186)
  stage : Stage
  req   : Req
  pay   : Pay
  dst   : Dst
  unit  : Nat              -- die whose translation unit takes it
  gang  : Option Nat       -- gang-core access, or one of the own pool: the target core; req.va is then an own-pool address
  done  : Nat              -- bytes performed of a split access (R26)
  got   : List Byte        -- bytes read so far
  wire  : Option (Nat × List Nat)   -- send with a wire type (R228): element bytes, and the receiver's events by element
  after : Option (Arrive × Nat) -- send: arrival once performed, and its scope (R83)
  acq   : Bool := false    -- an acquire: nothing later of the activation is performed before its reply (R74)
  cls   : Nat := 0         -- CLASS of the activation that issued it (R227, R386)
  faulted : Bool := false  -- it was refused: until it is performed after its replay, fences and releases wait (R88)
  faultVa : Nat := 0       -- the VA of its last fault record (R191, R430)
  holds : List Nat := []   -- operations of its activation that it waits for at the core (R70, R328, R350)
  late  : Option Late := none   -- what it has still to read in the own pool
  sentNo : Nat := 0        -- its place in the order in which its source sent its messages (R87, R232); 0: that of its id
  deriving DecidableEq, Repr

/-- The entry of a class table (R147) as an activation launched with it. -/
structure ClassEntry where
  img   : Nat
  len   : Nat
  entry : Nat
  ytab  : Nat
  valid : Bool
  idem  : Bool
  res   : Bool
  ofc   : Bool
  split : Bool
  xtrap : Bool
  rscope : Nat
  sslots : Nat
  nacc  : Nat
  cost  : Nat
  regions : List (Nat × Nat)     -- (first row, rows)
  deriving DecidableEq, Repr

/-- The register block of a context (R40, R254, R308). -/
structure Regs where
  s : Vector Word 32
  f : Vector Word 16
  m : Vector MReg 8
  d : Vector DReg 8
  c : Vector Word 8
  pc  : Word
  vwb : Word
  fcr : Word
  lend   : BitVec 32
  lstart : BitVec 32
  lcnt   : Word
  deriving DecidableEq, Repr

/-- What an activation waits for (R185, R48, R186, R320). A parked activation waits in one of the parking cases. -/
inductive Wait where
  | run
  /-- until none of these operations is pending; parked by R185 case 1 when the flag is set -/
  | flights (ids : List Nat) (parks : Bool)
  /-- an operation slot is free (R186) -/
  | opSlots
  /-- a pool slot has returned or is thread-owned (R47, R48) -/
  | poolSlot (slot : Nat) (parks : Bool)
  | ownTake (slot : Nat)
  | ownGive (slot : Nat)
  | cb (room : Bool) (h n : Nat)
  | sem (k : Nat)
  | drain (p : Nat)
  | fence (s : Nat)
  | oftRel
  | done
  /-- a read by spawn, spawng, wtt.arm, oft.sub, or an oft.sub at its sequencer's limit -/
  | read (id : Nat)
  /-- bar.wait: request, object location, phase, scope, polling, time of the last read, rd, address -/
  | barrier (id obj : Nat) (p : Word) (scope : Nat) (polls : Bool) (since : Nat) (d ad : Nat)
  /-- bim.wait: read, time of the last read, address, rd, target -/
  | bimWait (id : Nat) (since ad d : Nat) (target : Word)
  /-- a queue has room: the matrix unit's, the copy engine's, a ring sequencer's, a tree's -/
  | matrixRoom
  | copyRoom
  | chain (tile : Nat)
  /-- until a ring holds n filled, thread-owned slots; the activation does not park (R374) -/
  | ring (h n : Nat)
  | collRoom (seq : Nat)
  | topkRoom (die group token : Nat)
  | wttFiring (ent : Nat)
  /-- a routine line (R203) -/
  | line (id : Nat)
  /-- parked on a fault (R189, R136): the faulting address, and whether a release has come -/
  | fault (va : Nat) (released : Bool)
  /-- a released replay list: until none of these is unsent (R189) -/
  | sending (ids : List Nat)
  /-- yield n (R320): until this cycle, or until these contexts have issued -/
  | yield (till : Nat) (others : List Nat)
  deriving DecidableEq, Repr

/-- State of an activation's merge group (R104 to R107). -/
structure OpenGroup where
  g : GroupId
  acks : List Nat          -- members that acknowledged
  members : List Nat
  opened : Bool
  deriving DecidableEq, Repr

/-- One activation (R145, R150, R156). -/
structure Act where
  uid  : Nat
  ctx  : Nat               -- its context key
  task : Task
  cls  : ClassEntry
  taskId : Word            -- %task
  gx : Nat
  gy : Nat
  gw : Nat
  gh : Nat
  tx : Word
  ty : Word
  gang : Option Nat
  tiles : List Nat         -- partition tiles held, named a0 upward
  alloc : Option (Nat × Nat)   -- scratchpad slots: first, count
  regs : Regs
  frame : Option Nat       -- resident in this frame
  filling : Bool           -- waits for its context to be filled (R43)
  mask : Option (Nat × Nat)    -- live-state mask of an eviction at a yield point (R196): entry words
  wait : Wait
  parkedAt : Nat           -- cycle in which it parked
  issuedAt : Nat           -- cycle of its last issue
  group : Option OpenGroup
  closing : List OpenGroup -- closing groups, up to their commit point (R107)
  committed : Bool         -- a group of it has passed its commit point (R107, R153)
  decl : List (Nat × Bool) -- declaration buffer (R121): tile, W
  txn  : Option Word
  txnCycles : Nat          -- cycles counted by R134 up to txnMark
  txnMark : Nat
  preempt : Option Nat     -- cycle of a pending request (R197)
  stopped : Bool           -- stopped at a yield point, awaiting suspension
  move : Option Nat        -- queued migration target (R201)
  seq : Nat                -- acceptance number of its task (R188)
  doneRel : Bool           -- done has completed its paths (gang member, R158)
  deriving DecidableEq, Repr

/-- A waiting-task entry (R159 to R162). -/
inductive WttState where
  | disarmed | armed | firing | fault
  deriving DecidableEq, Repr

structure WttEntry where
  st : WttState
  kind : Nat
  scope : Nat
  n : Nat
  count : Nat
  tmpl : Nat
  ctlw : Nat
  asid : Nat
  gen : Nat
  step : Nat               -- step of the firing: 0 control word, 1 template
  val : Nat                -- trip word before the decrement, or selector
  held : List Arrive
  deriving DecidableEq, Repr

/-- The follow-on of cpy.chain (R390), with the registers it reads as they were at the cpy.chain. -/
structure Follow where
  word : Nat
  rnd  : Nat
  tile : Nat               -- partition tile
  a    : OpSrc
  b    : OpSrc
  scale : Word             -- F[fs]
  tx   : Nat
  ty   : Nat
  place : Place
  deriving DecidableEq, Repr

/-- A command of the copy engine's queue (R386, R328). -/
structure CopyCmd where
  id   : Nat               -- its operation
  uid  : Nat
  kind : Nat               -- 0 ego or cpy, 1 cpy.chain, 2 tld, 3 tst
  shadow : List Word       -- the seven fields
  follow : Option Follow   -- the follow-on of cpy.chain
  far  : DReg              -- tld, tst
  pool : DReg
  org  : Word
  asid : Nat
  gen  : Nat
  cls  : Nat
  active : Bool
  slots : List Nat         -- pool slots it names
  deriving DecidableEq, Repr

/-- Latches of an accumulator tile (R375): state 0 NONE, 1 EMPTY, 2 FULL. -/
structure TileState where
  st : Nat
  ty : Nat
  inFull : Bool
  inTy : Nat
  scl : Nat                -- scale latch: 0 none, 1 FP32, 2 E8M0
  acc : Nat                -- accumulator type of mst (R383)
  deriving DecidableEq, Repr

/-- A suspended activation (R197, R199): PARTW at its suspension, pool rows still held in place, rows saved in the suspend
area, and the state of the tiles saved there (R376). -/
structure Suspended where
  act : Act
  partw : Word
  rows : List Nat
  savedRows : List Nat
  savedTiles : List (Nat × TileState)
  deriving DecidableEq, Repr

/-- A forwarding entry (R202): the moved activation and the cycle at which it expires. -/
structure Forward where
  uid : Nat
  till : Nat
  deriving DecidableEq, Repr

/-- A compute core. -/
structure Core where
  partw : Word
  partwHeld : Option Word
  asid : Word              -- CORE_ASID
  frames : List (Option Nat)    -- hardware context resident in each frame
  slots : SMap (Bool × Nat)     -- owner is engine, count
  lastCtx : List Nat            -- Last[0..3] (R183)
  issuedAt : Nat                -- cycle of its last issue (R183)
  launches : Nat
  claimed : List (Nat × Nat × Nat)  -- named regions: class, first row, rows
  classes : SMap ClassEntry     -- cached class table entries
  lines : List (Nat × Nat × Nat × Nat × List Byte)  -- routine store: asid, gen, class, offset, bytes
  wtt : SMap WttEntry
  ovf : BitVec 32
  hdrf : SMap Word
  shadow : List Word
  copyQ : List CopyCmd
  errs : BitVec 32
  matQ : List MatrixCmd
  tiles : SMap TileState
  sems : SMap Int
  xsCnt : SMap Nat
  xsWin : SMap Nat              -- number of the current window
  xsDone : SMap Bool            -- the action of this window is taken
  draws : Nat                   -- stochastic draws made
  req : BitVec 8
  res : BitVec 8
  disc : BitVec 8
  susp : SMap Suspended
  preErr : Bool
  moved : BitVec 16
  refused : BitVec 16
  dropped : BitVec 32
  forwards : List Forward
  frameRegs : SMap Regs         -- register blocks that a frame's rows hold once its context has left (R40)
  deriving DecidableEq, Repr

/-- A cached leaf of a translation unit with the location of its word in the table (R10, R29). -/
structure TlbEntry where
  asid : Nat
  gen : Nat
  base : Nat               -- OFF of the page
  size : Nat
  leaf : Word
  loc : Nat
  deriving DecidableEq, Repr

/-- A cached pointer entry (R23). -/
structure PtrEntry where
  asid : Nat
  gen : Nat
  lvl : Nat                -- level of the table that the entry points to
  base : Nat               -- OFF bits that reach it
  entry : Word
  deriving DecidableEq, Repr

structure InvCmd where
  op : Nat
  asid : Nat
  va : Nat
  bcast : Option Nat       -- the broadcast command it is a part of
  dem : Option Nat         -- the demotion engine that waits for it
  deriving DecidableEq, Repr

/-- A translation unit (R10, R32). -/
structure Mtu where
  tlb : List TlbEntry
  ptrs : List PtrEntry
  asdts : List (Nat × Word × Word)
  queue : List InvCmd
  done : BitVec 32
  faults : BitVec 32
  deriving DecidableEq, Repr

/-- A broadcast block (R32): commands not yet completed everywhere, with the units that remain. -/
structure Bcast where
  open_ : List (Nat × Nat)
  done : BitVec 32
  deriving DecidableEq, Repr

/-- An open write-queue entry of a Plinth die or the DDR port (R59, R97). -/
structure WqEntry where
  line : Nat
  op : Nat
  size : Nat
  vals : List (Nat × Word) -- offset in the line, merged value
  closed : Bool
  deriving DecidableEq, Repr

/-- A demotion engine's progress (R61): next candidate, running, and the demotion in hand. -/
structure Demote where
  head : Nat               -- ring position of the oldest frame
  count : Nat
  next : Nat
  running : Bool
  done : BitVec 32
  stage : Nat              -- 0 idle, 1 clearing AC waits, 2 first PAGE waits, 3 copy due, 4 second PAGE waits
  cand : Nat
  frame : Word
  leaf : Word
  deriving DecidableEq, Repr

/-- A staging slot of a Caliper (R116): state 1 open, 2 sealed, 3 applying. -/
structure MSlot where
  g : GroupId
  st : Nat
  resv : Nat
  rows : List (Nat × List (BitVec 32))
  replayed : Bool
  bad : Bool               -- uncorrectable error in a staged row (R115)
  deriving DecidableEq, Repr

/-- A commit at a Caliper: number, group, factor, discarded (R113). -/
structure MCommit where
  dom : Nat
  seq : Nat
  g : GroupId
  factor : BitVec 32
  discard : Bool
  deriving DecidableEq, Repr

/-- The leader's record of a group or commit (R112, R114). -/
structure MLead where
  g : GroupId
  parts : List (Nat × Word × Nat × Bool)   -- member, sum, rows, REPLAYED
  deriving DecidableEq, Repr

structure MLog where
  dom : Nat
  seq : Nat
  g : GroupId
  factor : BitVec 32
  norm : BitVec 32
  clipped : Bool
  discard : Bool
  replayed : Bool
  rows : Nat
  acks : List Nat
  deriving DecidableEq, Repr

/-- A Caliper (R101, R118). -/
structure Caliper where
  slots : List MSlot
  commits : List MCommit
  applied : SMap Nat        -- last commit applied, by domain
  leads : List MLead
  logs : List MLog
  seqs : SMap Nat           -- BIM_SEQ, by domain
  deriving DecidableEq, Repr

/-- An entry of a slice queue (R128). -/
structure QEntry where
  slice : Nat
  asid : Nat
  tile : Nat
  w : Bool
  tid : Word
  home : Nat
  granted : Bool
  deriving DecidableEq, Repr

/-- A transaction at its home (R130, R140). -/
structure HomeTxn where
  sub : Sub
  got : Nat
  placed : Bool
  ended : Bool
  deriving DecidableEq, Repr

/-- An order sequencer with its slice queues (R125 to R141). -/
structure Osq where
  beat : Nat                -- beat now collecting
  batch : List Sub
  have_ : List (Nat × Nat × List Sub)   -- beat, sender (sys * 8 + die), batch
  merged : Nat              -- next beat to merge
  pend : List QEntry        -- merged, not yet enqueued
  queue : List QEntry       -- all slice queues, in global order
  homes : List HomeTxn
  inflight : List Word      -- submitted here, not released
  stall : Bool
  ctlPend : Option Word
  ctlAt : Nat               -- the beat boundary at which it takes effect, as a cycle (R139)
  endBeat : Nat             -- the beat at whose start EN was last cleared (R139)
  term : BitVec 32
  ordered : BitVec 32
  deriving DecidableEq, Repr

/-- A task in transit on the Relief (R172). -/
structure Transit where
  task : Task
  budget : Nat
  hops : Nat
  port : Nat                -- 0: spawned here; 1 to 10: port of arrival, in port order
  since : Nat               -- tick from which it is present
  deriving DecidableEq, Repr

/-- A fault-wait (R188, R157): faulting address and the die whose release ends it. -/
structure FaultWait where
  va : Nat
  die : Nat
  deriving DecidableEq, Repr

/-- A queued task (R175, R181): its place is its acceptance number. -/
structure QTask where
  task : Task
  seq : Nat
  wait : Option FaultWait
  gang : Option Nat
  deriving DecidableEq, Repr

/-- A cluster of the grid (R168 to R175). -/
structure Cluster where
  sum : Nat
  dist : Nat
  press : Nat
  silent : List Nat         -- ports whose peer is silent (R170)
  missed : SMap Nat         -- ticks since something was received, by port; none: 0 (R170)
  heard : List (Nat × Nat × Bool)  -- panel port: last D received, P = 255
  queue : List QTask
  present : List Transit
  fwd : List (Nat × Transit)       -- forwarding queues: output port, task
  deriving DecidableEq, Repr

/-- A gang or a SPLIT task at its launch unit (R154 to R158). -/
structure Gang where
  id : Nat
  task : Task
  cls : ClassEntry
  die : Nat                 -- pkg * 8 + die
  clus : List Nat           -- clusters that count it
  seq : Nat
  row : Nat
  col : Nat
  h : Nat
  w : Nat
  reserved : List Nat       -- core keys
  launched : Bool
  reading : Bool            -- SPLIT descriptor read outstanding
  extents : Option (Nat × Nat)  -- SIZE0, SIZE1
  members : List Nat        -- uids still to finish
  dead : Bool
  deriving DecidableEq, Repr

/-- A running or queued collective program (R238 to R242). -/
structure Coll where
  hdr : Nat
  asid : Nat
  gen : Nat
  words : List Word         -- header words once read
  steps : List (Word × Word)
  pc : Nat
  lc : List Nat
  since : Nat               -- cycle in which the current step began to wait
  started : Bool
  ended : Bool
  group : Option OpenGroup
  closed : Bool             -- its merge group has been closed
  peers : SMap Nat          -- peer table entries read, by rank
  deriving DecidableEq, Repr

/-- An open top-k merge of a die (R245): lists received, by core or by die. -/
structure Merge where
  group : Nat
  token : Nat
  root : Bool
  from_ : List Nat
  lists : List (List Word)
  deriving DecidableEq, Repr

/-- A slot of a slot pool (R249): 0 free, 1 partition, 2 claimed, 3 filled, 4 launched. -/
structure PSlot where
  st : Nat
  expert : Nat
  sender : Nat
  rows : Nat
  deriving DecidableEq, Repr

/-- A slot pool's own state (its STATE area, R249): slots, overflow slots, rotation, open buffers, record rings. -/
structure Pool where
  slots : SMap PSlot
  ovfl : SMap PSlot
  rot : SMap Nat
  buf : SMap (List Nat × Nat)      -- expert: filled slots in order, cycle of the first fill
  recs : SMap (List (Nat × List Nat))  -- expert: records in use, with the slots not yet returned
  nextRec : SMap Nat
  asid : Nat
  gen : Nat
  deriving DecidableEq, Repr

/-- A compute die, or the I/O die: its units. -/
structure Die where
  failed : Bool
  failedAt : Nat
  buf : List Event          -- overflow buffer (R195)
  lost : BitVec 32
  clsDone : BitVec 32
  clsQ : List Word          -- CLS_INV writes not yet complete
  notLoaded : List (Nat × Nat × Nat × Nat)   -- asid, gen, class, faulting VA (R204)
  launchQ : List (Nat × Nat × Nat)   -- LU_LAUNCH reads: VA, asid, gen
  routes : SMap Nat         -- routing counters: table * 256 + index
  merges : List Merge
  dup : BitVec 32
  ringQ : SMap (List Coll)  -- by panel port
  cause : SMap Nat          -- COLL_STAT.CAUSE, by port
  estep : SMap Nat          -- COLL_STAT.STEP of a program that ended
  units : Nat               -- power units held (R410)
  floor : Nat
  ceil : Nat
  clock : Nat               -- clock in sixteenths
  cycSum : Nat              -- sixteenths of own cycles counted up to cycMark (R316, R410)
  cycMark : Nat
  deriving DecidableEq, Repr

/-- A send request that a queue pair has sent and not completed: its index, sequence number, operation, SIG, and, once it has
ended, its status and bytes (R416, R418). -/
structure RdmaSent where
  idx : Nat
  psn : Nat
  opc : Nat
  sig : Bool
  len : Nat
  lva : Nat
  lkey : Nat
  fin : Option (Nat × Nat)
  np : Nat := 1             -- packets, and with them sequence numbers, of the message or of its response
  got : Nat := 0            -- bytes of the response received
  deriving DecidableEq, Repr

/-- A completion due (R418): queue, operation, status, immediate data, bytes, source pair, index. -/
structure RdmaDone where
  rq : Bool
  opc : Nat
  status : Nat
  imm : Nat
  bytes : Nat
  sqpn : Nat
  idx : Nat
  deriving DecidableEq, Repr

/-- A message that a pair is receiving in several packets (R416): whether it is a WRITE, where it goes, its key, its bytes and those received. -/
structure RdmaCur where
  write : Bool
  va : Nat
  key : Nat
  len : Nat
  got : Nat
  deriving DecidableEq, Repr

/-- A queue pair's own engine state (R417 words 10 to 15): whether it is in use, its indices, sequence numbers, retries, send rate
in Mb/s, times of the last notification, send and poll, requests outstanding, completions due, results of atomics. -/
structure Qp where
  live : Bool
  sqPi : Nat
  sqCi : Nat
  rqPi : Nat
  rqCi : Nat
  psn : Nat
  epsn : Nat
  retries : Nat
  rate : Nat
  cnpAt : Nat
  sentAt : Nat
  pollAt : Nat
  sent : List RdmaSent
  due : List RdmaDone
  atoms : SMap Nat
  cur : Option RdmaCur
  msn : Nat := 0                -- requests completed, the message sequence number of its answers
  rnr : Option (Nat × Nat) := none  -- after a receiver was not ready: the sequence number to send again from, and the cycle
  deriving DecidableEq, Repr

/-- The boot state of R408. -/
inductive Boot where
  | reset | verifyLocal | verifyFetched | running | failed
  deriving DecidableEq, Repr

/-- A committed HDM decoder of a CXL port (R421): base, size, log2 of the interleave granularity, two ways or one, and the port of each way. -/
structure HdmRange where
  base : Nat
  size : Nat
  gran : Nat
  two : Bool
  ways : List Nat
  lock : Bool
  deriving DecidableEq, Repr

/-- The APLIC (R422): its interrupt enable, the sources' modes and targets, the sources that are pending, enabled and seen high, and where its
messages go. -/
structure Aplic where
  ie : Bool
  mode : SMap Nat
  target : SMap Nat
  pend : List Nat
  enab : List Nat
  high : List Nat
  msi : Word
  deriving DecidableEq, Repr

/-- An interrupt file of a service core (R422): delivery, threshold, enabled identities. -/
structure IntFile where
  deliver : Nat
  threshold : Nat
  enab : List Nat
  deriving DecidableEq, Repr

/-- A package's I/O-die units. -/
structure Pkg where
  sys : Nat                 -- its system package number
  upAt : Nat                -- cycle of its release from reset (R316)
  boot : Boot
  bootAt : Nat
  image : List Byte
  slot : List Byte              -- the boot region of PCIe port 0, one image (R408)
  measure : BitVec 512
  reports : List (BitVec 256 × List Byte × List Byte)  -- nonce, report, signature (R409)
  partMode : Nat
  partReq : Option Nat
  aff : Nat
  evqTail : BitVec 32
  patina : SMap (List Word) -- records by index
  patHead : BitVec 32
  str : SMap (Nat × Nat × Nat)  -- steering rule: W, C, DROP
  steerQ : List (List Byte)     -- frames handed to the steering engine
  roceQ : List RocePacket
  qps : SMap Qp
  cqs : SMap Nat                -- completions written, by queue
  rdDrop : BitVec 32
  rdCnp : BitVec 32
  out : List (Nat × List Byte)  -- frames and packets sent: port, bytes
  outRoce : List (Nat × RocePacket)
  heads : SMap Nat              -- ring heads: port * 128 + tx * 64 + ring
  txBuf : SMap (List Byte × Bool × Word)  -- a frame being gathered: bytes, not to be sent, word 1 of its first descriptor
  devReads : List (Nat × Nat × List Byte)  -- completions of device reads: requester, status, data
  imsic : List (Nat × Nat)      -- pending identities: file, identity
  files : SMap IntFile          -- interrupt files, by number
  aplic : Aplic
  hdm : SMap (Option HdmRange)  -- HDM decoders whose commit was asked for: port * 8 + decoder; none: the commit failed (R421)
  cfg : SMap (BitVec 32)        -- configuration space of the root ports: device * 1024 + dword (R419)
  devOut : List (Nat × Word)    -- writes sent to devices: offset from RB, value (R419)
  pauses : SMap Nat             -- cycle until which a port's priority is paused: port * 8 + priority (R413)
  held : List (Nat × Nat × List Byte)  -- RDMA frames that wait for a paused priority: port, priority, frame (R413)
  drain : Bool                  -- PART_MODE.DIE
  split : SMap Nat              -- RC_CFG split in force, by port
  link : SMap (Nat × Nat)       -- link rate and width, by root port: devices 0 to 9 of bus 0
  deriving DecidableEq, Repr

/-- An access of a service core (R91): a load, store or AMO of device memory at a location, of at most 8 bytes, or the read of a device
register by its die and offset, or of a place of the service cores' space beyond the die blocks by its package and offset from RB (R419, R422). -/
inductive HostOp where
  | load (loc n : Nat)
  | store (loc : Nat) (bs : List Byte)
  | amo (op size loc : Nat) (v : Word)
  | reg (die off : Nat)
  | io (pkg off : Nat)
  /-- a write of 1, 2, 4 or 8 bytes beyond the die blocks -/
  | ioStore (pkg off n : Nat) (v : Word)
  /-- a register of an interrupt file of the core, read, or written with a value; the claim of the identity that it puts first (R422) -/
  | file (pkg file reg : Nat) (v : Option Word)
  | claim (pkg file : Nat)
  deriving DecidableEq, Repr

/-- A request from outside, or a register write, that met a slot which its engine owns: a device's access, a doorbell, a pre-emption request
whose yield table it reads (R47). -/
inductive HeldReq where
  | device (pkg rid : Nat) (write : Bool) (addr : Word) (n : Nat) (data : List Byte)
  | doorbell (pkg : Nat) (v : Word)
  | preempt (core : Nat) (bits : BitVec 8)
  deriving DecidableEq, Repr

/-- What one step of the machine does: a core issues, a unit of the device acts or an event comes from outside, time
passes only, the paths between packages change (R8), a port performs one word of a wider access (R67), a service core makes an
access (R91), or a request from outside that a pool port holds is tried again (R47). -/
inductive Act1 where
  | issue (core : Nat)
  | device (i : Instr)
  | idle
  | paths (gone : List (Nat × Nat))
  | word (id : Nat)
  | host (op : HostOp)
  | again (k : Nat)
  deriving DecidableEq, Repr

/-- One turn: the cycles that pass before it, and the act. -/
structure Turn where
  wait : Nat
  act : Act1
  deriving DecidableEq, Repr

/-- Why the machine stops with a fault: the spec gives no case in which the whole machine would (R192: every trap ends one activation;
R101: an undefined domain leaves the rest unaffected). -/
inductive Fault where
  deriving DecidableEq, Repr

/-- Why the machine refuses a step. -/
inductive Refusal where
  /-- An instruction whose meaning is not written. Safe: nothing is claimed of it. -/
  | notModelled (mnemonic : String)
  deriving DecidableEq, Repr

/-- The whole machine. -/
structure State where
  now : Nat                 -- cycles of the package time reference (R316)
  agenda : List Turn        -- what happens next, given from outside; empty: the machine's own order
  focus : Nat               -- the core that issues in the machine's own order
  cur : Nat                 -- context key of the activation that issues
  fresh : Nat               -- free values drawn
  nextId : Nat              -- next operation id, activation id, gang id
  regs : SMap Word          -- device registers: package * 2^28 + offset in the register space
  mem : Memory
  eccBad : List Nat         -- 64-byte lines with an uncorrectable error (R22, R115, R412)
  acts : SMap Act           -- by context
  cores : SMap Core
  dies : SMap Die
  mtus : SMap Mtu
  bcasts : SMap Bcast       -- by package
  wqs : SMap (List WqEntry) -- by die * 4 + stack
  demotes : SMap Demote     -- by engine: die key, or package * 16 + 9 for CXL
  cals : SMap Caliper
  osqs : SMap Osq
  clus : SMap Cluster
  gangs : List Gang
  pkgs : SMap Pkg
  pools : SMap Pool         -- by header location
  flights : List Flight
  bars : List (Nat × List Nat × List Nat)   -- barrier object: previous and current arrivals (uids) (R184)
  barWaits : List (Nat × Nat × Nat × Nat)   -- waiting pairs: unit, object, core, uid (R236)
  barKids : List (Nat × Nat)                -- object, child recorded in the phase
  barHeld : List Nat                        -- arrivals held at objects with UP set, in order (R235)
  barUps : List (Nat × Nat × Nat × Nat × Nat)  -- upward arrivals that faulted: child, die, VA, asid, gen
  noPath : List (Nat × Nat)  -- pairs of packages between which the fabric has no working path, from, to (R8)
  held : Bool               -- an access of the step met a slot that its engine owns (R47): the step does not take place
  heldReqs : List HeldReq   -- requests from outside, and register writes, that met such a slot, and are held until it returns (R47)
  redHeld : SMap (List Nat) -- reductions held at a memory port, in order of arrival (R59)
  cables : SMap Nat         -- panel port of a cluster: cluster * 2 + port, to the far cluster * 2 + port
  ticks : SMap Nat          -- last Relief tick, by package
  lanes : SMap (List Flight) -- the lanes of unfinished indexed vector instructions whose activations replay, by the first lane's id (R325)
  hostRead : Word           -- the last value that a service core read (R60, R91)
  deriving DecidableEq, Repr

/-- The machine right after reset: every table empty, no time passed, no memory listed. Records that are not listed
stand for the reset records of Machine/Reset.lean. DESIGN CHOICE, log 1. -/
def State.reset : State where
  now := 0
  agenda := []
  focus := 0
  cur := 0
  fresh := 0
  nextId := 1
  regs := []
  mem := ⟨[], []⟩
  eccBad := []
  acts := []
  cores := []
  dies := []
  mtus := []
  bcasts := []
  wqs := []
  demotes := []
  cals := []
  osqs := []
  clus := []
  gangs := []
  pkgs := []
  pools := []
  flights := []
  bars := []
  barWaits := []
  barKids := []
  barHeld := []
  barUps := []
  noPath := []
  held := false
  heldReqs := []
  redHeld := []
  cables := []
  ticks := []
  lanes := []
  hostRead := 0

end Sys2Proof.Machine
end

