-- ==== Sys2Proof/Machine/Data.lean ====
section
/-! DEFINITION. Bit fields, byte order (R3: little-endian) and sparse tables: the helpers that every other file of the
machine uses. -/
namespace Sys2Proof.Machine

/-- Bits [lo + len - 1 : lo] of a number. -/
def fld (x lo len : Nat) : Nat := (x / 2 ^ lo) % 2 ^ len

/-- Bits [lo + len - 1 : lo] of a word. -/
def wfld (w : Word) (lo len : Nat) : Nat := fld w.toNat lo len

/-- One bit of a word. -/
def wbit (w : Word) (i : Nat) : Bool := w.getLsbD i

/-- A word with bits [lo + len - 1 : lo] replaced. -/
def putFld (w : Word) (lo len v : Nat) : Word :=
  let mask : Word := BitVec.ofNat 64 ((2 ^ len - 1) * 2 ^ lo)
  (w &&& ~~~mask) ||| (BitVec.ofNat 64 ((v % 2 ^ len) * 2 ^ lo))

/-- A word with one bit replaced. -/
def putBit (w : Word) (i : Nat) (b : Bool) : Word := putFld w i 1 b.toNat

/-- A number's low n bits sign-extended to a word. -/
def sextNat (n v : Nat) : Word := (BitVec.ofNat n v).signExtend 64

/-- The n low bytes of a number, least significant first (R3). -/
def toBytes : Nat → Nat → List Byte
  | 0, _ => []
  | n + 1, v => BitVec.ofNat 8 v :: toBytes n (v / 256)

/-- The number that bytes hold, least significant first (R3). -/
def ofBytes : List Byte → Nat
  | [] => 0
  | b :: r => b.toNat + 256 * ofBytes r

/-- Eight-byte words of a byte list. -/
def wordsOf : Nat → List Byte → List Word
  | 0, _ => []
  | n + 1, bs => BitVec.ofNat 64 (ofBytes (bs.take 8)) :: wordsOf n (bs.drop 8)

/-- The bytes of words, in order. -/
def bytesOf (ws : List Word) : List Byte := ws.flatMap fun w => toBytes 8 w.toNat

/-- Word i of a list, zero beyond its end. -/
def nth (ws : List Word) (i : Nat) : Word := ws.getD i 0

/-- The record of key k, or the record a unit has after reset. -/
def mget {α : Type} (m : SMap α) (k : Nat) (d : α) : α :=
  match m with
  | [] => d
  | (a, v) :: r => if a = k then v else mget r k d

/-- The table with the record of key k replaced or entered. -/
def mset {α : Type} (m : SMap α) (k : Nat) (v : α) : SMap α :=
  match m with
  | [] => [(k, v)]
  | (a, w) :: r => if k < a then (k, v) :: (a, w) :: r else if k = a then (k, v) :: r else (a, w) :: mset r k v

/-- The record of key k, if one is listed. -/
def mfind {α : Type} (m : SMap α) (k : Nat) : Option α :=
  match m with
  | [] => none
  | (a, v) :: r => if a = k then some v else mfind r k

/-- The table without key k. -/
def mdel {α : Type} (m : SMap α) (k : Nat) : SMap α := m.filter fun e => e.1 != k

/-- The list with its i-th element replaced. -/
def lset {α : Type} (l : List α) (i : Nat) (v : α) : List α := l.set i v

/-- Keys of the parts of the machine. -/
def dieKey (pkg d : Nat) : Nat := pkg * 16 + d
def ioDie (pkg : Nat) : Nat := pkg * 16 + 8
def coreKey (pkg d n : Nat) : Nat := (pkg * 8 + d) * 256 + n
def pkgOfCore (c : Nat) : Nat := c / 2048
def dieOfCore (c : Nat) : Nat := c / 256 % 8
def numOfCore (c : Nat) : Nat := c % 256
def rowOfCore (c : Nat) : Nat := c % 256 / 16
def colOfCore (c : Nat) : Nat := c % 16
def dkOfCore (c : Nat) : Nat := dieKey (pkgOfCore c) (dieOfCore c)
/-- Cluster of a core number: 4 × 4 blocks of the 16 × 16 mesh (R142). -/
def clusOfNum (n : Nat) : Nat := 4 * (n / 16 / 4) + n % 16 / 4
def clusOfCore (c : Nat) : Nat := (pkgOfCore c * 8 + dieOfCore c) * 16 + clusOfNum (numOfCore c)
def coreOfCtx (x : Nat) : Nat := x / 8
def ctxNum (x : Nat) : Nat := x % 8
/-- Die key of a cluster key. -/
def dkOfClus (k : Nat) : Nat := dieKey (k / 128) (k / 16 % 8)
/-- Caliper key of stack s of a compute die. -/
def calKey (dk s : Nat) : Nat := dk / 16 * 24 + 3 * (dk % 16) + s
def dkOfCal (c : Nat) : Nat := dieKey (c / 24) (c % 24 / 3)
/-- Die key of a ring sequencer. -/
def dkOfSeq (q : Nat) : Nat := dieKey (q / 16) (q / 2 % 8)

/-- Ceiling division. -/
def ceilDiv (a b : Nat) : Nat := (a + b - 1) / b

/-- Numbers from a, n of them, rising. -/
def span (a n : Nat) : List Nat := (List.range n).map (a + ·)

end Sys2Proof.Machine
end

