-- ==== Sys2Proof/Machine/Reset.lean ====
section
/-! DEFINITION. What each unit holds after reset: the value its register map gives, zero or empty where the spec gives
none (DESIGN CHOICE, log 1). -/
namespace Sys2Proof.Machine

/-- The register block a context holds when nothing has been written (DESIGN CHOICE, log 1); R145 writes it at launch. m0 reads as
all ones (R254). -/
def Regs.reset : Regs where
  s := Vector.replicate 32 0
  f := Vector.replicate 16 0
  m := Vector.replicate 8 0
  d := Vector.replicate 8 0
  c := Vector.replicate 8 0
  pc := 0
  vwb := 0
  fcr := 0
  lend := 0
  lstart := 0
  lcnt := 0

def WttEntry.reset : WttEntry := ⟨.disarmed, 0, 0, 0, 0, 0, 0, 0, 0, 0, 0, []⟩

/-- A tile's latches at launch (R375): NONE, the incoming buffer empty, accumulator type FP32 (R383). -/
def TileState.reset : TileState := ⟨0, 0, false, 0, 0, 0⟩

def Core.reset : Core where
  partw := 0
  partwHeld := none
  asid := 0
  frames := []
  slots := []
  lastCtx := [0, 0, 0, 0]
  issuedAt := 0
  launches := 0
  claimed := []
  classes := []
  lines := []
  wtt := []
  ovf := 0
  hdrf := []
  shadow := [0, 0, 0, 0, 0, 0, 0]
  copyQ := []
  errs := 0
  matQ := []
  tiles := []
  sems := []
  xsCnt := []
  xsWin := []
  xsDone := []
  draws := 0
  req := 0
  res := 0
  disc := 0
  susp := []
  preErr := false
  moved := 0
  refused := 0
  dropped := 0
  forwards := []
  frameRegs := []

def Mtu.reset : Mtu := ⟨[], [], [], [], 0, 0⟩
def Bcast.reset : Bcast := ⟨[], 0⟩
def Demote.reset : Demote := ⟨0, 0, 0, false, 0, 0, 0, 0, 0⟩
def Caliper.reset : Caliper := ⟨[], [], [], [], [], []⟩

def Osq.reset : Osq where
  beat := 0
  batch := []
  have_ := []
  merged := 0
  pend := []
  queue := []
  homes := []
  inflight := []
  stall := false
  ctlPend := none
  ctlAt := 0
  endBeat := 0
  term := 0
  ordered := 0

/-- A cluster: SUM 0, D 63, P 0 (R182). -/
def Cluster.reset : Cluster := ⟨0, 63, 0, [], [], [], [], [], []⟩

/-- Power budget units at reset: equal shares of UNITS − GUARD among the eight dies, the remainder of two units to
dies 0 and 1 (R410 fixes the sum; DESIGN CHOICE, log 21). -/
def resetUnits (d : Nat) : Nat := if d < 2 then 182 else if d < 8 then 181 else 0

def Die.reset (d : Nat) : Die where
  failed := false
  failedAt := 0
  buf := []
  lost := 0
  clsDone := 0
  clsQ := []
  notLoaded := []
  launchQ := []
  routes := []
  merges := []
  dup := 0
  ringQ := []
  cause := []
  estep := []
  units := resetUnits d
  floor := 0
  ceil := 1450
  clock := 16
  cycSum := 0
  cycMark := 0

/-- A queue pair before it is valid: words 10 to 15 of its entry are zero (R417). -/
def Qp.reset : Qp := ⟨false, 0, 0, 0, 0, 0, 0, 0, 0, 0, 0, 0, [], [], [], none, 0, none⟩

/-- A package: SYSPKG is its own number, set before release from reset (R8; DEDUCED, log 6). -/
def Pkg.reset (p : Nat) : Pkg where
  sys := p
  upAt := 0
  boot := .reset
  bootAt := 0
  image := []
  slot := []
  measure := 0
  reports := []
  partMode := 0
  partReq := none
  aff := 0
  evqTail := 0
  patina := []
  patHead := 0
  str := []
  steerQ := []
  roceQ := []
  qps := []
  cqs := []
  rdDrop := 0
  rdCnp := 0
  out := []
  outRoce := []
  heads := []
  txBuf := []
  devReads := []
  imsic := []
  files := []
  aplic := ⟨false, [], [], [], [], [], 0⟩
  hdm := []
  cfg := []
  devOut := []
  pauses := []
  held := []
  drain := false
  split := []
  link := []

/-- The record of a unit. -/
def coreAt (s : State) (c : Nat) : Core := mget s.cores c Core.reset
def dieAt (s : State) (d : Nat) : Die := mget s.dies d (Die.reset (d % 16))
def mtuAt (s : State) (d : Nat) : Mtu := mget s.mtus d Mtu.reset
def clusAt (s : State) (k : Nat) : Cluster := mget s.clus k Cluster.reset
def pkgAt (s : State) (p : Nat) : Pkg := mget s.pkgs p (Pkg.reset p)
/-- TIME of a package: cycles of its time reference since its release from reset (R193, R316). -/
def timeOf (s : State) (p : Nat) : Nat := s.now - (pkgAt s p).upAt
/-- Sixteenths of the cycles of a die's own clock since its release from reset (R316, R410). -/
def dieSixteenths (s : State) (dk : Nat) : Nat :=
  let d := dieAt s dk
  d.cycSum + (s.now - max d.cycMark (pkgAt s (dk / 16)).upAt) * d.clock
/-- CYCLE of the cores of a die: cycles of their own clock since their release from reset (R316). -/
def cyclesOf (s : State) (dk : Nat) : Nat := dieSixteenths s dk / 16
def calAt (s : State) (c : Nat) : Caliper := mget s.cals c Caliper.reset
def osqAt (s : State) (d : Nat) : Osq := mget s.osqs d Osq.reset
def demAt (s : State) (e : Nat) : Demote := mget s.demotes e Demote.reset
def actAt (s : State) (x : Nat) : Option Act := mfind s.acts x

/-- The state with a unit's record replaced. -/
def setCore (s : State) (c : Nat) (v : Core) : State := { s with cores := mset s.cores c v }
def setDie (s : State) (d : Nat) (v : Die) : State := { s with dies := mset s.dies d v }
def setMtu (s : State) (d : Nat) (v : Mtu) : State := { s with mtus := mset s.mtus d v }
def setClus (s : State) (k : Nat) (v : Cluster) : State := { s with clus := mset s.clus k v }
def setPkg (s : State) (p : Nat) (v : Pkg) : State := { s with pkgs := mset s.pkgs p v }
def setCal (s : State) (c : Nat) (v : Caliper) : State := { s with cals := mset s.cals c v }
def setOsq (s : State) (d : Nat) (v : Osq) : State := { s with osqs := mset s.osqs d v }
def setDem (s : State) (e : Nat) (v : Demote) : State := { s with demotes := mset s.demotes e v }
def setAct (s : State) (x : Nat) (v : Act) : State := { s with acts := mset s.acts x v }

end Sys2Proof.Machine
end

