-- ==== Sys2Proof/Machine/Memory.lean ====
section
/-! DEFINITION. The memory of the system (R24, R36, R41, R42, R57, R375): where each piece of storage lies in the one
address map of the model, reading and writing bytes, and rows whose contents are undefined. -/
namespace Sys2Proof.Machine

/-- Base of a region: its kind and the key of the unit that owns it, above bit 56. -/
def regionBase (kind idx : Nat) : Nat := (kind + 16 * idx) * 2 ^ 56

/-- HBM of a compute die, by physical address (R57). -/
def hbm (dk pa : Nat) : Nat := regionBase 1 dk + pa
/-- DDR of a package's I/O die. -/
def ddr (pkg pa : Nat) : Nat := regionBase 2 pkg + pa
/-- CXL memory of a package, by host physical address (R421). -/
def cxl (pkg pa : Nat) : Nat := regionBase 3 pkg + pa
/-- The pool of a core, by own-pool address (R36). -/
def pool (core a : Nat) : Nat := regionBase 4 core + a
/-- The transpose tile of a hardware context (R41). -/
def ttile (ctx a : Nat) : Nat := regionBase 5 ctx + a
/-- The operand latch, incoming buffer and scale latch of tile t of a core (R375; DESIGN CHOICE, log 30). -/
def latch (core t a : Nat) : Nat := regionBase 6 (core * 4 + t) + a
def incoming (core t a : Nat) : Nat := regionBase 7 (core * 4 + t) + a
def scaleLatch (core t a : Nat) : Nat := regionBase 8 (core * 4 + t) + a

/-- Region kind, owner and offset of an address. -/
def regionKind (a : Nat) : Nat := a / 2 ^ 56 % 16
def regionIdx (a : Nat) : Nat := a / 2 ^ 56 / 16
def regionOff (a : Nat) : Nat := a % 2 ^ 56

/-- The epoch of a row's undefined contents, 0 when the row is defined. -/
def undefEpoch (m : Memory) (a : Nat) : Nat := mget m.undef (a / 512) 0

/-- What an unlisted address reads as: zero (RAM after power-on; DESIGN CHOICE, log 2), or a free byte in an undefined row (DESIGN CHOICE, log 3). -/
def unlisted (m : Memory) (a : Nat) : Byte :=
  if undefEpoch m a = 0 then 0 else Config.freeByte (undefEpoch m a) a

/-- The byte at an address. -/
def readByte (m : Memory) (a : Nat) : Byte := mget m.cells a (unlisted m a)

/-- n bytes from an address upward; only the cells of the range are looked at. -/
def readBytes (m : Memory) (a n : Nat) : List Byte :=
  let near : Memory := { m with cells := m.cells.filter fun c => a ≤ c.1 && c.1 < a + n }
  (List.range n).map fun i => readByte near (a + i)

/-- The cells of bytes from an address upward: a zero in a defined row needs none. -/
def cellsOf (m : Memory) (a : Nat) : List Byte → List Host.Cell
  | [] => []
  | b :: r => if b = 0 ∧ undefEpoch m a = 0 then cellsOf m (a + 1) r else (a, b) :: cellsOf m (a + 1) r

/-- Writes bytes from an address upward. -/
def writeBytes (m : Memory) (a : Nat) (bs : List Byte) : Memory :=
  let e := a + bs.length
  { m with cells := (m.cells.filter fun c => c.1 < a) ++ cellsOf m a bs ++ m.cells.filter fun c => e ≤ c.1 }

/-- n bytes as a number. -/
def readN (m : Memory) (a n : Nat) : Nat := ofBytes (readBytes m a n)

/-- The 8-byte word at an address. -/
def readW (m : Memory) (a : Nat) : Word := BitVec.ofNat 64 (readN m a 8)

/-- Writes the n low bytes of a number. -/
def writeN (m : Memory) (a n v : Nat) : Memory := writeBytes m a (toBytes n v)

/-- Makes the n rows from the row of address a undefined, in epoch e. -/
def poison (m : Memory) (a : Nat) (e : Nat) : Nat → Memory
  | 0 => m
  | n + 1 =>
    poison { cells := m.cells.filter (fun c => c.1 / 512 != a / 512), undef := mset m.undef (a / 512) e } (a + 512) e n

/-- Copies n bytes. -/
def copyBytes (m : Memory) (dst src n : Nat) : Memory := writeBytes m dst (readBytes m src n)

/-- Cells in strictly rising address order. -/
def rising : List Host.Cell → Bool
  | [] => true
  | (a, _) :: r => (r.all fun c => a < c.1) && rising r

/-- The canonical form: cells rise strictly, and a cell of a defined row is not zero. -/
def Memory.wf (m : Memory) : Bool :=
  rising m.cells && m.cells.all fun c => c.2 != 0 || undefEpoch m c.1 != 0

/-- A device register's key. -/
def regKey (dk off : Nat) : Nat := dk / 16 * 2 ^ 28 + dk % 16 * 2 ^ 24 + off

end Sys2Proof.Machine
end

