-- ==== Sys2Proof/Machine/Devregs.lean ====
section
/-! DEFINITION. The device registers (R4, R5, R404): offset, writable bits, write-one-to-clear bits and reset value of
every register of the die blocks. A register is named by its die and its offset in the die's block. -/
namespace Sys2Proof.Machine

/-- Bits [hi:lo] set. -/
def mask (hi lo : Nat) : Nat := 2 ^ (hi + 1) - 2 ^ lo

/-- Index, offset of an array of registers of a given stride, when off lies in it. -/
def inArray (off base stride n : Nat) : Option (Nat × Nat) :=
  if base ≤ off ∧ off < base + stride * n then some ((off - base) / stride, (off - base) % stride) else none

/-- Block offsets within a die's block (R404). -/
def mtuBlk : Nat := 0x010000
def bcastBlk : Nat := 0x018000
def demBlk : Nat := 0x020000
def calBlk (st : Nat) : Nat := 0x030000 + 0x1000 * st
def osqBlk : Nat := 0x040000
def luBlk : Nat := 0x050000
def rlfBlk : Nat := 0x060000
def fltBlk : Nat := 0x070000
def tkBlk : Nat := 0x080000
def collBlk (p : Nat) : Nat := 0x090000 + 0x1000 * p
def coreBlk (n : Nat) : Nat := 0x100000 + 0x1000 * n
def strBlk : Nat := 0x0A0000
def evqBlk : Nat := 0x0B0000
def sysBlk : Nat := 0x0C0000
def patBlk : Nat := 0x0D0000
def ethBlk (p : Nat) : Nat := 0x0E0000 + 0x10000 * p
def rdmaBlk : Nat := 0x100000
def rcBlk : Nat := 0x110000
def cxlBlk (q : Nat) : Nat := 0x120000 + 0x10000 * q


/-- Fabric block (R8, R25). -/
def fabricBits (off : Nat) : Option (Nat × Nat) :=
  if off % 8 = 0 ∧ off < 8 * 63 then some (0x8FFF, 0)
  else match inArray off 0x400 16 16 with
    | some (_, 0) => some (mask 63 48 + mask 35 0, 0)
    | some (_, 8) => some (mask 35 0, 0)
    | _ => none

/-- Translation-unit block (R32). -/
def mtuBits (off : Nat) : Option (Nat × Nat) :=
  if off = 0x00 then some (mask 51 20 + 1, 0)
  else if off = 0x08 then some (mask 56 0, 0)
  else if off = 0x18 then some (0, 1)
  else none

/-- Broadcast block of the I/O die (R32): MTU_ASDT ignores writes. -/
def bcastBits (off : Nat) : Option (Nat × Nat) :=
  if off = 0x08 then some (mask 56 0, 0)
  else if off = 0x18 then some (0, 1)
  else none

/-- Demotion-engine block (R60). -/
def demBits (off : Nat) : Option (Nat × Nat) :=
  if off = 0x00 then some (mask 13 0, 0)
  else if off = 0x08 then some (mask 63 0, 0)
  else if off = 0x10 then some (mask 51 5, 0)
  else if off = 0x18 then some (mask 23 0, 0)
  else if off = 0x20 then some (mask 51 3, 0)
  else if off = 0x28 then some (mask 23 0, 0)
  else if off = 0x48 then some (0, mask 31 16)
  else none

/-- Caliper block (R118, R119). -/
def calBits (off : Nat) : Option (Nat × Nat) :=
  if off = 0x00 then some (1, 0)
  else match inArray off 0x100 0x40 16 with
    | some (_, 0x00) => some (mask 63 63 + mask 52 24 + mask 15 0, 0)
    | some (_, 0x08) => some (mask 31 0, 0)
    | some (_, 0x10) => some (mask 51 9, 0)
    | some (_, 0x18) => some (mask 51 9, 0)
    | some (_, 0x20) => some (mask 51 3, 0)
    | some (_, 0x28) => some (mask 51 3, 0)
    | some (_, 0x30) => some (mask 15 0, 0)
    | _ => none

/-- Order-sequencer block (R141). -/
def osqBits (off : Nat) : Option (Nat × Nat) :=
  if off = 0x00 then some (mask 63 63 + mask 24 0, 0)
  else if off = 0x08 then some (mask 63 0, 0)
  else if off = 0x18 then some (0, mask 63 48)
  else none

/-- Relief block (R182). -/
def rlfBits (off : Nat) : Option (Nat × Nat) :=
  if off = 0x00 then some (mask 17 16 + mask 7 0, 0)
  else if off = 0x08 then some (mask 15 0, 0)
  else if off = 0x10 then some (mask 51 24 + 1, 0)
  else none

/-- Core block (R404). -/
def coreBits (off : Nat) : Option (Nat × Nat) :=
  if off = 0x00 then some (mask 7 0, 0)
  else if off = 0x08 then some (mask 20 0, 0)
  else if off = 0x10 then some (mask 51 19, 0)
  else if off = 0x18 then some (mask 51 16, 0)
  else if off = 0x20 then some (mask 51 22, 0)
  else if off = 0x30 then some (0, mask 24 24)
  else if off % 8 = 0 ∧ 0x100 ≤ off ∧ off < 0x138 then some (mask 63 0, 0)
  else none

/-- Ethernet port block (R414). -/
def ethBits (off : Nat) : Option (Nat × Nat) :=
  let ring (o : Nat) : Option (Nat × Nat) :=
    if o = 0x00 then some (mask 51 4, 0)
    else if o = 0x08 then some (mask 63 62 + mask 41 32 + mask 26 16 + mask 4 0, 0)
    else if o = 0x10 then some (mask 15 0, 0)
    else none
  if off = 0x00 then some (mask 63 62 + mask 55 0, 0)
  else if off = 0x10 ∨ off = 0x18 then some (mask 63 0, 0)
  else if off % 8 = 0 ∧ 0x40 ≤ off ∧ off < 0x68 then some (mask 63 0, 0)
  else if off % 8 = 0 ∧ 0x80 ≤ off ∧ off < 0x100 then some (0x3F3F3F3F3F3F3F3F, 0)
  else match inArray off 0x1000 0x20 64 with
    | some (_, o) => ring o
    | none => match inArray off 0x2000 0x20 64 with
      | some (_, o) => ring o
      | none => none

/-- RDMA block (R417). -/
def rdmaBits (off : Nat) : Option (Nat × Nat) :=
  if off = 0x00 then some (mask 63 63, 0)
  else if off = 0x08 then some (mask 51 7, 0)
  else if off = 0x10 then some (mask 16 0, 0)
  else if off = 0x18 then some (mask 51 5, 0)
  else if off = 0x20 then some (mask 23 0, 0)
  else if off = 0x28 then some (mask 51 5, 0)
  else if off = 0x30 then some (mask 15 0, 0)
  else if off = 0x38 then some (mask 51 5, 0)
  else if off = 0x40 then some (mask 15 0, 0)
  else if off = 0x48 then some (mask 31 0, 0)
  else none

/-- Offset of the HDM decoder capability in a CXL port's component registers, and of its decoder n (R421; PRESUMED, log 23). -/
def hdmCap : Nat := 0x1200
def hdmDec (n : Nat) : Nat := hdmCap + 0x10 + 0x20 * n

/-- HDM decoder capability of a CXL port (R421; PRESUMED, log 23): global control, and each decoder's base, size, control with the target
list of its first ways, and target list of the others. -/
def hdmBits (off : Nat) : Option (Nat × Nat) :=
  if off = hdmCap then some (mask 33 32, 0)
  else match inArray off (hdmDec 0) 0x20 8 with
    | some (_, 0x00) => some (mask 63 28, 0)
    | some (_, 0x08) => some (mask 63 28, 0)
    | some (_, 0x10) => some (mask 63 32 + mask 12 12 + mask 9 0, 0)
    | some (_, 0x18) => some (mask 63 0, 0)
    | _ => none

/-- Writable and write-one-to-clear bits of the register at an offset of a die's block (R404). -/
def regBits (io : Bool) (off : Nat) : Option (Nat × Nat) :=
  if off % 8 != 0 then none
  else if off < 0x010000 then fabricBits off
  else if off < 0x018000 then mtuBits (off - mtuBlk)
  else if off < 0x020000 then if io then bcastBits (off - bcastBlk) else none
  else if off < 0x021000 then demBits (off - demBlk)
  else if off < 0x022000 then if io then demBits (off - 0x021000) else none
  else if off < 0x070000 ∧ io then none
  else if 0x030000 ≤ off ∧ off < 0x033000 then calBits ((off - 0x030000) % 0x1000)
  else if 0x040000 ≤ off ∧ off < 0x041000 then osqBits (off - osqBlk)
  else if off = luBlk + 0x10 then some (mask 19 0, 0)
  else if 0x060000 ≤ off ∧ off < 0x061000 then rlfBits (off - rlfBlk)
  else if off = tkBlk ∧ !io then some (mask 63 63 + mask 51 10, 0)
  else if 0x090000 ≤ off ∧ off < 0x092000 ∧ !io then
    if (off - 0x090000) % 0x1000 = 0 then some (mask 32 0, 0)
    else if (off - 0x090000) % 0x1000 = 8 then some (0, mask 23 23)
    else none
  else if !io then
    match inArray off 0x100000 0x1000 256 with
    | some (_, o) => coreBits o
    | none => none
  else if 0x0A0000 ≤ off ∧ off < 0x0A2000 then
    match (off - strBlk) % 0x20 with
    | 0x00 => some (mask 63 63 + mask 61 32 + mask 15 0, mask 62 62)
    | 0x08 => some (mask 56 0, 0)
    | 0x10 => some (mask 63 0, 0)
    | _ => some (mask 31 0, 0)
  else if off = evqBlk then some (mask 51 6 + mask 1 0, 0)
  else if off = evqBlk + 8 then some (mask 20 0, 0)
  else if off = evqBlk + 0x10 then some (mask 31 0, 0)
  else if off = sysBlk then some (0, 4)
  else if off = sysBlk + 8 then some (mask 31 16, 0)
  else if off = patBlk then some (mask 51 18, 1)
  else if 0x0E0000 ≤ off ∧ off < 0x100000 then ethBits ((off - 0x0E0000) % 0x10000)
  else if 0x100000 ≤ off ∧ off < 0x110000 then rdmaBits (off - rdmaBlk)
  else if off = rcBlk then some (mask 3 0, 0)
  else if off = rcBlk + 8 then some (mask 51 19, 0)
  else if 0x120000 ≤ off ∧ off < 0x140000 then hdmBits ((off - 0x120000) % 0x10000)
  else none

/-- Reset values that are not zero (R119, R182, R226, R410, R414, R417; DESIGN CHOICE, log 22). -/
def regReset (dk off : Nat) : Word :=
  let io := dk % 16 = 8
  if !io then
    if off = rlfBlk then 3
    else if 0x030000 ≤ off ∧ off < 0x033000 ∧ (off - 0x030000) % 0x1000 ≥ 0x100 ∧
        (off - 0x030000) % 0x1000 < 0x500 ∧ off % 0x40 = 8 then 0x7F800000
    else match inArray off 0x100000 0x1000 256 with
      | some (_, o) => if off % 8 = 0 ∧ 0x100 ≤ o ∧ o < 0x138 then 0xFFFFFFFF else 0
      | none => 0
  else
    if off = sysBlk + 8 then BitVec.ofNat 64 (1250 * 65536 + 2700)
    else if off = rdmaBlk + 0x48 then BitVec.ofNat 64 (64 * 2 ^ 24 + 1000)
    else if off = ethBlk 0 then (Config.fusedMac (dk / 16) 0).setWidth 64
    else if off = ethBlk 1 then (Config.fusedMac (dk / 16) 1).setWidth 64
    else 0

/-- The stored bits of a register. -/
def rawReg (s : State) (dk off : Nat) : Word := mget s.regs (regKey dk off) (regReset dk off)

/-- Stores a register's bits. -/
def setRaw (s : State) (dk off : Nat) (v : Word) : State := { s with regs := mset s.regs (regKey dk off) v }

/-- Stores the RW bits of a written value and clears the W1C bits written as 1; every other bit keeps its value (R4, R5);
an offset that names no such register ignores the write. -/
def storeReg (s : State) (dk off : Nat) (v : Word) : State :=
  match regBits (dk % 16 = 8) off with
  | none => s
  | some (rw, w1c) =>
    let old := rawReg s dk off
    let m : Word := BitVec.ofNat 64 rw
    let c : Word := BitVec.ofNat 64 w1c
    setRaw s dk off ((old &&& ~~~m &&& ~~~(v &&& c)) ||| (v &&& m))

end Sys2Proof.Machine
end

