-- ==== Sys2Proof/Machine/Events.lean ====
section
/-! DEFINITION. Fault records, events and Patina (R31, R193 to R195, R411). -/
namespace Sys2Proof.Machine

/-- ACC code of an access (R31). -/
def Acc.code : Acc → Nat
  | .load => 0
  | .store => 1
  | .atom => 2
  | .cas => 3
  | .red => 4
  | .fetch => 5
  | .erd => 6
  | .ewr => 7
  | .mobj => 8

/-- ACC of a request's fault record: an ATOMIC of the RDMA engine, judged as CAS or ATOM, is recorded as an engine write (R416 has ACC 6 or 7;
DESIGN CHOICE, log 34). -/
def recAcc (q : Req) : Nat := if q.src.agent = some 1 ∧ (q.acc = .cas ∨ q.acc = .atom) then 7 else q.acc.code

/-- Word 0 of a fault record (R31). -/
def FRec.w0 (r : FRec) : Word :=
  BitVec.ofNat 64 (r.rsys % 4096 * 2 ^ 52 + r.nc.toNat * 2 ^ 51 + r.txn.toNat * 2 ^ 50 + r.rctx % 8 * 2 ^ 47 +
    r.rcore % 256 * 2 ^ 39 + r.rdie % 8 * 2 ^ 36 + r.asid % 2 ^ 16 * 2 ^ 20 + r.gen % 16 * 2 ^ 16 + r.lvl % 16 * 2 ^ 12 +
    r.acc % 16 * 2 ^ 8 + r.kind % 256)

/-- Words 1 to 3 of a fault record (R31). -/
def FRec.w1 (r : FRec) : Word := BitVec.ofNat 64 (r.va % 2 ^ 57)
def FRec.w2 (r : FRec) : Word := r.entry
def FRec.w3 (r : FRec) : Word := BitVec.ofNat 64 (r.seq % 2 ^ 32)

/-- The system package number of a package (R8). -/
def sysPkg (s : State) (pkg : Nat) : Nat := (pkgAt s pkg).sys

/-- An event of a kind from a die, with no fault record and the two DETAIL words (R193; DESIGN CHOICE, log 17). -/
def mkEvent (s : State) (dk kind : Nat) (w5 w6 : Word) : Event where
  kind := kind
  count := 1
  sys := sysPkg s (dk / 16)
  iod := dk % 16 = 8
  die := if dk % 16 = 8 then 0 else dk % 16
  frec := false
  w1 := 0
  w2 := 0
  w3 := 0
  w4 := 0
  w5 := w5
  w6 := w6
  w7 := BitVec.ofNat 64 (timeOf s (dk / 16))

/-- An event that carries a fault record (R193). -/
def withRec (e : Event) (r : FRec) : Event := { e with frec := true, w1 := r.w0, w2 := r.w1, w3 := r.w2, w4 := r.w3 }

/-- Word 0 of an event record (R193), with PKIND of a Patina record in bits [23:16] (R411). -/
def Event.w0 (e : Event) (pkind : Nat) : Word :=
  BitVec.ofNat 64 (e.kind % 256 * 2 ^ 56 + e.count % 2 ^ 16 * 2 ^ 40 + e.sys % 4096 * 2 ^ 28 + e.iod.toNat * 2 ^ 27 +
    e.die % 8 * 2 ^ 24 + pkind % 256 * 2 ^ 16)

/-- The eight words of an event record. -/
def Event.words (e : Event) (pkind : Nat) : List Word := [e.w0 pkind, e.w1, e.w2, e.w3, e.w4, e.w5, e.w6, e.w7]

/-- Writes a record to Patina's ring (R411). -/
def patinaWrite (s : State) (pkg : Nat) (ws : List Word) : State :=
  let p := pkgAt s pkg
  setPkg s pkg { p with patina := mset p.patina (p.patHead.toNat % 4096) ws, patHead := p.patHead + 1 }

/-- On a fatal error the ring is copied to the DDR area at PAT_CTL.BASE, pushed to the management network, and FLUSHED
is set (R411). -/
def patinaFlush (s : State) (pkg : Nat) : State :=
  let p := pkgAt s pkg
  let base := wfld (rawReg s (ioDie pkg) patBlk) 18 34 * 2 ^ 18
  let image := (List.range 4096).flatMap fun i => bytesOf (mget p.patina i [0, 0, 0, 0, 0, 0, 0, 0])
  let s := { s with mem := writeBytes s.mem (ddr pkg base) image }
  let s := setPkg s pkg { p with out := p.out ++ [(0, image)] }
  setRaw s (ioDie pkg) patBlk (rawReg s (ioDie pkg) patBlk ||| 1)

/-- Whether an event coalesces into a held record (R195). -/
def coalesces (held e : Event) : Bool :=
  held.kind == e.kind && held.frec == e.frec &&
    (if e.frec then wfld held.w1 20 16 == wfld e.w1 20 16 && wfld held.w2 16 41 == wfld e.w2 16 41
     else held.w5 == e.w5 && held.w6 == e.w6)

/-- The buffer with the event counted into the first record it coalesces with. -/
def coalesce (e : Event) : List Event → Option (List Event × Bool)
  | [] => none
  | h :: r =>
    if coalesces h e then
      if h.count < 65535 then some ({ h with count := h.count + 1 } :: r, true) else some (h :: r, false)
    else (coalesce e r).map fun p => (h :: p.1, p.2)

/-- Counts an event as lost to the queue and writes it to Patina (R195); LOST saturates. -/
def loseEvent (s : State) (dk : Nat) (e : Event) : State :=
  let d := dieAt s dk
  let s := setDie s dk { d with lost := if d.lost = BitVec.allOnes 32 then d.lost else d.lost + 1 }
  patinaWrite s (dk / 16) (e.words 0)

/-- Posts an event at a die: coalesced with a held record, placed in the overflow buffer of 64 records, or counted as
lost (R195). -/
def postEvent (s : State) (dk : Nat) (e : Event) : State :=
  let d := dieAt s dk
  match coalesce e d.buf with
  | some (buf, true) => setDie s dk { d with buf := buf }
  | some (_, false) => loseEvent s dk e
  | none => if d.buf.length < 64 then setDie s dk { d with buf := d.buf ++ [e] } else loseEvent s dk e

/-- The fault record of a request found by a unit, and the state with the unit's sequence number advanced and the record
posted once (R31): as an event of kind 0x06 for the kinds 0x16 and 0x17, of kind 0x01 for every other kind (DEDUCED, log 19). -/
def raiseFault (s : State) (dk : Nat) (q : Req) (kind lvl va : Nat) (entry : Word) : FRec × State :=
  let m := mtuAt s dk
  let io := q.src.die = 8
  let r : FRec :=
    { rsys := sysPkg s q.src.pkg, nc := q.src.agent.isSome, txn := q.txn.isSome,
      rctx := if q.src.agent.isSome then 0 else q.src.ctx,
      rcore := match q.src.agent with
        | some a => a + (if io then 128 else 0)
        | none => q.src.core,
      rdie := if io then 0 else q.src.die,
      asid := q.asid, gen := q.gen, lvl := lvl, acc := recAcc q, kind := kind, va := va % 2 ^ 57, entry := entry,
      seq := m.faults.toNat }
  let s := setMtu s dk { m with faults := m.faults + 1 }
  let ek := if kind = 0x16 ∨ kind = 0x17 then 0x06 else 0x01
  (r, postEvent s dk (withRec (mkEvent s dk ek 0 0) r))

/-- Kinds that R30, R53, R111, R134, R202 and R237 mark recoverable. -/
def recoverable (kind : Nat) : Bool :=
  [0x01, 0x02, 0x03, 0x04, 0x05, 0x06, 0x07, 0x09, 0x0C, 0x0E, 0x0F, 0x18].contains kind

end Sys2Proof.Machine
end

