-- ==== Sys2Proof/Machine/Aplic.lean ====
section
/-! DEFINITION. The interrupts of the service cores (R194, R195, R407, R422): the levels that the event queue, the drain and the dies' sidebands
hold, the interrupt files, and the APLIC; their registers are those of the RISC-V Advanced Interrupt Architecture (PRESUMED, log 66). -/
namespace Sys2Proof.Machine

/-! ### Levels -/

/-- The event interrupt: it is raised while TAIL differs from HEAD and IE is set (R194). -/
def eventIrq (s : State) (pkg : Nat) : Bool :=
  wbit (rawReg s (ioDie pkg) evqBlk) 1 && (pkgAt s pkg).evqTail != (rawReg s (ioDie pkg) (evqBlk + 0x10)).setWidth 32

/-- The drain interrupt: it is raised while DIE is set (R406, R407). -/
def drainIrq (s : State) (pkg : Nat) : Bool := (pkgAt s pkg).drain

/-- The interrupt that a die holds asserted on its link sideband for the management core while LOST is not zero (R195, R422). -/
def sidebandIrq (s : State) (die : Nat) : Bool := (dieAt s die).lost != 0

/-! ### Interrupt files -/

/-- A list of pairs in rising order with one entered. -/
def enterPair (x : Nat × Nat) : List (Nat × Nat) → List (Nat × Nat)
  | [] => [x]
  | y :: r => if x = y then y :: r else if x.1 < y.1 ∨ (x.1 = y.1 ∧ x.2 < y.2) then x :: y :: r else y :: enterPair x r

/-- An identity is set pending in an implemented file of one of the 64 service cores (R422). -/
def setPending (s : State) (pkg file id : Nat) : State :=
  if file < 1024 && file % 16 < 9 && 1 ≤ id && id < 2048 then
    let p := pkgAt s pkg
    setPkg s pkg { p with imsic := enterPair (file, id) p.imsic }
  else s

/-- An interrupt file of a service core that exists (R422). -/
def hasFile (file : Nat) : Bool := file < 1024 && file % 16 < 9

/-- A file as after reset: nothing is delivered, no threshold, no identity enabled (log 66). -/
def IntFile.reset : IntFile := ⟨0, 0, []⟩

def fileAt (s : State) (pkg file : Nat) : IntFile := mget (pkgAt s pkg).files file IntFile.reset
def setFile (s : State) (pkg file : Nat) (x : IntFile) : State :=
  let p := pkgAt s pkg
  setPkg s pkg { p with files := mset p.files file x }

/-- The identities pending in a file. -/
def pendingOf (s : State) (pkg file : Nat) : List Nat := ((pkgAt s pkg).imsic.filter fun e => e.1 = file).map Prod.snd

/-- The identity that a file puts first: the lowest that is pending and enabled, below the threshold where one is set; 0 for none. -/
def topOf (s : State) (pkg file : Nat) : Nat :=
  let x := fileAt s pkg file
  ((pendingOf s pkg file).find? fun id => x.enab.contains id && (x.threshold = 0 || id < x.threshold)).getD 0

/-- The interrupt that a file holds asserted at its core (R422). -/
def fileIrq (s : State) (pkg file : Nat) : Bool := hasFile file && (fileAt s pkg file).deliver = 1 && topOf s pkg file != 0

/-- The 64 identities that a register of an array stands for, from a base. -/
def idWord (base reg : Nat) : List Nat := (span ((reg - base) / 2 * 64) 64).filter (1 ≤ ·)

/-- A word of the bits of those of its 64 identities that a list holds. -/
def bitsOf (l ids : List Nat) : Word := BitVec.ofNat 64 ((ids.filter l.contains).foldl (fun n id => n + 2 ^ (id % 64)) 0)

/-- A list of identities in rising order with 64 of them set as the bits of a word. -/
def withIds (l ids : List Nat) (v : Word) : List Nat :=
  let lo := ids.headD 0
  l.filter (fun id => id < lo) ++ ids.filter (fun id => wbit v (id % 64)) ++ l.filter fun id => lo < id && !ids.contains id

/-- A register of an interrupt file as it reads: eidelivery 0x70, eithreshold 0x72, and the even ones of eip 0x80 to 0xBF and eie 0xC0 to 0xFF, of
64 bits (R422; PRESUMED, log 66). -/
def fileRead (s : State) (pkg file reg : Nat) : Word :=
  let x := fileAt s pkg file
  if reg = 0x70 then BitVec.ofNat 64 x.deliver
  else if reg = 0x72 then BitVec.ofNat 64 x.threshold
  else if reg % 2 = 1 then 0
  else if 0x80 ≤ reg ∧ reg < 0xC0 then bitsOf (pendingOf s pkg file) (idWord 0x80 reg)
  else if 0xC0 ≤ reg ∧ reg < 0x100 then bitsOf x.enab (idWord 0xC0 reg)
  else 0

/-- A write of such a register: a delivery other than 0 and 1 is not taken. -/
def fileWrite (s : State) (pkg file reg : Nat) (v : Word) : State :=
  let x := fileAt s pkg file
  if !hasFile file then s
  else if reg = 0x70 then if v.toNat < 2 then setFile s pkg file { x with deliver := v.toNat } else s
  else if reg = 0x72 then setFile s pkg file { x with threshold := wfld v 0 11 }
  else if reg % 2 = 1 then s
  else if 0x80 ≤ reg ∧ reg < 0xC0 then
    let p := pkgAt s pkg
    let other (lt : Bool) : List (Nat × Nat) := p.imsic.filter fun e => e.1 != file && decide (e.1 < file) == lt
    setPkg s pkg { p with imsic := other true ++ (withIds (pendingOf s pkg file) (idWord 0x80 reg) v).map (file, ·) ++ other false }
  else if 0xC0 ≤ reg ∧ reg < 0x100 then setFile s pkg file { x with enab := withIds x.enab (idWord 0xC0 reg) v }
  else s

/-- A core claims the identity that its file puts first, which is pending no longer: the identity in both halves of the answer. -/
def fileClaim (s : State) (pkg file : Nat) : Word × State :=
  let id := topOf s pkg file
  let p := pkgAt s pkg
  (BitVec.ofNat 64 (id * 65536 + id), setPkg s pkg { p with imsic := p.imsic.filter fun e => e != (file, id) })

/-- The file of an address in the interrupt window (R422). -/
def interruptFile (addr : Nat) : Option Nat :=
  let base := 0xF00020000000
  if base ≤ addr ∧ addr < base + 0x1000 * 1024 then some ((addr - base) / 0x1000) else none

/-- A 4-byte write of an identity to an address: in the interrupt window it sets the identity pending (R422). -/
def interruptAt (s : State) (pkg addr id : Nat) : State := match interruptFile addr with
  | some f => setPending s pkg f id
  | none => s

/-! ### The APLIC -/

/-- Its wired sources (R422). -/
def wiredSources : List Nat := [1, 2]

def sourceLevel (s : State) (pkg src : Nat) : Bool := if src = 1 then eventIrq s pkg else src == 2 && drainIrq s pkg

/-- Source modes: 4 and 5 rising and falling edge, 6 and 7 level high and low; 0 inactive, 1 detached. -/
def aplicMode (a : Aplic) (src : Nat) : Nat := mget a.mode src 0

/-- The rectified input of a source. -/
def rectified (s : State) (pkg : Nat) (a : Aplic) (src : Nat) : Bool :=
  let m := aplicMode a src
  if m = 4 ∨ m = 6 then sourceLevel s pkg src else if m = 5 ∨ m = 7 then !sourceLevel s pkg src else false

/-- A list of sources with one put in or taken out. -/
def withSource (l : List Nat) (src : Nat) (b : Bool) : List Nat :=
  wiredSources.filter fun x => if x = src then b else l.contains x

/-- What a source's input does to its pending bit: a rise sets it, and a low level-sensitive input clears it. -/
def senseSource (s : State) (pkg : Nat) (a : Aplic) (src : Nat) : Aplic :=
  let r := rectified s pkg a src
  let p := a.pend.contains src
  let p := if r && !a.high.contains src then true else if !r && 6 ≤ aplicMode a src then false else p
  { a with pend := withSource a.pend src p, high := withSource a.high src r }

/-- The address of a message to a hart, from the message address configuration. -/
def msiAddr (a : Aplic) (hart guest : Nat) : Nat :=
  let c := a.msi.toNat
  let lw := fld c 44 4
  let g := hart / 2 ^ lw % 2 ^ fld c 48 3
  let h := hart % 2 ^ lw
  (fld c 0 44 ||| g * 2 ^ (fld c 56 5 + 12) ||| h * 2 ^ fld c 52 3 ||| guest) * 4096

/-- An enabled pending source is delivered to its target's file as a message, which clears it. -/
def deliverSource (s : State) (pkg src : Nat) : State :=
  let p := pkgAt s pkg
  let a := p.aplic
  if a.ie && a.pend.contains src && a.enab.contains src then
    let t := mget a.target src 0
    interruptAt (setPkg s pkg { p with aplic := { a with pend := withSource a.pend src false } }) pkg
      (msiAddr a (fld t 18 14) (fld t 12 6)) (fld t 0 11)
  else s

/-- The APLIC takes in its sources and delivers what is pending and enabled (R422). -/
def aplicUpdate (s : State) (pkg : Nat) : State :=
  let p := pkgAt s pkg
  let a := wiredSources.foldl (senseSource s pkg) p.aplic
  wiredSources.foldl (fun s src => deliverSource s pkg src) (if a = p.aplic then s else setPkg s pkg { p with aplic := a })

/-- The mode that a sourcecfg write leaves: no child domain exists, and modes 2 and 3 are reserved. -/
def legalMode (v : Nat) : Nat := if v / 1024 % 2 = 1 ∨ v % 8 = 2 ∨ v % 8 = 3 then 0 else v % 8

/-- A pending bit set by a write: of a level-sensitive source only while its input is high. -/
def setSource (s : State) (pkg : Nat) (a : Aplic) (src : Nat) : Aplic :=
  if wiredSources.contains src && aplicMode a src != 0 && (aplicMode a src < 6 || rectified s pkg a src) then
    { a with pend := withSource a.pend src true }
  else a

/-- The wired sources whose bits are set in a word. -/
def sourcesOf (v : Nat) : List Nat := wiredSources.filter v.testBit

/-- A write of 32 bits to a register of the APLIC, before its sources are taken in. -/
def aplicStore (s : State) (pkg off v : Nat) (a : Aplic) : Aplic :=
  let src := if off < 0x3000 then off / 4 else (off - 0x3000) / 4
  if off = 0 then { a with ie := v.testBit 8 }
  else if off < 0x1000 then
    if !wiredSources.contains src then a
    else
      let a := { a with mode := mset a.mode src (legalMode v) }
      if legalMode v = 0 then
        { a with pend := withSource a.pend src false, enab := withSource a.enab src false, target := mdel a.target src }
      else a
  else if off = 0x1BC0 then if a.msi.getLsbD 63 then a else { a with msi := putFld a.msi 0 32 v }
  else if off = 0x1BC4 then if a.msi.getLsbD 63 then a else { a with msi := putFld a.msi 32 32 v }
  else if off = 0x1C00 then (sourcesOf v).foldl (setSource s pkg) a
  else if off = 0x1CDC ∨ off = 0x2000 then setSource s pkg a v
  else if off = 0x2004 then setSource s pkg a (ofBytes (toBytes 4 v).reverse)
  else if off = 0x1D00 then { a with pend := a.pend.filter fun x => !v.testBit x }
  else if off = 0x1DDC then { a with pend := a.pend.filter fun x => x != v }
  else if off = 0x1E00 then { a with enab := (sourcesOf v).foldl (fun l x => withSource l x (aplicMode a x != 0)) a.enab }
  else if off = 0x1EDC then { a with enab := withSource a.enab v (aplicMode a v != 0) }
  else if off = 0x1F00 then { a with enab := a.enab.filter fun x => !v.testBit x }
  else if off = 0x1FDC then { a with enab := a.enab.filter fun x => x != v }
  else if 0x3000 < off then
    if wiredSources.contains src && aplicMode a src != 0 then { a with target := mset a.target src v } else a
  else a

/-- A write to the APLIC; one to genmsi sends a message. -/
def aplicWrite (s : State) (pkg off v : Nat) : State :=
  let p := pkgAt s pkg
  if off % 4 != 0 then s
  else if off = 0x3000 then interruptAt s pkg (msiAddr p.aplic (fld v 18 14) 0) (fld v 0 11)
  else aplicUpdate (setPkg s pkg { p with aplic := aplicStore s pkg off v p.aplic }) pkg

/-- The bits of a list of sources. -/
def sourceBits (l : List Nat) : Nat := l.foldl (fun n x => n ||| 2 ^ x) 0

/-- What a register of the APLIC reads as. -/
def aplicRead (s : State) (pkg off : Nat) : Nat :=
  let a := (pkgAt s pkg).aplic
  if off = 0 then 0x80000004 + a.ie.toNat * 256
  else if off < 0x1000 then aplicMode a (off / 4)
  else if off = 0x1BC0 then wfld a.msi 0 32
  else if off = 0x1BC4 then wfld a.msi 32 32
  else if off = 0x1C00 then sourceBits a.pend
  else if off = 0x1D00 then sourceBits (wiredSources.filter (rectified s pkg a))
  else if off = 0x1E00 then sourceBits a.enab
  else if 0x3000 < off ∧ off < 0x4000 then mget a.target ((off - 0x3000) / 4) 0
  else 0

end Sys2Proof.Machine
end

