-- ==== Sys2Proof/Decode.lean ====
section
/-! DEFINITION. The encodings (R254 to R274): the table of encoded rows, the decoder of any bytes, and the encoder,
both from that table. A word that no row describes is rejected by name; the machine turns a rejection into the
illegal-instruction trap (R266). -/
namespace Sys2Proof

/-- One row: the fixed bits as mask and value, the operand fields as (lowest bit, width) from the lowest up, and the
instruction that field values make. -/
structure Row where
  mask : Nat
  value : Nat
  fields : List (Nat × Nat)
  build : List Nat → Instr

/-- Field i of a list of field values. -/
def fieldAt {w : Nat} (f : List Nat) (i : Nat) : BitVec w := BitVec.ofNat w (f.getD i 0)

/-- The 16-bit encodings (R257, R258) (part 0). -/
def rows16Part0 : List Row := [
  ⟨0x041F, 0x0004, [(5, 5), (11, 5)],
    fun f => .add16 (fieldAt f 0) (fieldAt f 1)⟩,
  ⟨0x041F, 0x0002, [(5, 5), (11, 5)],
    fun f => .mov (fieldAt f 0) (fieldAt f 1)⟩,
  ⟨0x041F, 0x0006, [(5, 5), (11, 5)],
    fun f => .sub16 (fieldAt f 0) (fieldAt f 1)⟩,
  ⟨0x001F, 0x0008, [(5, 5), (10, 6)],
    fun f => .addi6 (fieldAt f 0) (fieldAt f 1)⟩,
  ⟨0x001F, 0x000A, [(5, 5), (10, 6)],
    fun f => .li6 (fieldAt f 0) (fieldAt f 1)⟩,
  ⟨0x041F, 0x000C, [(5, 5), (11, 5)],
    fun f => .and16 (fieldAt f 0) (fieldAt f 1)⟩,
  ⟨0x041F, 0x000E, [(5, 5), (11, 5)],
    fun f => .or16 (fieldAt f 0) (fieldAt f 1)⟩,
  ⟨0x001F, 0x0010, [(5, 5), (10, 6)],
    fun f => .ldDShort (fieldAt f 0) (fieldAt f 1)⟩,
  ⟨0x001F, 0x0012, [(5, 5), (10, 6)],
    fun f => .stDShort (fieldAt f 0) (fieldAt f 1)⟩,
  ⟨0x001F, 0x0014, [(5, 5), (10, 6)],
    fun f => .bz (fieldAt f 0) (fieldAt f 1)⟩,
  ⟨0x001F, 0x0016, [(5, 5), (10, 6)],
    fun f => .bnz (fieldAt f 0) (fieldAt f 1)⟩,
  ⟨0x001F, 0x0018, [(5, 11)],
    fun f => .b16 (fieldAt f 0)⟩,
  ⟨0x001F, 0x001A, [(5, 5), (10, 6)],
    fun f => .shli16 (fieldAt f 0) (fieldAt f 1)⟩,
  ⟨0x001F, 0x001C, [(5, 5), (10, 6)],
    fun f => .shri16 (fieldAt f 0) (fieldAt f 1)⟩,
  ⟨0xFFFF, 0x001E, [],
    fun _ => .nop⟩,
  ⟨0xFFFF, 0x003E, [],
    fun _ => .done⟩,
  ⟨0xFFFF, 0x005E, [],
    fun _ => .brk16⟩,
  ⟨0xFFFF, 0x007E, [],
    fun _ => .ret⟩]

/-- The 16-bit encodings (R257, R258). -/
def rows16 : List Row := rows16Part0

/-- The 32-bit encodings (R259 to R274) (part 0). -/
def rows32Part0 : List Row := [
  ⟨0xFFC0007F, 0x00000003, [(7, 5), (12, 5), (17, 5)],
    fun f => .add (fieldAt f 0) (fieldAt f 1) (fieldAt f 2)⟩,
  ⟨0xFFC0007F, 0x00400003, [(7, 5), (12, 5), (17, 5)],
    fun f => .sub (fieldAt f 0) (fieldAt f 1) (fieldAt f 2)⟩,
  ⟨0xFFC0007F, 0x00800003, [(7, 5), (12, 5), (17, 5)],
    fun f => .mul (fieldAt f 0) (fieldAt f 1) (fieldAt f 2)⟩,
  ⟨0xFFC0007F, 0x00C00003, [(7, 5), (12, 5), (17, 5)],
    fun f => .mulh (fieldAt f 0) (fieldAt f 1) (fieldAt f 2)⟩,
  ⟨0xFFC0007F, 0x01000003, [(7, 5), (12, 5), (17, 5)],
    fun f => .mulhz (fieldAt f 0) (fieldAt f 1) (fieldAt f 2)⟩,
  ⟨0xFFC0007F, 0x01400003, [(7, 5), (12, 5), (17, 5)],
    fun f => .div (fieldAt f 0) (fieldAt f 1) (fieldAt f 2)⟩,
  ⟨0xFFC0007F, 0x01800003, [(7, 5), (12, 5), (17, 5)],
    fun f => .divz (fieldAt f 0) (fieldAt f 1) (fieldAt f 2)⟩,
  ⟨0xFFC0007F, 0x01C00003, [(7, 5), (12, 5), (17, 5)],
    fun f => .rem (fieldAt f 0) (fieldAt f 1) (fieldAt f 2)⟩,
  ⟨0xFFC0007F, 0x02000003, [(7, 5), (12, 5), (17, 5)],
    fun f => .remz (fieldAt f 0) (fieldAt f 1) (fieldAt f 2)⟩,
  ⟨0xFFC0007F, 0x02400003, [(7, 5), (12, 5), (17, 5)],
    fun f => .and (fieldAt f 0) (fieldAt f 1) (fieldAt f 2)⟩,
  ⟨0xFFC0007F, 0x02800003, [(7, 5), (12, 5), (17, 5)],
    fun f => .andn (fieldAt f 0) (fieldAt f 1) (fieldAt f 2)⟩,
  ⟨0xFFC0007F, 0x02C00003, [(7, 5), (12, 5), (17, 5)],
    fun f => .or (fieldAt f 0) (fieldAt f 1) (fieldAt f 2)⟩,
  ⟨0xFFC0007F, 0x03000003, [(7, 5), (12, 5), (17, 5)],
    fun f => .xor (fieldAt f 0) (fieldAt f 1) (fieldAt f 2)⟩,
  ⟨0xFFC0007F, 0x03400003, [(7, 5), (12, 5), (17, 5)],
    fun f => .shl (fieldAt f 0) (fieldAt f 1) (fieldAt f 2)⟩,
  ⟨0xFFC0007F, 0x03800003, [(7, 5), (12, 5), (17, 5)],
    fun f => .shr (fieldAt f 0) (fieldAt f 1) (fieldAt f 2)⟩,
  ⟨0xFFC0007F, 0x03C00003, [(7, 5), (12, 5), (17, 5)],
    fun f => .sra (fieldAt f 0) (fieldAt f 1) (fieldAt f 2)⟩,
  ⟨0xFFC0007F, 0x04000003, [(7, 5), (12, 5), (17, 5)],
    fun f => .rol (fieldAt f 0) (fieldAt f 1) (fieldAt f 2)⟩,
  ⟨0xFFFE007F, 0x04400003, [(7, 5), (12, 5)],
    fun f => .clz (fieldAt f 0) (fieldAt f 1)⟩,
  ⟨0xFFFE007F, 0x04800003, [(7, 5), (12, 5)],
    fun f => .ctz (fieldAt f 0) (fieldAt f 1)⟩,
  ⟨0xFFFE007F, 0x04C00003, [(7, 5), (12, 5)],
    fun f => .popc (fieldAt f 0) (fieldAt f 1)⟩,
  ⟨0xFFC0007F, 0x05000003, [(7, 5), (12, 5), (17, 5)],
    fun f => .min (fieldAt f 0) (fieldAt f 1) (fieldAt f 2)⟩,
  ⟨0xFFC0007F, 0x05400003, [(7, 5), (12, 5), (17, 5)],
    fun f => .max (fieldAt f 0) (fieldAt f 1) (fieldAt f 2)⟩,
  ⟨0xFFC0007F, 0x05800003, [(7, 5), (12, 5), (17, 5)],
    fun f => .minz (fieldAt f 0) (fieldAt f 1) (fieldAt f 2)⟩,
  ⟨0xFFC0007F, 0x05C00003, [(7, 5), (12, 5), (17, 5)],
    fun f => .maxz (fieldAt f 0) (fieldAt f 1) (fieldAt f 2)⟩,
  ⟨0xFFC0007F, 0x06000003, [(7, 5), (12, 5), (17, 5)],
    fun f => .seq (fieldAt f 0) (fieldAt f 1) (fieldAt f 2)⟩,
  ⟨0xFFC0007F, 0x06400003, [(7, 5), (12, 5), (17, 5)],
    fun f => .sne (fieldAt f 0) (fieldAt f 1) (fieldAt f 2)⟩,
  ⟨0xFFC0007F, 0x06800003, [(7, 5), (12, 5), (17, 5)],
    fun f => .slt (fieldAt f 0) (fieldAt f 1) (fieldAt f 2)⟩,
  ⟨0xFFC0007F, 0x06C00003, [(7, 5), (12, 5), (17, 5)],
    fun f => .sltz (fieldAt f 0) (fieldAt f 1) (fieldAt f 2)⟩,
  ⟨0xFFC0007F, 0x07000003, [(7, 5), (12, 5), (17, 5)],
    fun f => .sel (fieldAt f 0) (fieldAt f 1) (fieldAt f 2)⟩]

/-- The 32-bit encodings (R259 to R274) (part 1). -/
def rows32Part1 : List Row := [
  ⟨0xFFFE007F, 0x07400003, [(7, 5), (12, 5)],
    fun f => .bswap (fieldAt f 0) (fieldAt f 1)⟩,
  ⟨0xFFC0007F, 0x07800003, [(7, 5), (12, 5), (17, 5)],
    fun f => .clmul (fieldAt f 0) (fieldAt f 1) (fieldAt f 2)⟩,
  ⟨0xFFC0007F, 0x07C00003, [(7, 5), (12, 5), (17, 5)],
    fun f => .clmulh (fieldAt f 0) (fieldAt f 1) (fieldAt f 2)⟩,
  ⟨0xFFC0007F, 0x08000003, [(7, 5), (12, 5), (17, 5)],
    fun f => .crc (fieldAt f 0) (fieldAt f 1) (fieldAt f 2)⟩,
  ⟨0xFFC0007F, 0x08400003, [(7, 5), (12, 5), (17, 5)],
    fun f => .hdrPack (fieldAt f 0) (fieldAt f 1) (fieldAt f 2)⟩,
  ⟨0xFFC0007F, 0x08800003, [(7, 5), (12, 5), (17, 5)],
    fun f => .hdrUnpk (fieldAt f 0) (fieldAt f 1) (fieldAt f 2)⟩,
  ⟨0x0000007F, 0x00000005, [(7, 5), (12, 5), (17, 15)],
    fun f => .addi (fieldAt f 0) (fieldAt f 1) (fieldAt f 2)⟩,
  ⟨0x0000007F, 0x00000007, [(7, 5), (12, 5), (17, 15)],
    fun f => .andi (fieldAt f 0) (fieldAt f 1) (fieldAt f 2)⟩,
  ⟨0x0000007F, 0x00000009, [(7, 5), (12, 5), (17, 15)],
    fun f => .ori (fieldAt f 0) (fieldAt f 1) (fieldAt f 2)⟩,
  ⟨0x0000007F, 0x0000000B, [(7, 5), (12, 5), (17, 15)],
    fun f => .xori (fieldAt f 0) (fieldAt f 1) (fieldAt f 2)⟩,
  ⟨0x0000007F, 0x0000000D, [(7, 5), (12, 5), (17, 15)],
    fun f => .slti (fieldAt f 0) (fieldAt f 1) (fieldAt f 2)⟩,
  ⟨0x0001F07F, 0x0000000F, [(7, 5), (17, 15)],
    fun f => .li (fieldAt f 0) (fieldAt f 1)⟩,
  ⟨0xFF80007F, 0x00000011, [(7, 5), (12, 5), (17, 6)],
    fun f => .shli (fieldAt f 0) (fieldAt f 1) (fieldAt f 2)⟩,
  ⟨0xFF80007F, 0x40000011, [(7, 5), (12, 5), (17, 6)],
    fun f => .shri (fieldAt f 0) (fieldAt f 1) (fieldAt f 2)⟩,
  ⟨0xFF80007F, 0x80000011, [(7, 5), (12, 5), (17, 6)],
    fun f => .srai (fieldAt f 0) (fieldAt f 1) (fieldAt f 2)⟩,
  ⟨0xFF80007F, 0xC0000011, [(7, 5), (12, 5), (17, 6)],
    fun f => .rori (fieldAt f 0) (fieldAt f 1) (fieldAt f 2)⟩,
  ⟨0xE000007F, 0x00000013, [(7, 5), (12, 5), (17, 6), (23, 6)],
    fun f => .ext (fieldAt f 0) (fieldAt f 1) (fieldAt f 2) (fieldAt f 3)⟩,
  ⟨0xE000007F, 0x40000013, [(7, 5), (12, 5), (17, 6), (23, 6)],
    fun f => .extS (fieldAt f 0) (fieldAt f 1) (fieldAt f 2) (fieldAt f 3)⟩,
  ⟨0xE000007F, 0x80000013, [(7, 5), (12, 5), (17, 6), (23, 6)],
    fun f => .ins (fieldAt f 0) (fieldAt f 1) (fieldAt f 2) (fieldAt f 3)⟩,
  ⟨0x0000007F, 0x00000015, [(7, 5), (12, 20)],
    fun f => .lih (fieldAt f 0) (fieldAt f 1)⟩,
  ⟨0xFC00007F, 0x00000017, [(7, 5), (12, 5), (17, 5), (22, 3), (25, 1)],
    fun f => .fadd (fieldAt f 0) (fieldAt f 1) (fieldAt f 2) (fieldAt f 3) (fieldAt f 4)⟩,
  ⟨0xFC00007F, 0x04000017, [(7, 5), (12, 5), (17, 5), (22, 3), (25, 1)],
    fun f => .fsub (fieldAt f 0) (fieldAt f 1) (fieldAt f 2) (fieldAt f 3) (fieldAt f 4)⟩,
  ⟨0xFC00007F, 0x08000017, [(7, 5), (12, 5), (17, 5), (22, 3), (25, 1)],
    fun f => .fmul (fieldAt f 0) (fieldAt f 1) (fieldAt f 2) (fieldAt f 3) (fieldAt f 4)⟩,
  ⟨0xFC00007F, 0x0C000017, [(7, 5), (12, 5), (17, 5), (22, 3), (25, 1)],
    fun f => .fma (fieldAt f 0) (fieldAt f 1) (fieldAt f 2) (fieldAt f 3) (fieldAt f 4)⟩,
  ⟨0xFC00007F, 0x10000017, [(7, 5), (12, 5), (17, 5), (22, 3), (25, 1)],
    fun f => .fdiv (fieldAt f 0) (fieldAt f 1) (fieldAt f 2) (fieldAt f 3) (fieldAt f 4)⟩,
  ⟨0xFC3E007F, 0x14000017, [(7, 5), (12, 5), (22, 3), (25, 1)],
    fun f => .fsqrt (fieldAt f 0) (fieldAt f 1) (fieldAt f 2) (fieldAt f 3)⟩,
  ⟨0xFDC0007F, 0x18000017, [(7, 5), (12, 5), (17, 5), (25, 1)],
    fun f => .fmin (fieldAt f 0) (fieldAt f 1) (fieldAt f 2) (fieldAt f 3)⟩,
  ⟨0xFDC0007F, 0x1C000017, [(7, 5), (12, 5), (17, 5), (25, 1)],
    fun f => .fmax (fieldAt f 0) (fieldAt f 1) (fieldAt f 2) (fieldAt f 3)⟩,
  ⟨0xFC00007F, 0x20000017, [(7, 5), (12, 5), (17, 5), (22, 3), (25, 1)],
    fun f => .fcmp (fieldAt f 0) (fieldAt f 1) (fieldAt f 2) (fieldAt f 3) (fieldAt f 4)⟩]

/-- The 32-bit encodings (R259 to R274) (part 2). -/
def rows32Part2 : List Row := [
  ⟨0xFC00007F, 0x24000017, [(7, 5), (12, 5), (17, 4), (21, 1), (22, 3), (25, 1)],
    fun f => .fcvt (fieldAt f 0) (fieldAt f 1) (fieldAt f 2) (fieldAt f 3) (fieldAt f 4) (fieldAt f 5)⟩,
  ⟨0xFDFE007F, 0x28000017, [(7, 5), (12, 5), (25, 1)],
    fun f => .fmvS (fieldAt f 0) (fieldAt f 1) (fieldAt f 2)⟩,
  ⟨0xFDFE007F, 0x2C000017, [(7, 5), (12, 5), (25, 1)],
    fun f => .fmvF (fieldAt f 0) (fieldAt f 1) (fieldAt f 2)⟩,
  ⟨0xFDFE007F, 0x30000017, [(7, 5), (12, 5), (25, 1)],
    fun f => .fclass (fieldAt f 0) (fieldAt f 1) (fieldAt f 2)⟩,
  ⟨0x000E007F, 0x00000019, [(7, 5), (12, 5), (20, 12)],
    fun f => .bEq (fieldAt f 0) (fieldAt f 1) (fieldAt f 2)⟩,
  ⟨0x000E007F, 0x00020019, [(7, 5), (12, 5), (20, 12)],
    fun f => .bNe (fieldAt f 0) (fieldAt f 1) (fieldAt f 2)⟩,
  ⟨0x000E007F, 0x00040019, [(7, 5), (12, 5), (20, 12)],
    fun f => .bLt (fieldAt f 0) (fieldAt f 1) (fieldAt f 2)⟩,
  ⟨0x000E007F, 0x00060019, [(7, 5), (12, 5), (20, 12)],
    fun f => .bGe (fieldAt f 0) (fieldAt f 1) (fieldAt f 2)⟩,
  ⟨0x000FF07F, 0x00080019, [(7, 5), (20, 12)],
    fun f => .bLtz (fieldAt f 0) (fieldAt f 1)⟩,
  ⟨0x000FF07F, 0x000A0019, [(7, 5), (20, 12)],
    fun f => .bGez (fieldAt f 0) (fieldAt f 1)⟩,
  ⟨0x0000007F, 0x0000001B, [(7, 5), (12, 20)],
    fun f => .jal (fieldAt f 0) (fieldAt f 1)⟩,
  ⟨0x0000007F, 0x0000001D, [(7, 5), (12, 5), (17, 15)],
    fun f => .jalr (fieldAt f 0) (fieldAt f 1) (fieldAt f 2)⟩,
  ⟨0x00000FFF, 0x0000001F, [(12, 5), (17, 15)],
    fun f => .loop (fieldAt f 0) (fieldAt f 1)⟩,
  ⟨0x00000FFF, 0x00000021, [(12, 10), (22, 10)],
    fun f => .loopi (fieldAt f 0) (fieldAt f 1)⟩,
  ⟨0x000FF07F, 0x00000023, [(7, 5), (20, 12)],
    fun f => .csrr (fieldAt f 0) (fieldAt f 1)⟩,
  ⟨0x000E007F, 0x00020023, [(7, 5), (12, 5), (20, 12)],
    fun f => .csrw (fieldAt f 0) (fieldAt f 1) (fieldAt f 2)⟩,
  ⟨0x000E007F, 0x00040023, [(7, 5), (12, 5), (20, 12)],
    fun f => .csrs (fieldAt f 0) (fieldAt f 1) (fieldAt f 2)⟩,
  ⟨0x000E007F, 0x00060023, [(7, 5), (12, 5), (20, 12)],
    fun f => .csrc (fieldAt f 0) (fieldAt f 1) (fieldAt f 2)⟩,
  ⟨0x000FF07F, 0x00080023, [(7, 5), (20, 12)],
    fun f => .idr (fieldAt f 0) (fieldAt f 1)⟩,
  ⟨0x000E0FFF, 0x000A0023, [(12, 5), (20, 12)],
    fun f => .trap (fieldAt f 0) (fieldAt f 1)⟩,
  ⟨0x000FFFFF, 0x000C0023, [(20, 12)],
    fun f => .brk (fieldAt f 0)⟩,
  ⟨0x000FFFFF, 0x000E0023, [(20, 12)],
    fun f => .yield (fieldAt f 0)⟩,
  ⟨0x0000007F, 0x00000025, [(7, 5), (12, 5), (17, 3), (20, 2), (22, 10)],
    fun f => .ld (fieldAt f 0) (fieldAt f 1) (fieldAt f 2) (fieldAt f 3) (fieldAt f 4)⟩,
  ⟨0x0000007F, 0x00000027, [(7, 5), (12, 5), (17, 3), (20, 2), (22, 10)],
    fun f => .st (fieldAt f 0) (fieldAt f 1) (fieldAt f 2) (fieldAt f 3) (fieldAt f 4)⟩,
  ⟨0x000E007F, 0x00000029, [(7, 5), (12, 5), (20, 2), (22, 10)],
    fun f => .vld (fieldAt f 0) (fieldAt f 1) (fieldAt f 2) (fieldAt f 3)⟩,
  ⟨0x000E007F, 0x0000002B, [(7, 5), (12, 5), (20, 2), (22, 10)],
    fun f => .vst (fieldAt f 0) (fieldAt f 1) (fieldAt f 2) (fieldAt f 3)⟩,
  ⟨0xF100007F, 0x0000002D, [(7, 5), (12, 5), (17, 5), (22, 2), (25, 1), (26, 2)],
    fun f => .ldx (fieldAt f 0) (fieldAt f 1) (fieldAt f 2) (fieldAt f 3) (fieldAt f 4) (fieldAt f 5)⟩,
  ⟨0xFFC00FFF, 0x1000002D, [(12, 5), (17, 5)],
    fun f => .prf (fieldAt f 0) (fieldAt f 1)⟩,
  ⟨0xF000007F, 0x2000002D, [(7, 5), (12, 5), (17, 5), (22, 4), (26, 2)],
    fun f => .vldx (fieldAt f 0) (fieldAt f 1) (fieldAt f 2) (fieldAt f 3) (fieldAt f 4)⟩]

/-- The 32-bit encodings (R259 to R274) (part 3). -/
def rows32Part3 : List Row := [
  ⟨0xF000007F, 0x3000002D, [(7, 5), (12, 5), (17, 5), (22, 4), (26, 2)],
    fun f => .vstx (fieldAt f 0) (fieldAt f 1) (fieldAt f 2) (fieldAt f 3) (fieldAt f 4)⟩,
  ⟨0xFFFE0C7F, 0x4000002D, [(7, 3), (12, 5)],
    fun f => .dld (fieldAt f 0) (fieldAt f 1)⟩,
  ⟨0xFFC18C7F, 0x5000002D, [(7, 3), (12, 3), (17, 5)],
    fun f => .tld (fieldAt f 0) (fieldAt f 1) (fieldAt f 2)⟩,
  ⟨0xFFC18C7F, 0x6000002D, [(7, 3), (12, 3), (17, 5)],
    fun f => .tst (fieldAt f 0) (fieldAt f 1) (fieldAt f 2)⟩,
  ⟨0xFFC0007F, 0x7000002D, [(7, 5), (12, 5), (17, 5)],
    fun f => .rangeNext (fieldAt f 0) (fieldAt f 1) (fieldAt f 2)⟩,
  ⟨0xCF00007F, 0x0000002F, [(7, 5), (12, 5), (17, 5), (22, 2), (28, 2)],
    fun f => .atomAdd (fieldAt f 0) (fieldAt f 1) (fieldAt f 2) (fieldAt f 3) (fieldAt f 4)⟩,
  ⟨0xCFC0007F, 0x0140002F, [(7, 5), (12, 5), (17, 5), (28, 2)],
    fun f => .atomFaddF32 (fieldAt f 0) (fieldAt f 1) (fieldAt f 2) (fieldAt f 3)⟩,
  ⟨0xCFC0007F, 0x0280002F, [(7, 5), (12, 5), (17, 5), (28, 2)],
    fun f => .atomFaddF64 (fieldAt f 0) (fieldAt f 1) (fieldAt f 2) (fieldAt f 3)⟩,
  ⟨0xCFC0007F, 0x0300002F, [(7, 5), (12, 5), (17, 5), (28, 2)],
    fun f => .atomFaddBf16 (fieldAt f 0) (fieldAt f 1) (fieldAt f 2) (fieldAt f 3)⟩,
  ⟨0xCF00007F, 0x0400002F, [(7, 5), (12, 5), (17, 5), (22, 2), (28, 2)],
    fun f => .atomMin (fieldAt f 0) (fieldAt f 1) (fieldAt f 2) (fieldAt f 3) (fieldAt f 4)⟩,
  ⟨0xCF00007F, 0x0500002F, [(7, 5), (12, 5), (17, 5), (22, 2), (28, 2)],
    fun f => .atomMax (fieldAt f 0) (fieldAt f 1) (fieldAt f 2) (fieldAt f 3) (fieldAt f 4)⟩,
  ⟨0xCF00007F, 0x0600002F, [(7, 5), (12, 5), (17, 5), (22, 2), (28, 2)],
    fun f => .atomMinz (fieldAt f 0) (fieldAt f 1) (fieldAt f 2) (fieldAt f 3) (fieldAt f 4)⟩,
  ⟨0xCF00007F, 0x0700002F, [(7, 5), (12, 5), (17, 5), (22, 2), (28, 2)],
    fun f => .atomMaxz (fieldAt f 0) (fieldAt f 1) (fieldAt f 2) (fieldAt f 3) (fieldAt f 4)⟩,
  ⟨0xCF00007F, 0x0800002F, [(7, 5), (12, 5), (17, 5), (22, 2), (28, 2)],
    fun f => .atomAnd (fieldAt f 0) (fieldAt f 1) (fieldAt f 2) (fieldAt f 3) (fieldAt f 4)⟩,
  ⟨0xCF00007F, 0x0900002F, [(7, 5), (12, 5), (17, 5), (22, 2), (28, 2)],
    fun f => .atomOr (fieldAt f 0) (fieldAt f 1) (fieldAt f 2) (fieldAt f 3) (fieldAt f 4)⟩,
  ⟨0xCF00007F, 0x0A00002F, [(7, 5), (12, 5), (17, 5), (22, 2), (28, 2)],
    fun f => .atomXor (fieldAt f 0) (fieldAt f 1) (fieldAt f 2) (fieldAt f 3) (fieldAt f 4)⟩,
  ⟨0xCF00007F, 0x0B00002F, [(7, 5), (12, 5), (17, 5), (22, 2), (28, 2)],
    fun f => .atomSwap (fieldAt f 0) (fieldAt f 1) (fieldAt f 2) (fieldAt f 3) (fieldAt f 4)⟩,
  ⟨0xFF000FFF, 0x00000031, [(12, 5), (17, 5), (22, 2)],
    fun f => .redAdd (fieldAt f 0) (fieldAt f 1) (fieldAt f 2)⟩,
  ⟨0xFFC00FFF, 0x01400031, [(12, 5), (17, 5)],
    fun f => .redFaddF32 (fieldAt f 0) (fieldAt f 1)⟩,
  ⟨0xFFC00FFF, 0x02800031, [(12, 5), (17, 5)],
    fun f => .redFaddF64 (fieldAt f 0) (fieldAt f 1)⟩,
  ⟨0xFFC00FFF, 0x03000031, [(12, 5), (17, 5)],
    fun f => .redFaddBf16 (fieldAt f 0) (fieldAt f 1)⟩,
  ⟨0xFF000FFF, 0x04000031, [(12, 5), (17, 5), (22, 2)],
    fun f => .redMin (fieldAt f 0) (fieldAt f 1) (fieldAt f 2)⟩,
  ⟨0xFF000FFF, 0x05000031, [(12, 5), (17, 5), (22, 2)],
    fun f => .redMax (fieldAt f 0) (fieldAt f 1) (fieldAt f 2)⟩,
  ⟨0xFF000FFF, 0x06000031, [(12, 5), (17, 5), (22, 2)],
    fun f => .redMinz (fieldAt f 0) (fieldAt f 1) (fieldAt f 2)⟩,
  ⟨0xFF000FFF, 0x07000031, [(12, 5), (17, 5), (22, 2)],
    fun f => .redMaxz (fieldAt f 0) (fieldAt f 1) (fieldAt f 2)⟩,
  ⟨0xFF000FFF, 0x08000031, [(12, 5), (17, 5), (22, 2)],
    fun f => .redAnd (fieldAt f 0) (fieldAt f 1) (fieldAt f 2)⟩,
  ⟨0xFF000FFF, 0x09000031, [(12, 5), (17, 5), (22, 2)],
    fun f => .redOr (fieldAt f 0) (fieldAt f 1) (fieldAt f 2)⟩,
  ⟨0xFF000FFF, 0x0A000031, [(12, 5), (17, 5), (22, 2)],
    fun f => .redXor (fieldAt f 0) (fieldAt f 1) (fieldAt f 2)⟩,
  ⟨0xCF00007F, 0x00000033, [(7, 5), (12, 5), (17, 5), (22, 2), (28, 2)],
    fun f => .cas (fieldAt f 0) (fieldAt f 1) (fieldAt f 2) (fieldAt f 3) (fieldAt f 4)⟩]

/-- The 32-bit encodings (R259 to R274) (part 4). -/
def rows32Part4 : List Row := [
  ⟨0xFFF1FFFF, 0x00000035, [(17, 3)],
    fun f => .fence (fieldAt f 0)⟩,
  ⟨0xFF8FFFFF, 0x10000035, [(20, 3)],
    fun f => .drain (fieldAt f 0)⟩,
  ⟨0xF0000FFF, 0x20000035, [(12, 5), (17, 3), (20, 7), (27, 1)],
    fun f => .arrive (fieldAt f 0) (fieldAt f 1) (fieldAt f 2) (fieldAt f 3)⟩,
  ⟨0xFFFE007F, 0x30000035, [(7, 5), (12, 5)],
    fun f => .barArrive (fieldAt f 0) (fieldAt f 1)⟩,
  ⟨0xFFFE007F, 0x40000035, [(7, 5), (12, 5)],
    fun f => .barWait (fieldAt f 0) (fieldAt f 1)⟩,
  ⟨0xFF0FF07F, 0x50000035, [(7, 5), (20, 4)],
    fun f => .semWait (fieldAt f 0) (fieldAt f 1)⟩,
  ⟨0xF700007F, 0x60000035, [(7, 5), (12, 5), (17, 3), (20, 4), (27, 1)],
    fun f => .semAdd (fieldAt f 0) (fieldAt f 1) (fieldAt f 2) (fieldAt f 3) (fieldAt f 4)⟩,
  ⟨0xFC0E0FFF, 0x70000035, [(12, 5), (20, 6)],
    fun f => .ownGive (fieldAt f 0) (fieldAt f 1)⟩,
  ⟨0xFC0E0FFF, 0x80000035, [(12, 5), (20, 6)],
    fun f => .ownTake (fieldAt f 0) (fieldAt f 1)⟩,
  ⟨0xFC0E0FFF, 0x90000035, [(12, 5), (20, 6)],
    fun f => .ownWait (fieldAt f 0) (fieldAt f 1)⟩,
  ⟨0xF80FFFFF, 0xA0000035, [(20, 3), (23, 4)],
    fun f => .cbWait (fieldAt f 0) (fieldAt f 1)⟩,
  ⟨0xF80FFFFF, 0xB0000035, [(20, 3), (23, 4)],
    fun f => .cbRoom (fieldAt f 0) (fieldAt f 1)⟩,
  ⟨0xF80FFFFF, 0xC0000035, [(20, 3), (23, 4)],
    fun f => .cbPush (fieldAt f 0) (fieldAt f 1)⟩,
  ⟨0xF80FFFFF, 0xD0000035, [(20, 3), (23, 4)],
    fun f => .cbPop (fieldAt f 0) (fieldAt f 1)⟩,
  ⟨0xFF800FFF, 0x00000037, [(12, 5), (17, 5), (22, 1)],
    fun f => .spawn (fieldAt f 0) (fieldAt f 1) (fieldAt f 2)⟩,
  ⟨0xFF800FFF, 0x10000037, [(12, 5), (17, 5), (22, 1)],
    fun f => .spawng (fieldAt f 0) (fieldAt f 1) (fieldAt f 2)⟩,
  ⟨0xFFC00FFF, 0x20000037, [(12, 5), (17, 5)],
    fun f => .wttArm (fieldAt f 0) (fieldAt f 1)⟩,
  ⟨0xFFC1F07F, 0x30000037, [(7, 5), (17, 5)],
    fun f => .wttDisarm (fieldAt f 0) (fieldAt f 1)⟩,
  ⟨0x8000007F, 0x00000039, [(7, 5), (12, 5), (17, 5), (22, 4), (26, 1), (27, 3), (30, 1)],
    fun f => .send (fieldAt f 0) (fieldAt f 1) (fieldAt f 2) (fieldAt f 3) (fieldAt f 4) (fieldAt f 5) (fieldAt f 6)⟩,
  ⟨0xFC00007F, 0x0000003B, [(7, 5), (12, 5), (17, 5), (22, 4)],
    fun f => .vadd (fieldAt f 0) (fieldAt f 1) (fieldAt f 2) (fieldAt f 3)⟩,
  ⟨0xFC00007F, 0x0400003B, [(7, 5), (12, 5), (17, 5), (22, 4)],
    fun f => .vsub (fieldAt f 0) (fieldAt f 1) (fieldAt f 2) (fieldAt f 3)⟩,
  ⟨0xFC00007F, 0x0800003B, [(7, 5), (12, 5), (17, 5), (22, 4)],
    fun f => .vmul (fieldAt f 0) (fieldAt f 1) (fieldAt f 2) (fieldAt f 3)⟩,
  ⟨0xFC00007F, 0x0C00003B, [(7, 5), (12, 5), (17, 5), (22, 4)],
    fun f => .vfma (fieldAt f 0) (fieldAt f 1) (fieldAt f 2) (fieldAt f 3)⟩,
  ⟨0xFC00007F, 0x1000003B, [(7, 5), (12, 5), (17, 5), (22, 4)],
    fun f => .vfms (fieldAt f 0) (fieldAt f 1) (fieldAt f 2) (fieldAt f 3)⟩,
  ⟨0xFC00007F, 0x1400003B, [(7, 5), (12, 5), (17, 5), (22, 4)],
    fun f => .vfnma (fieldAt f 0) (fieldAt f 1) (fieldAt f 2) (fieldAt f 3)⟩,
  ⟨0xFC00007F, 0x1800003B, [(7, 5), (12, 5), (17, 5), (22, 4)],
    fun f => .vdiv (fieldAt f 0) (fieldAt f 1) (fieldAt f 2) (fieldAt f 3)⟩,
  ⟨0xFC3E007F, 0x1C00003B, [(7, 5), (12, 5), (22, 4)],
    fun f => .vsqrt (fieldAt f 0) (fieldAt f 1) (fieldAt f 2)⟩,
  ⟨0xFC3E007F, 0x2000003B, [(7, 5), (12, 5), (22, 4)],
    fun f => .vrcp (fieldAt f 0) (fieldAt f 1) (fieldAt f 2)⟩,
  ⟨0xFC3E007F, 0x2400003B, [(7, 5), (12, 5), (22, 4)],
    fun f => .vrsqrt (fieldAt f 0) (fieldAt f 1) (fieldAt f 2)⟩]

/-- The 32-bit encodings (R259 to R274) (part 5). -/
def rows32Part5 : List Row := [
  ⟨0xFC3E007F, 0x2800003B, [(7, 5), (12, 5), (22, 4)],
    fun f => .vexp2 (fieldAt f 0) (fieldAt f 1) (fieldAt f 2)⟩,
  ⟨0xFC3E007F, 0x2C00003B, [(7, 5), (12, 5), (22, 4)],
    fun f => .vlog2 (fieldAt f 0) (fieldAt f 1) (fieldAt f 2)⟩,
  ⟨0xFC3E007F, 0x3000003B, [(7, 5), (12, 5), (22, 4)],
    fun f => .vtanh (fieldAt f 0) (fieldAt f 1) (fieldAt f 2)⟩,
  ⟨0xFC3E007F, 0x3400003B, [(7, 5), (12, 5), (22, 4)],
    fun f => .vsigm (fieldAt f 0) (fieldAt f 1) (fieldAt f 2)⟩,
  ⟨0xFC3E007F, 0x3800003B, [(7, 5), (12, 5), (22, 4)],
    fun f => .vsin (fieldAt f 0) (fieldAt f 1) (fieldAt f 2)⟩,
  ⟨0xFC3E007F, 0x3C00003B, [(7, 5), (12, 5), (22, 4)],
    fun f => .vcos (fieldAt f 0) (fieldAt f 1) (fieldAt f 2)⟩,
  ⟨0xFC00007F, 0x4000003B, [(7, 5), (12, 5), (17, 5), (22, 4)],
    fun f => .vmin (fieldAt f 0) (fieldAt f 1) (fieldAt f 2) (fieldAt f 3)⟩,
  ⟨0xFC00007F, 0x4400003B, [(7, 5), (12, 5), (17, 5), (22, 4)],
    fun f => .vmax (fieldAt f 0) (fieldAt f 1) (fieldAt f 2) (fieldAt f 3)⟩,
  ⟨0xFC3E007F, 0x4800003B, [(7, 5), (12, 5), (22, 4)],
    fun f => .vabs (fieldAt f 0) (fieldAt f 1) (fieldAt f 2)⟩,
  ⟨0xFC3E007F, 0x4C00003B, [(7, 5), (12, 5), (22, 4)],
    fun f => .vneg (fieldAt f 0) (fieldAt f 1) (fieldAt f 2)⟩,
  ⟨0xFC00007F, 0x5000003B, [(7, 5), (12, 5), (17, 5), (22, 4)],
    fun f => .vand (fieldAt f 0) (fieldAt f 1) (fieldAt f 2) (fieldAt f 3)⟩,
  ⟨0xFC00007F, 0x5400003B, [(7, 5), (12, 5), (17, 5), (22, 4)],
    fun f => .vor (fieldAt f 0) (fieldAt f 1) (fieldAt f 2) (fieldAt f 3)⟩,
  ⟨0xFC00007F, 0x5800003B, [(7, 5), (12, 5), (17, 5), (22, 4)],
    fun f => .vxor (fieldAt f 0) (fieldAt f 1) (fieldAt f 2) (fieldAt f 3)⟩,
  ⟨0xFC3E007F, 0x5C00003B, [(7, 5), (12, 5), (22, 4)],
    fun f => .vnot (fieldAt f 0) (fieldAt f 1) (fieldAt f 2)⟩,
  ⟨0xFC00007F, 0x6000003B, [(7, 5), (12, 5), (17, 5), (22, 4)],
    fun f => .vshl (fieldAt f 0) (fieldAt f 1) (fieldAt f 2) (fieldAt f 3)⟩,
  ⟨0xFC00007F, 0x6400003B, [(7, 5), (12, 5), (17, 5), (22, 4)],
    fun f => .vshr (fieldAt f 0) (fieldAt f 1) (fieldAt f 2) (fieldAt f 3)⟩,
  ⟨0xFC00007F, 0x6800003B, [(7, 5), (12, 5), (17, 5), (22, 4)],
    fun f => .vsra (fieldAt f 0) (fieldAt f 1) (fieldAt f 2) (fieldAt f 3)⟩,
  ⟨0xFC000C7F, 0x6C00003B, [(7, 3), (12, 5), (17, 5), (22, 4)],
    fun f => .vcmp (fieldAt f 0) (fieldAt f 1) (fieldAt f 2) (fieldAt f 3)⟩,
  ⟨0xFC00007F, 0x7000003B, [(7, 5), (12, 5), (17, 5), (22, 4)],
    fun f => .vsel (fieldAt f 0) (fieldAt f 1) (fieldAt f 2) (fieldAt f 3)⟩,
  ⟨0xFC3E007F, 0x7400003B, [(7, 5), (12, 5), (22, 4)],
    fun f => .vmov (fieldAt f 0) (fieldAt f 1) (fieldAt f 2)⟩,
  ⟨0xFC3E007F, 0x7800003B, [(7, 5), (12, 5), (22, 4)],
    fun f => .vbcast (fieldAt f 0) (fieldAt f 1) (fieldAt f 2)⟩,
  ⟨0xFC00007F, 0x7C00003B, [(7, 5), (12, 5), (17, 5), (22, 4)],
    fun f => .vins (fieldAt f 0) (fieldAt f 1) (fieldAt f 2) (fieldAt f 3)⟩,
  ⟨0xFC00007F, 0x8000003B, [(7, 5), (12, 5), (17, 5), (22, 4)],
    fun f => .vext (fieldAt f 0) (fieldAt f 1) (fieldAt f 2) (fieldAt f 3)⟩,
  ⟨0xFC20007F, 0x8400003B, [(7, 5), (12, 5), (17, 4), (22, 4)],
    fun f => .vcvt (fieldAt f 0) (fieldAt f 1) (fieldAt f 2) (fieldAt f 3)⟩,
  ⟨0xFC00007F, 0x8800003B, [(7, 5), (12, 5), (17, 5), (22, 4)],
    fun f => .vquant (fieldAt f 0) (fieldAt f 1) (fieldAt f 2) (fieldAt f 3)⟩,
  ⟨0xFC00007F, 0x8C00003B, [(7, 5), (12, 5), (17, 5), (22, 4)],
    fun f => .vdequant (fieldAt f 0) (fieldAt f 1) (fieldAt f 2) (fieldAt f 3)⟩,
  ⟨0xFC3E007F, 0x9000003B, [(7, 5), (12, 5), (22, 4)],
    fun f => .vredsum (fieldAt f 0) (fieldAt f 1) (fieldAt f 2)⟩,
  ⟨0xFC3E007F, 0x9400003B, [(7, 5), (12, 5), (22, 4)],
    fun f => .vredmax (fieldAt f 0) (fieldAt f 1) (fieldAt f 2)⟩,
  ⟨0xFC3E007F, 0x9800003B, [(7, 5), (12, 5), (22, 4)],
    fun f => .vredmin (fieldAt f 0) (fieldAt f 1) (fieldAt f 2)⟩]

/-- The 32-bit encodings (R259 to R274) (part 6). -/
def rows32Part6 : List Row := [
  ⟨0xFC00007F, 0x9C00003B, [(7, 5), (12, 5), (17, 5), (22, 4)],
    fun f => .vredmaxi (fieldAt f 0) (fieldAt f 1) (fieldAt f 2) (fieldAt f 3)⟩,
  ⟨0xFC00007F, 0xA000003B, [(7, 5), (12, 5), (17, 5), (22, 4)],
    fun f => .vredmini (fieldAt f 0) (fieldAt f 1) (fieldAt f 2) (fieldAt f 3)⟩,
  ⟨0xFC3E007F, 0xA400003B, [(7, 5), (12, 5), (22, 4)],
    fun f => .vscanAdd (fieldAt f 0) (fieldAt f 1) (fieldAt f 2)⟩,
  ⟨0xFC3E007F, 0xA800003B, [(7, 5), (12, 5), (22, 4)],
    fun f => .vscanXor (fieldAt f 0) (fieldAt f 1) (fieldAt f 2)⟩,
  ⟨0xFC00007F, 0xAC00003B, [(7, 5), (12, 5), (17, 5), (22, 4)],
    fun f => .vclmul (fieldAt f 0) (fieldAt f 1) (fieldAt f 2) (fieldAt f 3)⟩,
  ⟨0xFC3E007F, 0xB000003B, [(7, 5), (12, 5), (22, 4)],
    fun f => .vpopc (fieldAt f 0) (fieldAt f 1) (fieldAt f 2)⟩,
  ⟨0xFC3E007F, 0xB400003B, [(7, 5), (12, 5), (22, 4)],
    fun f => .vclz (fieldAt f 0) (fieldAt f 1) (fieldAt f 2)⟩,
  ⟨0xFC00007F, 0x0000003D, [(7, 5), (12, 5), (17, 5), (22, 4)],
    fun f => .vperm (fieldAt f 0) (fieldAt f 1) (fieldAt f 2) (fieldAt f 3)⟩,
  ⟨0xFC00007F, 0x0400003D, [(7, 5), (12, 5), (17, 5), (22, 4)],
    fun f => .vslide (fieldAt f 0) (fieldAt f 1) (fieldAt f 2) (fieldAt f 3)⟩,
  ⟨0xFC00007F, 0x0800003D, [(7, 5), (12, 5), (17, 5), (22, 4)],
    fun f => .vzip (fieldAt f 0) (fieldAt f 1) (fieldAt f 2) (fieldAt f 3)⟩,
  ⟨0xFC00007F, 0x0C00003D, [(7, 5), (12, 5), (17, 5), (22, 4)],
    fun f => .vunzip (fieldAt f 0) (fieldAt f 1) (fieldAt f 2) (fieldAt f 3)⟩,
  ⟨0xFC000FFF, 0x1000003D, [(12, 5), (17, 5), (22, 4)],
    fun f => .vtrw (fieldAt f 0) (fieldAt f 1) (fieldAt f 2)⟩,
  ⟨0xFC3E007F, 0x1400003D, [(7, 5), (12, 5), (22, 4)],
    fun f => .vtrc (fieldAt f 0) (fieldAt f 1) (fieldAt f 2)⟩,
  ⟨0xFFF18C7F, 0x1800003D, [(7, 3), (12, 3), (17, 3)],
    fun f => .mand (fieldAt f 0) (fieldAt f 1) (fieldAt f 2)⟩,
  ⟨0xFFF18C7F, 0x1C00003D, [(7, 3), (12, 3), (17, 3)],
    fun f => .mor (fieldAt f 0) (fieldAt f 1) (fieldAt f 2)⟩,
  ⟨0xFFF18C7F, 0x2000003D, [(7, 3), (12, 3), (17, 3)],
    fun f => .mxor (fieldAt f 0) (fieldAt f 1) (fieldAt f 2)⟩,
  ⟨0xFFFF8C7F, 0x2400003D, [(7, 3), (12, 3)],
    fun f => .mnot (fieldAt f 0) (fieldAt f 1)⟩,
  ⟨0xFFFF807F, 0x2800003D, [(7, 5), (12, 3)],
    fun f => .mpop (fieldAt f 0) (fieldAt f 1)⟩,
  ⟨0xFFFF807F, 0x2C00003D, [(7, 5), (12, 3)],
    fun f => .mfirst (fieldAt f 0) (fieldAt f 1)⟩,
  ⟨0xFFFE0C7F, 0x3000003D, [(7, 3), (12, 5)],
    fun f => .mset (fieldAt f 0) (fieldAt f 1)⟩,
  ⟨0x8000307F, 0x0000003F, [(7, 2), (9, 3), (14, 5), (19, 1), (20, 2), (22, 1), (23, 4), (27, 1), (28, 1), (29, 1), (30, 1)],
    fun f => .mmaF64 (fieldAt f 0) (fieldAt f 1) (fieldAt f 2) (fieldAt f 3) (fieldAt f 4) (fieldAt f 5) (fieldAt f 6) (fieldAt f 7) (fieldAt f 8) (fieldAt f 9) (fieldAt f 10)⟩,
  ⟨0x8000307F, 0x00000041, [(7, 2), (9, 3), (14, 5), (19, 1), (20, 2), (22, 1), (23, 4), (27, 1), (28, 1), (29, 1), (30, 1)],
    fun f => .mmaF32 (fieldAt f 0) (fieldAt f 1) (fieldAt f 2) (fieldAt f 3) (fieldAt f 4) (fieldAt f 5) (fieldAt f 6) (fieldAt f 7) (fieldAt f 8) (fieldAt f 9) (fieldAt f 10)⟩,
  ⟨0x8000307F, 0x00000043, [(7, 2), (9, 3), (14, 5), (19, 1), (20, 2), (22, 1), (23, 4), (27, 1), (28, 1), (29, 1), (30, 1)],
    fun f => .mmaBf16 (fieldAt f 0) (fieldAt f 1) (fieldAt f 2) (fieldAt f 3) (fieldAt f 4) (fieldAt f 5) (fieldAt f 6) (fieldAt f 7) (fieldAt f 8) (fieldAt f 9) (fieldAt f 10)⟩,
  ⟨0x8000307F, 0x00000045, [(7, 2), (9, 3), (14, 5), (19, 1), (20, 2), (22, 1), (23, 4), (27, 1), (28, 1), (29, 1), (30, 1)],
    fun f => .mmaF16 (fieldAt f 0) (fieldAt f 1) (fieldAt f 2) (fieldAt f 3) (fieldAt f 4) (fieldAt f 5) (fieldAt f 6) (fieldAt f 7) (fieldAt f 8) (fieldAt f 9) (fieldAt f 10)⟩,
  ⟨0x8000307F, 0x00000047, [(7, 2), (9, 3), (14, 5), (19, 1), (20, 2), (22, 1), (23, 4), (27, 1), (28, 1), (29, 1), (30, 1)],
    fun f => .mmaE4e4 (fieldAt f 0) (fieldAt f 1) (fieldAt f 2) (fieldAt f 3) (fieldAt f 4) (fieldAt f 5) (fieldAt f 6) (fieldAt f 7) (fieldAt f 8) (fieldAt f 9) (fieldAt f 10)⟩,
  ⟨0x8000307F, 0x00000049, [(7, 2), (9, 3), (14, 5), (19, 1), (20, 2), (22, 1), (23, 4), (27, 1), (28, 1), (29, 1), (30, 1)],
    fun f => .mmaE4e5 (fieldAt f 0) (fieldAt f 1) (fieldAt f 2) (fieldAt f 3) (fieldAt f 4) (fieldAt f 5) (fieldAt f 6) (fieldAt f 7) (fieldAt f 8) (fieldAt f 9) (fieldAt f 10)⟩,
  ⟨0x8000307F, 0x0000004B, [(7, 2), (9, 3), (14, 5), (19, 1), (20, 2), (22, 1), (23, 4), (27, 1), (28, 1), (29, 1), (30, 1)],
    fun f => .mmaE5e4 (fieldAt f 0) (fieldAt f 1) (fieldAt f 2) (fieldAt f 3) (fieldAt f 4) (fieldAt f 5) (fieldAt f 6) (fieldAt f 7) (fieldAt f 8) (fieldAt f 9) (fieldAt f 10)⟩,
  ⟨0x8000307F, 0x0000004D, [(7, 2), (9, 3), (14, 5), (19, 1), (20, 2), (22, 1), (23, 4), (27, 1), (28, 1), (29, 1), (30, 1)],
    fun f => .mmaE5e5 (fieldAt f 0) (fieldAt f 1) (fieldAt f 2) (fieldAt f 3) (fieldAt f 4) (fieldAt f 5) (fieldAt f 6) (fieldAt f 7) (fieldAt f 8) (fieldAt f 9) (fieldAt f 10)⟩,
  ⟨0x8000307F, 0x0000004F, [(7, 2), (9, 3), (14, 5), (19, 1), (20, 2), (22, 1), (23, 4), (27, 1), (28, 1), (29, 1), (30, 1)],
    fun f => .mmaE3m2 (fieldAt f 0) (fieldAt f 1) (fieldAt f 2) (fieldAt f 3) (fieldAt f 4) (fieldAt f 5) (fieldAt f 6) (fieldAt f 7) (fieldAt f 8) (fieldAt f 9) (fieldAt f 10)⟩]

/-- The 32-bit encodings (R259 to R274) (part 7). -/
def rows32Part7 : List Row := [
  ⟨0x8000307F, 0x00000051, [(7, 2), (9, 3), (14, 5), (19, 1), (20, 2), (22, 1), (23, 4), (27, 1), (28, 1), (29, 1), (30, 1)],
    fun f => .mmaE2m3 (fieldAt f 0) (fieldAt f 1) (fieldAt f 2) (fieldAt f 3) (fieldAt f 4) (fieldAt f 5) (fieldAt f 6) (fieldAt f 7) (fieldAt f 8) (fieldAt f 9) (fieldAt f 10)⟩,
  ⟨0x8000307F, 0x00000053, [(7, 2), (9, 3), (14, 5), (19, 1), (20, 2), (22, 1), (23, 4), (27, 1), (28, 1), (29, 1), (30, 1)],
    fun f => .mmaE2m1 (fieldAt f 0) (fieldAt f 1) (fieldAt f 2) (fieldAt f 3) (fieldAt f 4) (fieldAt f 5) (fieldAt f 6) (fieldAt f 7) (fieldAt f 8) (fieldAt f 9) (fieldAt f 10)⟩,
  ⟨0x8000307F, 0x00000055, [(7, 2), (9, 3), (14, 5), (19, 1), (20, 2), (22, 1), (23, 4), (27, 1), (28, 1), (29, 1), (30, 1)],
    fun f => .mmaI8 (fieldAt f 0) (fieldAt f 1) (fieldAt f 2) (fieldAt f 3) (fieldAt f 4) (fieldAt f 5) (fieldAt f 6) (fieldAt f 7) (fieldAt f 8) (fieldAt f 9) (fieldAt f 10)⟩,
  ⟨0x8000307F, 0x00000057, [(7, 2), (9, 3), (14, 5), (19, 1), (20, 2), (22, 1), (23, 4), (27, 1), (28, 1), (29, 1), (30, 1)],
    fun f => .mmaI4 (fieldAt f 0) (fieldAt f 1) (fieldAt f 2) (fieldAt f 3) (fieldAt f 4) (fieldAt f 5) (fieldAt f 6) (fieldAt f 7) (fieldAt f 8) (fieldAt f 9) (fieldAt f 10)⟩,
  ⟨0xFFFFFE7F, 0x00000059, [(7, 2)],
    fun f => .mzero (fieldAt f 0)⟩,
  ⟨0xFFF8307F, 0x00080059, [(7, 2), (9, 3), (14, 5)],
    fun f => .mld (fieldAt f 0) (fieldAt f 1) (fieldAt f 2)⟩,
  ⟨0xFFF8307F, 0x00100059, [(7, 2), (9, 3), (14, 5)],
    fun f => .mldT (fieldAt f 0) (fieldAt f 1) (fieldAt f 2)⟩,
  ⟨0x4878307F, 0x00180059, [(7, 2), (9, 3), (14, 5), (23, 4), (28, 1), (29, 1), (31, 1)],
    fun f => .mst (fieldAt f 0) (fieldAt f 1) (fieldAt f 2) (fieldAt f 3) (fieldAt f 4) (fieldAt f 5) (fieldAt f 6)⟩,
  ⟨0xFFFFC07F, 0x00200059, [(7, 2), (9, 5)],
    fun f => .msc (fieldAt f 0) (fieldAt f 1)⟩,
  ⟨0xFFFFC07F, 0x00204059, [(7, 2), (9, 5)],
    fun f => .mscE8m0 (fieldAt f 0) (fieldAt f 1)⟩,
  ⟨0xF03E0FFF, 0x0000005B, [(12, 5), (22, 6)],
    fun f => .eset (fieldAt f 0) (fieldAt f 1)⟩,
  ⟨0xFFFFFFFF, 0x1000005B, [],
    fun _ => .ego⟩,
  ⟨0xF0C0007F, 0x2000005B, [(7, 5), (12, 5), (17, 5), (24, 2), (26, 2)],
    fun f => .cpy (fieldAt f 0) (fieldAt f 1) (fieldAt f 2) (fieldAt f 3) (fieldAt f 4)⟩,
  ⟨0xFFFE0FFF, 0x3000005B, [(12, 5)],
    fun f => .cpyChain (fieldAt f 0)⟩,
  ⟨0xFFFE0FFF, 0x4000005B, [(12, 5)],
    fun f => .bgath (fieldAt f 0)⟩,
  ⟨0xFFFFFFFF, 0x5000005B, [],
    fun _ => .bcvt⟩,
  ⟨0xFC000FFF, 0x0000005D, [(12, 5), (17, 5), (22, 4)],
    fun f => .bimOpen (fieldAt f 0) (fieldAt f 1) (fieldAt f 2)⟩,
  ⟨0xFFC00FFF, 0x1000005D, [(12, 5), (17, 5)],
    fun f => .bimPush (fieldAt f 0) (fieldAt f 1)⟩,
  ⟨0xFFFFFFFF, 0x2000005D, [],
    fun _ => .bimClose⟩,
  ⟨0xFFC0007F, 0x3000005D, [(7, 5), (12, 5), (17, 5)],
    fun f => .bimWait (fieldAt f 0) (fieldAt f 1) (fieldAt f 2)⟩,
  ⟨0xFFBE0FFF, 0x0000005F, [(12, 5), (22, 1)],
    fun f => .oftDecl (fieldAt f 0) (fieldAt f 1)⟩,
  ⟨0xFFFE007F, 0x1000005F, [(7, 5), (12, 5)],
    fun f => .oftSub (fieldAt f 0) (fieldAt f 1)⟩,
  ⟨0xFFFFFFFF, 0x2000005F, [],
    fun _ => .oftRel⟩,
  ⟨0xFFBE0FFF, 0x00000061, [(12, 5), (22, 1)],
    fun f => .collGo (fieldAt f 0) (fieldAt f 1)⟩,
  ⟨0xFFC00FFF, 0x10000061, [(12, 5), (17, 5)],
    fun f => .topkSend (fieldAt f 0) (fieldAt f 1)⟩,
  ⟨0xFFC0007F, 0x20000061, [(7, 5), (12, 5), (17, 5)],
    fun f => .slotClaim (fieldAt f 0) (fieldAt f 1) (fieldAt f 2)⟩,
  ⟨0xFFC00FFF, 0x30000061, [(12, 5), (17, 5)],
    fun f => .slotRet (fieldAt f 0) (fieldAt f 1)⟩,
  ⟨0xFFC00FFF, 0x40000061, [(12, 5), (17, 5)],
    fun f => .ctrSnap (fieldAt f 0) (fieldAt f 1)⟩,
  ⟨0xFFE0007F, 0x0000007F, [(7, 3), (10, 1), (11, 3), (14, 5), (19, 1), (20, 1)],
    fun f => .vxPrefix (fieldAt f 0) (fieldAt f 1) (fieldAt f 2) (fieldAt f 3) (fieldAt f 4) (fieldAt f 5)⟩]

/-- The 32-bit encodings (R259 to R274). -/
def rows32 : List Row := rows32Part0 ++ rows32Part1 ++ rows32Part2 ++ rows32Part3 ++ rows32Part4 ++ rows32Part5 ++ rows32Part6 ++ rows32Part7

/-- Why bytes are no instruction. -/
inductive DecodeError where
  /-- fewer bytes than the first halfword, or the instruction it begins, takes -/
  | tooShort
  /-- no 16-bit row has these fixed bits (R256, R258) -/
  | illegal16
  /-- no 32-bit row has these fixed bits (R266) -/
  | illegal32
  deriving DecidableEq, Repr

/-- Does a word have a row's fixed bits? -/
def Row.hits (r : Row) (w : Nat) : Bool := w &&& r.mask == r.value

/-- The instruction a word of a row stands for. -/
def Row.read (r : Row) (w : Nat) : Instr := r.build (r.fields.map fun p => w / 2 ^ p.1 % 2 ^ p.2)

/-- The instruction that a word has in a table. -/
def decodeIn (rows : List Row) (w : Nat) : Option Instr := (rows.find? fun r => r.hits w).map fun r => r.read w

/-- A halfword that is a whole 16-bit instruction. -/
def decode16 (w : Nat) : Option Instr := decodeIn rows16 w

/-- A word that is a 32-bit instruction. -/
def decode32 (w : Nat) : Option Instr := decodeIn rows32 w

/-- The number in little-endian bytes (R3, R256). -/
def leNat : List Byte → Nat
  | [] => 0
  | b :: r => b.toNat + 256 * leNat r

/-- The first instruction in bytes, and the bytes after it: bit 0 of the first halfword gives the length (R256). -/
def decode (bs : List Byte) : Except DecodeError (Instr × List Byte) :=
  if bs.length < 2 then .error .tooShort
  else if leNat (bs.take 2) % 2 = 0 then
    match decode16 (leNat (bs.take 2)) with
    | some i => .ok (i, bs.drop 2)
    | none => .error .illegal16
  else if bs.length < 4 then .error .tooShort
  else match decode32 (leNat (bs.take 4)) with
    | some i => .ok (i, bs.drop 4)
    | none => .error .illegal32

/-- Bytes that an instruction beginning with this halfword takes (R256). -/
def lengthOf (half : Nat) : Nat := if half % 2 = 0 then 2 else 4

/-- n little-endian bytes of a number. -/
def leBytes : Nat → Nat → List Byte
  | 0, _ => []
  | n + 1, w => BitVec.ofNat 8 w :: leBytes n (w / 256)

/-- The instruction that the decoder reads from a word of the operation table: its bits in little-endian order (R3),
zeros above them. -/
def decodeTableWord (nbits w : Nat) : Option Instr :=
  match decode (leBytes 8 (w % 2 ^ nbits)) with
  | .ok (i, _) => some i
  | .error _ => none

/-- Where an instruction stands in the tables: the 32-bit one or the 16-bit one, its row, and its field values. -/
structure Encoding where
  wide : Bool
  row : Nat
  fields : List Nat
  deriving DecidableEq, Repr

/-- The encoding of an instruction; a step of a unit of the device has none. -/
def encoding : Instr → Option Encoding
  | .add16 d a => some ⟨false, 0, [d.toNat, a.toNat]⟩
  | .mov d a => some ⟨false, 1, [d.toNat, a.toNat]⟩
  | .sub16 d a => some ⟨false, 2, [d.toNat, a.toNat]⟩
  | .addi6 d i => some ⟨false, 3, [d.toNat, i.toNat]⟩
  | .li6 d i => some ⟨false, 4, [d.toNat, i.toNat]⟩
  | .and16 d a => some ⟨false, 5, [d.toNat, a.toNat]⟩
  | .or16 d a => some ⟨false, 6, [d.toNat, a.toNat]⟩
  | .ldDShort d i => some ⟨false, 7, [d.toNat, i.toNat]⟩
  | .stDShort d i => some ⟨false, 8, [d.toNat, i.toNat]⟩
  | .bz d i => some ⟨false, 9, [d.toNat, i.toNat]⟩
  | .bnz d i => some ⟨false, 10, [d.toNat, i.toNat]⟩
  | .b16 o => some ⟨false, 11, [o.toNat]⟩
  | .shli16 d i => some ⟨false, 12, [d.toNat, i.toNat]⟩
  | .shri16 d i => some ⟨false, 13, [d.toNat, i.toNat]⟩
  | .nop => some ⟨false, 14, []⟩
  | .done => some ⟨false, 15, []⟩
  | .brk16 => some ⟨false, 16, []⟩
  | .ret => some ⟨false, 17, []⟩
  | .add d a b => some ⟨true, 0, [d.toNat, a.toNat, b.toNat]⟩
  | .sub d a b => some ⟨true, 1, [d.toNat, a.toNat, b.toNat]⟩
  | .mul d a b => some ⟨true, 2, [d.toNat, a.toNat, b.toNat]⟩
  | .mulh d a b => some ⟨true, 3, [d.toNat, a.toNat, b.toNat]⟩
  | .mulhz d a b => some ⟨true, 4, [d.toNat, a.toNat, b.toNat]⟩
  | .div d a b => some ⟨true, 5, [d.toNat, a.toNat, b.toNat]⟩
  | .divz d a b => some ⟨true, 6, [d.toNat, a.toNat, b.toNat]⟩
  | .rem d a b => some ⟨true, 7, [d.toNat, a.toNat, b.toNat]⟩
  | .remz d a b => some ⟨true, 8, [d.toNat, a.toNat, b.toNat]⟩
  | .and d a b => some ⟨true, 9, [d.toNat, a.toNat, b.toNat]⟩
  | .andn d a b => some ⟨true, 10, [d.toNat, a.toNat, b.toNat]⟩
  | .or d a b => some ⟨true, 11, [d.toNat, a.toNat, b.toNat]⟩
  | .xor d a b => some ⟨true, 12, [d.toNat, a.toNat, b.toNat]⟩
  | .shl d a b => some ⟨true, 13, [d.toNat, a.toNat, b.toNat]⟩
  | .shr d a b => some ⟨true, 14, [d.toNat, a.toNat, b.toNat]⟩
  | .sra d a b => some ⟨true, 15, [d.toNat, a.toNat, b.toNat]⟩
  | .rol d a b => some ⟨true, 16, [d.toNat, a.toNat, b.toNat]⟩
  | .clz d a => some ⟨true, 17, [d.toNat, a.toNat]⟩
  | .ctz d a => some ⟨true, 18, [d.toNat, a.toNat]⟩
  | .popc d a => some ⟨true, 19, [d.toNat, a.toNat]⟩
  | .min d a b => some ⟨true, 20, [d.toNat, a.toNat, b.toNat]⟩
  | .max d a b => some ⟨true, 21, [d.toNat, a.toNat, b.toNat]⟩
  | .minz d a b => some ⟨true, 22, [d.toNat, a.toNat, b.toNat]⟩
  | .maxz d a b => some ⟨true, 23, [d.toNat, a.toNat, b.toNat]⟩
  | .seq d a b => some ⟨true, 24, [d.toNat, a.toNat, b.toNat]⟩
  | .sne d a b => some ⟨true, 25, [d.toNat, a.toNat, b.toNat]⟩
  | .slt d a b => some ⟨true, 26, [d.toNat, a.toNat, b.toNat]⟩
  | .sltz d a b => some ⟨true, 27, [d.toNat, a.toNat, b.toNat]⟩
  | .sel d a b => some ⟨true, 28, [d.toNat, a.toNat, b.toNat]⟩
  | .bswap d a => some ⟨true, 29, [d.toNat, a.toNat]⟩
  | .clmul d a b => some ⟨true, 30, [d.toNat, a.toNat, b.toNat]⟩
  | .clmulh d a b => some ⟨true, 31, [d.toNat, a.toNat, b.toNat]⟩
  | .crc d a b => some ⟨true, 32, [d.toNat, a.toNat, b.toNat]⟩
  | .hdrPack d a b => some ⟨true, 33, [d.toNat, a.toNat, b.toNat]⟩
  | .hdrUnpk d a b => some ⟨true, 34, [d.toNat, a.toNat, b.toNat]⟩
  | .addi d a i => some ⟨true, 35, [d.toNat, a.toNat, i.toNat]⟩
  | .andi d a i => some ⟨true, 36, [d.toNat, a.toNat, i.toNat]⟩
  | .ori d a i => some ⟨true, 37, [d.toNat, a.toNat, i.toNat]⟩
  | .xori d a i => some ⟨true, 38, [d.toNat, a.toNat, i.toNat]⟩
  | .slti d a i => some ⟨true, 39, [d.toNat, a.toNat, i.toNat]⟩
  | .li d i => some ⟨true, 40, [d.toNat, i.toNat]⟩
  | .shli d a n => some ⟨true, 41, [d.toNat, a.toNat, n.toNat]⟩
  | .shri d a n => some ⟨true, 42, [d.toNat, a.toNat, n.toNat]⟩
  | .srai d a n => some ⟨true, 43, [d.toNat, a.toNat, n.toNat]⟩
  | .rori d a n => some ⟨true, 44, [d.toNat, a.toNat, n.toNat]⟩
  | .ext d a p l => some ⟨true, 45, [d.toNat, a.toNat, p.toNat, l.toNat]⟩
  | .extS d a p l => some ⟨true, 46, [d.toNat, a.toNat, p.toNat, l.toNat]⟩
  | .ins d a p l => some ⟨true, 47, [d.toNat, a.toNat, p.toNat, l.toNat]⟩
  | .lih d i => some ⟨true, 48, [d.toNat, i.toNat]⟩
  | .fadd d a b m p => some ⟨true, 49, [d.toNat, a.toNat, b.toNat, m.toNat, p.toNat]⟩
  | .fsub d a b m p => some ⟨true, 50, [d.toNat, a.toNat, b.toNat, m.toNat, p.toNat]⟩
  | .fmul d a b m p => some ⟨true, 51, [d.toNat, a.toNat, b.toNat, m.toNat, p.toNat]⟩
  | .fma d a b m p => some ⟨true, 52, [d.toNat, a.toNat, b.toNat, m.toNat, p.toNat]⟩
  | .fdiv d a b m p => some ⟨true, 53, [d.toNat, a.toNat, b.toNat, m.toNat, p.toNat]⟩
  | .fsqrt d a m p => some ⟨true, 54, [d.toNat, a.toNat, m.toNat, p.toNat]⟩
  | .fmin d a b p => some ⟨true, 55, [d.toNat, a.toNat, b.toNat, p.toNat]⟩
  | .fmax d a b p => some ⟨true, 56, [d.toNat, a.toNat, b.toNat, p.toNat]⟩
  | .fcmp d a b m p => some ⟨true, 57, [d.toNat, a.toNat, b.toNat, m.toNat, p.toNat]⟩
  | .fcvt d a t r m p => some ⟨true, 58, [d.toNat, a.toNat, t.toNat, r.toNat, m.toNat, p.toNat]⟩
  | .fmvS d a p => some ⟨true, 59, [d.toNat, a.toNat, p.toNat]⟩
  | .fmvF d a p => some ⟨true, 60, [d.toNat, a.toNat, p.toNat]⟩
  | .fclass d a p => some ⟨true, 61, [d.toNat, a.toNat, p.toNat]⟩
  | .bEq a b o => some ⟨true, 62, [a.toNat, b.toNat, o.toNat]⟩
  | .bNe a b o => some ⟨true, 63, [a.toNat, b.toNat, o.toNat]⟩
  | .bLt a b o => some ⟨true, 64, [a.toNat, b.toNat, o.toNat]⟩
  | .bGe a b o => some ⟨true, 65, [a.toNat, b.toNat, o.toNat]⟩
  | .bLtz a o => some ⟨true, 66, [a.toNat, o.toNat]⟩
  | .bGez a o => some ⟨true, 67, [a.toNat, o.toNat]⟩
  | .jal d o => some ⟨true, 68, [d.toNat, o.toNat]⟩
  | .jalr d a i => some ⟨true, 69, [d.toNat, a.toNat, i.toNat]⟩
  | .loop a i => some ⟨true, 70, [a.toNat, i.toNat]⟩
  | .loopi d n => some ⟨true, 71, [d.toNat, n.toNat]⟩
  | .csrr d c => some ⟨true, 72, [d.toNat, c.toNat]⟩
  | .csrw d a c => some ⟨true, 73, [d.toNat, a.toNat, c.toNat]⟩
  | .csrs d a c => some ⟨true, 74, [d.toNat, a.toNat, c.toNat]⟩
  | .csrc d a c => some ⟨true, 75, [d.toNat, a.toNat, c.toNat]⟩
  | .idr d n => some ⟨true, 76, [d.toNat, n.toNat]⟩
  | .trap a c => some ⟨true, 77, [a.toNat, c.toNat]⟩
  | .brk c => some ⟨true, 78, [c.toNat]⟩
  | .yield n => some ⟨true, 79, [n.toNat]⟩
  | .ld d b z s o => some ⟨true, 80, [d.toNat, b.toNat, z.toNat, s.toNat, o.toNat]⟩
  | .st d b z s o => some ⟨true, 81, [d.toNat, b.toNat, z.toNat, s.toNat, o.toNat]⟩
  | .vld d b s o => some ⟨true, 82, [d.toNat, b.toNat, s.toNat, o.toNat]⟩
  | .vst d b s o => some ⟨true, 83, [d.toNat, b.toNat, s.toNat, o.toNat]⟩
  | .ldx d a b y z s => some ⟨true, 84, [d.toNat, a.toNat, b.toNat, y.toNat, z.toNat, s.toNat]⟩
  | .prf a b => some ⟨true, 85, [a.toNat, b.toNat]⟩
  | .vldx d a b t s => some ⟨true, 86, [d.toNat, a.toNat, b.toNat, t.toNat, s.toNat]⟩
  | .vstx d a b t s => some ⟨true, 87, [d.toNat, a.toNat, b.toNat, t.toNat, s.toNat]⟩
  | .dld d a => some ⟨true, 88, [d.toNat, a.toNat]⟩
  | .tld d a o => some ⟨true, 89, [d.toNat, a.toNat, o.toNat]⟩
  | .tst d a o => some ⟨true, 90, [d.toNat, a.toNat, o.toNat]⟩
  | .rangeNext d a b => some ⟨true, 91, [d.toNat, a.toNat, b.toNat]⟩
  | .atomAdd d a b z q => some ⟨true, 92, [d.toNat, a.toNat, b.toNat, z.toNat, q.toNat]⟩
  | .atomFaddF32 d a b q => some ⟨true, 93, [d.toNat, a.toNat, b.toNat, q.toNat]⟩
  | .atomFaddF64 d a b q => some ⟨true, 94, [d.toNat, a.toNat, b.toNat, q.toNat]⟩
  | .atomFaddBf16 d a b q => some ⟨true, 95, [d.toNat, a.toNat, b.toNat, q.toNat]⟩
  | .atomMin d a b z q => some ⟨true, 96, [d.toNat, a.toNat, b.toNat, z.toNat, q.toNat]⟩
  | .atomMax d a b z q => some ⟨true, 97, [d.toNat, a.toNat, b.toNat, z.toNat, q.toNat]⟩
  | .atomMinz d a b z q => some ⟨true, 98, [d.toNat, a.toNat, b.toNat, z.toNat, q.toNat]⟩
  | .atomMaxz d a b z q => some ⟨true, 99, [d.toNat, a.toNat, b.toNat, z.toNat, q.toNat]⟩
  | .atomAnd d a b z q => some ⟨true, 100, [d.toNat, a.toNat, b.toNat, z.toNat, q.toNat]⟩
  | .atomOr d a b z q => some ⟨true, 101, [d.toNat, a.toNat, b.toNat, z.toNat, q.toNat]⟩
  | .atomXor d a b z q => some ⟨true, 102, [d.toNat, a.toNat, b.toNat, z.toNat, q.toNat]⟩
  | .atomSwap d a b z q => some ⟨true, 103, [d.toNat, a.toNat, b.toNat, z.toNat, q.toNat]⟩
  | .redAdd a b z => some ⟨true, 104, [a.toNat, b.toNat, z.toNat]⟩
  | .redFaddF32 a b => some ⟨true, 105, [a.toNat, b.toNat]⟩
  | .redFaddF64 a b => some ⟨true, 106, [a.toNat, b.toNat]⟩
  | .redFaddBf16 a b => some ⟨true, 107, [a.toNat, b.toNat]⟩
  | .redMin a b z => some ⟨true, 108, [a.toNat, b.toNat, z.toNat]⟩
  | .redMax a b z => some ⟨true, 109, [a.toNat, b.toNat, z.toNat]⟩
  | .redMinz a b z => some ⟨true, 110, [a.toNat, b.toNat, z.toNat]⟩
  | .redMaxz a b z => some ⟨true, 111, [a.toNat, b.toNat, z.toNat]⟩
  | .redAnd a b z => some ⟨true, 112, [a.toNat, b.toNat, z.toNat]⟩
  | .redOr a b z => some ⟨true, 113, [a.toNat, b.toNat, z.toNat]⟩
  | .redXor a b z => some ⟨true, 114, [a.toNat, b.toNat, z.toNat]⟩
  | .cas d a b z q => some ⟨true, 115, [d.toNat, a.toNat, b.toNat, z.toNat, q.toNat]⟩
  | .fence s => some ⟨true, 116, [s.toNat]⟩
  | .drain p => some ⟨true, 117, [p.toNat]⟩
  | .arrive a s m r => some ⟨true, 118, [a.toNat, s.toNat, m.toNat, r.toNat]⟩
  | .barArrive d a => some ⟨true, 119, [d.toNat, a.toNat]⟩
  | .barWait d a => some ⟨true, 120, [d.toNat, a.toNat]⟩
  | .semWait d k => some ⟨true, 121, [d.toNat, k.toNat]⟩
  | .semAdd d a s k e => some ⟨true, 122, [d.toNat, a.toNat, s.toNat, k.toNat, e.toNat]⟩
  | .ownGive a n => some ⟨true, 123, [a.toNat, n.toNat]⟩
  | .ownTake a n => some ⟨true, 124, [a.toNat, n.toNat]⟩
  | .ownWait a n => some ⟨true, 125, [a.toNat, n.toNat]⟩
  | .cbWait h n => some ⟨true, 126, [h.toNat, n.toNat]⟩
  | .cbRoom h n => some ⟨true, 127, [h.toNat, n.toNat]⟩
  | .cbPush h n => some ⟨true, 128, [h.toNat, n.toNat]⟩
  | .cbPop h n => some ⟨true, 129, [h.toNat, n.toNat]⟩
  | .spawn a b h => some ⟨true, 130, [a.toNat, b.toNat, h.toNat]⟩
  | .spawng a b h => some ⟨true, 131, [a.toNat, b.toNat, h.toNat]⟩
  | .wttArm a b => some ⟨true, 132, [a.toNat, b.toNat]⟩
  | .wttDisarm d b => some ⟨true, 133, [d.toNat, b.toNat]⟩
  | .send d a b w r s y => some ⟨true, 134, [d.toNat, a.toNat, b.toNat, w.toNat, r.toNat, s.toNat, y.toNat]⟩
  | .vadd d a b t => some ⟨true, 135, [d.toNat, a.toNat, b.toNat, t.toNat]⟩
  | .vsub d a b t => some ⟨true, 136, [d.toNat, a.toNat, b.toNat, t.toNat]⟩
  | .vmul d a b t => some ⟨true, 137, [d.toNat, a.toNat, b.toNat, t.toNat]⟩
  | .vfma d a b t => some ⟨true, 138, [d.toNat, a.toNat, b.toNat, t.toNat]⟩
  | .vfms d a b t => some ⟨true, 139, [d.toNat, a.toNat, b.toNat, t.toNat]⟩
  | .vfnma d a b t => some ⟨true, 140, [d.toNat, a.toNat, b.toNat, t.toNat]⟩
  | .vdiv d a b t => some ⟨true, 141, [d.toNat, a.toNat, b.toNat, t.toNat]⟩
  | .vsqrt d a t => some ⟨true, 142, [d.toNat, a.toNat, t.toNat]⟩
  | .vrcp d a t => some ⟨true, 143, [d.toNat, a.toNat, t.toNat]⟩
  | .vrsqrt d a t => some ⟨true, 144, [d.toNat, a.toNat, t.toNat]⟩
  | .vexp2 d a t => some ⟨true, 145, [d.toNat, a.toNat, t.toNat]⟩
  | .vlog2 d a t => some ⟨true, 146, [d.toNat, a.toNat, t.toNat]⟩
  | .vtanh d a t => some ⟨true, 147, [d.toNat, a.toNat, t.toNat]⟩
  | .vsigm d a t => some ⟨true, 148, [d.toNat, a.toNat, t.toNat]⟩
  | .vsin d a t => some ⟨true, 149, [d.toNat, a.toNat, t.toNat]⟩
  | .vcos d a t => some ⟨true, 150, [d.toNat, a.toNat, t.toNat]⟩
  | .vmin d a b t => some ⟨true, 151, [d.toNat, a.toNat, b.toNat, t.toNat]⟩
  | .vmax d a b t => some ⟨true, 152, [d.toNat, a.toNat, b.toNat, t.toNat]⟩
  | .vabs d a t => some ⟨true, 153, [d.toNat, a.toNat, t.toNat]⟩
  | .vneg d a t => some ⟨true, 154, [d.toNat, a.toNat, t.toNat]⟩
  | .vand d a b t => some ⟨true, 155, [d.toNat, a.toNat, b.toNat, t.toNat]⟩
  | .vor d a b t => some ⟨true, 156, [d.toNat, a.toNat, b.toNat, t.toNat]⟩
  | .vxor d a b t => some ⟨true, 157, [d.toNat, a.toNat, b.toNat, t.toNat]⟩
  | .vnot d a t => some ⟨true, 158, [d.toNat, a.toNat, t.toNat]⟩
  | .vshl d a b t => some ⟨true, 159, [d.toNat, a.toNat, b.toNat, t.toNat]⟩
  | .vshr d a b t => some ⟨true, 160, [d.toNat, a.toNat, b.toNat, t.toNat]⟩
  | .vsra d a b t => some ⟨true, 161, [d.toNat, a.toNat, b.toNat, t.toNat]⟩
  | .vcmp d a b t => some ⟨true, 162, [d.toNat, a.toNat, b.toNat, t.toNat]⟩
  | .vsel d a b t => some ⟨true, 163, [d.toNat, a.toNat, b.toNat, t.toNat]⟩
  | .vmov d a t => some ⟨true, 164, [d.toNat, a.toNat, t.toNat]⟩
  | .vbcast d a t => some ⟨true, 165, [d.toNat, a.toNat, t.toNat]⟩
  | .vins d a b t => some ⟨true, 166, [d.toNat, a.toNat, b.toNat, t.toNat]⟩
  | .vext d a b t => some ⟨true, 167, [d.toNat, a.toNat, b.toNat, t.toNat]⟩
  | .vcvt d a s t => some ⟨true, 168, [d.toNat, a.toNat, s.toNat, t.toNat]⟩
  | .vquant d a b t => some ⟨true, 169, [d.toNat, a.toNat, b.toNat, t.toNat]⟩
  | .vdequant d a b t => some ⟨true, 170, [d.toNat, a.toNat, b.toNat, t.toNat]⟩
  | .vredsum d a t => some ⟨true, 171, [d.toNat, a.toNat, t.toNat]⟩
  | .vredmax d a t => some ⟨true, 172, [d.toNat, a.toNat, t.toNat]⟩
  | .vredmin d a t => some ⟨true, 173, [d.toNat, a.toNat, t.toNat]⟩
  | .vredmaxi d a b t => some ⟨true, 174, [d.toNat, a.toNat, b.toNat, t.toNat]⟩
  | .vredmini d a b t => some ⟨true, 175, [d.toNat, a.toNat, b.toNat, t.toNat]⟩
  | .vscanAdd d a t => some ⟨true, 176, [d.toNat, a.toNat, t.toNat]⟩
  | .vscanXor d a t => some ⟨true, 177, [d.toNat, a.toNat, t.toNat]⟩
  | .vclmul d a b t => some ⟨true, 178, [d.toNat, a.toNat, b.toNat, t.toNat]⟩
  | .vpopc d a t => some ⟨true, 179, [d.toNat, a.toNat, t.toNat]⟩
  | .vclz d a t => some ⟨true, 180, [d.toNat, a.toNat, t.toNat]⟩
  | .vperm d a b t => some ⟨true, 181, [d.toNat, a.toNat, b.toNat, t.toNat]⟩
  | .vslide d a b t => some ⟨true, 182, [d.toNat, a.toNat, b.toNat, t.toNat]⟩
  | .vzip d a b t => some ⟨true, 183, [d.toNat, a.toNat, b.toNat, t.toNat]⟩
  | .vunzip d a b t => some ⟨true, 184, [d.toNat, a.toNat, b.toNat, t.toNat]⟩
  | .vtrw a b t => some ⟨true, 185, [a.toNat, b.toNat, t.toNat]⟩
  | .vtrc d a t => some ⟨true, 186, [d.toNat, a.toNat, t.toNat]⟩
  | .mand d a b => some ⟨true, 187, [d.toNat, a.toNat, b.toNat]⟩
  | .mor d a b => some ⟨true, 188, [d.toNat, a.toNat, b.toNat]⟩
  | .mxor d a b => some ⟨true, 189, [d.toNat, a.toNat, b.toNat]⟩
  | .mnot d a => some ⟨true, 190, [d.toNat, a.toNat]⟩
  | .mpop d a => some ⟨true, 191, [d.toNat, a.toNat]⟩
  | .mfirst d a => some ⟨true, 192, [d.toNat, a.toNat]⟩
  | .mset d a => some ⟨true, 193, [d.toNat, a.toNat]⟩
  | .mmaF64 c a b s j k f r z l n => some ⟨true, 194, [c.toNat, a.toNat, b.toNat, s.toNat, j.toNat, k.toNat, f.toNat, r.toNat, z.toNat, l.toNat, n.toNat]⟩
  | .mmaF32 c a b s j k f r z l n => some ⟨true, 195, [c.toNat, a.toNat, b.toNat, s.toNat, j.toNat, k.toNat, f.toNat, r.toNat, z.toNat, l.toNat, n.toNat]⟩
  | .mmaBf16 c a b s j k f r z l n => some ⟨true, 196, [c.toNat, a.toNat, b.toNat, s.toNat, j.toNat, k.toNat, f.toNat, r.toNat, z.toNat, l.toNat, n.toNat]⟩
  | .mmaF16 c a b s j k f r z l n => some ⟨true, 197, [c.toNat, a.toNat, b.toNat, s.toNat, j.toNat, k.toNat, f.toNat, r.toNat, z.toNat, l.toNat, n.toNat]⟩
  | .mmaE4e4 c a b s j k f r z l n => some ⟨true, 198, [c.toNat, a.toNat, b.toNat, s.toNat, j.toNat, k.toNat, f.toNat, r.toNat, z.toNat, l.toNat, n.toNat]⟩
  | .mmaE4e5 c a b s j k f r z l n => some ⟨true, 199, [c.toNat, a.toNat, b.toNat, s.toNat, j.toNat, k.toNat, f.toNat, r.toNat, z.toNat, l.toNat, n.toNat]⟩
  | .mmaE5e4 c a b s j k f r z l n => some ⟨true, 200, [c.toNat, a.toNat, b.toNat, s.toNat, j.toNat, k.toNat, f.toNat, r.toNat, z.toNat, l.toNat, n.toNat]⟩
  | .mmaE5e5 c a b s j k f r z l n => some ⟨true, 201, [c.toNat, a.toNat, b.toNat, s.toNat, j.toNat, k.toNat, f.toNat, r.toNat, z.toNat, l.toNat, n.toNat]⟩
  | .mmaE3m2 c a b s j k f r z l n => some ⟨true, 202, [c.toNat, a.toNat, b.toNat, s.toNat, j.toNat, k.toNat, f.toNat, r.toNat, z.toNat, l.toNat, n.toNat]⟩
  | .mmaE2m3 c a b s j k f r z l n => some ⟨true, 203, [c.toNat, a.toNat, b.toNat, s.toNat, j.toNat, k.toNat, f.toNat, r.toNat, z.toNat, l.toNat, n.toNat]⟩
  | .mmaE2m1 c a b s j k f r z l n => some ⟨true, 204, [c.toNat, a.toNat, b.toNat, s.toNat, j.toNat, k.toNat, f.toNat, r.toNat, z.toNat, l.toNat, n.toNat]⟩
  | .mmaI8 c a b s j k f r z l n => some ⟨true, 205, [c.toNat, a.toNat, b.toNat, s.toNat, j.toNat, k.toNat, f.toNat, r.toNat, z.toNat, l.toNat, n.toNat]⟩
  | .mmaI4 c a b s j k f r z l n => some ⟨true, 206, [c.toNat, a.toNat, b.toNat, s.toNat, j.toNat, k.toNat, f.toNat, r.toNat, z.toNat, l.toNat, n.toNat]⟩
  | .mzero c => some ⟨true, 207, [c.toNat]⟩
  | .mld c a b => some ⟨true, 208, [c.toNat, a.toNat, b.toNat]⟩
  | .mldT c a b => some ⟨true, 209, [c.toNat, a.toNat, b.toNat]⟩
  | .mst c a b f z l t => some ⟨true, 210, [c.toNat, a.toNat, b.toNat, f.toNat, z.toNat, l.toNat, t.toNat]⟩
  | .msc c a => some ⟨true, 211, [c.toNat, a.toNat]⟩
  | .mscE8m0 c a => some ⟨true, 212, [c.toNat, a.toNat]⟩
  | .eset a n => some ⟨true, 213, [a.toNat, n.toNat]⟩
  | .ego => some ⟨true, 214, []⟩
  | .cpy d a b t s => some ⟨true, 215, [d.toNat, a.toNat, b.toNat, t.toNat, s.toNat]⟩
  | .cpyChain a => some ⟨true, 216, [a.toNat]⟩
  | .bgath a => some ⟨true, 217, [a.toNat]⟩
  | .bcvt => some ⟨true, 218, []⟩
  | .bimOpen a b m => some ⟨true, 219, [a.toNat, b.toNat, m.toNat]⟩
  | .bimPush a b => some ⟨true, 220, [a.toNat, b.toNat]⟩
  | .bimClose => some ⟨true, 221, []⟩
  | .bimWait d a b => some ⟨true, 222, [d.toNat, a.toNat, b.toNat]⟩
  | .oftDecl a w => some ⟨true, 223, [a.toNat, w.toNat]⟩
  | .oftSub d a => some ⟨true, 224, [d.toNat, a.toNat]⟩
  | .oftRel => some ⟨true, 225, []⟩
  | .collGo a p => some ⟨true, 226, [a.toNat, p.toNat]⟩
  | .topkSend a b => some ⟨true, 227, [a.toNat, b.toNat]⟩
  | .slotClaim d a b => some ⟨true, 228, [d.toNat, a.toNat, b.toNat]⟩
  | .slotRet a b => some ⟨true, 229, [a.toNat, b.toNat]⟩
  | .ctrSnap a b => some ⟨true, 230, [a.toNat, b.toNat]⟩
  | .vxPrefix m z r c v s => some ⟨true, 231, [m.toNat, z.toNat, r.toNat, c.toNat, v.toNat, s.toNat]⟩
  | .translate _ _ _ _
  | .pageWalkReturn _ _
  | .peerUnreachable _
  | .forwardedRequest _
  | .portAccess _
  | .faultNack _
  | .replyArrive _
  | .acknowledge _
  | .invPage _ _
  | .invAsid _ _
  | .invAll _ _
  | .invRefresh _ _
  | .invNop _ _ _
  | .invCommandComplete _
  | .partwWrite _ _
  | .partwApply _
  | .coreAsidWrite _ _
  | .contextFill _
  | .contextFillDone _
  | .ownerFlip _
  | .copyCommandStart _
  | .copyCommandComplete _
  | .gangCoreAccess _
  | .windowAccess _
  | .drainComplete _
  | .fenceComplete _
  | .releaseReady _
  | .reductionMerge _
  | .writeQueueApply _
  | .plinthCommand _
  | .plinthPartComplete _ _
  | .frTake _
  | .frPut _ _
  | .demoteStep _
  | .demoteCopyDone _
  | .portAtomic _
  | .rangeNextPerform _
  | .mergeOpenEntry _
  | .mergeOpenLeader _
  | .caliperOpen _
  | .mergeOpenAck _
  | .caliperPush _
  | .closeMarkerSend _
  | .caliperClose _
  | .leaderPartial _
  | .caliperApply _ _
  | .leaderCommitAck _
  | .abortMarkerEntry _
  | .abortMarkerLeader _
  | .caliperAbort _
  | .bimDisc _ _
  | .bimCtlWrite _ _ _ _
  | .bimLimWrite _ _ _
  | .osqSubmit _
  | .beatEnd _
  | .batchReceive _
  | .batchMerge _
  | .homeGrant _
  | .txnReleaseSend _
  | .sliceRelease _
  | .txnTimeLimit _
  | .osqStall _
  | .osqCtlWrite _ _ _
  | .taskTake _
  | .gangLaunch _
  | .splitDescriptorRead _
  | .doneComplete _
  | .gangJoin _
  | .clsInv _ _
  | .clsInvComplete _
  | .arrival _
  | .wttFireRead _ _
  | .wttRetry _ _
  | .ethFrameReceive _ _ _ _
  | .steerPacket _
  | .strCtlWrite _ _ _
  | .reliefTick _
  | .linkSilence _ _
  | .rlfFenceWrite _ _
  | .dieFailure _
  | .fltPage _ _
  | .fltCtxResume _ _
  | .fltCtxTerminate _ _
  | .fltCtxNop _ _
  | .eventBufferSend _
  | .evqHeadWrite _ _
  | .evoStatClr _
  | .preCtlReq _ _
  | .suspend _
  | .preemptBound _
  | .preCtlRes _ _
  | .suspendResume _ _ _
  | .preCtlDisc _ _
  | .migCmd _ _
  | .migrationSend _
  | .migrationInstall _
  | .forwardExpire _
  | .replyDropped _
  | .routineLineFill _
  | .xsWindowEnd _ _
  | .xsCfgWrite _ _ _
  | .signalApply _
  | .barrierArrive _
  | .barrierWaitRequest _
  | .barrierFlipReceive _
  | .barrierWake _
  | .barrierPoll _
  | .bimWaitPoll _
  | .collProgramStart _
  | .collChunkReceive _
  | .collProgramEnd _
  | .collStepTimeout _
  | .collStatErrClear _
  | .bulkDropNotice _
  | .topkList _
  | .topkRootMerge _ _ _
  | .tkCtlWrite _ _
  | .ctrSnapTable _
  | .slotClaimPerform _
  | .slotRetPerform _
  | .bufferSeal _ _
  | .matrixCommandStart _
  | .matrixCommandComplete _
  | .latchMoveIn _ _
  | .luLaunch _ _
  | .partModeWrite _ _
  | .partModeComplete _
  | .bootRelease _ _
  | .bootVerify _ _
  | .bootFetchVerify _ _ _
  | .bootRetry _ _
  | .attestation _ _
  | .powerUnitTransfer _ _ _ _ _
  | .powerReclaim _
  | .pwrGuardWrite _ _
  | .sensorCrossing _ _ _
  | .watchdogExpire _
  | .scrub _ _ _
  | .eccError _ _ _ _ _
  | .ethTxTail _ _ _ _
  | .ethTransmit _ _ _
  | .ethRxTail _ _ _ _
  | .rocePacket _ _
  | .rdmaCnp _ _
  | .rdmaRateRecover _ _
  | .rdmaRetransmitTimeout _ _
  | .rdmaDoorbell _ _
  | .rdmaDbwPoll _ _
  | .rdmaCompletion _ _
  | .pcieDeviceRequest _ _ _ _ _ _
  | .interruptWrite _ _ _
  | .registerWrite _ _ _
  | .launchDescriptorRead _
  | .warmReset _
  | .powerCycle _
  | .pcieLinkTraining _ _ _ _ => none

/-- Fields placed at their bits. -/
def placeFields : List (Nat × Nat) → List Nat → Nat
  | (lo, len) :: r, v :: vs => (v % 2 ^ len) * 2 ^ lo + placeFields r vs
  | _, _ => 0

/-- The word of a row with field values. -/
def Row.word (r : Row) (f : List Nat) : Nat := r.value + placeFields r.fields f

/-- The table that holds an encoding's row. -/
def Encoding.table (e : Encoding) : List Row := if e.wide then rows32 else rows16

/-- The word of an encoding. -/
def Encoding.word (e : Encoding) : Nat :=
  match e.table[e.row]? with
  | some r => r.word e.fields
  | none => 0

/-- The word of an instruction, none for a step without an encoding. -/
def encode (i : Instr) : Option Nat := (encoding i).map Encoding.word

/-- The bytes of an instruction as memory holds them (R256). -/
def encodeBytes (i : Instr) : Option (List Byte) :=
  (encoding i).map fun e => leBytes (if e.wide then 4 else 2) e.word

/-- Is the instruction one that a program can hold: does its row have an encoding? -/
def isEncoded (i : Instr) : Bool := (encoding i).isSome

end Sys2Proof
end

