-- ==== Sys2Proof/Machine/Float.lean ====
section
/-! DEFINITION. Number formats and arithmetic (R207 to R217, R95, R222 to R224): element types, exact values, rounding,
conversion, and the event classes that each raises. An event set is a number whose bit k is event class k of R225. -/
namespace Sys2Proof.Machine

/-- Event classes of R225 as bits of an event set. -/
def evNV : Nat := 1
def evDZ : Nat := 2
def evOF : Nat := 4
def evUF : Nat := 8
def evNX : Nat := 16
def evSA : Nat := 32
def evNP : Nat := 64

/-- A floating-point format (R210): width, exponent bits, mantissa bits, bias, code of the largest finite value, and
whether it has infinities and NaNs. -/
structure Fmt where
  w : Nat
  eb : Nat
  mb : Nat
  bias : Nat
  maxc : Nat
  hasInf : Bool
  hasNan : Bool
  nanc : Nat
  deriving DecidableEq, Repr

/-- The format of an element-type code (R207, R210), none for an integer type. -/
def fmtOf (t : Nat) : Option Fmt :=
  match t with
  | 7 => some ⟨16, 5, 10, 15, 0x7BFF, true, true, 0x7E00⟩
  | 8 => some ⟨16, 8, 7, 127, 0x7F7F, true, true, 0x7FC0⟩
  | 9 => some ⟨32, 8, 23, 127, 0x7F7FFFFF, true, true, 0x7FC00000⟩
  | 10 => some ⟨64, 11, 52, 1023, 0x7FEFFFFFFFFFFFFF, true, true, 0x7FF8000000000000⟩
  | 11 => some ⟨8, 4, 3, 7, 0x7E, false, true, 0x7F⟩
  | 12 => some ⟨8, 5, 2, 15, 0x7B, true, true, 0x7E⟩
  | 13 => some ⟨6, 3, 2, 3, 0x1F, false, false, 0⟩
  | 14 => some ⟨6, 2, 3, 1, 0x1F, false, false, 0⟩
  | 15 => some ⟨4, 2, 1, 1, 0x7, false, false, 0⟩
  | _ => none

/-- Width of an element type in bits (R207). -/
def tWidth (t : Nat) : Nat :=
  match t with
  | 0 => 4
  | 1 => 8
  | 2 => 8
  | 3 => 16
  | 4 => 32
  | 5 => 32
  | 6 => 64
  | 7 => 16
  | 8 => 16
  | 9 => 32
  | 10 => 64
  | 11 => 8
  | 12 => 8
  | 13 => 6
  | 14 => 6
  | _ => 4

/-- Lanes of a vector of a type (R208). -/
def tLanes (t : Nat) : Nat := if tWidth t = 6 then 680 else 4096 / tWidth t

def tIsInt (t : Nat) : Bool := t < 7
/-- Signed integer types (R207): all but z8 and z32. -/
def tSigned (t : Nat) : Bool := t != 2 && t != 5
/-- Type classes of R348. -/
def clsA (t : Nat) : Bool := 7 ≤ t && t ≤ 10
def clsI (t : Nat) : Bool := 1 ≤ t && t ≤ 6
def clsT (t : Nat) : Bool := [1, 2, 3, 4, 5, 7, 8, 9, 11, 12].contains t

/-- Range of an integer type. -/
def tMin (t : Nat) : Int := if tSigned t then -((2 ^ (tWidth t - 1) : Nat) : Int) else 0
def tMax (t : Nat) : Int := if tSigned t then ((2 ^ (tWidth t - 1) : Nat) : Int) - 1 else ((2 ^ tWidth t : Nat) : Int) - 1

/-- Value of an integer lane. -/
def intVal (t bits : Nat) : Int :=
  if tSigned t ∧ 2 ^ (tWidth t - 1) ≤ bits then (bits : Int) - ((2 ^ tWidth t : Nat) : Int) else bits

/-- Low w bits of an integer's two's-complement form. -/
def intBits (w : Nat) (x : Int) : Nat := (x % ((2 ^ w : Nat) : Int)).toNat

/-- An exact magnitude: m × 2^e, n / d × 2^e, or √m × 2^e. -/
inductive Mag where
  | dy (m : Nat) (e : Int)
  | quo (n d : Nat) (e : Int)
  | root (m : Nat) (e : Int)
  deriving DecidableEq, Repr

/-- An exact value, an infinity or a NaN. -/
inductive FVal where
  | nan (sig : Bool)
  | inf (neg : Bool)
  | num (neg : Bool) (x : Mag)
  deriving DecidableEq, Repr

/-- Integer square root, bit by bit from bit k down. -/
def isqrtFrom (n : Nat) : Nat → Nat → Nat
  | 0, r => r
  | k + 1, r =>
    let r' := r + 2 ^ k
    isqrtFrom n k (if r' * r' ≤ n then r' else r)

def isqrt (n : Nat) : Nat := isqrtFrom n (Nat.log2 n / 2 + 1) 0

/-- ⌊x / 2^q⌋, and whether the quotient is exact. -/
def Mag.floorAt (x : Mag) (q : Int) : Nat × Bool :=
  match x with
  | .dy m e =>
    if q ≤ e then (m * 2 ^ (e - q).toNat, true)
    else
      let k := (q - e).toNat
      (m / 2 ^ k, m % 2 ^ k == 0)
  | .quo n d e =>
    if q ≤ e then
      let a := n * 2 ^ (e - q).toNat
      (a / d, a % d == 0)
    else
      let b := d * 2 ^ (q - e).toNat
      (n / b, n % b == 0)
  | .root m e =>
    if q ≤ e then
      let a := m * 2 ^ (2 * (e - q).toNat)
      (isqrt a, isqrt a * isqrt a == a)
    else
      let k := (q - e).toNat
      let r := isqrt (m / 2 ^ (2 * k))
      (r, r * r * 2 ^ (2 * k) == m)

def Mag.isZero : Mag → Bool
  | .dy m _ => m == 0
  | .quo n _ _ => n == 0
  | .root m _ => m == 0

/-- ⌊log2 x⌋ of a nonzero magnitude. -/
def Mag.log2 (x : Mag) : Int :=
  match x with
  | .dy m e => (Nat.log2 m : Int) + e
  | .quo n d e =>
    let g := (Nat.log2 n : Int) - (Nat.log2 d : Int) + e
    if 1 ≤ ((Mag.quo n d e).floorAt g).1 then g else g - 1
  | .root m e => ((Nat.log2 m / 2 : Nat) : Int) + e

/-- Whether the truncated part is raised by one unit (R212, R213): t the truncated value, f the next 32 bits, st whether
anything lies below them, u the draw of stochastic rounding. -/
def roundsUp (mode : Nat) (neg : Bool) (t f : Nat) (st : Bool) (u : Nat) : Bool :=
  let half := 2 ^ 31
  if mode = 0 then half < f || (f == half && (st || t % 2 == 1))
  else if mode = 1 then false
  else if mode = 2 then neg && (f != 0 || st)
  else if mode = 3 then !neg && (f != 0 || st)
  else if mode = 4 then half ≤ f
  else u < f

/-- x rounded to a multiple of 2^q: the multiple, and whether it is exact. -/
def roundAt (mode : Nat) (neg : Bool) (x : Mag) (q : Int) (u : Nat) : Nat × Bool :=
  let (v, ex) := x.floorAt (q - 32)
  let t := v / 2 ^ 32
  let f := v % 2 ^ 32
  (if roundsUp mode neg t f (!ex) u then t + 1 else t, ex && f == 0)

/-- The value that bits of a floating-point format encode (R210, R211). -/
def Fmt.val (k : Fmt) (bits : Nat) : FVal :=
  let neg := bits / 2 ^ (k.w - 1) % 2 == 1
  let e := bits / 2 ^ k.mb % 2 ^ k.eb
  let m := bits % 2 ^ k.mb
  let top := e == 2 ^ k.eb - 1
  if k.hasInf && top then
    if m == 0 then .inf neg else .nan (16 ≤ k.w && m / 2 ^ (k.mb - 1) == 0)
  else if k.hasNan && !k.hasInf && top && m == 2 ^ k.mb - 1 then .nan false
  else if e == 0 then .num neg (.dy m (1 - (k.bias : Int) - (k.mb : Int)))
  else .num neg (.dy (m + 2 ^ k.mb) ((e : Int) - (k.bias : Int) - (k.mb : Int)))

/-- Value of bits of any element type. -/
def valOf (t bits : Nat) : FVal :=
  match fmtOf t with
  | some k => k.val bits
  | none =>
    let x := intVal t bits
    .num (x < 0) (.dy x.natAbs 0)

/-- A code with its sign bit. -/
def Fmt.signed (k : Fmt) (neg : Bool) (c : Nat) : Nat := c + (if neg then 2 ^ (k.w - 1) else 0)

/-- NanResult of R216. -/
def Fmt.nanResult (k : Fmt) : Nat × Nat := if k.hasNan then (k.nanc, evNP) else (0, evNV)

/-- Infinity code of a format that has one. -/
def Fmt.infc (k : Fmt) : Nat := (2 ^ k.eb - 1) * 2 ^ k.mb

/-- InfResult of R216. -/
def Fmt.infResult (k : Fmt) (neg sat : Bool) : Nat × Nat :=
  if 16 ≤ k.w then (k.signed neg k.infc, 0)
  else if k.hasInf && !sat then (k.signed neg k.infc, 0)
  else if k.hasNan && !k.hasInf && !sat then (k.nanc, evNP)
  else (k.signed neg k.maxc, evSA)

/-- Does an overflow give the infinity in this mode (R216)? -/
def overInf (mode : Nat) (neg : Bool) : Bool :=
  mode == 0 || mode == 4 || (mode == 2 && neg) || (mode == 3 && !neg)

/-- OverResult of R216. Under sat 0 an e4m3 overflow raises the two events that R216 lists (DEDUCED, log 10). -/
def Fmt.overResult (k : Fmt) (neg : Bool) (mode : Nat) (sat : Bool) : Nat × Nat :=
  if 16 ≤ k.w || (k.hasInf && !sat) then
    (k.signed neg (if overInf mode neg then k.infc else k.maxc), evOF ||| evNX)
  else if k.hasNan && !k.hasInf && !sat then (k.nanc, evOF ||| evNP)
  else (k.signed neg k.maxc, evSA ||| evNX)

/-- Convert of R215 to a floating-point format: result bits and events. -/
def Fmt.convert (k : Fmt) (x : FVal) (mode : Nat) (sat : Bool) (u : Nat) : Nat × Nat :=
  match x with
  | .nan sig =>
    let (b, ev) := k.nanResult
    (b, ev ||| (if sig then evNV else 0))
  | .inf neg => k.infResult neg sat
  | .num neg m =>
    if m.isZero then (k.signed neg 0, 0)
    else
      let qmin : Int := 1 - (k.bias : Int) - (k.mb : Int)
      let q := max (m.log2 - (k.mb : Int)) qmin
      let (t, ex) := roundAt mode neg m q u
      let c := t + (q - qmin).toNat * 2 ^ k.mb
      if k.maxc < c then k.overResult neg mode sat
      else
        let ev := (if ex then 0 else evNX) ||| (if !ex && m.log2 < 1 - (k.bias : Int) then evUF else 0)
        (k.signed neg c, ev)

/-- Conversion to an integer type (R217); fp tells a floating-point source. -/
def intConvert (t : Nat) (fp : Bool) (x : FVal) (mode : Nat) (sat : Bool) (u : Nat) : Nat × Nat :=
  let w := tWidth t
  match x with
  | .nan _ => (0, evNV)
  | .inf neg => (intBits w (if neg then tMin t else tMax t), evSA ||| evNX)
  | .num neg m =>
    let (v, ex) := if m.isZero then (0, true) else roundAt mode neg m 0 u
    let y : Int := if neg then -(v : Int) else v
    if y < tMin t ∨ tMax t < y then
      if fp then (intBits w (if neg then tMin t else tMax t), evSA ||| evNX)
      else if sat then (intBits w (if neg then tMin t else tMax t), evSA)
      else (intBits w y, 0)
    else (intBits w y, if ex then 0 else evNX)

/-- Convert of R215 to any element type; fp tells that the source is a floating-point value (R217). -/
def convert (t : Nat) (fp : Bool) (x : FVal) (mode : Nat) (sat : Bool) (u : Nat) : Nat × Nat :=
  match fmtOf t with
  | some k => k.convert x mode sat u
  | none => intConvert t fp x mode sat u

/-- Conversion of bits of one type to another (R215 to R217). -/
def convertBits (dt st bits mode : Nat) (sat : Bool) (u : Nat) : Nat × Nat :=
  convert dt (!tIsInt st) (valOf st bits) mode sat u

def FVal.isNan : FVal → Bool
  | .nan _ => true
  | _ => false

def FVal.isSig : FVal → Bool
  | .nan s => s
  | _ => false

def FVal.neg : FVal → FVal
  | .nan s => .nan s
  | .inf n => .inf (!n)
  | .num n m => .num (!n) m

/-- Exact sum of two dyadic numbers with signs, as a signed multiple of a power of two. -/
def dyAdd (n1 : Bool) (m1 : Nat) (e1 : Int) (n2 : Bool) (m2 : Nat) (e2 : Int) : Int × Int :=
  let e := min e1 e2
  let a : Int := (m1 * 2 ^ (e1 - e).toNat : Nat)
  let b : Int := (m2 * 2 ^ (e2 - e).toNat : Nat)
  ((if n1 then -a else a) + (if n2 then -b else b), e)

/-- Exact sum (R299): the value and the invalid event of ∞ − ∞; mode gives the sign of an exact zero sum. -/
def fAdd (x y : FVal) (mode : Nat) : FVal × Nat :=
  match x, y with
  | .nan _, _ => (.nan false, 0)
  | _, .nan _ => (.nan false, 0)
  | .inf a, .inf b => if a = b then (.inf a, 0) else (.nan false, evNV)
  | .inf a, _ => (.inf a, 0)
  | _, .inf b => (.inf b, 0)
  | .num n1 (.dy m1 e1), .num n2 (.dy m2 e2) =>
    if m1 = 0 ∧ m2 = 0 then (.num (if n1 = n2 then n1 else mode == 2) (.dy 0 0), 0)
    else
      let (v, e) := dyAdd n1 m1 e1 n2 m2 e2
      if v = 0 then (.num (mode == 2) (.dy 0 0), 0) else (.num (v < 0) (.dy v.natAbs e), 0)
  | .num n1 m1, .num _ _ => (.num n1 m1, 0)

/-- Exact product (R299): 0 × ∞ is invalid. -/
def fMul (x y : FVal) : FVal × Nat :=
  match x, y with
  | .nan _, _ => (.nan false, 0)
  | _, .nan _ => (.nan false, 0)
  | .inf a, .inf b => (.inf (a != b), 0)
  | .inf a, .num b m => if m.isZero then (.nan false, evNV) else (.inf (a != b), 0)
  | .num a m, .inf b => if m.isZero then (.nan false, evNV) else (.inf (a != b), 0)
  | .num n1 (.dy m1 e1), .num n2 (.dy m2 e2) => (.num (n1 != n2) (.dy (m1 * m2) (e1 + e2)), 0)
  | .num n1 m1, .num n2 _ => (.num (n1 != n2) m1, 0)

/-- a × b + c, exact (R299): a product 0 × ∞ is invalid whatever the addend. -/
def fFma (a b c : FVal) (mode : Nat) : FVal × Nat :=
  let (p, e1) := fMul a b
  if e1 != 0 then (.nan false, e1)
  else
    let (r, e2) := fAdd p c mode
    (r, e2)

/-- Exact quotient (R299): divide by zero, 0 / 0 and ∞ / ∞. -/
def fDiv (x y : FVal) : FVal × Nat :=
  match x, y with
  | .nan _, _ => (.nan false, 0)
  | _, .nan _ => (.nan false, 0)
  | .inf _, .inf _ => (.nan false, evNV)
  | .inf a, .num b _ => (.inf (a != b), 0)
  | .num a _, .inf b => (.num (a != b) (.dy 0 0), 0)
  | .num n1 (.dy m1 e1), .num n2 (.dy m2 e2) =>
    if m2 = 0 then (if m1 = 0 then (.nan false, evNV) else (.inf (n1 != n2), evDZ))
    else if m1 = 0 then (.num (n1 != n2) (.dy 0 0), 0)
    else (.num (n1 != n2) (.quo m1 m2 (e1 - e2)), 0)
  | .num n1 m1, .num _ _ => (.num n1 m1, 0)

/-- Exact square root (R299): invalid below −0. -/
def fSqrt (x : FVal) : FVal × Nat :=
  match x with
  | .nan _ => (.nan false, 0)
  | .inf n => if n then (.nan false, evNV) else (.inf false, 0)
  | .num n (.dy m e) =>
    if m = 0 then (.num n (.dy 0 0), 0)
    else if n then (.nan false, evNV)
    else if e % 2 = 0 then (.num false (.root m (e / 2)), 0)
    else (.num false (.root (2 * m) ((e - 1) / 2)), 0)
  | .num n m => (.num n m, 0)

/-- Signalling operands raise invalid (R211). -/
def sigEv (xs : List FVal) : Nat := if xs.any FVal.isSig then evNV else 0

/-- An arithmetic result: the exact value converted once, with all events (R299, R351). -/
def fResult (k : Fmt) (r : FVal × Nat) (ops : List FVal) (mode : Nat) (sat : Bool) (u : Nat) : Nat × Nat :=
  let (b, ev) := k.convert r.1 mode sat u
  (b, ev ||| r.2 ||| sigEv ops)

/-- Rank of a number's bits in the order of R224: −0 below +0. -/
def Fmt.rank (k : Fmt) (bits : Nat) : Int :=
  let m := bits % 2 ^ (k.w - 1)
  if bits / 2 ^ (k.w - 1) % 2 = 1 then -(m : Int) - 1 else m

/-- Rank of a lane of a type. -/
def rankOf (t bits : Nat) : Int :=
  match fmtOf t with
  | some k => k.rank bits
  | none => intVal t bits

/-- Is a lane a NaN of its type? -/
def isNanBits (t bits : Nat) : Bool := !tIsInt t && (valOf t bits).isNan

/-- Two-operand minimum and maximum of R224, R300: a NaN wins and gives the canonical NaN. -/
def minMax (t : Nat) (wantMax : Bool) (a b : Nat) : Nat × Nat :=
  if isNanBits t a || isNanBits t b then
    match fmtOf t with
    | some k => (k.nanc, evNP ||| sigEv [valOf t a, valOf t b])
    | none => (0, 0)
  else if wantMax then (if rankOf t b ≤ rankOf t a then (a, 0) else (b, 0))
  else (if rankOf t a ≤ rankOf t b then (a, 0) else (b, 0))

/-- Comparison of two numbers that are not NaN: −0 equals +0 (R301, R356). -/
def fLt (t a b : Nat) : Bool :=
  match fmtOf t with
  | some k =>
    let za := a % 2 ^ (k.w - 1) == 0
    let zb := b % 2 ^ (k.w - 1) == 0
    !(za && zb) && k.rank a < k.rank b
  | none => intVal t a < intVal t b

def fEq (t a b : Nat) : Bool :=
  match fmtOf t with
  | some k => a == b || (a % 2 ^ (k.w - 1) == 0 && b % 2 ^ (k.w - 1) == 0)
  | none => a == b

/-- Floating-point add of a memory port or a Caliper (R95): one rounding, RNE, no events. -/
def portFAdd (t a b : Nat) : Nat :=
  match fmtOf t with
  | some k => (k.convert (fAdd (valOf t a) (valOf t b) 0).1 0 true 0).1
  | none => 0

/-- A fused multiply-add of a Caliper (R113): T + factor × S, one rounding, RNE. -/
def portFma (t acc f x : Nat) : Nat :=
  match fmtOf t with
  | some k => (k.convert (fFma (valOf t f) (valOf t x) (valOf t acc) 0).1 0 true 0).1
  | none => 0

/-- The new value of a location under a memory-side operation (R94); size is the byte count. -/
def memOp (op n : Nat) (old v : Nat) : Nat :=
  let w := 8 * n
  let sgn (x : Nat) : Int := if 2 ^ (w - 1) ≤ x then (x : Int) - ((2 ^ w : Nat) : Int) else x
  match op with
  | 0 => (old + v) % 2 ^ w
  | 1 => portFAdd 9 old v
  | 2 => portFAdd 10 old v
  | 3 => portFAdd 8 old v
  | 4 => if sgn old ≤ sgn v then old else v
  | 5 => if sgn v ≤ sgn old then old else v
  | 6 => min old v
  | 7 => max old v
  | 8 => old &&& v
  | 9 => old ||| v
  | 10 => old ^^^ v
  | _ => v

/-- The merge of two reductions waiting in a write queue (R59): by the operation's own arithmetic. -/
def mergeOp (op n : Nat) (a b : Nat) : Nat := memOp op n a b

/-- Quantise of R222 for one block: the scale code and the element codes of the active lanes; inactive lanes give 0
events. xs are FP32 codes with their mask bits; draws numbers the stochastic draws. -/
def quantise (t : Nat) (xs : List (Bool × Nat)) (mode : Nat) (sat : Bool) (draw : Nat → Nat) :
    Nat × List (Nat × Nat) :=
  match fmtOf t, fmtOf 9 with
  | some k, some f32 =>
    let act := xs.filter fun p => p.1
    let fp32Scale := k.w = 8
    if act.any fun p => isNanBits 9 p.2 then
      (if fp32Scale then 0x7FC00000 else 0xFF, xs.map fun p => (0, if p.1 && isNanBits 9 p.2 then evNV else 0))
    else
      let amax := act.foldl (fun m p => max m (p.2 % 2 ^ 31)) 0
      if amax = 0 then (if fp32Scale then 0x3F800000 else 127, xs.map fun _ => (0, 0))
      else
        let amax := if amax = 0x7F800000 then f32.maxc else amax
        let a := valOf 9 amax
        let fmax := k.val k.maxc
        let emax : Int := match fmax with
          | .num _ m => m.log2
          | _ => 0
        let (code, s) : Nat × FVal :=
          if fp32Scale then
            let c := (f32.convert (fDiv a fmax).1 0 true 0).1
            let c := if c = 0 then 1 else c
            (c, valOf 9 c)
          else
            let l : Int := match a with
              | .num _ m => m.log2
              | _ => 0
            let e := max (-127) (min 127 (l - emax))
            ((e + 127).toNat, .num false (.dy 1 e))
        let q (i : Nat) (p : Bool × Nat) : Nat × Nat :=
          if !p.1 then (0, 0)
          else if p.2 % 2 ^ 31 = 0 then (0, 0)
          else k.convert (fDiv (valOf 9 p.2) s).1 mode sat (draw i)
        (code, (xs.zipIdx).map fun p => q p.2 p.1)
  | _, _ => (0, xs.map fun _ => (0, 0))

/-- The value of a scale code: FP32 bits or E8M0 (R210, R361). -/
def scaleVal (e8 : Bool) (c : Nat) : FVal :=
  if e8 then (if c = 0xFF then .nan false else .num false (.dy 1 ((c : Int) - 127))) else valOf 9 c

/-- One dequantised element (R361): q × s exact, one rounding; a NaN scale raises invalid. -/
def dequant (t : Nat) (e8 : Bool) (code q mode : Nat) (sat : Bool) (u : Nat) : Nat × Nat :=
  match fmtOf 9 with
  | some f32 =>
    let s := scaleVal e8 code
    if s.isNan then (f32.nanc, evNV ||| evNP)
    else
      let r := fMul (valOf t q) s
      let (b, ev) := f32.convert r.1 mode sat u
      (b, ev ||| r.2)
  | none => (0, 0)

end Sys2Proof.Machine
end

