-- ==== Sys2Proof/Machine/Translate.lean ====
section
/-! DEFINITION. Routing (R7, R8) and translation at the owner (R10 to R29, R53): package maps, address-space table, page
walk, checks, accessed and dirty marks, apertures. -/
namespace Sys2Proof.Machine

/-- Fields of a virtual address (R7). -/
def vaPkg (va : Nat) : Nat := fld va 51 6
def vaDie (va : Nat) : Nat := fld va 48 3
def vaOff (va : Nat) : Nat := fld va 0 48

/-- Package map entry i of a die (R8). -/
def pkmap (s : State) (dk i : Nat) : Word := rawReg s dk (8 * i)

/-- The package with a system package number, by number (R8): package p holds number p unless PKG_SELF says otherwise. -/
def pkgOfSys (s : State) (sys : Nat) : Nat :=
  match s.pkgs.find? (fun e => e.2.sys = sys) with
  | some e => e.1
  | none => sys

/-- Where a request of a die goes (R7, R8): the owner's die key, or none when it is unroutable (kind 0x0D). -/
def route (s : State) (dk va : Nat) : Option Nat :=
  if vaPkg va = 63 then (if vaDie va = 0 then some (ioDie (dk / 16)) else none)
  else
    let e := pkmap s dk (vaPkg va)
    if wbit e 15 then some (dieKey (pkgOfSys s (wfld e 0 12)) (vaDie va)) else none

/-- Whether the fabric reaches a die's package from another (R8, R178): it does not when the die has failed. -/
def reachable (s : State) (dk : Nat) : Bool := !(dieAt s dk).failed

/-- Does the fabric carry requests from one die to another now (R8)? -/
def pathTo (s : State) (src dk : Nat) : Bool := reachable s dk && !s.noPath.contains (src / 16, dk / 16)

/-- A physical address in the memory that a unit's tables lie in (R12, R18). -/
def local_ (dk pa : Nat) : Nat := if dk % 16 = 8 then ddr (dk / 16) pa else hbm dk pa

/-- Bytes of the owner's physical memory (R22): 288 GiB of HBM, 512 GiB of DDR. -/
def localSize (dk : Nat) : Nat := if dk % 16 = 8 then 512 * 2 ^ 30 else 288 * 2 ^ 30

/-- Line of an address: stack port that holds it (R57). -/
def wqKey (loc : Nat) : Nat :=
  if regionKind loc = 1 then regionIdx loc * 4 + regionOff loc / 256 % 3 else dieKey (regionIdx loc) 8 * 4

/-- The words of the ASDT entry in force for an ASID (R12, R15): the cached copy, else memory. -/
def asdtEntry (s : State) (dk asid : Nat) : Word × Word :=
  match (mtuAt s dk).asdts.find? (fun e => e.1 = asid) with
  | some e => (e.2.1, e.2.2)
  | none =>
    let base := wfld (rawReg s dk mtuBlk) 20 32 * 2 ^ 20 + 16 * asid
    (readW s.mem (local_ dk base), readW s.mem (local_ dk (base + 8)))

/-- Caches the ASDT entry that was used (R15). -/
def cacheAsdt (s : State) (dk asid : Nat) (e : Word × Word) : State :=
  let m := mtuAt s dk
  if m.asdts.any (fun x => x.1 = asid) then s
  else setMtu s dk { m with asdts := m.asdts ++ [(asid, e.1, e.2)] }

/-- R13: is the request's source permitted by word 1 of the entry? -/
def sourcePermitted (dk : Nat) (w1 : Word) (q : Req) : Bool :=
  if q.src.pkg != dk / 16 then wbit w1 9
  else if q.src.die = 8 then wbit w1 8
  else wbit w1 q.src.die

/-- Fields of a leaf (R20). -/
def leafV (e : Word) : Bool := wbit e 0
def leafL (e : Word) : Bool := wbit e 1
def leafRD (e : Word) : Bool := wbit e 2
def leafWR (e : Word) : Bool := wbit e 3
def leafAT (e : Word) : Bool := wbit e 4
def leafRAP (e : Word) : Bool := wbit e 5
def leafXC (e : Word) : Bool := wbit e 6
def leafDI (e : Word) : Bool := wbit e 7
def leafAC (e : Word) : Bool := wbit e 8
def leafAPER (e : Word) : Nat := wfld e 9 3
def leafTIER (e : Word) : Nat := wfld e 12 2
def leafSZ (e : Word) : Nat := wfld e 14 2
def leafOF (e : Word) : Bool := wbit e 16
def leafFRAME (e : Word) : Nat := wfld e 17 36
def leafPPKG (e : Word) : Nat := wfld e 53 6
def leafPDIE (e : Word) : Nat := wfld e 59 3

/-- Bytes of a page by SZ (R18). -/
def pageBytes (sz : Nat) : Nat := if sz = 0 then 2 ^ 16 else if sz = 1 then 2 ^ 21 else 2 ^ 30

/-- Physical address within the leaf's frame space (R21). -/
def leafPa (e : Word) (off : Nat) : Nat :=
  let p := pageBytes (leafSZ e)
  leafFRAME e * 65536 / p * p + off % p

/-- Index of a level's table (R18). -/
def lvlIndex (lvl off : Nat) : Nat :=
  if lvl = 1 then fld off 39 9 else if lvl = 2 then fld off 30 9 else if lvl = 3 then fld off 21 9 else fld off 16 5

/-- Bytes of a level's table (R18). -/
def lvlBytes (lvl : Nat) : Nat := if lvl = 4 then 256 else 4096

/-- Is a valid entry at a level malformed (R22)? -/
def malformed (s : State) (dk lvl : Nat) (e : Word) : Bool :=
  if leafL e then
    lvl = 1 || leafSZ e != 4 - lvl || 6 ≤ leafAPER e || (leafAPER e = 5 && leafSZ e != 0) ||
      (leafAPER e = 1 && (leafPPKG e = 63 || !wbit (pkmap s dk (leafPPKG e)) 15)) ||
      (dk % 16 = 8 && (leafAPER e = 0 || leafAPER e = 1 || leafAPER e = 5))
  else lvl = 4

/-- The outcome of a walk: a fault kind with level and entry, or a leaf with its address, level, and the pointer entries
read on the way. -/
inductive WalkResult where
  | fault (kind lvl : Nat) (entry : Word)
  | leaf (e : Word) (loc lvl : Nat) (ptrs : List (Nat × Word))
  deriving DecidableEq, Repr

/-- One level of the walk after another (R18, R19, R22), from the table at tb; at most four levels. An entry with an
uncorrectable error stops the walk with kind 0x0F; ENTRY is then the pointer entry that named the table, 0 for ROOT, as it is for a table
outside memory (DESIGN CHOICE, log 53). -/
def walkFrom (s : State) (dk off : Nat) : Nat → Nat → Nat → Word → List (Nat × Word) → WalkResult
  | 0, lvl, _, ent, _ => .fault 0x09 lvl ent
  | fuel + 1, lvl, tb, ent, ptrs =>
    if tb + lvlBytes lvl > localSize dk then .fault 0x0F lvl ent
    else
      let loc := local_ dk (tb + 8 * lvlIndex lvl off)
      let e := readW s.mem loc
      if s.eccBad.contains (loc / 64) then .fault 0x0F lvl ent
      else if !leafV e then .fault 0x01 lvl e
      else if malformed s dk lvl e then .fault 0x09 lvl e
      else if leafL e then .leaf e loc lvl ptrs
      else
        let t := wfld e 8 44 * 256
        let t := if lvl + 1 < 4 then t / 4096 * 4096 else t
        walkFrom s dk off fuel (lvl + 1) t e (ptrs ++ [(lvl + 1, e)])

/-- OFF bits that lead to a table of a level. -/
def lvlPrefix (lvl off : Nat) : Nat :=
  if lvl = 2 then off / 2 ^ 39 else if lvl = 3 then off / 2 ^ 30 else off / 2 ^ 21

/-- The deepest cached pointer entry of the ASID and generation that leads towards an offset (R23). -/
def startPtr (m : Mtu) (asid gen off : Nat) : Option PtrEntry :=
  let hit (l : Nat) := m.ptrs.find? fun p => p.asid = asid ∧ p.gen = gen ∧ p.lvl = l ∧ p.base = lvlPrefix l off
  match hit 4 with
  | some p => some p
  | none => match hit 3 with
    | some p => some p
    | none => hit 2

/-- The walk of an address (R18 to R23), from a cached pointer entry or from ROOT. -/
def walk (s : State) (dk : Nat) (q : Req) (root : Nat) : WalkResult :=
  let off := vaOff q.va
  match startPtr (mtuAt s dk) q.asid q.gen off with
  | some p =>
    let t := wfld p.entry 8 44 * 256
    let t := if p.lvl < 4 then t / 4096 * 4096 else t
    walkFrom s dk off 4 p.lvl t p.entry []
  | none => walkFrom s dk off 4 1 root 0 []

/-- Caches the pointer entries that a walk read (R23). -/
def cachePtrs (s : State) (dk : Nat) (q : Req) (ps : List (Nat × Word)) : State :=
  let m := mtuAt s dk
  let new := ps.map fun p => { asid := q.asid, gen := q.gen, lvl := p.1, base := lvlPrefix p.1 (vaOff q.va), entry := p.2 : PtrEntry }
  setMtu s dk { m with ptrs := m.ptrs ++ new.filter fun p => !m.ptrs.contains p }

/-- Does a cached leaf serve an address of an ASID and generation (R14)? -/
def tlbHits (asid gen off : Nat) (t : TlbEntry) : Bool :=
  t.asid == asid && t.gen == gen && t.base ≤ off && off < t.base + t.size

/-- R14: the cached leaf for a request. -/
def tlbLookup (s : State) (dk : Nat) (q : Req) : Option TlbEntry :=
  (mtuAt s dk).tlb.find? (tlbHits q.asid q.gen (vaOff q.va))

/-- Do two leaves lie in one set of the TLB (R10; DESIGN CHOICE, log 52)? -/
def sameSet (t u : TlbEntry) : Bool :=
  Config.tlbSet t.asid t.gen t.base t.size % 4096 == Config.tlbSet u.asid u.gen u.base u.size % 4096

/-- Installs a leaf in the TLB in place of the entry for the page (R10, R26); from a set of 16 the oldest leaf leaves (DESIGN CHOICE,
log 52). -/
def tlbInstall (s : State) (dk : Nat) (q : Req) (e : Word) (loc : Nat) : State :=
  let m := mtuAt s dk
  let size := pageBytes (leafSZ e)
  let new : TlbEntry := ⟨q.asid, q.gen, vaOff q.va / size * size, size, e, loc⟩
  let kept := m.tlb.filter fun t => !tlbHits q.asid q.gen (vaOff q.va) t
  let kept := if kept.length < 16 ∨ (kept.filter (sameSet new)).length < 16 then kept
    else match kept.find? (sameSet new) with
      | some old => kept.erase old
      | none => kept
  setMtu s dk { m with tlb := kept ++ [new] }

/-- Kinds that write (R26 Check). -/
def Acc.writes (a : Acc) : Bool := [Acc.store, .ewr, .atom, .cas, .red, .mobj].contains a

/-- Check of R26: the fault kind, 0 when the leaf permits the request. -/
def checkLeaf (s : State) (dk : Nat) (e : Word) (q : Req) : Nat :=
  let execSys := if leafAPER e = 1 then wfld (pkmap s dk (leafPPKG e)) 0 12 else sysPkg s (dk / 16)
  if q.acc = .fetch ∧ !leafXC e then 0x07
  else if [Acc.load, .erd, .atom, .cas, .mobj].contains q.acc ∧ !leafRD e then 0x03
  else if q.acc.writes ∧ !leafWR e then 0x04
  else if [Acc.atom, .cas, .red, .mobj].contains q.acc ∧ sysPkg s q.src.pkg = execSys ∧ !leafAT e then 0x05
  else if [Acc.atom, .cas, .red, .mobj].contains q.acc ∧ sysPkg s q.src.pkg ≠ execSys ∧ !leafRAP e then 0x06
  else if q.acc.writes ∧ leafOF e ∧ q.txn.isNone then 0x08
  else 0

/-- Is the HDM decoding of a CXL port enabled? -/
def hdmOn (s : State) (pkg q : Nat) : Bool := wbit (rawReg s (ioDie pkg) (cxlBlk q + hdmCap)) 33

/-- Does a port's committed decoder claim a host physical address: it lies in the decoder's range, and its way is this port's (R421)? -/
def portClaims (s : State) (pkg q addr : Nat) : Bool :=
  hdmOn s pkg q && (List.range 8).any fun n => match mget (pkgAt s pkg).hdm (8 * q + n) none with
    | some d => d.base ≤ addr && addr < d.base + d.size && (!d.two || d.ways.getD (addr / 2 ^ d.gran % 2) 2 == q)
    | none => false

/-- Frames that committed HDM decoders of a package's CXL ports claim, every 256 bytes by one of the two ports (R24, R421; PRESUMED, log 23). -/
def hdmClaims (s : State) (pkg frame : Nat) : Bool :=
  (List.range 256).all fun g => (List.range 2).any fun q => portClaims s pkg q (frame * 65536 + 256 * g)

/-- The part of an access that lies in its first page: bytes up to the end of the page (R26). -/
def pageLeft (e : Word) (off : Nat) : Nat := pageBytes (leafSZ e) - off % pageBytes (leafSZ e)

/-- The 64 KiB frames that n bytes from a physical address meet; an access without bytes meets the frame of its address. -/
def framesOf (pa n : Nat) : List Nat := span (pa / 65536) (max 1 ((pa % 65536 + n + 65535) / 65536))

/-- Aperture rules of R24: the fault kind, 0 when the access may be performed. Where an unsupported aperture and a frame out of range
both apply, kind 0x10 is reported (DESIGN CHOICE, log 54). Of a page of aperture 3 every frame that the access meets there must be claimed. -/
def apertureFault (s : State) (dk : Nat) (e : Word) (q : Req) : Nat :=
  let a := leafAPER e
  let f := leafPa e (vaOff q.va) / 65536
  let special := q.acc = .fetch ∨ q.acc = .atom ∨ q.acc = .cas ∨ q.acc = .red ∨ q.acc = .mobj
  if a = 4 then 0x02
  else if a = 1 ∧ q.acc = .fetch then 0x10
  else if (a = 3 ∨ a = 5) ∧ special then 0x10
  else if a = 0 ∧ f ≥ 4718592 then 0x0C
  else if a = 2 ∧ f ≥ 8388608 then 0x0C
  else if a = 5 ∧ f ≥ 1024 then 0x0C
  else if a = 3 ∧ !((framesOf (leafPa e (vaOff q.va)) (min q.n (pageLeft e (vaOff q.va)))).all (hdmClaims s (dk / 16))) then 0x0C
  else 0

/-- The location of an access after translation (R24), for the apertures performed in this package. -/
def leafLoc (dk : Nat) (e : Word) (off : Nat) : Nat :=
  let pa := leafPa e off
  if leafAPER e = 0 then hbm dk pa
  else if leafAPER e = 2 then ddr (dk / 16) pa
  else if leafAPER e = 3 then cxl (dk / 16) pa
  else pool (coreKey (dk / 16) (dk % 16) (pa / 65536 / 4)) (pa / 65536 % 4 * 65536 + pa % 65536)

/-- MarkAccessed (R29): AC when the leaf was walked, DI at the first write through an entry whose DI is clear, by an OR on the leaf's
word. A first write whose word no longer has V set or names another FRAME, APER or SZ drops the entry: the answer's flag is false. -/
def markAccessed (s : State) (dk : Nat) (q : Req) (e : Word) (walked : Bool) (loc : Nat) : Bool × State :=
  let wantDI := q.acc.writes && !leafDI e
  if !walked && !wantDI then (true, s)
  else
    let old := readW s.mem loc
    let bits : Word := (if walked then 0x100 else 0) ||| (if wantDI then 0x80 else 0)
    let s := { s with mem := writeN s.mem loc 8 (old ||| bits).toNat }
    let m := mtuAt s dk
    if wantDI && !(leafV old && leafFRAME old == leafFRAME e && leafAPER old == leafAPER e && leafSZ old == leafSZ e) then
      (false, setMtu s dk { m with tlb := m.tlb.filter fun t => !tlbHits q.asid q.gen (vaOff q.va) t })
    else
      let mark (t : TlbEntry) : TlbEntry := if tlbHits q.asid q.gen (vaOff q.va) t then { t with leaf := e ||| bits } else t
      (true, setMtu s dk { m with tlb := m.tlb.map mark })

/-- The outcome of a translation. -/
inductive Trans where
  | fault (r : FRec)
  | miss
  | ok (loc : Nat) (leaf : Word) (left : Nat)
  deriving DecidableEq, Repr

/-- The unit that reports an aperture fault (R24): the I/O die for an address that no CXL decoder claims, with LVL 0 (DEDUCED, log 54); else
the owner, with the level of the walk. -/
def apertureUnit (dk k lvl : Nat) (e : Word) : Nat × Nat :=
  if k = 0x0C ∧ leafAPER e = 3 then (ioDie (dk / 16), 0) else (dk, lvl)

/-- The end of a translation once Check has passed: the marks of R29, then the aperture rules of R24. The fault record carries the leaf
as it was read (DEDUCED, log 50). -/
def finishTranslate (s : State) (dk : Nat) (q : Req) (e : Word) (walked : Bool) (lvl loc : Nat) : Trans × State :=
  match markAccessed s dk q e walked loc with
  | (false, s) => (.miss, s)
  | (true, s) =>
    let k := apertureFault s dk e q
    if k != 0 then
      let (r, s) := raiseFault s (apertureUnit dk k lvl e).1 q k (apertureUnit dk k lvl e).2 q.va e
      (.fault r, s)
    else (.ok (leafLoc dk e (vaOff q.va)) e (pageLeft e (vaOff q.va)), s)

/-- The ASDT entry's judgement of a request (R13, R14): the fault kind, 0 when it passes. -/
def asdtJudge (s : State) (dk : Nat) (q : Req) : Nat :=
  let a := asdtEntry s dk q.asid
  if !wbit a.1 0 ∨ !sourcePermitted dk a.2 q then 0x0B
  else if q.gen != wfld a.1 1 4 then 0x0A
  else 0

/-- ASDT checks of R13 and R14: the fault kind, 0 when the request passes. -/
def asdtFault (s : State) (dk : Nat) (q : Req) : Nat :=
  if !wbit (rawReg s dk mtuBlk) 0 then 0x0B else asdtJudge s dk q

/-- The walk of a request with its check, install and mark (R26, R27). A walk restarted by R34 is this walk: it starts from the ASDT
entry in force, which may by then refuse the request (R14, R16). -/
def walkTranslate (s : State) (dk : Nat) (q : Req) : Trans × State :=
  let k := asdtJudge s dk q
  if k != 0 then
    let (r, s) := raiseFault s dk q k 0 q.va 0
    (.fault r, s)
  else
    let a := asdtEntry s dk q.asid
    match walk s dk q (wfld a.1 12 40 * 4096) with
    | .fault k lvl e =>
      let (r, s) := raiseFault (cacheAsdt s dk q.asid a) dk q k lvl q.va e
      (.fault r, s)
    | .leaf e loc lvl ps =>
      let s := cachePtrs (cacheAsdt s dk q.asid a) dk q ps
      let k := checkLeaf s dk e q
      if k != 0 then
        let (r, s) := raiseFault s dk q k lvl q.va e
        (.fault r, s)
      else finishTranslate (tlbInstall s dk q e loc) dk q e true lvl loc

/-- Translate of R26 up to a miss: ASDT checks, TLB lookup, check. A denial by a TLB entry is walked again (R27): it
answers a miss, as a miss does. -/
def translateReq (s : State) (dk : Nat) (q : Req) : Trans × State :=
  let k := asdtFault s dk q
  if k != 0 then
    let (r, s) := raiseFault s dk q k 0 q.va 0
    (.fault r, s)
  else
    let a := asdtEntry s dk q.asid
    let s := cacheAsdt s dk q.asid a
    match tlbLookup s dk q with
    | none => (.miss, s)
    | some t =>
      if checkLeaf s dk t.leaf q != 0 then (.miss, s)
      else finishTranslate s dk q t.leaf false 0 t.loc

/-- A whole translation at one instant: the lookup, and the walk when it misses (R26). -/
def translateNow (s : State) (dk : Nat) (q : Req) : Trans × State :=
  match translateReq s dk q with
  | (.miss, s) => walkTranslate s dk q
  | r => r

/-- R25: does an export window of a peer die admit a forwarded access to a frame? -/
def exportAdmits (s : State) (dk : Nat) (fromSys frame : Nat) (acc : Acc) : Bool :=
  (List.range 16).any fun j =>
    let a := rawReg s dk (0x400 + 16 * j)
    let b := rawReg s dk (0x408 + 16 * j)
    wbit a 63 && wfld a 0 36 ≤ frame && frame ≤ wfld b 0 36 && (wbit a 60 || wfld a 48 12 == fromSys) &&
      (if [Acc.atom, .cas, .red, .mobj].contains acc then wbit a 61
       else if acc.writes then wbit a 62 else true)

/-- Does the peer admit every frame of a forwarded access (R25)? -/
def admits (s : State) (p from_ pa n : Nat) (acc : Acc) : Bool :=
  (framesOf pa n).all fun fr => exportAdmits s p from_ fr acc

end Sys2Proof.Machine
end

