-- ==== Sys2Proof/Machine/Ports.lean ====
section
/-! DEFINITION. The memory ports (R24, R59, R69, R97): write queues, reads and writes of a location at its port, and an
access that an engine makes at one instant. -/
namespace Sys2Proof.Machine

/-- Only HBM and the I/O die's DDR have a write queue (R59, R97). -/
def hasQueue (loc : Nat) : Bool := regionKind loc == 1 || regionKind loc == 2

/-- Entries of the write queue of a port: 1024 of a Plinth, 256 of the DDR port (R59, R97). -/
def wqCap (key : Nat) : Nat := if key / 4 % 16 = 8 then 256 else 1024

def wqAt (s : State) (key : Nat) : List WqEntry := mget s.wqs key []
def setWq (s : State) (key : Nat) (q : List WqEntry) : State := { s with wqs := mset s.wqs key q }

/-- Applies an entry's merged values to the array (R59). -/
def applyEntry (m : Memory) (e : WqEntry) : Memory :=
  e.vals.foldl (fun m v =>
    let a := 64 * e.line + v.1
    writeN m a e.size (memOp e.op e.size (readN m a e.size) v.2.toNat)) m

/-- Closes and applies every entry of the line that holds a location. -/
def closeLine (s : State) (loc : Nat) : State :=
  if !hasQueue loc then s
  else
    let key := wqKey loc
    let q := wqAt s key
    if q.any fun e => e.line = loc / 64 then
      let mine := q.filter fun e => e.line = loc / 64
      { setWq s key (q.filter fun e => e.line != loc / 64) with mem := mine.foldl applyEntry s.mem }
    else s

/-- Closes the lines that n bytes from a location touch. -/
def closeRange (s : State) (loc n : Nat) : State :=
  (span (loc / 64) ((loc % 64 + n + 63) / 64)).foldl (fun s l => closeLine s (64 * l)) s

/-- Reads n bytes at a port, after the entries of their lines are applied (R59). -/
def portRead (s : State) (loc n : Nat) : List Byte × State :=
  let s := closeRange s loc n
  (readBytes s.mem loc n, s)

/-- Writes bytes at a port, after the entries of their lines are applied (R59); a line written whole holds no error. -/
def portWrite (s : State) (loc : Nat) (bs : List Byte) : State :=
  let s := closeRange s loc bs.length
  { s with mem := writeBytes s.mem loc bs
           eccBad := s.eccBad.filter fun l => !(loc ≤ 64 * l && 64 * l + 64 ≤ loc + bs.length) }

/-- Does a range of HBM or DDR lie in lines with an uncorrectable error (R412)? -/
def linesBad (s : State) (loc n : Nat) : Bool := hasQueue loc && s.eccBad.any fun l => loc < 64 * l + 64 && 64 * l < loc + n

/-- The values of an entry with one more reduction merged in (R59). -/
def mergeVal (op size off : Nat) (v : Word) (vals : List (Nat × Word)) : List (Nat × Word) :=
  match vals with
  | [] => [(off, v)]
  | (o, w) :: r =>
    if o = off then (o, BitVec.ofNat 64 (mergeOp op size w.toNat v.toNat)) :: r else (o, w) :: mergeVal op size off v r

/-- What a reduction does at a write queue (R59): it merges into an entry of its operation and size, it opens an entry,
or, when an entry of another operation stands or the queue is full, that entry closes and the reduction is held: the
answer is then none. -/
def reduceAt (s : State) (loc op size : Nat) (v : Word) : State × Bool :=
  let key := wqKey loc
  let q := wqAt s key
  let line := loc / 64
  let off := loc % 64
  match q.find? (fun e => e.line = line) with
  | some e =>
    if e.op = op ∧ e.size = size ∧ !e.closed then
      (setWq s key (q.map fun x => if x.line = line then { x with vals := mergeVal op size off v x.vals } else x), true)
    else (setWq s key (q.map fun x => if x.line = line then { x with closed := true } else x), false)
  | none =>
    if q.length < wqCap key then
      (setWq s key (q ++ [{ line := line, op := op, size := size, vals := [(off, v)], closed := false }]), true)
    else
      match q with
      | [] => (s, false)
      | e :: r => (setWq s key ({ e with closed := true } :: r), false)

/-- A reduction at its port (R59): it is held behind those that are held there, else it goes to the write queue; the answer says whether
it was merged. -/
def reduceInOrder (s : State) (id loc op size : Nat) (v : Word) : State × Bool :=
  let key := wqKey loc
  let held := mget s.redHeld key []
  let hold (s : State) : State := if held.contains id then s else { s with redHeld := mset s.redHeld key (held ++ [id]) }
  match held with
  | h :: r =>
    if h != id then (hold s, false)
    else match reduceAt s loc op size v with
      | (s, true) => ({ s with redHeld := mset s.redHeld key r }, true)
      | (s, false) => (s, false)
  | [] => match reduceAt s loc op size v with
    | (s, true) => (s, true)
    | (s, false) => (hold s, false)

/-- Applies the oldest closed entry of a port (R59). -/
def applyOldest (s : State) (key : Nat) : State :=
  match (wqAt s key).find? (fun e => e.closed) with
  | some e =>
    { setWq s key ((wqAt s key).filter fun x => x.line != e.line) with mem := applyEntry s.mem e }
  | none => s

/-- The core whose pool holds a location, for a pool location. -/
def poolCore (loc : Nat) : Nat := regionIdx loc

/-- First scratchpad row of a core (R38). -/
def scratchRow (c : Core) : Nat := 128 * wfld c.partw 0 2 + 16 * wfld c.partw 2 6

/-- Is a slot of a core engine-owned (R46)? -/
def engineOwned (c : Core) (slot : Nat) : Bool := (mget c.slots slot (false, 0)).1

/-- Slots that n bytes from an own-pool address touch. -/
def slotsOf (a n : Nat) : List Nat := if n = 0 then [] else span (a / 4096) ((a % 4096 + n + 4095) / 4096)

/-- What a pool port says to an access through aperture 5 (R53): 0 perform, 1 hold, or a fault kind. -/
def windowVerdict (s : State) (loc n : Nat) (write : Bool) : Nat :=
  let c := coreAt s (poolCore loc)
  let a := regionOff loc
  if a / 512 < scratchRow c ∨ a + n > 262144 then 0x13
  else if (slotsOf a n).any (engineOwned c) then (if write then 0x12 else 1)
  else 0

/-- The die at whose port a location lies. -/
def locDie (loc : Nat) : Nat :=
  if regionKind loc = 1 then regionIdx loc else if regionKind loc = 4 then dkOfCore (poolCore loc) else ioDie (regionIdx loc)

/-- What a synchronous access of an engine comes to. -/
inductive Got where
  | ok (bs : List Byte)
  | fault (r : FRec)
  deriving DecidableEq, Repr

/-- The peer die of a leaf of aperture 1 (R25): its key, and the package the fabric finds for the map entry. -/
def peerDie (s : State) (dk : Nat) (e : Word) : Nat :=
  dieKey (pkgOfSys s (wfld (pkmap s dk (leafPPKG e)) 0 12)) (leafPDIE e)

/-- The record of a window access that is refused names a load or a store (R53). -/
def windowReq (q : Req) : Req := { q with acc := if q.acc.writes then .store else .load }

/-- One page's part of an access after translation: performed at once, or its fault (DEDUCED, log 19). A read of a slot that its engine
owns is held at the pool port (R47), and a die that does not answer serves nothing (R178): the step that makes the access does not take
place. -/
def performPart (s : State) (dk : Nat) (q : Req) (loc : Nat) (leaf : Word) (data : List Byte) (n : Nat) : Got × State :=
  let write := q.acc.writes
  if leafAPER leaf = 1 then
    let p := peerDie s dk leaf
    let pa := leafPa leaf (vaOff q.va)
    if !pathTo s dk p then
      let (r, s) := raiseFault s dk q 0x0E 0 q.va leaf
      (.fault r, s)
    else if (dieAt s p).failed then (.ok [], { s with held := true })
    else if !admits s p (sysPkg s (dk / 16)) pa n q.acc ∨ pa + n > localSize p then
      let (r, s) := raiseFault s p q 0x11 0 q.va leaf
      (.fault r, s)
    else if write then (.ok [], portWrite s (hbm p pa) data)
    else
      let (bs, s) := portRead s (hbm p pa) n
      (.ok bs, s)
  else if (dieAt s (locDie loc)).failed ∨ (leafAPER leaf = 5 ∧ windowVerdict s loc n write = 1) then (.ok [], { s with held := true })
  else if leafAPER leaf = 5 ∧ windowVerdict s loc n write > 1 then
    let (r, s) := raiseFault s dk (windowReq q) (windowVerdict s loc n write) 0 q.va leaf
    (.fault r, s)
  else if write then (.ok [], portWrite s loc data)
  else
    let (bs, s) := portRead s loc n
    (.ok bs, s)

/-- R131: is a transactional request to n bytes without the grants it needs at the owner die, tile by tile? -/
def undeclared (s : State) (dk : Nat) (q : Req) (n : Nat) : Bool :=
  match q.txn with
  | none => false
  | some tid => (span (q.va / 4096) ((q.va % 4096 + n + 4095) / 4096)).any fun tile =>
      !(osqAt s dk).queue.any fun e => e.granted && e.asid = q.asid && e.tile / 4096 = tile && e.tid = tid && (e.w || !q.acc.writes)

/-- An access of an engine, translated and performed page by page at one instant (R26); at most `fuel` pages. -/
def accessFrom (s : State) (q : Req) (data : List Byte) (got : List Byte) : Nat → Got × State
  | 0 => (.ok got, s)
  | fuel + 1 =>
    let src := dieKey q.src.pkg q.src.die
    match route s src q.va with
    | none =>
      let (r, s) := raiseFault s src q 0x0D 0 q.va 0
      (.fault r, s)
    | some dk =>
      if dk / 16 != q.src.pkg && !pathTo s src dk then
        let (r, s) := raiseFault s src q 0x0E 0 q.va 0
        (.fault r, s)
      else if (dieAt s dk).failed then (.ok got, { s with held := true })
      else
        match translateNow s dk q with
        | (.fault r, s) => (.fault r, s)
        | (.miss, s) =>
          let (r, s) := raiseFault s dk q 0x01 4 q.va 0
          (.fault r, s)
        | (.ok loc leaf left, s) =>
          let n := min q.n left
          if undeclared s dk q n then
            let (r, s) := raiseFault s dk q 0x16 0 q.va 0
            (.fault r, s)
          else match performPart s dk q loc leaf (data.take n) n with
          | (.fault r, s) => (.fault r, s)
          | (.ok bs, s) =>
            if q.n ≤ n then (.ok (got ++ bs), s)
            else accessFrom s { q with va := (q.va + n) % 2 ^ 57, n := q.n - n } (data.drop n) (got ++ bs) fuel

/-- Reads n bytes for an engine. -/
def readNow (s : State) (q : Req) : Got × State := accessFrom s q [] [] (q.n / 65536 + 2)

/-- Writes bytes for an engine. -/
def writeNow (s : State) (q : Req) (bs : List Byte) : Got × State :=
  accessFrom s { q with n := bs.length } bs [] (bs.length / 65536 + 2)

/-- The outcome of a step that makes accesses of an engine or agent: with one of them held (R47) it does not take place. -/
def unlessHeld (s : State) (o : Host.Outcome State Fault Refusal) : Host.Outcome State Fault Refusal :=
  match o with
  | .next t => if t.held && !s.held then .next s else .next t
  | o => o

/-- The outcome of a request from outside, or of a register write, that makes such accesses: with one of them held the request waits, and is made
again (R47). -/
def orHold (s : State) (i : HeldReq) (o : Host.Outcome State Fault Refusal) : Host.Outcome State Fault Refusal :=
  match o with
  | .next t => if t.held && !s.held then .next { s with heldReqs := s.heldReqs ++ [i] } else .next t
  | o => o

/-- The outcome of a step of a die: one that does not answer (R178) does nothing. -/
def unlessDown (s : State) (dk : Nat) (o : Host.Outcome State Fault Refusal) : Host.Outcome State Fault Refusal :=
  if (dieAt s dk).failed then .next s else o

/-- The die whose unit an operation is at: a pool port, a memory port, a translation unit. -/
def actingDie (f : Flight) : Nat :=
  match f.gang, f.stage with
  | some c, _ => dkOfCore c
  | none, .port loc _ _ _ => locDie loc
  | none, _ => f.unit

/-- The outcome of a step of the unit that an operation is at. -/
def unlessUnitDown (s : State) (id : Nat) (o : Host.Outcome State Fault Refusal) : Host.Outcome State Fault Refusal :=
  match s.flights.find? fun f => f.id = id with
  | some f => unlessDown s (actingDie f) o
  | none => o

/-- A request of an agent with no activation behind it (R31). -/
def agentReq (dk agent asid gen : Nat) (acc : Acc) (va n : Nat) : Req :=
  { acc := acc, va := va % 2 ^ 57, n := n, asid := asid, gen := gen, src := ⟨dk / 16, dk % 16, 0, 0, some agent⟩, txn := none }

end Sys2Proof.Machine
end

