-- ==== Sys2Proof/Machine/Operands.lean ====
section
/-! DEFINITION. Operand forms (R40, R44, R54 to R56, R207, R254, R260): register files of an activation, the vector
window, lanes, addresses of the M format and of gang-core accesses, tensor descriptors, the shadow set of the copy engine and the slots that
its commands name (R48, R385 to R387). -/
namespace Sys2Proof.Machine

/-- Scalar register i: s0 reads as zero (R254). -/
def sreg (a : Act) (i : Nat) : Word := if i = 0 then 0 else a.regs.s.toList.getD i 0

/-- Writes scalar register i; a write to s0 is discarded (R254). -/
def setS (a : Act) (i : Nat) (v : Word) : Act :=
  if i = 0 then a else { a with regs := { a.regs with s := a.regs.s.setIfInBounds i v } }

def freg (a : Act) (i : Nat) : Word := a.regs.f.toList.getD i 0
def setFr (a : Act) (i : Nat) (v : Word) : Act := { a with regs := { a.regs with f := a.regs.f.setIfInBounds i v } }

/-- Mask register i: m0 reads as all ones (R254). -/
def mreg (a : Act) (i : Nat) : MReg := if i = 0 then BitVec.allOnes 1024 else a.regs.m.toList.getD i 0

/-- Writes mask register i; a write to m0 is discarded (R254). -/
def setM (a : Act) (i : Nat) (v : MReg) : Act :=
  if i = 0 then a else { a with regs := { a.regs with m := a.regs.m.setIfInBounds i v } }

def dreg (a : Act) (i : Nat) : DReg := a.regs.d.toList.getD i 0
def setD (a : Act) (i : Nat) (v : DReg) : Act := { a with regs := { a.regs with d := a.regs.d.setIfInBounds i v } }
def creg (a : Act) (i : Nat) : Word := a.regs.c.toList.getD i 0
def setC (a : Act) (i : Nat) (v : Word) : Act := { a with regs := { a.regs with c := a.regs.c.setIfInBounds i v } }

def setPc (a : Act) (v : Word) : Act := { a with regs := { a.regs with pc := v } }
def pcOf (a : Act) : Nat := a.regs.pc.toNat

/-- The core of an activation and its record. -/
def coreOf (a : Act) : Nat := coreOfCtx a.ctx
def dieOf (a : Act) : Nat := dkOfCore (coreOf a)

/-- Class number of an activation's task (R142). -/
def classOf (a : Act) : Nat := wfld (nth a.task.words 0) 0 10

/-- First pool row of the home window of frame k (R40). -/
def frameRow (c : Core) (k : Nat) : Nat := 128 * wfld c.partw 0 2 + 36 * k

/-- Frames of a core (R39, R40): none while CTX is below 3 or CORE_ASID.V is clear. -/
def frameCount (c : Core) : Nat :=
  if wfld c.partw 2 6 < 3 ∨ !wbit c.asid 20 then 0 else min 8 (wfld c.partw 2 6 * 16 / 36)

/-- Pool row of vector register v under a VWB value (R44). -/
def vrow (s : State) (a : Act) (vwb : Word) (v : Nat) : Nat :=
  if wbit vwb 12 then 128 * a.tiles.getD (wfld vwb 10 2) 0 + 8 * wfld vwb 0 4 + v
  else frameRow (coreAt s (coreOf a)) (a.frame.getD 0) + v

/-- Name of the row for pending destinations: an accumulator row of the core, or a home row of the activation. -/
def vname (a : Act) (vwb : Word) (v : Nat) : Nat :=
  if wbit vwb 12 then 128 * a.tiles.getD (wfld vwb 10 2) 0 + 8 * wfld vwb 0 4 + v else 100000 + v

/-- Where vector register v lies now. -/
def vloc (s : State) (a : Act) (v : Nat) : Nat := pool (coreOf a) (512 * vrow s a a.regs.vwb v)

/-- The 4096 bits of vector register v (R208). -/
def vreg (s : State) (a : Act) (v : Nat) : Nat := readN s.mem (vloc s a v) 512

/-- Writes vector register v. -/
def setV (s : State) (a : Act) (v bits : Nat) : State := { s with mem := writeN s.mem (vloc s a v) 512 bits }

/-- Lane i of w bits of a vector; 6-bit lanes lie four to 3 bytes (R208), which is at 6 · i. -/
def lane (w bits i : Nat) : Nat := fld bits (w * i) w

/-- A vector of w-bit lanes, lane 0 lowest. -/
def ofLanes (w : Nat) : List Nat → Nat
  | [] => 0
  | x :: r => x % 2 ^ w + 2 ^ w * ofLanes w r

/-- The n lanes of a vector. -/
def lanes (w bits n : Nat) : List Nat := (List.range n).map (lane w bits)

/-- The address of an M-format operand (R260, R322): base plus the scaled signed offset. -/
def mAddr (a : Act) (base off unit : Nat) : Nat :=
  (sreg a base + sextNat 10 off * BitVec.ofNat 64 unit).toNat

/-- Unit of a scalar access size (R260). -/
def unitOf (z : Nat) : Nat := 2 ^ (z % 4)

/-- Bytes of an atomic's size field (R270). -/
def atomBytes (z : Nat) : Nat := 2 ^ (z + 1)

/-- Target core of a gang-core address (R52). -/
def gangCore (a : Act) (addr : Nat) : Nat :=
  coreOf a / 256 * 256 + fld addr 22 4 * 16 + fld addr 18 4

/-- Own-pool rows that an activation's instructions reach (R45): scratchpad rows and rows of held tiles. -/
def ownRow (s : State) (a : Act) (row : Nat) : Bool :=
  row < 512 && (scratchRow (coreAt s (coreOf a)) ≤ row || a.tiles.any fun t => 128 * t ≤ row && row < 128 * t + 128)

/-- Does every byte of an own-pool access lie in rows the activation reaches (R45, R322)? -/
def ownReach (s : State) (a : Act) (p n : Nat) : Bool :=
  p + n ≤ 262144 && (span (p / 512) ((p % 512 + n + 511) / 512)).all (ownRow s a)

/-- Does every byte lie in the scratchpad region of a core (R38)? -/
def inScratch (c : Core) (p n : Nat) : Bool := p + n ≤ 262144 && 512 * scratchRow c ≤ p

/-- The first engine-owned slot that an own-pool access touches. -/
def ownedSlot (s : State) (core p n : Nat) : Option Nat := (slotsOf p n).find? (engineOwned (coreAt s core))

/-- Fields of a tensor descriptor (R54). -/
def dword (d : DReg) (i : Nat) : Word := BitVec.ofNat 64 (fld d.toNat (64 * i) 64)
def dEtype (d : DReg) : Nat := wfld (dword d 0) 60 4
def dSpace (d : DReg) : Nat := wfld (dword d 0) 57 2
def dBase (d : DReg) : Nat := wfld (dword d 0) 0 57
def dBlk1 (d : DReg) : Nat := wfld (dword d 1) 10 4
def dBlk0 (d : DReg) : Nat := wfld (dword d 1) 6 4
def dSct (d : DReg) : Bool := wbit (dword d 1) 5
def dSwz (d : DReg) : Nat := wfld (dword d 1) 3 2
def dRank (d : DReg) : Nat := wfld (dword d 1) 0 3
def dScale (d : DReg) : Nat := wfld (dword d 7) 0 57

/-- Extent of dimension k: 1 at or above RANK (R54, R328). -/
def dSize (d : DReg) (k : Nat) : Nat :=
  if dRank d ≤ k then 1
  else if k = 0 then wfld (dword d 1) 16 24
  else if k = 1 then wfld (dword d 1) 40 24
  else if k = 2 then wfld (dword d 2) 0 24
  else if k = 3 then wfld (dword d 2) 24 24
  else wfld (dword d 3) 0 24

/-- Byte stride of dimension k from 1 to 4: ignored at or above RANK. -/
def dStride (d : DReg) (k : Nat) : Nat :=
  if dRank d ≤ k then 0 else if k = 1 then wfld (dword d 3) 24 40 else wfld (dword d (k + 2)) 0 40

/-- Bytes of n packed elements of a type along dimension 0 (R54). -/
def rowBytes (t n : Nat) : Nat := n * tWidth t / 8

/-- The descriptor of 64 bytes. -/
def dOfBytes (bs : List Byte) : DReg := BitVec.ofNat 512 (ofBytes bs)

/-- R55: does a descriptor break a rule? -/
def descMalformed (d : DReg) : Bool :=
  let t := dEtype d
  let rank := dRank d
  let len := rowBytes t (dSize d 0)
  let chunk := if dSwz d = 1 then 128 else 512
  rank < 1 || 5 < rank || dSpace d == 3 || dSwz d == 3 ||
  (List.range rank).any (fun k => dSize d k == 0) ||
  (tWidth t == 4 && dSize d 0 % 2 != 0) || (tWidth t == 6 && dSize d 0 % 4 != 0) ||
  8 < dBlk0 d || 8 < dBlk1 d ||
  (dSwz d != 0 && (dSpace d == 0 || rank < 2 || dBase d % chunk != 0 || dStride d 1 % chunk != 0 || len % chunk != 0))

/-- An index into a tensor. -/
abbrev Idx := Nat × Nat × Nat × Nat × Nat

/-- PoolByte of R56: the address of byte `off` of the tile row that an index names; without a swizzle it is the address of R54. -/
def poolByte (d : DReg) (x : Idx) (off : Nat) : Nat :=
  let c := off / 16
  let c := if dSwz d = 1 then c ^^^ (x.2.1 % 8) else if dSwz d = 2 then c ^^^ (x.2.1 % 32) else c
  dBase d + (x.2.1 * dStride d 1 + x.2.2.1 * dStride d 2 + x.2.2.2.1 * dStride d 3 + x.2.2.2.2 * dStride d 4 + c * 16 + off % 16)

/-- First bit of an element in its tile row (R54). -/
def elemBit (d : DReg) (x : Idx) : Nat := x.1 * tWidth (dEtype d)

/-- Address of an element's first byte and the bit within that byte (R54, R56). -/
def idxAddr (d : DReg) (x : Idx) : Nat × Nat := (poolByte d x (elemBit d x / 8), elemBit d x % 8)

/-- Bytes that hold an element at a bit of its first byte. -/
def elemBytes (t bit : Nat) : Nat := (bit + tWidth t + 7) / 8

/-- The byte runs (address, length) that hold an element, in order: two where a swizzled tensor parts its bytes (R56). -/
def elemPieces (d : DReg) (x : Idx) : List (Nat × Nat) :=
  let off := elemBit d x / 8
  let n := elemBytes (dEtype d) (elemBit d x % 8)
  let first := 16 - off % 16
  if dSwz d = 0 ∨ n ≤ first then [(poolByte d x off, n)]
  else [(poolByte d x off, first), (poolByte d x (off + first), n - first)]

/-- Elements that share their bytes (R383): the 2 of a byte, the 4 of a 3-byte group, else 1. -/
def groupSize (t : Nat) : Nat := if tWidth t = 4 then 2 else if tWidth t = 6 then 4 else 1

/-- Does the group of position k end at or before a limit? -/
def groupBelow (t k lim : Nat) : Bool := k / groupSize t * groupSize t + groupSize t ≤ lim

/-- All indices of the dimensions above 0, in order. -/
def outerIndices (d : DReg) : List (Nat × Nat × Nat × Nat) :=
  (List.range (dSize d 4)).flatMap fun i4 => (List.range (dSize d 3)).flatMap fun i3 =>
    (List.range (dSize d 2)).flatMap fun i2 => (List.range (dSize d 1)).map fun i1 => (i1, i2, i3, i4)

/-- The byte ranges (address, length) of the rows of a tensor's tile. -/
def tileRanges (d : DReg) : List (Nat × Nat) :=
  (outerIndices d).map fun (i1, i2, i3, i4) =>
    (dBase d + i1 * dStride d 1 + i2 * dStride d 2 + i3 * dStride d 3 + i4 * dStride d 4,
      (dSize d 0 * tWidth (dEtype d) + 7) / 8)

/-- Do two byte ranges meet? -/
def meets (a n b m : Nat) : Bool := a < b + m && b < a + n && n != 0 && m != 0

/-- Slots that a pool tensor's tile touches. -/
def tileSlots (d : DReg) : List Nat := ((tileRanges d).flatMap fun r => slotsOf (r.1 % 262144) r.2).eraseDups

/-- The core whose engine works for an operation. -/
def flightCore (f : Flight) : Nat := coreKey f.req.src.pkg f.req.src.die f.req.src.core

/-- Target core of a gang-core address of an engine command (R52). -/
def gangTarget (core addr : Nat) : Nat := core / 256 * 256 + fld addr 22 4 * 16 + fld addr 18 4

/-! ### The shadow set and the slots of a command -/

/-- Fields of the shadow set (R385). -/
def shSpace (w : Word) : Nat := wfld w 57 2
def shAddr (w : Word) : Nat := wfld w 0 57
def shRows (sh : List Word) : Nat := wfld (nth sh 2) 24 24
def shLen (sh : List Word) : Nat := wfld (nth sh 2) 0 24
def shEn (sh : List Word) : Bool := wbit (nth sh 5) 8
def shSt (sh : List Word) : Nat := wfld (nth sh 5) 0 4
def shDt (sh : List Word) : Nat := wfld (nth sh 5) 4 4
def shRm (sh : List Word) : Nat := wfld (nth sh 5) 9 3
def shSat (sh : List Word) : Bool := wbit (nth sh 5) 12
def shJoin (sh : List Word) : Word := nth sh 6 &&& 0xFFFFFF
def shScope (sh : List Word) : Nat := wfld (nth sh 6) 24 3
/-- Bytes of an element type with codes 1 to 12. -/
def tBytes (t : Nat) : Nat := tWidth t / 8
/-- Bytes that one row writes. -/
def shDstLen (sh : List Word) : Nat := if shEn sh then shLen sh / tBytes (shSt sh) * tBytes (shDt sh) else shLen sh

/-- First byte of row r on one side: base plus a signed stride (R386). -/
def rowAt (base : Nat) (stride : Word) (r : Nat) : Int := (base : Int) + stride.toInt * (r : Int)

/-- Space and address of a row as it is performed: global and gang-core addresses wrap in their fields, a gang-core
address of the issuing core is an own-pool address (R52). -/
def rowPlace (core space : Nat) (x : Int) : Nat × Int :=
  if space = 0 then (0, x % (2 ^ 57 : Nat))
  else if space = 2 then
    let y := (x % (2 ^ 57 : Nat)).toNat
    if gangTarget core y = core then (1, (y % 262144 : Nat)) else (2, (y : Int))
  else (1, x)

/-- Source rows: (space, address); a gather takes row r from index r of its list. -/
def srcRows (core : Nat) (sh : List Word) (idx : Option (List Nat)) : List (Nat × Int) :=
  let at' (r : Nat) := rowPlace core (shSpace (nth sh 0)) (rowAt (shAddr (nth sh 0)) (nth sh 3) r)
  match idx with
  | some l => l.map at'
  | none => (List.range (shRows sh)).map at'

/-- Destination rows. -/
def dstRows (core : Nat) (sh : List Word) : List (Nat × Int) :=
  (List.range (shRows sh)).map fun r => rowPlace core (shSpace (nth sh 1)) (rowAt (shAddr (nth sh 1)) (nth sh 4) r)

/-- R386 but its pool rule: is a command malformed? -/
def copyMalformed (sh : List Word) : Bool :=
  shRows sh == 0 || shLen sh == 0 || shSpace (nth sh 0) == 3 || shSpace (nth sh 1) == 3 || 4 < shScope sh ||
    (shEn sh && (shSt sh == 0 || 12 < shSt sh || shDt sh == 0 || 12 < shDt sh || 5 < shRm sh || shLen sh % tBytes (shSt sh) != 0))

/-- Own-pool byte ranges among rows of n bytes; none when one leaves the scratchpad region (R386). -/
def ownRanges (c : Core) (n : Nat) (rows : List (Nat × Int)) : Option (List (Nat × Nat)) :=
  let own := rows.filter fun r => r.1 = 1
  if own.all fun r => 0 ≤ r.2 && inScratch c r.2.toNat n then some (own.map fun r => (r.2.toNat, n)) else none

/-- Slots of byte ranges. -/
def rangeSlots (rs : List (Nat × Nat)) : List Nat := (rs.flatMap fun r => slotsOf r.1 r.2).eraseDups

/-- The slots that a command names (R387), none when its own-pool bytes leave the scratchpad region. -/
def namedSlots (s : State) (core : Nat) (sh : List Word) (gather : Bool) : Option (List Nat) :=
  let c := coreAt s core
  match ownRanges c (shLen sh) (if gather then [] else srcRows core sh none), ownRanges c (shDstLen sh) (dstRows core sh) with
  | some x, some y => some (rangeSlots (x ++ y))
  | _, _ => none

/-- The path of a command (R51, R387). -/
def copyPath (sh : List Word) : Nat := if shSpace (nth sh 1) = 1 then 0 else 1

/-- Slots that a gather or convert names. -/
def plinthSlots (s : State) (f : Flight) (sh : List Word) (gather : Bool) : List Nat :=
  (namedSlots s (flightCore f) sh gather).getD []

/-- A command that names slots is counted there when it is queued (R48). -/
def countUp (s : State) (core : Nat) (slots : List Nat) : State :=
  slots.foldl (fun s k =>
    let c := coreAt s core
    let (e, n) := Sys2Proof.Machine.mget c.slots k (false, 0)
    setCore s core { c with slots := Sys2Proof.Machine.mset c.slots k (e, n + 1) }) s

/-- A command ends: its slots are counted down, and an engine-owned slot whose count falls from 1 to 0 returns (R48). -/
def countDown (s : State) (core : Nat) (slots : List Nat) : State :=
  slots.foldl (fun s k =>
    let c := coreAt s core
    let (e, n) := Sys2Proof.Machine.mget c.slots k (false, 0)
    setCore s core { c with slots := Sys2Proof.Machine.mset c.slots k (e && n != 1, n - 1) }) s

end Sys2Proof.Machine
end

