-- ==== Sys2Proof/Machine/Ops.lean ====
section
/-! DEFINITION. The operations that meanings share: operations in flight and their slots (R186), ordering conditions
(R51, R66, R73, R76), waits (R185), traps and termination (R192), issue and retirement of a unit (R183, R282, R311). -/
namespace Sys2Proof.Machine

/-! ### Activations and flights -/

/-- The resident or evicted activation with an id (DESIGN CHOICE, log 37). -/
def actByUid (s : State) (uid : Nat) : Option Act := (s.acts.find? fun e => e.2.uid = uid).map fun e => e.2

/-- The activation's record replaced, under its own context key. -/
def putAct (s : State) (a : Act) : State := setAct s a.ctx a

def flightById (s : State) (id : Nat) : Option Flight := s.flights.find? fun f => f.id = id
def setFlight (s : State) (f : Flight) : State := { s with flights := s.flights.map fun g => if g.id = f.id then f else g }
def dropFlight (s : State) (id : Nat) : State := { s with flights := s.flights.filter fun g => g.id != id }

/-- Operations of an activation. -/
def flightsOf (s : State) (uid : Nat) : List Flight := s.flights.filter fun f => f.uid = uid

/-- Is the flight a request that a memory port performs? -/
def Pay.isAccess : Pay → Bool
  | .load | .fetch | .prf | .store _ | .atom .. | .cas .. | .red .. | .range | .dec | .barArrive .. | .barWait _
  | .claim .. | .slotRet .. | .push .. => true
  | _ => false

/-- Does an operation touch the words of its request: an access, or a snapshot that will be stored there (R248)? -/
def Pay.touches : Pay → Bool
  | .snap .. => true
  | p => p.isAccess

/-- Do two operations touch a common 8-byte word (R186)? -/
def sameWord (f g : Flight) : Bool :=
  f.pay.touches && g.pay.touches && f.pay != .prf && g.pay != .prf && f.gang == g.gang && f.req.n != 0 && g.req.n != 0 &&
    f.req.va / 8 ≤ (g.req.va + g.req.n - 1) / 8 && g.req.va / 8 ≤ (f.req.va + f.req.n - 1) / 8

/-- The number of an operation among those that its source sends (R87), and whether it was sent before another; of two that one step sends the
earlier operation goes first. -/
def sentAt (f : Flight) : Nat := if f.sentNo = 0 then f.id else f.sentNo
def sentBefore (g f : Flight) : Bool := sentAt g < sentAt f || sentAt g == sentAt f && g.id < f.id

/-- Is a flight unsent at the core? -/
def Stage.unsent : Stage → Bool
  | .held | .relWait _ | .replay => true
  | _ => false

/-- What still holds a held operation at the core, its slot apart (R105, R107, R186, R328): what it was found to wait for at its issue; an
earlier unacknowledged operation on one of its words; for a push the open of its group, for an open an earlier close, and a close marker
leaves by a step of its own. -/
def sendBlocked (all : List Flight) (uid : Nat) (opened : List GroupId) (f : Flight) : Bool :=
  (match f.pay with
   | .push _ g => !opened.contains g || all.any fun o => o.uid = uid && o.id < f.id && (match o.pay with
       | .mopen h _ _ => h == g
       | _ => false)
   | .mopen .. => all.any fun g => g.uid = uid && g.id < f.id && (match g.pay with
       | .mclose _ => true
       | _ => false)
   | .mclose _ => true
   | _ => false) ||
  (all.any fun g => f.holds.contains g.id) || all.any fun g => g.uid = uid && g.id < f.id && sameWord g f

/-- Sends what may be sent (R105, R186), as number n of what its source sends (R87): a routine fetch needs no slot; lanes without a slot take free
ones in order, then each held operation goes out unless something still holds it. One that has still to read the own pool goes by a step of
its own. -/
def pumpList (all : List Flight) (uid n : Nat) (opened : List GroupId) : Nat → List Flight → List Flight
  | _, [] => []
  | free, f :: r =>
    if f.uid != uid ∨ f.stage != .held ∨ f.late.isSome then f :: pumpList all uid n opened free r
    else
      let needs := f.pay.isAccess && f.pay != .prf && f.pay != .fetch && !f.slot
      if needs && free == 0 then f :: pumpList all uid n opened free r
      else
        let free := if needs then free - 1 else free
        let f := if needs then { f with slot := true } else f
        (if sendBlocked all uid opened f then f
         else { f with stage := if f.gang.isSome then .port 0 0 0 0 else .sent, sentNo := n }) :: pumpList all uid n opened free r

/-- Operation slots in use (R186). -/
def slotsUsed (s : State) (uid : Nat) : Nat := (s.flights.filter fun f => f.uid = uid && f.slot).length

/-- Merge groups of an activation whose open is complete (R105). -/
def openedGroups (a : Act) : List GroupId := ((a.group.toList ++ a.closing).filter fun o => o.opened).map fun o => o.g

/-- Is a flight one of the lanes of an indexed vector instruction, whose ids follow one another? -/
def inLanes (e : Nat × List Flight) (f : Flight) : Bool := e.1 ≤ f.id && f.id < e.1 + e.2.length

/-- The lanes of an indexed vector instruction, with ids from first upward, are kept while one of them is in flight, where a fault would
have the activation perform the whole instruction again (R325). -/
def keepLanes (s : State) (a : Act) (first : Nat) : State :=
  let set := s.flights.filter fun f => f.uid = a.uid && first ≤ f.id
  if set.isEmpty || !(a.txn.isSome || a.cls.res) then s
  else { s with lanes := mset (s.lanes.filter fun e => s.flights.any (inLanes e)) first set }

/-- Lanes that later operations of an activation on their words wait for: all of an instruction that may be performed again, as if
each were the last (R186, R325; DEDUCED, log 65). -/
def laneHolds (s : State) (uid : Nat) : List Flight :=
  (s.lanes.filter fun e => s.flights.any fun f => f.uid = uid && inLanes e f).flatMap fun e =>
    e.2.map fun g => { g with id := e.1 + e.2.length - 1 }

/-- Sends what an activation may send; nothing while it is parked on a fault (R189). -/
def pump (s : State) (uid : Nat) : State :=
  let (fault, opened) := match actByUid s uid with
    | some a => ((match a.wait with
        | .fault .. => true
        | _ => false), openedGroups a)
    | none => (false, [])
  if fault then s
  else { s with flights := pumpList (s.flights ++ laneHolds s uid) uid s.nextId opened (32 - slotsUsed s uid) s.flights }

/-- The source fields of an activation's requests (R9). -/
def srcOf (a : Act) : Src :=
  let c := coreOf a
  ⟨pkgOfCore c, dieOfCore c, numOfCore c, ctxNum a.ctx, none⟩

/-- Does an operation wait in an engine's queue behind the command that the engine performs (R189: issued and not yet sent)? -/
def queuedBehind (s : State) (core : Nat) (f : Flight) : Bool :=
  let c := coreAt s core
  f.pay == .command && !(c.copyQ.any fun q => q.id = f.id && q.active) && !(c.matQ.any fun m => m.id = f.id && m.started)

/-- Is an operation one that the end of a transaction sends, and none of the activation's own? -/
def Pay.isTxnEnd : Pay → Bool
  | .txnEnd .. => true
  | _ => false

/-- An indexed vector instruction with a refused lane is performed again as a whole: every lane is unsent once more (R325). -/
def replayLanes (s : State) (e : Nat × List Flight) : State :=
  if s.flights.any fun f => inLanes e f && f.stage == .replay then
    { s with flights := s.flights.filter (fun f => f.id < e.1) ++
        e.2.map (fun f => { f with stage := .held, slot := false, faulted := true }) ++
        s.flights.filter fun f => e.1 + e.2.length ≤ f.id }
  else s

/-- The replay list once a release has come and every sent operation is settled (R189): it is sent in program order,
and the activation issues again when all of it is sent, releases among it too; the cycles of a transaction count again (R134). A list
that moved with its activation is sent from the new core (R202). -/
def replay (s : State) (a : Act) : State :=
  let s := (s.lanes.filter fun e => e.2.any fun f => f.uid = a.uid).foldl replayLanes s
  let list := (flightsOf s a.uid).filter fun f => f.stage.unsent && !f.pay.isTxnEnd
  let back (f : Flight) : Bool := f.uid = a.uid && (f.stage == .replay || f.stage == .held && f.faulted)
  let s := { s with flights := s.flights.map fun f => if back f then
      { f with stage := .held, req := { f.req with src := srcOf a } } else f }
  pump (putAct s { a with wait := .sending (list.map fun f => f.id), txnMark := s.now }) a.uid

/-- After an operation of an activation has been settled: its replay list may be fixed (R189), held operations may go
out (R186). -/
def settle (s : State) (uid : Nat) : State :=
  match actByUid s uid with
  | some a =>
    match a.wait with
    | .fault _ true =>
      if (flightsOf s uid).all fun f => f.stage.unsent || queuedBehind s (coreOf a) f then replay s a else s
    | _ => pump s uid
  | none => if uid = 0 then s else pump s uid

/-- A new flight with the next id. -/
def launchFlight (s : State) (f : Flight) : State :=
  { s with nextId := s.nextId + 1, flights := s.flights ++ [{ f with id := s.nextId }] }

/-- A message of a unit with no activation behind it. -/
def message (dk : Nat) (pay : Pay) : Flight where
  id := 0
  uid := 0
  pc := 0
  path := none
  slot := false
  stage := .sent
  req := agentReq dk 0 0 0 .load 0 0
  pay := pay
  dst := .none
  unit := dk
  gang := none
  done := 0
  got := []
  wire := none
  after := none

def sendMsg (s : State) (dk : Nat) (pay : Pay) : State := launchFlight s (message dk pay)

/-- A request of an activation (R9): the transaction flag is set while it is transactional (R131). -/
def reqOf (a : Act) (acc : Acc) (va n : Nat) : Req :=
  { acc := acc, va := va % 2 ^ 57, n := n, asid := a.task.asid, gen := a.task.gen, src := srcOf a,
    txn := if acc == .fetch then none else a.txn }

/-- An operation of an activation: it holds an operation slot from its issue (R186). -/
def opOf (a : Act) (path : Option Nat) (acc : Acc) (va n : Nat) (pay : Pay) (dst : Dst) : Flight where
  id := 0
  uid := a.uid
  pc := pcOf a
  path := path
  slot := true
  stage := .held
  req := reqOf a acc va n
  pay := pay
  dst := dst
  unit := dieOf a
  gang := none
  done := 0
  got := []
  wire := none
  after := none
  cls := classOf a

/-- Issues an operation. -/
def issueOp (s : State) (f : Flight) : State := pump (launchFlight s f) f.uid

/-! ### Ordering conditions -/

/-- The narrowest scope that holds the location of an operation (R66); an address not yet translated counts as memory of
its owner die. -/
def scopeOfFlight (s : State) (f : Flight) : Nat :=
  match f.gang with
  | some c =>
    let me := flightCore f
    if c = me then 0 else if clusOfCore c = clusOfCore me then 1 else 2
  | none =>
    match f.stage with
    | .port _ _ aper _ => if aper = 2 ∨ aper = 3 ∨ aper = 1 then 4 else
        if f.unit / 16 != f.req.src.pkg then 4 else if f.unit % 16 = f.req.src.die then 2 else 3
    | .fwd .. => 4
    | _ =>
      match route s (dieKey f.req.src.pkg f.req.src.die) f.req.va with
      | none => 2
      | some dk => if dk / 16 != f.req.src.pkg ∨ dk % 16 = 8 then 4 else if dk % 16 = f.req.src.die then 2 else 3

/-- Is an operation refused and not yet performed after its replay (R88)? -/
def isRefused (f : Flight) : Bool := match f.stage with
  | .nack _ | .replay => true
  | .reply _ | .ack => false
  | _ => f.faulted

/-- Has an activation a refused operation, issued before operation `id`? -/
def refusedBefore (s : State) (uid id : Nat) : Bool := s.flights.any fun f => f.uid = uid && f.id < id && isRefused f

/-- Loads and stores that a release waits for (R73): every access but a reduction, the stores of slot.ret and ctr.snap among them (R248, R251). -/
def Pay.waitedByRelease : Pay → Bool
  | .load | .store _ | .atom .. | .cas .. | .range | .barArrive .. | .claim .. | .slotRet .. | .snap .. => true
  | _ => false

/-- R73, R88: does a release of scope `scope` by an activation, issued as operation `id`, take effect now? -/
def releaseReady (s : State) (uid id scope : Nat) : Bool :=
  (s.flights.all fun f => f.uid != uid || id ≤ f.id || !f.pay.waitedByRelease || scope < scopeOfFlight s f) &&
    !refusedBefore s uid id

/-- R76, R88: are the earlier accesses of an activation within a scope complete, and is none refused? Reductions count. -/
def fenceReady (s : State) (uid scope : Nat) : Bool :=
  (s.flights.all fun f => f.uid != uid || !f.pay.touches || f.pay == .prf || scope < scopeOfFlight s f) &&
    !refusedBefore s uid s.nextId

/-- R51: is every operation of an activation on a path complete? -/
def pathClear (s : State) (uid p : Nat) : Bool := s.flights.all fun f => f.uid != uid || f.path != some p

/-- R51, R88: does a drain of a path take effect? -/
def drainReady (s : State) (uid p : Nat) : Bool := pathClear s uid p && !refusedBefore s uid s.nextId

/-- Are the operations of a transactional activation on paths 1 to 3 complete (R137)? -/
def txnPathsClear (s : State) (uid : Nat) : Bool :=
  pathClear s uid 1 && pathClear s uid 2 && pathClear s uid 3 && !refusedBefore s uid s.nextId

/-! ### Pending destinations and waits -/

/-- A register of an activation as a hazard names it; a vector register by its row. -/
inductive RegName where
  | s (i : Nat)
  | v (row : Nat)
  | d (i : Nat)
  deriving DecidableEq, Repr

/-- Registers that a reply will write. -/
def Dst.regs (a : Act) : Dst → List RegName
  | .sreg d _ _ => if d = 0 then [] else [.s d]
  | .sreg2 d b => (if d = 0 then [] else [RegName.s d]) ++ (if b = 0 then [] else [RegName.s b])
  | .vrow v vwb => [.v (vname a vwb v)]
  | .vlane v _ _ vwb => [.v (vname a vwb v)]
  | .dreg k => [.d k]
  | .phase d => if d = 0 then [] else [.s d]
  | .bimWait d _ => if d = 0 then [] else [.s d]
  | _ => []

/-- Operations whose result a register awaits. -/
def pending (s : State) (a : Act) (rs : List RegName) : List Flight :=
  s.flights.filter fun f => f.uid = a.uid && (f.dst.regs a).any rs.contains

/-- Rows of an accumulator window or own pool that pending vector loads will write (R70). -/
def pendingRows (s : State) (a : Act) (p n : Nat) : List Flight :=
  s.flights.filter fun f => f.uid = a.uid && (f.dst.regs a).any fun r =>
    match r with
    | .v row => meets (512 * row) 512 p n
    | _ => false

/-- The wait on operations: it parks when one of them awaits a reply from the global or memory-object space (R185). -/
def waitFor (fs : List Flight) : Wait := .flights (fs.map fun f => f.id) (fs.any fun f => f.gang.isNone)

/-- Core and own-pool address of an address in own-pool or gang-core space (R36, R52). -/
def poolPlace (a : Act) (space addr : Nat) : Nat × Nat :=
  if space = 2 then (gangCore a addr, addr % 262144) else (coreOf a, addr)

/-- Does the tile of a pool or gang-core descriptor meet n bytes of a core's pool? -/
def descMeets (a : Act) (d : DReg) (core p n : Nat) : Bool :=
  dSpace d != 0 && (tileRanges d).any fun r =>
    let q := poolPlace a (dSpace d) r.1
    q.1 == core && meets q.2 r.2 p n

/-- Copy commands of an activation that hold bytes of a core's pool (R328): a tld until it has written them, a tst until
it has read them. -/
def tileHolds (s : State) (a : Act) (core p n : Nat) : List Nat :=
  ((coreAt s (coreOf a)).copyQ.filter fun c =>
    c.uid = a.uid && (c.kind = 2 || c.kind = 3) && (descMeets a c.pool core p n || descMeets a c.far core p n)).map
      fun c => c.id

/-- Own-pool bytes that an operand source may reach (R374): a descriptor's tile, or a ring. -/
def opRanges : OpSrc → List (Nat × Nat)
  | .desc d => tileRanges d
  | .ring h => (List.range (wfld h 6 5)).map fun i => (4096 * (wfld h 0 6 + i), 4096)
  | .lat => []

/-- Matrix commands of an activation, queued or attached to a copy, whose results n bytes of its own pool await: those on
a tile whose rows the bytes meet (R350), an mst into the bytes (R383), a far mld from them (R381). -/
def matrixHolds (s : State) (a : Act) (p n : Nat) : List Nat :=
  let c := coreAt s (coreOf a)
  (c.matQ.filter fun m => m.uid = a.uid &&
      (meets (65536 * m.tile) 65536 p n || descMeets a m.desc (coreOf a) p n)).map (fun m => m.id) ++
    (c.copyQ.filter fun q => q.uid = a.uid && (match q.follow with
      | some f => meets (65536 * f.tile) 65536 p n || (opRanges f.a ++ opRanges f.b).any fun r => meets r.1 r.2 p n
      | none => false)).map fun q => q.id

/-- Own-pool bytes that an operation reads once what it waits for is done. -/
def Late.reads : Late → List (Nat × Nat)
  | .send src n .. => [(src, n)]
  | .push p => [(p, 512)]
  | .list p => [(p, 64)]
  | .matrix _ a b p n => opRanges a ++ opRanges b ++ [(p, n)]

/-- Does an operation with own-pool bytes still to read hold n bytes of the own pool: a write of bytes it reads (R328, R344, R374), or any access to
what a matrix command that waits outside the queue changes? -/
def Late.holds (a : Act) (p n : Nat) (write : Bool) (l : Late) : Bool :=
  (write && l.reads.any fun r => meets r.1 r.2 p n) || match l with
    | .matrix m .. => meets (65536 * m.tile) 65536 p n || descMeets a m.desc (coreOf a) p n
    | _ => false

/-- The activation's operations that have such bytes to read. -/
def lateHolds (s : State) (a : Act) (p n : Nat) (write : Bool) : List Nat :=
  (s.flights.filter fun f => f.uid = a.uid && f.late.any (Late.holds a p n write)).map fun f => f.id

/-- Do n bytes from p share an 8-byte word with m bytes from q (R186)? -/
def sharesWord (p n q m : Nat) : Bool := n != 0 && m != 0 && p / 8 ≤ (q + m - 1) / 8 && q / 8 ≤ (p + n - 1) / 8

/-- What an access of an activation at a core's pool port waits for (R70, R186, R328): its tile copies on the bytes, and its earlier accesses there on
their words. -/
def portHolds (s : State) (a : Act) (core p n : Nat) : List Nat :=
  tileHolds s a core p n ++
    (s.flights.filter fun f => f.uid = a.uid && f.gang == some core && sharesWord p n f.req.va f.req.n).map fun f => f.id

/-- What an access to rows of the own pool waits for, vector loads into them apart: tile copies (R328), accesses held before it, matrix commands
(R350, R383), and, for a write, operations that have still to read the bytes. -/
def rowHolds (s : State) (a : Act) (p n : Nat) (write : Bool) : List Nat :=
  portHolds s a (coreOf a) p n ++ matrixHolds s a p n ++ lateHolds s a p n write

/-- What an own-pool access of an activation waits for before it may be performed: pending vector loads into the rows (R70), and what `rowHolds`
names. The access alone waits; the activation goes on (R328). -/
def poolHolds (s : State) (a : Act) (p n : Nat) (write : Bool) : List Nat :=
  (pendingRows s a p n).map (fun f => f.id) ++ rowHolds s a p n write

/-- Is a ring's run of n slots from a relative position thread-owned (R50)? -/
def ringThread (c : Core) (h : Word) (first n : Nat) : Bool :=
  (List.range n).all fun i => !engineOwned c (wfld h 0 6 + (first + i) % wfld h 6 5)

/-- The open merges of a die's tree (R245, R247; DEDUCED, log 64: the root's record of a token is none of them). -/
def openMerges (d : Die) : Nat := (d.merges.filter fun m => !m.root).length

/-- Has a die's tree room for a list of a token (R245): its merge is open, or fewer than 512 are? -/
def mergeRoom (d : Die) (group token : Nat) : Bool :=
  (d.merges.any fun m => !m.root && m.group == group && m.token == token) ||
    openMerges d < 512

/-- Has the activation sent a signal to semaphore k of its own core that is not yet applied (R232)? By R233 it first sends itself the count
of the signals it expects and then waits, so its sem.wait observes that count (DEDUCED, log 51). -/
def ownSignal (s : State) (a : Act) (k : Nat) : Bool :=
  s.flights.any fun f => f.uid == a.uid && match f.pay with
    | .signal core e _ _ _ => core == coreOf a && e == k
    | _ => false

/-- Is a wait over (R185), the contexts that a yield waits for apart? A wait that a step of a unit completes is never over by itself. -/
def waitDone (s : State) (a : Act) : Bool :=
  let c := coreAt s (coreOf a)
  match a.wait with
  | .run => true
  | .flights ids _ => s.flights.all fun f => !ids.contains f.id
  | .opSlots => slotsUsed s a.uid < 32 && (flightsOf s a.uid).all fun f => f.slot || !f.pay.isAccess || f.pay == .prf || f.pay == .fetch
  | .poolSlot slot _ => !engineOwned c slot
  | .ownTake slot => !engineOwned c slot || (mget c.slots slot (false, 0)).2 = 0
  | .ownGive _ => false
  | .cb room h n =>
    let w := creg a h
    if room then n ≤ wfld w 6 5 - wfld w 19 5 && ringThread c w (wfld w 15 4) n
    else n ≤ wfld w 19 5 && ringThread c w (wfld w 11 4) n
  | .ring h n =>
    let w := creg a h
    n ≤ wfld w 19 5 && ringThread c w (wfld w 11 4) n
  | .sem k => mget c.sems k 0 ≤ 0 && !ownSignal s a k
  | .drain _ => false
  | .fence _ => false
  | .oftRel => txnPathsClear s a.uid
  | .done => false
  | .read _ => false
  | .barrier .. => false
  | .bimWait .. => false
  | .matrixRoom => c.matQ.length < 8
  | .copyRoom => c.copyQ.length < 16
  | .chain tile => c.copyQ.all fun q => q.uid != a.uid || (match q.follow with
      | some f => f.tile != tile
      | none => true)
  | .collRoom q =>
    let d := dieAt s (dkOfSeq q)
    ((mget d.ringQ (q % 2) []).filter fun c => !c.started).length < 4
  | .topkRoom dk g t => mergeRoom (dieAt s dk) g t
  | .wttFiring ent => (mget c.wtt ent WttEntry.reset).st != .firing
  | .line id => s.flights.all fun f => f.id != id
  | .fault .. => false
  | .sending ids => s.flights.all fun f => !(ids.contains f.id && f.stage.unsent) && !(f.uid = a.uid && f.acq)
  | .yield till _ => till ≤ s.now

/-- Has a context that a yield waits for still to issue (R320)? It is ready and has not issued since. -/
def yetToIssue (s : State) (a : Act) (x : Nat) : Bool :=
  match actAt s x with
  | some b => !b.filling && !b.stopped && b.move.isNone && waitDone s b && b.issuedAt ≤ a.issuedAt
  | none => false

/-- Is a wait over (R185, R320)? -/
def waitOver (s : State) (a : Act) : Bool :=
  waitDone s a && match a.wait with
    | .yield _ others => others.all fun x => !yetToIssue s a x
    | _ => true

/-- Does an activation park in this wait (R185)? -/
def Wait.parks : Wait → Bool
  | .flights _ p => p
  | .poolSlot _ p => p
  | .ownTake _ | .cb .. | .sem _ | .drain _ | .oftRel | .read _ | .barrier .. | .bimWait .. | .fault .. | .sending _ => true
  | _ => false

/-- The activation waits: its program counter stays at the instruction, which it executes again when the wait is over. -/
def block (s : State) (a : Act) (w : Wait) : State :=
  putAct s { a with wait := w, parkedAt := if w.parks then s.now else a.parkedAt }

/-! ### Freeing, traps and termination -/

/-- Cost leaves the pressure sum of a cluster (R169). -/
def subCost (s : State) (k cost : Nat) : State :=
  let c := clusAt s k
  setClus s k { c with sum := c.sum - cost }

def addCost (s : State) (k cost : Nat) : State :=
  let c := clusAt s k
  setClus s k { c with sum := c.sum + cost }

/-- Slots of an allocation that are engine-owned with count 0 become thread-owned (R151 step 5). -/
def freeSlots (c : Core) (alloc : Option (Nat × Nat)) : Core :=
  match alloc with
  | none => c
  | some (first, n) =>
    (span first n).foldl (fun c k => if mget c.slots k (false, 0) = (true, 0) then { c with slots := mset c.slots k (false, 0) } else c) c

/-- A context leaves its frame, whose register-block rows keep its registers (R40). -/
def leaveFrame (c : Core) (a : Act) : Core :=
  { c with
    frames := c.frames.map fun f => if f = some (ctxNum a.ctx) then none else f
    frameRegs := match a.frame with
      | some k => if a.filling then c.frameRegs else mset c.frameRegs k a.regs
      | none => c.frameRegs }

/-- Step 5 of R151: context, frame, tiles and allocation are freed; the pre-emption request of the context ends with its
activation (DEDUCED, log 18). -/
def freeAct (s : State) (a : Act) : State :=
  let k := coreOf a
  let c := coreAt s k
  let c := freeSlots c a.alloc
  let c := { leaveFrame c a with req := c.req &&& ~~~(BitVec.twoPow 8 (ctxNum a.ctx)) }
  { setCore s k c with acts := mdel s.acts a.ctx }

/-- Is an operation one of the activation's on its own pool, held for an earlier one (R328)? -/
def Flight.isLocal (f : Flight) : Bool := f.gang == some (flightCore f)

/-- Does an operation end with its activation: one that has not been sent, or that reaches only its own pool (R188, R192)? What the core sends for
the end of a transaction stays. -/
def Flight.endsWith (f : Flight) (uid : Nat) : Bool := f.uid = uid && (f.stage.unsent || f.isLocal) && !f.pay.isTxnEnd

/-- Operations of an activation that have not been sent are discarded (R188, R192); the slots of a gather or convert among them are counted
down (R48). -/
def discardUnsent (s : State) (uid : Nat) : State :=
  let s := (s.flights.filter fun f => f.endsWith uid).foldl (fun s f => match f.pay with
    | .plinth g sh _ _ => countDown s (flightCore f) (plinthSlots s f sh g)
    | _ => s) s
  { s with flights := s.flights.filter fun f => !f.endsWith uid }

/-- The open and closing merge groups of a terminated activation are aborted: a marker for each to the entry Caliper
(R110). -/
def abortGroups (s : State) (dk : Nat) (gs : List OpenGroup) : State :=
  gs.foldl (fun s o => sendMsg s dk (.mabort o.g (dk % 16))) s

/-- The dies that hold entries of a transaction (R128). -/
def txnDies (s : State) (home : Nat) (tid : Word) : List Nat :=
  match (osqAt s home).homes.find? (fun h => h.sub.tid = tid) with
  | some h => (h.sub.tiles.filterMap fun t => route s home t.1).eraseDups
  | none => []

/-- Requests that an activation has still to make carry the transaction flag no longer (R137): those of unsent operations, of engine commands,
and of what else is on path 0. -/
def dropFlag (s : State) (uid : Nat) : State :=
  let drop (f : Flight) : Flight :=
    if f.uid = uid && (f.stage.unsent || f.path = some 0 || f.pay == .command) then { f with req := { f.req with txn := none } } else f
  { s with flights := s.flights.map drop
           lanes := s.lanes.map fun e => (e.1, e.2.map fun f => if f.uid = uid then { f with req := { f.req with txn := none } } else f) }

/-- A transaction's end: its releases wait for the accesses already issued (R132, R137). It ends at its home die, wherever its body runs. -/
def endTxn (s : State) (a : Act) (term : Bool) : State :=
  match a.txn with
  | none => s
  | some tid =>
    let home := dkOfClus a.task.home
    let s := if term then setOsq s home { osqAt s home with term := (osqAt s home).term + 1 } else dropFlag s a.uid
    launchFlight s { message home (.txnEnd tid (txnDies s home tid) home) with uid := a.uid, stage := .relWait 4 }

/-- A member of a gang ends without its join arrival (R158). -/
def gangLost (s : State) (a : Act) : State :=
  match a.gang with
  | none => s
  | some g => { s with gangs := s.gangs.map fun x => if x.id = g then { x with dead := true, members := x.members.filter fun m => m != a.uid } else x }

/-- The effects of a termination (R192) but its event: group, transaction, unsent operations, gang, resources, cost. -/
def endAct (s : State) (a : Act) : State :=
  let s := discardUnsent s a.uid
  let s := abortGroups s (dieOf a) (a.group.toList ++ a.closing)
  let s := endTxn s a true
  let s := gangLost s a
  subCost (freeAct s a) (clusOfCore (coreOf a)) a.task.cost

/-- The event of a termination (R192): word 5 the instruction's address, word 6 the cause. -/
def termEvent (s : State) (a : Act) (cause : Nat) : Event :=
  mkEvent s (dieOf a) 0x13 (BitVec.ofNat 64 (pcOf a % 2 ^ 57)) (BitVec.ofNat 64 cause)

/-- TERMINATION (R192), the one way an activation ends but done and abort: every effect, then its event. -/
def terminateWith (s : State) (a : Act) (e : Event) : State := postEvent (endAct s a) (dieOf a) e

/-- A TRAP (R192): the activation is terminated with a cause. -/
def trap (s : State) (a : Act) (cause : Nat) : State := terminateWith s a (termEvent s a cause)

/-- A trap of an earlier instruction at address pc, found when its operation is performed. -/
def trapAt (s : State) (a : Act) (pc cause : Nat) : State :=
  terminateWith s a { termEvent s a cause with w5 := BitVec.ofNat 64 (pc % 2 ^ 57) }

/-- Trap causes (R192). -/
def cIllegal : Nat := 0x01
def cPool : Nat := 0x02
def cOwner : Nat := 0x03
def cRing : Nat := 0x04
def cAlign : Nat := 0x05
def cMerge : Nat := 0x06
def cDeclFull : Nat := 0x07
def cDecl : Nat := 0x08
def cTask : Nat := 0x09
def cDomain : Nat := 0x0A
def cTxn : Nat := 0x0B
def cArm : Nat := 0x0C
def cDesc : Nat := 0x0D
def cFetch : Nat := 0x0E
def cXs : Nat := 0x0F
def cTrap : Nat := 0x10
def cBrk : Nat := 0x11

/-! ### Issue and retirement -/

/-- The next program counter after a unit of len bytes, with the end-of-body check of R311. -/
def advance (a : Act) (len : Nat) : Act :=
  let next := a.regs.pc + BitVec.ofNat 64 len
  let img := BitVec.ofNat 64 a.cls.img
  if a.regs.lcnt != 0 && next == img + a.regs.lend.setWidth 64 then
    if 1 < a.regs.lcnt.toNat then
      { a with regs := { a.regs with lcnt := a.regs.lcnt - 1, pc := img + a.regs.lstart.setWidth 64 } }
    else { a with regs := { a.regs with lcnt := 0, pc := next } }
  else setPc a next

/-- A taken branch or jump (R311): a target outside the body cancels the loop. -/
def jumpTo (a : Act) (t : Word) : Act :=
  let off := t - BitVec.ofNat 64 a.cls.img
  let out := off.toNat < a.regs.lstart.toNat || a.regs.lend.toNat ≤ off.toNat
  { a with regs := { a.regs with pc := t, lcnt := if out then 0 else a.regs.lcnt } }

/-- A unit of len bytes completes: the activation goes on at the next one. -/
def retire (s : State) (a : Act) (len : Nat) : State := putAct s (advance { a with wait := .run } len)

/-- What the window rows that an instruction reads, or writes, await where they lie in an accumulator tile (R70, R328, R350). -/
def windowHolds (s : State) (a : Act) (write : Bool) (rs : List RegName) : List Nat :=
  rs.flatMap fun r => match r with
    | .v row => if row < 100000 then rowHolds s a (512 * row) 512 write else []
    | _ => []

/-- A unit issues for the activation at `cur`; with none there, nothing happens. An illegal unit traps (R255, R266). A
register whose value a reply still brings is awaited before it is read or written (R185, R282). -/
def issueUnit (s : State) (legal : Bool) (rd wr : Act → List RegName) (k : Act → State) :
    Host.Outcome State Fault Refusal :=
  match actAt s s.cur with
  | none => .next s
  | some a =>
    if !legal then .next (trap s a cIllegal)
    else
      let fs := pending s a (rd a)
      if !fs.isEmpty then .next (block s a (waitFor fs))
      else
        let ws := (pending s a (wr a)).map (fun f => f.id) ++ windowHolds s a false (rd a) ++ windowHolds s a true (wr a)
        if !ws.isEmpty then .next (block s a (.flights ws false))
        else .next (k a)

/-- Scalar registers as hazards. -/
def sNames (is : List Nat) : List RegName := (is.filter fun i => i != 0).map RegName.s

/-- Vector registers under the window now in force, as hazards. -/
def vNames (a : Act) (vs : List Nat) : List RegName := vs.map fun v => RegName.v (vname a a.regs.vwb v)

/-- A memory operation waits for a free operation slot (R186). -/
def withSlot (s : State) (a : Act) (k : State) : State :=
  if waitOver s { a with wait := .opSlots } then k else block s a .opSlots

/-- The slot of a hardware context in its core's context area (R42). -/
def areaOf (s : State) (ctx : Nat) : Nat :=
  let core := coreOfCtx ctx
  hbm (dkOfCore core) (wfld (rawReg s (dkOfCore core) (coreBlk (numOfCore core) + 0x10)) 19 33 * 2 ^ 19 + 65536 * ctxNum ctx)

/-- Is a context resident? -/
def resident (a : Act) : Bool := a.frame.isSome && !a.filling

/-- The control words of a context that is not resident are kept in its context area (R42): program counter, fcr and the
loop count, which completions and events change. -/
def keepCtl (s : State) (a : Act) : State :=
  if resident a then s
  else
    let b := areaOf s a.ctx
    { s with mem := writeN (writeN (writeN s.mem (b + 0x7C0) 8 a.regs.pc.toNat) (b + 0x7D0) 8 a.regs.fcr.toNat)
                      (b + 0x7E0) 8 a.regs.lcnt.toNat }

/-- The control words of the context at a key, kept after its activation changed. -/
def keepCtlAt (s : State) (ctx : Nat) : State := match actAt s ctx with
  | some a => keepCtl s a
  | none => s

end Sys2Proof.Machine
end

