-- ==== Sys2Proof/Machine/Flags.lean ====
section
/-! DEFINITION. Arithmetic events (R214, R225 to R227): the sticky bits of fcr, the core's counters, charged events. -/
namespace Sys2Proof.Machine

/-- WINDOW and THRESH of class k on a core (R226). -/
def xsCfg (s : State) (core k : Nat) : Word := rawReg s (dkOfCore core) (coreBlk (numOfCore core) + 0x100 + 8 * k)
def xsWindow (s : State) (core k : Nat) : Nat := wfld (xsCfg s core k) 32 32
def xsThresh (s : State) (core k : Nat) : Nat := wfld (xsCfg s core k) 0 32

/-- Number of the window that the cycle count lies in (R226). -/
def xsNow (s : State) (core k : Nat) : Nat := if xsWindow s core k = 0 then 0 else cyclesOf s (dkOfCore core) / xsWindow s core k

/-- CNT of class k now: 0 once its window has ended (R226). -/
def xsCount (s : State) (core k : Nat) : Nat :=
  let c := coreAt s core
  if mget c.xsWin k 0 = xsNow s core k then mget c.xsCnt k 0 else 0

/-- Whether the action of this window is taken (R227; DEDUCED, log 35). -/
def xsTaken (s : State) (core k : Nat) : Bool :=
  let c := coreAt s core
  mget c.xsWin k 0 == xsNow s core k && mget c.xsDone k false

/-- The sticky bits that an event set adds to fcr (R214): class k at bit 8 + k. -/
def stickyBits (ev : Nat) : Word := BitVec.ofNat 64 (ev % 128 * 256)

/-- Sets the sticky bits of an activation's fcr. -/
def addSticky (a : Act) (ev : Nat) : Act := { a with regs := { a.regs with fcr := a.regs.fcr ||| stickyBits ev } }

/-- Union of the event sets of elements. -/
def unionEv (evs : List Nat) : Nat := evs.foldl (· ||| ·) 0

/-- Adds n events of class k to a core's counter, saturating, and tells whether the event that takes CNT above THRESH in
this window is among them and no action has been taken yet (R226, R227). -/
def countClass (s : State) (core k n : Nat) : State × Bool :=
  if n = 0 ∨ xsWindow s core k = 0 then (s, false)
  else
    let old := xsCount s core k
    let new := min (old + n) (2 ^ 32 - 1)
    let hit := !xsTaken s core k && old ≤ xsThresh s core k && xsThresh s core k < new
    let c := coreAt s core
    (setCore s core { c with xsCnt := mset c.xsCnt k new, xsWin := mset c.xsWin k (xsNow s core k),
                             xsDone := mset c.xsDone k (xsTaken s core k || hit) }, hit)

/-- Event 0x0F of a charged event (R227): the class of the charged activation, or 0x3FF for the network interface (DEDUCED, log 35). -/
def xsEvent (s : State) (core k cls : Nat) : State :=
  postEvent s (dkOfCore core) (mkEvent s (dkOfCore core) 0x0F
    (BitVec.ofNat 64 (cls % 1024 * 65536 + numOfCore core * 256 + k)) (BitVec.ofNat 64 (xsThresh s core k + 1)))

/-- Counts the events of elements on a core, one event for each class each element raised (R225), charged to a class
number, or with `xtrap` to an activation that traps: the answer tells whether it must (R227). -/
def countEvents (s : State) (core cls : Nat) (xtrap : Bool) (evs : List Nat) : State × Bool :=
  (List.range 7).foldl (fun p k =>
    let n := (evs.filter fun e => e / 2 ^ k % 2 = 1).length
    match countClass p.1 core k n with
    | (s, true) => if xtrap then (s, true) else (xsEvent s core k cls, p.2)
    | (s, false) => (s, p.2)) (s, false)

/-- A unit of len bytes that raised events completes (R227, R283): its results are written, its events are sticky and
counted, and a charged event of an XTRAP class then traps at the unit's address. -/
def retireEv (s : State) (a : Act) (len : Nat) (evs : List Nat) : State :=
  let a := addSticky a (unionEv evs)
  let (s, hit) := countEvents s (coreOf a) (classOf a) a.cls.xtrap evs
  if hit then trap s a cXs else retire s a len

end Sys2Proof.Machine
end

