-- ==== Sys2Proof/Machine/Sched.lean ====
section
/-! DEFINITION. Which context issues (R183, R184): readiness, effective class, rotation. -/
namespace Sys2Proof.Machine

/-- Class of an activation's own priority (R142, R183). -/
def ownClass (a : Act) : Nat := wfld (nth a.task.words 0) 10 5 / 8

/-- Participants of an object that have not arrived in the current phase (R184). -/
def owes (s : State) (obj uid : Nat) : Bool :=
  match s.bars.find? (fun b => b.1 = obj) with
  | some b => b.2.1.contains uid && !b.2.2.contains uid
  | none => false

/-- The class an activation inherits from those that wait on it (R184): the highest own class of a waiter in bar.wait on
an object of core scope on its core, or of cluster scope in its cluster. -/
def inherited (s : State) (a : Act) : Nat :=
  s.acts.foldl (fun m e =>
    let w := e.2
    match w.wait with
    | .barrier _ obj _ scope _ _ _ _ =>
      let near := (scope = 0 && coreOf w = coreOf a) || (scope = 1 && clusOfCore (coreOf w) = clusOfCore (coreOf a))
      if w.uid != a.uid && near && owes s obj a.uid then max m (ownClass w) else m
    | _ => m) 0

/-- EffClass of R183. -/
def effClass (s : State) (a : Act) : Nat := max (ownClass a) (inherited s a)

/-- Ready contexts (R183): an activation that is not parked, not waiting for a fill, not held by an interlock, not stopped for
pre-emption, and not about to move: an accepted activation stays parked until it is installed (R202). -/
def ready (s : State) (a : Act) : Bool := !a.filling && !a.stopped && a.move.isNone && waitOver s a

/-- The first of a core's contexts after `last`, in the cyclic order 0 to 7, that satisfies a test. -/
def cyclicFirst (last : Nat) (p : Nat → Bool) : Nat → Option Nat
  | 0 => none
  | n + 1 =>
    let h := (last + 8 - n) % 8
    if p h then some h else cyclicFirst last p n

/-- SelectContext of R183 for classes cls − 1 downward: the context and its class. -/
def selectFrom (s : State) (core : Nat) : Nat → Option (Nat × Nat)
  | 0 => none
  | cls + 1 =>
    let p (h : Nat) : Bool := match actAt s (core * 8 + h) with
      | some a => ready s a && effClass s a == cls
      | none => false
    match cyclicFirst ((coreAt s core).lastCtx.getD cls 0) p 8 with
    | some h => some (h, cls)
    | none => selectFrom s core cls

/-- SelectContext of R183. -/
def selectContext (s : State) (core : Nat) : Option (Nat × Nat) := selectFrom s core 4

end Sys2Proof.Machine
end

