-- ==== Sys2Proof/WellFormed.lean ====
section
/-! DEFINITION. Well-formed instructions: the limits that R254 to R274 and the entries set on operand fields beyond the
fixed bits of a row. A unit whose fields break one raises the illegal-instruction trap (R255, R266); the meanings ask
these same checks. For a step of a unit of the device, the keys it names lie in range. -/
namespace Sys2Proof

/-- An FP register field: bit 4 zero (R254). -/
def okF (r : BitVec 5) : Bool := r.toNat < 16

/-- A rounding-mode field: 7 is illegal (R212, R268). -/
def okMode (m : BitVec 3) : Bool := m.toNat != 7

/-- A scope code of an instruction: 5 to 7 are illegal (R64). -/
def okScope (s : BitVec 3) : Bool := s.toNat < 5

/-- Position and length of a bit field (R298). -/
def okField (p l : BitVec 6) : Bool := p.toNat + l.toNat + 1 ≤ 64

/-- Registers of fcvt (R302): the FP operand has bit 4 zero; the other one is FP when T is f32 or f64. -/
def okCvt (d a : BitVec 5) (t : BitVec 4) (r : BitVec 1) : Bool :=
  let fpT := t.toNat = 9 || t.toNat = 10
  if r.toNat = 0 then okF d && (!fpT || okF a) else okF a && (!fpT || okF d)

/-- Size and space of ld (R260, R322). -/
def okLd (z : BitVec 3) (s : BitVec 2) : Bool := z.toNat != 7 && s.toNat != 3
/-- Size and space of st (R260, R322). -/
def okSt (z : BitVec 3) (s : BitVec 2) : Bool := z.toNat < 4 && s.toNat != 3
/-- Space 3 is illegal (R323 to R325). -/
def okSpace (s : BitVec 2) : Bool := s.toNat != 3
/-- Z and size of ldx (R324): Z set with .d is illegal. -/
def okLdx (y : BitVec 2) (z : BitVec 1) (s : BitVec 2) : Bool := s.toNat != 3 && !(z.toNat = 1 && y.toNat = 3)
/-- Element types of vldx and vstx (R325): codes 1 to 12. -/
def okIdxType (t : BitVec 4) : Bool := 1 ≤ t.toNat && t.toNat ≤ 12
/-- Sizes of the integer atomics (R94): 4 and 8 bytes. -/
def okAtomSize (z : BitVec 2) : Bool := z.toNat = 1 || z.toNat = 2
/-- Destinations of range.next (R330). -/
def okRange (d b : BitVec 5) : Bool := d != b || d.toNat = 0
/-- A count of 1 or more (R334). -/
def okAmount (m : BitVec 7) : Bool := m.toNat != 0
/-- sem.add: SELF with a target register is illegal (R338). -/
def okSem (d : BitVec 5) (s : BitVec 3) (e : BitVec 1) : Bool := okScope s && !(e.toNat = 1 && d.toNat != 0)
/-- A path of R51. -/
def okPath (p : BitVec 3) : Bool := p.toNat < 4
/-- send (R344): without .arr the scope is 0, with it a legal scope; without a wire type the type field is 0. -/
def okSend (w : BitVec 4) (r : BitVec 1) (s : BitVec 3) (y : BitVec 1) : Bool :=
  (if r.toNat = 1 then okScope s else s.toNat = 0) && (y.toNat = 1 || w.toNat = 0)
/-- Immediate distance of loop (R309) and loopi (R310): at least 3 halfwords. -/
def okDist (n : Nat) : Bool := 3 ≤ n
/-- Type classes of R348. -/
def okA (t : BitVec 4) : Bool := 7 ≤ t.toNat && t.toNat ≤ 10
def okI (t : BitVec 4) : Bool := 1 ≤ t.toNat && t.toNat ≤ 6
def okAI (t : BitVec 4) : Bool := 1 ≤ t.toNat && t.toNat ≤ 10
/-- Types of the approximate functions without an f64 form (R353). -/
def okA32 (t : BitVec 4) : Bool := 7 ≤ t.toNat && t.toNat ≤ 9
/-- Narrow floating-point types (R360). -/
def okN (t : BitVec 4) : Bool := 11 ≤ t.toNat
/-- Transpose widths (R348). -/
def okT (t : BitVec 4) : Bool := [1, 2, 3, 4, 5, 7, 8, 9, 11, 12].contains t.toNat
/-- A control-register number of the map (R315). -/
def okCsr (c : BitVec 12) : Bool :=
  let n := c.toNat
  n < 2 || (8 ≤ n && n < 0x13) || n = 0x20 || n = 0x21 || (0x40 ≤ n && n < 0x47) || (0x48 ≤ n && n < 0x4F) ||
    (0x100 ≤ n && n < 0x140)
/-- A control register that an activation may write (R315). -/
def rwCsr (c : BitVec 12) : Bool := okCsr c && (c.toNat < 0x10 || 0x100 ≤ c.toNat)
/-- An identity register (R156). -/
def okIdr (n : BitVec 12) : Bool := n.toNat < 12

/-- Keys of units: at most 4096 packages of eight compute dies and one I/O die (R1, R8). -/
def okPkg (p : Nat) : Bool := p < 4096
def okDie (d : Nat) : Bool := okPkg (d / 16) && d % 16 ≤ 8
def okUnit (d : Nat) : Bool := okPkg (d / 16) && d % 16 ≤ 9
def okEng (d : Nat) : Bool := okPkg (d / 16) && d % 16 ≤ 9
def okCore (c : Nat) : Bool := okPkg (c / 2048)
def okCtx (x : Nat) : Bool := okCore (x / 8)
def okClus (k : Nat) : Bool := okPkg (k / 128)
def okCal (c : Nat) : Bool := okPkg (c / 24)
def okSeq (q : Nat) : Bool := okPkg (q / 16)

/-- Fields of mma (R377): BK 3 is illegal, an index into slots or handles is below 8, lat has field 0, ring needs lat, a
scale needs SC, and SC needs a scaled form. -/
def okMma (scaled : Bool) (b : BitVec 5) (s : BitVec 1) (j : BitVec 2) (f : BitVec 4) (r : BitVec 1) : Bool :=
  j.toNat != 3 && (if j.toNat = 2 then b.toNat = 0 else b.toNat < 8) && (r.toNat = 0 || j.toNat = 2) &&
    (s.toNat = 1 || f.toNat = 0) && (scaled || s.toNat = 0)
/-- Field numbers of eset (R388). -/
def okEset (n : BitVec 6) : Bool := n.toNat < 7
/-- Spaces of cpy (R388). -/
def okCpy (t s : BitVec 2) : Bool := t.toNat != 3 && s.toNat != 3

/-- Is an instruction well formed? -/
def wellFormed : Instr → Bool
  | .invPage unit _ => okUnit unit
  | .invAsid unit _ => okUnit unit
  | .invAll unit _ => okUnit unit
  | .invRefresh unit _ => okUnit unit
  | .invNop unit _ _ => okUnit unit
  | .invCommandComplete die => okDie die
  | .partwWrite core _ => okCore core
  | .partwApply core => okCore core
  | .coreAsidWrite core _ => okCore core
  | .contextFill ctx => okCtx ctx
  | .contextFillDone ctx => okCtx ctx
  | .ownerFlip ctx => okCtx ctx
  | .copyCommandStart core => okCore core
  | .copyCommandComplete core => okCore core
  | .drainComplete ctx => okCtx ctx
  | .fenceComplete ctx => okCtx ctx
  | .frTake eng => okEng eng
  | .frPut eng _ => okEng eng
  | .demoteStep eng => okEng eng
  | .demoteCopyDone eng => okEng eng
  | .caliperApply cal _ => okCal cal
  | .bimDisc cal _ => okCal cal
  | .bimCtlWrite cal _ _ _ => okCal cal
  | .bimLimWrite cal _ _ => okCal cal
  | .beatEnd die => okDie die
  | .batchMerge die => okDie die
  | .txnTimeLimit ctx => okCtx ctx
  | .osqStall die => okDie die
  | .osqCtlWrite die _ _ => okDie die
  | .taskTake clus => okClus clus
  | .doneComplete ctx => okCtx ctx
  | .clsInv die _ => okDie die
  | .clsInvComplete die => okDie die
  | .wttFireRead core _ => okCore core
  | .wttRetry core _ => okCore core
  | .ethFrameReceive pkg _ _ _ => okPkg pkg
  | .steerPacket pkg => okPkg pkg
  | .strCtlWrite pkg _ _ => okPkg pkg
  | .reliefTick pkg => okPkg pkg
  | .linkSilence clus _ => okClus clus
  | .rlfFenceWrite die _ => okDie die
  | .dieFailure die => okDie die
  | .fltPage die _ => okDie die
  | .fltCtxResume die _ => okDie die
  | .fltCtxTerminate die _ => okDie die
  | .fltCtxNop die _ => okDie die
  | .eventBufferSend die => okDie die
  | .evqHeadWrite pkg _ => okPkg pkg
  | .evoStatClr die => okDie die
  | .preCtlReq core _ => okCore core
  | .suspend ctx => okCtx ctx
  | .preemptBound ctx => okCtx ctx
  | .preCtlRes core _ => okCore core
  | .suspendResume core _ ctx => okCore core && okCtx ctx
  | .preCtlDisc core _ => okCore core
  | .migCmd core _ => okCore core
  | .migrationSend ctx => okCtx ctx
  | .forwardExpire core => okCore core
  | .xsWindowEnd core _ => okCore core
  | .xsCfgWrite core _ _ => okCore core
  | .barrierPoll ctx => okCtx ctx
  | .bimWaitPoll ctx => okCtx ctx
  | .collProgramStart seq => okSeq seq
  | .collChunkReceive seq => okSeq seq
  | .collProgramEnd seq => okSeq seq
  | .collStepTimeout seq => okSeq seq
  | .collStatErrClear seq => okSeq seq
  | .topkRootMerge die _ _ => okDie die
  | .tkCtlWrite die _ => okDie die
  | .matrixCommandStart core => okCore core
  | .matrixCommandComplete core => okCore core
  | .latchMoveIn core _ => okCore core
  | .luLaunch die _ => okDie die
  | .partModeWrite pkg _ => okPkg pkg
  | .partModeComplete pkg => okPkg pkg
  | .bootRelease pkg _ => okPkg pkg
  | .bootVerify pkg _ => okPkg pkg
  | .bootFetchVerify pkg _ _ => okPkg pkg
  | .bootRetry pkg _ => okPkg pkg
  | .attestation pkg _ => okPkg pkg
  | .powerUnitTransfer pkg _ _ _ _ => okPkg pkg
  | .powerReclaim die => okDie die
  | .pwrGuardWrite pkg _ => okPkg pkg
  | .sensorCrossing clus _ _ => okClus clus
  | .watchdogExpire pkg => okPkg pkg
  | .scrub die _ _ => okDie die
  | .eccError die _ _ _ _ => okDie die
  | .ethTxTail pkg _ _ _ => okPkg pkg
  | .ethTransmit pkg _ _ => okPkg pkg
  | .ethRxTail pkg _ _ _ => okPkg pkg
  | .rocePacket pkg _ => okPkg pkg
  | .rdmaCnp pkg _ => okPkg pkg
  | .rdmaRateRecover pkg _ => okPkg pkg
  | .rdmaRetransmitTimeout pkg _ => okPkg pkg
  | .rdmaDoorbell pkg _ => okPkg pkg
  | .rdmaDbwPoll pkg _ => okPkg pkg
  | .rdmaCompletion pkg _ => okPkg pkg
  | .pcieDeviceRequest pkg _ _ _ _ _ => okPkg pkg
  | .interruptWrite pkg _ _ => okPkg pkg
  | .registerWrite pkg _ _ => okPkg pkg
  | .ext _ _ p l => okField p l
  | .extS _ _ p l => okField p l
  | .ins _ _ p l => okField p l
  | .fadd d a b m _ => okF d && okF a && okF b && okMode m
  | .fsub d a b m _ => okF d && okF a && okF b && okMode m
  | .fmul d a b m _ => okF d && okF a && okF b && okMode m
  | .fma d a b m _ => okF d && okF a && okF b && okMode m
  | .fdiv d a b m _ => okF d && okF a && okF b && okMode m
  | .fsqrt d a m _ => okF d && okF a && okMode m
  | .fmin d a b _ => okF d && okF a && okF b
  | .fmax d a b _ => okF d && okF a && okF b
  | .fcmp _ a b m _ => okF a && okF b && m.toNat < 4
  | .fcvt d a t r m _ => okCvt d a t r && okMode m
  | .fmvS _ a _ => okF a
  | .fmvF d _ _ => okF d
  | .fclass _ a _ => okF a
  | .loop _ i => okDist i.toNat
  | .loopi d _ => okDist d.toNat
  | .csrr _ c => okCsr c
  | .csrw _ _ c => rwCsr c
  | .csrs _ a c => okCsr c && (a.toNat = 0 || rwCsr c)
  | .csrc _ a c => okCsr c && (a.toNat = 0 || rwCsr c)
  | .idr _ n => okIdr n
  | .ld _ _ z s _ => okLd z s
  | .st _ _ z s _ => okSt z s
  | .vld _ _ s _ => okSpace s
  | .vst _ _ s _ => okSpace s
  | .ldx _ _ _ y z s => okLdx y z s
  | .vldx _ _ _ t s => okIdxType t && okSpace s
  | .vstx _ _ _ t s => okIdxType t && okSpace s
  | .rangeNext d _ b => okRange d b
  | .atomAdd _ _ _ z _ => okAtomSize z
  | .atomMin _ _ _ z _ => okAtomSize z
  | .atomMax _ _ _ z _ => okAtomSize z
  | .atomMinz _ _ _ z _ => okAtomSize z
  | .atomMaxz _ _ _ z _ => okAtomSize z
  | .atomAnd _ _ _ z _ => okAtomSize z
  | .atomOr _ _ _ z _ => okAtomSize z
  | .atomXor _ _ _ z _ => okAtomSize z
  | .atomSwap _ _ _ z _ => okAtomSize z
  | .redAdd _ _ z => okAtomSize z
  | .redMin _ _ z => okAtomSize z
  | .redMax _ _ z => okAtomSize z
  | .redMinz _ _ z => okAtomSize z
  | .redMaxz _ _ z => okAtomSize z
  | .redAnd _ _ z => okAtomSize z
  | .redOr _ _ z => okAtomSize z
  | .redXor _ _ z => okAtomSize z
  | .cas _ _ _ z _ => okAtomSize z
  | .fence s => okScope s
  | .drain p => okPath p
  | .arrive _ s m _ => okScope s && okAmount m
  | .semAdd d _ s _ e => okSem d s e
  | .send _ _ _ w r s y => okSend w r s y
  | .vadd _ _ _ t => okAI t
  | .vsub _ _ _ t => okAI t
  | .vmul _ _ _ t => okAI t
  | .vfma _ _ _ t => okAI t
  | .vfms _ _ _ t => okAI t
  | .vfnma _ _ _ t => okAI t
  | .vdiv _ _ _ t => okA t
  | .vsqrt _ _ t => okA t
  | .vrcp _ _ t => okA t
  | .vrsqrt _ _ t => okA t
  | .vexp2 _ _ t => okA32 t
  | .vlog2 _ _ t => okA32 t
  | .vtanh _ _ t => okA32 t
  | .vsigm _ _ t => okA32 t
  | .vsin _ _ t => okA32 t
  | .vcos _ _ t => okA32 t
  | .vmin _ _ _ t => okAI t
  | .vmax _ _ _ t => okAI t
  | .vabs _ _ t => okAI t
  | .vneg _ _ t => okAI t
  | .vshl _ _ _ t => okI t
  | .vshr _ _ _ t => okI t
  | .vsra _ _ _ t => okI t
  | .vcmp _ _ _ t => okAI t
  | .vquant _ _ _ t => okN t
  | .vdequant _ _ _ t => okN t
  | .vredsum _ _ t => okAI t
  | .vredmax _ _ t => okAI t
  | .vredmin _ _ t => okAI t
  | .vredmaxi _ _ _ t => okAI t
  | .vredmini _ _ _ t => okAI t
  | .vscanAdd _ _ t => okAI t
  | .vscanXor _ _ t => okI t
  | .vclmul _ _ _ t => okI t
  | .vpopc _ _ t => okI t
  | .vclz _ _ t => okI t
  | .vtrw _ _ t => okT t
  | .vtrc _ _ t => okT t
  | .mmaF64 _ _ b s j _ f r _ _ _ => okMma false b s j f r
  | .mmaF32 _ _ b s j _ f r _ _ _ => okMma false b s j f r
  | .mmaBf16 _ _ b s j _ f r _ _ _ => okMma false b s j f r
  | .mmaF16 _ _ b s j _ f r _ _ _ => okMma false b s j f r
  | .mmaE4e4 _ _ b s j _ f r _ _ _ => okMma true b s j f r
  | .mmaE4e5 _ _ b s j _ f r _ _ _ => okMma true b s j f r
  | .mmaE5e4 _ _ b s j _ f r _ _ _ => okMma true b s j f r
  | .mmaE5e5 _ _ b s j _ f r _ _ _ => okMma true b s j f r
  | .mmaE3m2 _ _ b s j _ f r _ _ _ => okMma true b s j f r
  | .mmaE2m3 _ _ b s j _ f r _ _ _ => okMma true b s j f r
  | .mmaE2m1 _ _ b s j _ f r _ _ _ => okMma true b s j f r
  | .mmaI8 _ _ b s j _ f r _ _ _ => okMma false b s j f r
  | .mmaI4 _ _ b s j _ f r _ _ _ => okMma false b s j f r
  | .eset _ n => okEset n
  | .cpy _ _ _ t s => okCpy t s
  | .vxPrefix _ _ r _ _ _ => okMode r
  | .launchDescriptorRead die => okDie die
  | .warmReset pkg => okPkg pkg
  | .powerCycle pkg => okPkg pkg
  | .pcieLinkTraining pkg _ _ _ => okPkg pkg
  | .translate _ _ _ _
  | .pageWalkReturn _ _
  | .peerUnreachable _
  | .forwardedRequest _
  | .portAccess _
  | .faultNack _
  | .replyArrive _
  | .acknowledge _
  | .gangCoreAccess _
  | .windowAccess _
  | .releaseReady _
  | .reductionMerge _
  | .writeQueueApply _
  | .plinthCommand _
  | .plinthPartComplete _ _
  | .portAtomic _
  | .rangeNextPerform _
  | .mergeOpenEntry _
  | .mergeOpenLeader _
  | .caliperOpen _
  | .mergeOpenAck _
  | .caliperPush _
  | .closeMarkerSend _
  | .caliperClose _
  | .leaderPartial _
  | .leaderCommitAck _
  | .abortMarkerEntry _
  | .abortMarkerLeader _
  | .caliperAbort _
  | .osqSubmit _
  | .batchReceive _
  | .homeGrant _
  | .txnReleaseSend _
  | .sliceRelease _
  | .gangLaunch _
  | .splitDescriptorRead _
  | .gangJoin _
  | .arrival _
  | .migrationInstall _
  | .replyDropped _
  | .routineLineFill _
  | .signalApply _
  | .barrierArrive _
  | .barrierWaitRequest _
  | .barrierFlipReceive _
  | .barrierWake _
  | .bulkDropNotice _
  | .topkList _
  | .ctrSnapTable _
  | .slotClaimPerform _
  | .slotRetPerform _
  | .bufferSeal _ _
  | .add16 _ _
  | .mov _ _
  | .sub16 _ _
  | .addi6 _ _
  | .li6 _ _
  | .and16 _ _
  | .or16 _ _
  | .ldDShort _ _
  | .stDShort _ _
  | .bz _ _
  | .bnz _ _
  | .b16 _
  | .shli16 _ _
  | .shri16 _ _
  | .nop
  | .done
  | .brk16
  | .ret
  | .add _ _ _
  | .sub _ _ _
  | .mul _ _ _
  | .mulh _ _ _
  | .mulhz _ _ _
  | .div _ _ _
  | .divz _ _ _
  | .rem _ _ _
  | .remz _ _ _
  | .and _ _ _
  | .andn _ _ _
  | .or _ _ _
  | .xor _ _ _
  | .shl _ _ _
  | .shr _ _ _
  | .sra _ _ _
  | .rol _ _ _
  | .clz _ _
  | .ctz _ _
  | .popc _ _
  | .min _ _ _
  | .max _ _ _
  | .minz _ _ _
  | .maxz _ _ _
  | .seq _ _ _
  | .sne _ _ _
  | .slt _ _ _
  | .sltz _ _ _
  | .sel _ _ _
  | .bswap _ _
  | .clmul _ _ _
  | .clmulh _ _ _
  | .crc _ _ _
  | .hdrPack _ _ _
  | .hdrUnpk _ _ _
  | .addi _ _ _
  | .andi _ _ _
  | .ori _ _ _
  | .xori _ _ _
  | .slti _ _ _
  | .li _ _
  | .shli _ _ _
  | .shri _ _ _
  | .srai _ _ _
  | .rori _ _ _
  | .lih _ _
  | .bEq _ _ _
  | .bNe _ _ _
  | .bLt _ _ _
  | .bGe _ _ _
  | .bLtz _ _
  | .bGez _ _
  | .jal _ _
  | .jalr _ _ _
  | .trap _ _
  | .brk _
  | .yield _
  | .prf _ _
  | .dld _ _
  | .tld _ _ _
  | .tst _ _ _
  | .atomFaddF32 _ _ _ _
  | .atomFaddF64 _ _ _ _
  | .atomFaddBf16 _ _ _ _
  | .redFaddF32 _ _
  | .redFaddF64 _ _
  | .redFaddBf16 _ _
  | .barArrive _ _
  | .barWait _ _
  | .semWait _ _
  | .ownGive _ _
  | .ownTake _ _
  | .ownWait _ _
  | .cbWait _ _
  | .cbRoom _ _
  | .cbPush _ _
  | .cbPop _ _
  | .spawn _ _ _
  | .spawng _ _ _
  | .wttArm _ _
  | .wttDisarm _ _
  | .vand _ _ _ _
  | .vor _ _ _ _
  | .vxor _ _ _ _
  | .vnot _ _ _
  | .vsel _ _ _ _
  | .vmov _ _ _
  | .vbcast _ _ _
  | .vins _ _ _ _
  | .vext _ _ _ _
  | .vcvt _ _ _ _
  | .vperm _ _ _ _
  | .vslide _ _ _ _
  | .vzip _ _ _ _
  | .vunzip _ _ _ _
  | .mand _ _ _
  | .mor _ _ _
  | .mxor _ _ _
  | .mnot _ _
  | .mpop _ _
  | .mfirst _ _
  | .mset _ _
  | .mzero _
  | .mld _ _ _
  | .mldT _ _ _
  | .mst _ _ _ _ _ _ _
  | .msc _ _
  | .mscE8m0 _ _
  | .ego
  | .cpyChain _
  | .bgath _
  | .bcvt
  | .bimOpen _ _ _
  | .bimPush _ _
  | .bimClose
  | .bimWait _ _ _
  | .oftDecl _ _
  | .oftSub _ _
  | .oftRel
  | .collGo _ _
  | .topkSend _ _
  | .slotClaim _ _ _
  | .slotRet _ _
  | .ctrSnap _ _ => true

end Sys2Proof
end

