-- ==== Sys2Proof/Machine/Scalar.lean ====
section
/-! DEFINITION. Scalar integer instructions (R284 to R298) and their 16-bit forms (R258). -/
namespace Sys2Proof.Machine

/-- A unit of len bytes that reads scalar registers and writes one (R282). -/
def aluUnit (len : Nat) (rs : List Nat) (d : Nat) (f : Act → Word) (s : State) : Host.Outcome State Fault Refusal :=
  issueUnit s true (fun _ => sNames rs) (fun _ => sNames [d]) fun a => retire s (setS a d (f a)) len

/-- Two register sources, 32 bits. -/
def rrr (d a b : BitVec 5) (f : Word → Word → Word) (s : State) : Host.Outcome State Fault Refusal :=
  aluUnit 4 [a.toNat, b.toNat] d.toNat (fun r => f (sreg r a.toNat) (sreg r b.toNat)) s

/-- One register source, 32 bits. -/
def rr (d a : BitVec 5) (f : Word → Word) (s : State) : Host.Outcome State Fault Refusal :=
  aluUnit 4 [a.toNat] d.toNat (fun r => f (sreg r a.toNat)) s

/-- The 16-bit forms op rd, rd, ra (R258). -/
def rr16 (d a : BitVec 5) (f : Word → Word → Word) (s : State) : Host.Outcome State Fault Refusal :=
  aluUnit 2 [d.toNat, a.toNat] d.toNat (fun r => f (sreg r d.toNat) (sreg r a.toNat)) s

def boolWord (b : Bool) : Word := if b then 1 else 0
def sext15 (i : BitVec 15) : Word := i.signExtend 64
def sext6 (i : BitVec 6) : Word := i.signExtend 64
def amt (b : Word) : Nat := b.toNat % 64

/-- Quotient and remainder of R286. -/
def divS (a b : Word) : Word := if b = 0 then BitVec.allOnes 64 else a.sdiv b
def remS (a b : Word) : Word := if b = 0 then a else a.srem b
def divU (a b : Word) : Word := if b = 0 then BitVec.allOnes 64 else a / b
def remU (a b : Word) : Word := if b = 0 then a else a % b

/-- High halves of products (R285). -/
def mulHigh (a b : Word) : Word := BitVec.ofInt 64 (a.toInt * b.toInt / ((2 ^ 64 : Nat) : Int))
def mulHighU (a b : Word) : Word := BitVec.ofNat 64 (a.toNat * b.toNat / 2 ^ 64)

/-- Number of one bits among the n lowest (R288). -/
def popNat (x : Nat) : Nat → Nat
  | 0 => 0
  | n + 1 => x % 2 + popNat (x / 2) n

/-- Leading and trailing zero bits of a w-bit value (R288). -/
def clzNat (w x : Nat) : Nat := if x = 0 then w else w - 1 - Nat.log2 x
def ctzNat (x : Nat) : Nat → Nat
  | 0 => 0
  | n + 1 => if x % 2 = 1 then 0 else 1 + ctzNat (x / 2) n

/-- The n lowest bytes in reverse order (R288, R293). -/
def revBytes (n x : Nat) : Nat := ofBytes (toBytes n x).reverse

/-- Carry-less product of a by the n lowest bits of b (R290). -/
def clmulNat (a b : Nat) : Nat → Nat
  | 0 => 0
  | n + 1 => (if b % 2 = 1 then a else 0) ^^^ (2 * clmulNat a (b / 2) n)

/-- CRC-32C over the n lowest bits of a message (R291). -/
def crcNat (c msg : Nat) : Nat → Nat
  | 0 => c
  | n + 1 => crcNat (if (c ^^^ msg) % 2 = 1 then (c / 2) ^^^ 0x82F63B78 else c / 2) (msg / 2) n

def execAdd (d a b : BitVec 5) (s : State) := rrr d a b (· + ·) s
def execSub (d a b : BitVec 5) (s : State) := rrr d a b (· - ·) s
def execMul (d a b : BitVec 5) (s : State) := rrr d a b (· * ·) s
def execMulh (d a b : BitVec 5) (s : State) := rrr d a b mulHigh s
def execMulhz (d a b : BitVec 5) (s : State) := rrr d a b mulHighU s
def execDiv (d a b : BitVec 5) (s : State) := rrr d a b divS s
def execDivz (d a b : BitVec 5) (s : State) := rrr d a b divU s
def execRem (d a b : BitVec 5) (s : State) := rrr d a b remS s
def execRemz (d a b : BitVec 5) (s : State) := rrr d a b remU s
def execAnd (d a b : BitVec 5) (s : State) := rrr d a b (· &&& ·) s
def execAndn (d a b : BitVec 5) (s : State) := rrr d a b (fun x y => x &&& ~~~y) s
def execOr (d a b : BitVec 5) (s : State) := rrr d a b (· ||| ·) s
def execXor (d a b : BitVec 5) (s : State) := rrr d a b (· ^^^ ·) s
def execShl (d a b : BitVec 5) (s : State) := rrr d a b (fun x y => x <<< amt y) s
def execShr (d a b : BitVec 5) (s : State) := rrr d a b (fun x y => x >>> amt y) s
def execSra (d a b : BitVec 5) (s : State) := rrr d a b (fun x y => x.sshiftRight (amt y)) s
def execRol (d a b : BitVec 5) (s : State) := rrr d a b (fun x y => x.rotateLeft (amt y)) s
def execClz (d a : BitVec 5) (s : State) := rr d a (fun x => BitVec.ofNat 64 (clzNat 64 x.toNat)) s
def execCtz (d a : BitVec 5) (s : State) := rr d a (fun x => BitVec.ofNat 64 (ctzNat x.toNat 64)) s
def execPopc (d a : BitVec 5) (s : State) := rr d a (fun x => BitVec.ofNat 64 (popNat x.toNat 64)) s
def execBswap (d a : BitVec 5) (s : State) := rr d a (fun x => BitVec.ofNat 64 (revBytes 8 x.toNat)) s
def execMin (d a b : BitVec 5) (s : State) := rrr d a b (fun x y => if x.sle y then x else y) s
def execMax (d a b : BitVec 5) (s : State) := rrr d a b (fun x y => if y.sle x then x else y) s
def execMinz (d a b : BitVec 5) (s : State) := rrr d a b (fun x y => if x.ule y then x else y) s
def execMaxz (d a b : BitVec 5) (s : State) := rrr d a b (fun x y => if y.ule x then x else y) s
def execSeq (d a b : BitVec 5) (s : State) := rrr d a b (fun x y => boolWord (x == y)) s
def execSne (d a b : BitVec 5) (s : State) := rrr d a b (fun x y => boolWord (x != y)) s
def execSlt (d a b : BitVec 5) (s : State) := rrr d a b (fun x y => boolWord (x.slt y)) s
def execSltz (d a b : BitVec 5) (s : State) := rrr d a b (fun x y => boolWord (x.ult y)) s

/-- sel reads rd as its condition (R289). -/
def execSel (d a b : BitVec 5) (s : State) :=
  aluUnit 4 [d.toNat, a.toNat, b.toNat] d.toNat
    (fun r => if sreg r d.toNat != 0 then sreg r a.toNat else sreg r b.toNat) s

def execClmul (d a b : BitVec 5) (s : State) :=
  rrr d a b (fun x y => BitVec.ofNat 64 (clmulNat x.toNat y.toNat 64)) s
def execClmulh (d a b : BitVec 5) (s : State) :=
  rrr d a b (fun x y => BitVec.ofNat 64 (clmulNat x.toNat y.toNat 64 / 2 ^ 64)) s
def execCrc (d a b : BitVec 5) (s : State) :=
  rrr d a b (fun x y => BitVec.ofNat 64 (crcNat (x.toNat % 2 ^ 32) y.toNat 64)) s

/-- Fields of a HDRF entry (R292). -/
def hdrLen (e : Word) : Nat := wfld e 6 7
def hdrPos (e : Word) : Nat := wfld e 0 6

/-- The traps of R293, by the entry. -/
def hdrBad (e : Word) : Bool :=
  !wbit e 15 || hdrLen e == 0 || 64 < hdrLen e || 64 < hdrPos e + hdrLen e ||
    (wbit e 13 && (hdrLen e % 8 != 0 || hdrPos e % 8 != 0))

/-- hdr.pack and hdr.unpk of R293 by an entry. -/
def hdrPack (e old v : Word) : Word :=
  let x := wfld v 0 (hdrLen e)
  let x := if wbit e 13 then revBytes (hdrLen e / 8) x else x
  putFld old (hdrPos e) (hdrLen e) x
def hdrUnpk (e w : Word) : Word :=
  let x := wfld w (hdrPos e) (hdrLen e)
  let x := if wbit e 13 then revBytes (hdrLen e / 8) x else x
  if wbit e 14 then sextNat (hdrLen e) x else BitVec.ofNat 64 x

/-- The entry of HDRF whose number is the low six bits of a word. -/
def hdrOf (s : State) (a : Act) (w : Word) : Word := mget (coreAt s (coreOf a)).hdrf (w.toNat % 64) 0

def execHdrPack (d a b : BitVec 5) (s : State) : Host.Outcome State Fault Refusal :=
  issueUnit s true (fun _ => sNames [d.toNat, a.toNat, b.toNat]) (fun _ => sNames [d.toNat]) fun r =>
    let e := hdrOf s r (sreg r b.toNat)
    if hdrBad e then trap s r cIllegal
    else retire s (setS r d.toNat (hdrPack e (sreg r d.toNat) (sreg r a.toNat))) 4

def execHdrUnpk (d a b : BitVec 5) (s : State) : Host.Outcome State Fault Refusal :=
  issueUnit s true (fun _ => sNames [a.toNat, b.toNat]) (fun _ => sNames [d.toNat]) fun r =>
    let e := hdrOf s r (sreg r b.toNat)
    if hdrBad e then trap s r cIllegal
    else retire s (setS r d.toNat (hdrUnpk e (sreg r a.toNat))) 4

def execAddi (d a : BitVec 5) (i : BitVec 15) (s : State) := rr d a (fun x => x + sext15 i) s
def execAndi (d a : BitVec 5) (i : BitVec 15) (s : State) := rr d a (fun x => x &&& sext15 i) s
def execOri (d a : BitVec 5) (i : BitVec 15) (s : State) := rr d a (fun x => x ||| sext15 i) s
def execXori (d a : BitVec 5) (i : BitVec 15) (s : State) := rr d a (fun x => x ^^^ sext15 i) s
def execSlti (d a : BitVec 5) (i : BitVec 15) (s : State) := rr d a (fun x => boolWord (x.slt (sext15 i))) s
def execLi (d : BitVec 5) (i : BitVec 15) (s : State) := aluUnit 4 [] d.toNat (fun _ => sext15 i) s
def execLih (d : BitVec 5) (i : BitVec 20) (s : State) :=
  aluUnit 4 [d.toNat] d.toNat (fun r => (sreg r d.toNat <<< 20) ||| i.setWidth 64) s
def execShli (d a : BitVec 5) (n : BitVec 6) (s : State) := rr d a (fun x => x <<< n.toNat) s
def execShri (d a : BitVec 5) (n : BitVec 6) (s : State) := rr d a (fun x => x >>> n.toNat) s
def execSrai (d a : BitVec 5) (n : BitVec 6) (s : State) := rr d a (fun x => x.sshiftRight n.toNat) s
def execRori (d a : BitVec 5) (n : BitVec 6) (s : State) := rr d a (fun x => x.rotateRight n.toNat) s

/-- ext, ext.s, ins of R298; the field's length is l + 1. -/
def execExt (d a : BitVec 5) (p l : BitVec 6) (s : State) :=
  issueUnit s (okField p l) (fun _ => sNames [a.toNat]) (fun _ => sNames [d.toNat]) fun r =>
    retire s (setS r d.toNat (BitVec.ofNat 64 (wfld (sreg r a.toNat) p.toNat (l.toNat + 1)))) 4
def execExtS (d a : BitVec 5) (p l : BitVec 6) (s : State) :=
  issueUnit s (okField p l) (fun _ => sNames [a.toNat]) (fun _ => sNames [d.toNat]) fun r =>
    retire s (setS r d.toNat (sextNat (l.toNat + 1) (wfld (sreg r a.toNat) p.toNat (l.toNat + 1)))) 4
def execIns (d a : BitVec 5) (p l : BitVec 6) (s : State) :=
  issueUnit s (okField p l) (fun _ => sNames [d.toNat, a.toNat]) (fun _ => sNames [d.toNat]) fun r =>
    retire s (setS r d.toNat (putFld (sreg r d.toNat) p.toNat (l.toNat + 1) (sreg r a.toNat).toNat)) 4

def execAdd16 (d a : BitVec 5) (s : State) := rr16 d a (· + ·) s
def execMov (d a : BitVec 5) (s : State) := aluUnit 2 [a.toNat] d.toNat (fun r => sreg r a.toNat) s
def execSub16 (d a : BitVec 5) (s : State) := rr16 d a (· - ·) s
def execAnd16 (d a : BitVec 5) (s : State) := rr16 d a (· &&& ·) s
def execOr16 (d a : BitVec 5) (s : State) := rr16 d a (· ||| ·) s
def execAddi6 (d : BitVec 5) (i : BitVec 6) (s : State) :=
  aluUnit 2 [d.toNat] d.toNat (fun r => sreg r d.toNat + sext6 i) s
def execLi6 (d : BitVec 5) (i : BitVec 6) (s : State) := aluUnit 2 [] d.toNat (fun _ => sext6 i) s
def execShli16 (d : BitVec 5) (i : BitVec 6) (s : State) :=
  aluUnit 2 [d.toNat] d.toNat (fun r => sreg r d.toNat <<< i.toNat) s
def execShri16 (d : BitVec 5) (i : BitVec 6) (s : State) :=
  aluUnit 2 [d.toNat] d.toNat (fun r => sreg r d.toNat >>> i.toNat) s
def execNop (s : State) := aluUnit 2 [] 0 (fun _ => 0) s

end Sys2Proof.Machine
end

