-- ==== Sys2Proof/Machine/Fp.lean ====
section
/-! DEFINITION. Scalar floating point (R283, R299 to R304). -/
namespace Sys2Proof.Machine

/-- The type of a precision bit: f32 or f64 (R268). -/
def fpType (p : BitVec 1) : Nat := if p.toNat = 0 then 9 else 10

/-- Bits of an FP register in a precision (R209). -/
def fbits (a : Act) (t r : Nat) : Nat := fld (freg a r).toNat 0 (tWidth t)

/-- An FP register written with a result; FP32 clears the upper half (R209). -/
def setFbits (a : Act) (r bits : Nat) : Act := setFr a r (BitVec.ofNat 64 bits)

/-- A rounding-mode field: 6 is fcr.RM (R212). -/
def roundMode (a : Act) (m : Nat) : Nat := if m = 6 then wfld a.regs.fcr 0 3 else m

/-- The value U of stochastic draw k of a core (R213). DESIGN CHOICE, log 8. -/
def drawAt (core k : Nat) : Nat := (Config.drawU (core * 2 ^ 64 + k)).toNat

/-- n stochastic draws are made on a core. -/
def useDraws (s : State) (core mode n : Nat) : State :=
  if mode = 5 then
    let c := coreAt s core
    setCore s core { c with draws := c.draws + n }
  else s

/-- A unit with an arithmetic result in an FP register: f gives bits and events from the mode and a draw. -/
def fpUnit (legal : Bool) (d : BitVec 5) (m : BitVec 3) (f : Act → Nat → Nat → Nat × Nat) (s : State) :
    Host.Outcome State Fault Refusal :=
  issueUnit s legal (fun _ => []) (fun _ => []) fun r =>
    let mode := roundMode r m.toNat
    let (bits, ev) := f r mode (drawAt (coreOf r) (coreAt s (coreOf r)).draws)
    retireEv (useDraws s (coreOf r) mode 1) (setFbits r d.toNat bits) 4 [ev]

/-- Two-operand arithmetic of R299: the exact value, converted once, with sat 1. -/
def fpBin (op : FVal → FVal → Nat → FVal × Nat) (d a b : BitVec 5) (m : BitVec 3) (p : BitVec 1) (s : State) :
    Host.Outcome State Fault Refusal :=
  let t := fpType p
  fpUnit (okF d && okF a && okF b && okMode m) d m (fun r mode u =>
    match fmtOf t with
    | some k =>
      let x := k.val (fbits r t a.toNat)
      let y := k.val (fbits r t b.toNat)
      fResult k (op x y mode) [x, y] mode true u
    | none => (0, 0)) s

def execFadd (d a b : BitVec 5) (m : BitVec 3) (p : BitVec 1) (s : State) := fpBin fAdd d a b m p s
def execFsub (d a b : BitVec 5) (m : BitVec 3) (p : BitVec 1) (s : State) :=
  fpBin (fun x y mode => fAdd x y.neg mode) d a b m p s
def execFmul (d a b : BitVec 5) (m : BitVec 3) (p : BitVec 1) (s : State) := fpBin (fun x y _ => fMul x y) d a b m p s
def execFdiv (d a b : BitVec 5) (m : BitVec 3) (p : BitVec 1) (s : State) := fpBin (fun x y _ => fDiv x y) d a b m p s

def execFsqrt (d a : BitVec 5) (m : BitVec 3) (p : BitVec 1) (s : State) : Host.Outcome State Fault Refusal :=
  let t := fpType p
  fpUnit (okF d && okF a && okMode m) d m (fun r mode u =>
    match fmtOf t with
    | some k =>
      let x := k.val (fbits r t a.toNat)
      fResult k (fSqrt x) [x] mode true u
    | none => (0, 0)) s

/-- fma reads fd as its addend (R299). -/
def execFma (d a b : BitVec 5) (m : BitVec 3) (p : BitVec 1) (s : State) : Host.Outcome State Fault Refusal :=
  let t := fpType p
  fpUnit (okF d && okF a && okF b && okMode m) d m (fun r mode u =>
    match fmtOf t with
    | some k =>
      let x := k.val (fbits r t a.toNat)
      let y := k.val (fbits r t b.toNat)
      let z := k.val (fbits r t d.toNat)
      fResult k (fFma x y z mode) [x, y, z] mode true u
    | none => (0, 0)) s

/-- fmin and fmax (R300): mode field 0. -/
def fpMinMax (wantMax : Bool) (d a b : BitVec 5) (p : BitVec 1) (s : State) : Host.Outcome State Fault Refusal :=
  fpUnit (okF d && okF a && okF b) d 0 (fun r _ _ =>
    minMax (fpType p) wantMax (fbits r (fpType p) a.toNat) (fbits r (fpType p) b.toNat)) s

def execFmin (d a b : BitVec 5) (p : BitVec 1) (s : State) := fpMinMax false d a b p s
def execFmax (d a b : BitVec 5) (p : BitVec 1) (s : State) := fpMinMax true d a b p s

/-- Outcome and events of a comparison (R301, R356): predicate 0 eq, 1 lt, 2 le, 3 unordered. -/
def fCompare (t pred x y : Nat) : Bool × Nat :=
  let nan := isNanBits t x || isNanBits t y
  let sig := sigEv [valOf t x, valOf t y]
  if pred = 0 then (!nan && fEq t x y, sig)
  else if pred = 1 then (!nan && fLt t x y, if nan then evNV else 0)
  else if pred = 2 then (!nan && (fLt t x y || fEq t x y), if nan then evNV else 0)
  else (nan, sig)

def execFcmp (d a b : BitVec 5) (m : BitVec 3) (p : BitVec 1) (s : State) : Host.Outcome State Fault Refusal :=
  let t := fpType p
  issueUnit s (okF a && okF b && m.toNat < 4) (fun _ => []) (fun _ => sNames [d.toNat]) fun r =>
    let (v, ev) := fCompare t m.toNat (fbits r t a.toNat) (fbits r t b.toNat)
    retireEv s (setS r d.toNat (boolWord v)) 4 [ev]

/-- fcvt (R302): direction 0 to the f register, 1 from it; the other type T uses the f file for f32 and f64 and the
scalar file for every other type. -/
def execFcvt (d a : BitVec 5) (t : BitVec 4) (r : BitVec 1) (m : BitVec 3) (p : BitVec 1) (s : State) :
    Host.Outcome State Fault Refusal :=
  let ty := t.toNat
  let fpT := ty = 9 || ty = 10
  let dir := r.toNat = 1
  issueUnit s (okCvt d a t r && okMode m)
    (fun _ => if !dir && !fpT then sNames [a.toNat] else [])
    (fun _ => if dir && !fpT then sNames [d.toNat] else []) fun x =>
    let mode := roundMode x m.toNat
    let u := drawAt (coreOf x) (coreAt s (coreOf x)).draws
    let s := useDraws s (coreOf x) mode 1
    if dir then
      let (bits, ev) := convertBits ty (fpType p) (fbits x (fpType p) a.toNat) mode true u
      let x := if fpT then setFbits x d.toNat bits
        else if tIsInt ty && tSigned ty then setS x d.toNat (sextNat (tWidth ty) bits)
        else setS x d.toNat (BitVec.ofNat 64 bits)
      retireEv s x 4 [ev]
    else
      let src := if fpT then fbits x ty a.toNat else fld (sreg x a.toNat).toNat 0 (tWidth ty)
      let (bits, ev) := convertBits (fpType p) ty src mode true u
      retireEv s (setFbits x d.toNat bits) 4 [ev]

/-- fmv.s and fmv.f copy bits (R303). -/
def execFmvS (d a : BitVec 5) (p : BitVec 1) (s : State) : Host.Outcome State Fault Refusal :=
  issueUnit s (okF a) (fun _ => []) (fun _ => sNames [d.toNat]) fun r =>
    retire s (setS r d.toNat (BitVec.ofNat 64 (fbits r (fpType p) a.toNat))) 4
def execFmvF (d a : BitVec 5) (p : BitVec 1) (s : State) : Host.Outcome State Fault Refusal :=
  issueUnit s (okF d) (fun _ => sNames [a.toNat]) (fun _ => []) fun r =>
    retire s (setFbits r d.toNat (fld (sreg r a.toNat).toNat 0 (tWidth (fpType p)))) 4

/-- The bit number of the class of a value (R304). -/
def fClass (k : Fmt) (bits : Nat) : Nat :=
  let normal := bits / 2 ^ k.mb % 2 ^ k.eb != 0
  match k.val bits with
  | .nan sig => if sig then 8 else 9
  | .inf neg => if neg then 0 else 7
  | .num neg m =>
    if m.isZero then (if neg then 3 else 4)
    else if neg then (if normal then 1 else 2)
    else if normal then 6 else 5

def execFclass (d a : BitVec 5) (p : BitVec 1) (s : State) : Host.Outcome State Fault Refusal :=
  issueUnit s (okF a) (fun _ => []) (fun _ => sNames [d.toNat]) fun r =>
    match fmtOf (fpType p) with
    | some k => retire s (setS r d.toNat (BitVec.ofNat 64 (2 ^ fClass k (fbits r (fpType p) a.toNat)))) 4
    | none => retire s r 4

end Sys2Proof.Machine
end

