-- ==== Sys2Proof/Machine/Control.lean ====
section
/-! DEFINITION. Branches, jumps, loops, control registers, identity, trap, brk and yield (R305 to R311, R314 to R320),
with their 16-bit forms (R258). -/
namespace Sys2Proof.Machine

/-- A branch of len bytes: the offset counts halfwords from the instruction (R260, R305). -/
def branchUnit (len : Nat) (rs : List Nat) (off : Word) (taken : Act → Bool) (s : State) :
    Host.Outcome State Fault Refusal :=
  issueUnit s true (fun _ => sNames rs) (fun _ => []) fun r =>
    if taken r then putAct s (jumpTo { r with wait := .run } (r.regs.pc + 2 * off)) else retire s r len

def sext12 (o : BitVec 12) : Word := o.signExtend 64

/-- A branch that compares two registers. -/
def branch2 (a b : BitVec 5) (o : BitVec 12) (f : Word → Word → Bool) (s : State) : Host.Outcome State Fault Refusal :=
  branchUnit 4 [a.toNat, b.toNat] (sext12 o) (fun r => f (sreg r a.toNat) (sreg r b.toNat)) s

def execBEq (a b : BitVec 5) (o : BitVec 12) (s : State) := branch2 a b o (· == ·) s
def execBNe (a b : BitVec 5) (o : BitVec 12) (s : State) := branch2 a b o (· != ·) s
def execBLt (a b : BitVec 5) (o : BitVec 12) (s : State) := branch2 a b o BitVec.slt s
def execBGe (a b : BitVec 5) (o : BitVec 12) (s : State) := branch2 a b o (fun x y => y.sle x) s
def execBLtz (a : BitVec 5) (o : BitVec 12) (s : State) :=
  branchUnit 4 [a.toNat] (sext12 o) (fun r => (sreg r a.toNat).slt 0) s
def execBGez (a : BitVec 5) (o : BitVec 12) (s : State) :=
  branchUnit 4 [a.toNat] (sext12 o) (fun r => (0 : Word).sle (sreg r a.toNat)) s
def execBz (d : BitVec 5) (i : BitVec 6) (s : State) :=
  branchUnit 2 [d.toNat] (sext6 i) (fun r => sreg r d.toNat == 0) s
def execBnz (d : BitVec 5) (i : BitVec 6) (s : State) :=
  branchUnit 2 [d.toNat] (sext6 i) (fun r => sreg r d.toNat != 0) s

/-- A jump of len bytes to a target computed before the link is written (R306, R307). -/
def jumpUnit (len : Nat) (rs : List Nat) (d : Nat) (target : Act → Word) (s : State) : Host.Outcome State Fault Refusal :=
  issueUnit s true (fun _ => sNames rs) (fun _ => sNames [d]) fun r =>
    let link := r.regs.pc + BitVec.ofNat 64 len
    putAct s (jumpTo (setS { r with wait := .run } d link) (target r))

def execJal (d : BitVec 5) (o : BitVec 20) (s : State) :=
  jumpUnit 4 [] d.toNat (fun r => r.regs.pc + 2 * o.signExtend 64) s
def execB16 (o : BitVec 11) (s : State) := jumpUnit 2 [] 0 (fun r => r.regs.pc + 2 * o.signExtend 64) s

/-- Target of jalr: bit 0 is cleared (R256, R307). -/
def jalrTarget (r : Act) (a : Nat) (i : Word) : Word := putBit (sreg r a + i) 0 false

def execJalr (d a : BitVec 5) (i : BitVec 15) (s : State) :=
  jumpUnit 4 [a.toNat] d.toNat (fun r => jalrTarget r a.toNat (sext15 i)) s
def execRet (s : State) := jumpUnit 2 [31] 0 (fun r => jalrTarget r 31 0) s

/-- StartLoop of R311. -/
def startLoop (s : State) (r : Act) (count : Word) (dist : Nat) : State :=
  if r.regs.lcnt != 0 then trap s r cIllegal
  else
    let fin := r.regs.pc + BitVec.ofNat 64 (2 * dist)
    if count = 0 then putAct s (setPc { r with wait := .run } fin)
    else
      let img := BitVec.ofNat 64 r.cls.img
      let next := r.regs.pc + 4
      putAct s { r with wait := .run, regs := { r.regs with lstart := (next - img).setWidth 32,
                                                            lend := (fin - img).setWidth 32, lcnt := count, pc := next } }

def execLoop (a : BitVec 5) (i : BitVec 15) (s : State) : Host.Outcome State Fault Refusal :=
  issueUnit s (okDist i.toNat) (fun _ => sNames [a.toNat]) (fun _ => []) fun r => startLoop s r (sreg r a.toNat) i.toNat
def execLoopi (d n : BitVec 10) (s : State) : Host.Outcome State Fault Refusal :=
  issueUnit s (okDist d.toNat) (fun _ => []) (fun _ => []) fun r => startLoop s r (n.setWidth 64) d.toNat

/-- The value of a control register (R315, R316). -/
def readCsr (s : State) (r : Act) (n : Nat) : Word :=
  let core := coreOf r
  if n = 0 then r.regs.fcr
  else if n = 1 then r.regs.vwb
  else if 8 ≤ n ∧ n < 16 then creg r (n - 8)
  else if n = 0x10 then BitVec.ofNat 64 (cyclesOf s (dkOfCore core))
  else if n = 0x11 then BitVec.ofNat 64 (timeOf s (pkgOfCore core))
  else if n = 0x12 then BitVec.ofNat 64 (r.task.rc % 256)
  else if n = 0x20 then (coreAt s core).partw
  else if n = 0x21 then (coreAt s core).asid
  else if 0x40 ≤ n ∧ n < 0x47 then xsCfg s core (n - 0x40)
  else if 0x48 ≤ n ∧ n < 0x4F then BitVec.ofNat 64 (xsCount s core (n - 0x48))
  else mget (coreAt s core).hdrf (n - 0x100) 0

/-- fcr as written: reserved bits read zero, RM 6 and 7 keep RM (R214, R314). -/
def newFcr (old v : Word) : Word :=
  let rm := if 6 ≤ wfld v 0 3 then wfld old 0 3 else wfld v 0 3
  BitVec.ofNat 64 (wfld v 8 7 * 256 + rm)

/-- Writes a control register, or none for the traps of R44 and R49. -/
def writeCsr (s : State) (r : Act) (n : Nat) (v : Word) : Option (State × Act) :=
  if n = 0 then some (s, { r with regs := { r.regs with fcr := newFcr r.regs.fcr v } })
  else if n = 1 then
    if wbit v 12 && (r.tiles.length ≤ wfld v 10 2 || 12 < wfld v 0 4) then none
    else some (s, { r with regs := { r.regs with vwb := v &&& 0x1C0F } })
  else if 8 ≤ n ∧ n < 16 then
    let len := wfld v 6 5
    if wbit v 24 && (len = 0 || 16 < len || 64 < wfld v 0 6 + len) then none
    else some (s, setC r (n - 8) (v &&& 0x1FFFFFF))
  else
    let c := coreAt s (coreOf r)
    some (setCore s (coreOf r) { c with hdrf := mset c.hdrf (n - 0x100) (v &&& 0xFFFF) }, r)

/-- The csr instructions (R314): new gives the value written, if any. -/
def csrUnit (legal : Bool) (rs : List Nat) (d : BitVec 5) (c : BitVec 12) (new : Act → Word → Option Word) (s : State) :
    Host.Outcome State Fault Refusal :=
  issueUnit s legal (fun _ => sNames rs) (fun _ => sNames [d.toNat]) fun r =>
    let old := readCsr s r c.toNat
    match new r old with
    | none => retire s (setS r d.toNat old) 4
    | some v =>
      match writeCsr s r c.toNat v with
      | none => trap s r cIllegal
      | some (s, r) => retire s (setS r d.toNat old) 4

def execCsrr (d : BitVec 5) (c : BitVec 12) (s : State) := csrUnit (okCsr c) [] d c (fun _ _ => none) s
def execCsrw (d a : BitVec 5) (c : BitVec 12) (s : State) :=
  csrUnit (rwCsr c) [a.toNat] d c (fun r _ => some (sreg r a.toNat)) s
def execCsrs (d a : BitVec 5) (c : BitVec 12) (s : State) :=
  csrUnit (okCsr c && (a.toNat = 0 || rwCsr c)) [a.toNat] d c
    (fun r old => if a.toNat = 0 then none else some (old ||| sreg r a.toNat)) s
def execCsrc (d a : BitVec 5) (c : BitVec 12) (s : State) :=
  csrUnit (okCsr c && (a.toNat = 0 || rwCsr c)) [a.toNat] d c
    (fun r old => if a.toNat = 0 then none else some (old &&& ~~~(sreg r a.toNat))) s

/-- Identity registers (R156). -/
def identity (r : Act) (n : Nat) : Word :=
  let c := coreOf r
  let v (x : Nat) : Word := BitVec.ofNat 64 x
  match n with
  | 0 => v (dieOfCore c)
  | 1 => v (rowOfCore c)
  | 2 => v (colOfCore c)
  | 3 => v r.gx
  | 4 => v r.gy
  | 5 => v r.gw
  | 6 => v r.gh
  | 7 => r.tx
  | 8 => r.ty
  | 9 => v (classOf r)
  | 10 => r.taskId
  | _ => v (r.gy * r.gw + r.gx)

def execIdr (d : BitVec 5) (n : BitVec 12) (s : State) : Host.Outcome State Fault Refusal :=
  issueUnit s (okIdr n) (fun _ => []) (fun _ => sNames [d.toNat]) fun r =>
    retire s (setS r d.toNat (identity r n.toNat)) 4

/-- The event of trap and brk (R318, R319): code in word 1, value in word 2. -/
def codeEvent (s : State) (r : Act) (cause : Nat) (code v : Word) : Event :=
  { termEvent s r cause with w1 := code, w2 := v }

def execTrap (a : BitVec 5) (c : BitVec 12) (s : State) : Host.Outcome State Fault Refusal :=
  issueUnit s true (fun _ => sNames [a.toNat]) (fun _ => []) fun r =>
    terminateWith s r (codeEvent s r cTrap (c.setWidth 64) (sreg r a.toNat))
def execBrk (c : BitVec 12) (s : State) : Host.Outcome State Fault Refusal :=
  issueUnit s true (fun _ => []) (fun _ => []) fun r => terminateWith s r (codeEvent s r cBrk (c.setWidth 64) 0)
def execBrk16 (s : State) : Host.Outcome State Fault Refusal :=
  issueUnit s true (fun _ => []) (fun _ => []) fun r => terminateWith s r (codeEvent s r cBrk 0 0)

/-- Other ready contexts of the activation's effective class on its core (R320). -/
def peers (s : State) (r : Act) : List Nat :=
  ((span (coreOf r * 8) 8).filter fun x => x != r.ctx && (match actAt s x with
    | some b => ready s b && effClass s b == effClass s r
    | none => false))

/-- yield (R320): not ready for the n cycles that follow, or until each other ready context of the class has issued. -/
def execYield (n : BitVec 12) (s : State) : Host.Outcome State Fault Refusal :=
  issueUnit s true (fun _ => []) (fun _ => []) fun r =>
    let w : Wait := if n.toNat = 0 then .yield 0 (peers s r) else .yield (s.now + 1 + n.toNat) []
    putAct s { advance r 4 with wait := w, issuedAt := s.now }

end Sys2Proof.Machine
end

