-- ==== Sys2Proof/Machine/Access.lean ====
section
/-! DEFINITION. Loads and stores, indexed forms, prefetch, descriptors, tile copies (R321 to R328) and memory-side
operations (R329, R330). -/
namespace Sys2Proof.Machine

/-! ### Shared accesses -/

/-- An access of an activation to its own pool as an operation: one that an earlier operation holds (R328). -/
def localOp (a : Act) (acc : Acc) (p n : Nat) (pay : Pay) (dst : Dst) : Flight :=
  { opOf a none acc 0 n pay dst with gang := some (coreOf a), req := { reqOf a acc 0 n with va := p } }

/-- An own-pool access of an instruction of len bytes (R45, R47): outside the rows the activation reaches it traps; held by an earlier operation of
the activation it waits at the core as `op`, and the activation goes on (R328); an engine-owned slot traps a store and stalls a load. -/
def poolAccess (s : State) (a : Act) (p n : Nat) (write : Bool) (op : Flight) (len : Nat) (k : State) : State :=
  if !ownReach s a p n then trap s a cPool
  else
    let ids := poolHolds s a p n write
    if !ids.isEmpty then withSlot s a (issueOp (retire s a len) { op with holds := ids })
    else match ownedSlot s (coreOf a) p n with
      | some slot => if write then trap s a cOwner else block s a (.poolSlot slot false)
      | none => k

/-- The value that a load of n bytes leaves in a scalar register (R322). -/
def loadValue (n : Nat) (sx : Bool) (v : Nat) : Word := if sx then sextNat (8 * n) v else BitVec.ofNat 64 v

/-- An access of an activation to another core's pool (R52): a flight to that core's pool port. -/
def gangOp (a : Act) (path : Option Nat) (acc : Acc) (addr n : Nat) (pay : Pay) (dst : Dst) : Flight :=
  { opOf a path acc 0 n pay dst with gang := some (gangCore a addr), req := { reqOf a acc 0 n with va := addr % 262144 } }

/-- Space of an access as it is performed: a gang-core access to the issuing core is an own-pool access (R52). -/
def effSpace (a : Act) (space addr : Nat) : Nat := if space = 2 ∧ gangCore a addr = coreOf a then 1 else space

/-- An operation in the global or gang-core space issues and the unit retires. A gang-core access waits at the core for the tile copies of the
activation on its bytes (R328). -/
def issueAccess (s : State) (a : Act) (space : Nat) (path : Option Nat) (acc : Acc) (addr n : Nat) (pay : Pay) (dst : Dst)
    (len : Nat) : State :=
  withSlot s a
    (issueOp (retire s a len)
      (if space = 2 then
        { gangOp a path acc addr n pay dst with holds := portHolds s a (gangCore a addr) (addr % 262144) n }
      else opOf a path acc addr n pay dst))

/-! ### Scalar loads and stores -/

/-- A scalar load (R322): n bytes at an address of a space into S[d], by a unit of len bytes. -/
def loadUnit (legal : Bool) (rs : List Nat) (d n : Nat) (sx : Bool) (space : Nat) (addr : Act → Nat) (len : Nat) (s : State) :
    Host.Outcome State Fault Refusal :=
  issueUnit s legal (fun _ => sNames rs) (fun _ => sNames [d]) fun a =>
    let ad := addr a
    if effSpace a space ad = 1 then
      let p := ad % 262144
      poolAccess s a p n false (localOp a .load p n .load (.sreg d n sx)) len
        (retire s (setS a d (loadValue n sx (readN s.mem (pool (coreOf a) p) n))) len)
    else issueAccess s a space none .load ad n .load (.sreg d n sx) len

/-- A scalar store (R322): the low n bytes of S[r]. -/
def storeUnit (legal : Bool) (rs : List Nat) (r n : Nat) (space : Nat) (addr : Act → Nat) (len : Nat) (s : State) :
    Host.Outcome State Fault Refusal :=
  issueUnit s legal (fun _ => sNames (r :: rs)) (fun _ => []) fun a =>
    let ad := addr a
    let bs := toBytes n (sreg a r).toNat
    if effSpace a space ad = 1 then
      let p := ad % 262144
      poolAccess s a p n true (localOp a .store p n (.store bs) .none) len (retire { s with mem := writeBytes s.mem (pool (coreOf a) p) bs } a len)
    else issueAccess s a space (some 1) .store ad n (.store bs) .none len

/-- Sign extension of ld: .b, .h and .w (R322). -/
def ldSigned (z : Nat) : Bool := z < 3

def execLd (d b : BitVec 5) (z : BitVec 3) (sp : BitVec 2) (o : BitVec 10) (s : State) :=
  loadUnit (okLd z sp) [b.toNat] d.toNat (unitOf z.toNat) (ldSigned z.toNat) sp.toNat
    (fun a => mAddr a b.toNat o.toNat (unitOf z.toNat)) 4 s
def execSt (d b : BitVec 5) (z : BitVec 3) (sp : BitVec 2) (o : BitVec 10) (s : State) :=
  storeUnit (okSt z sp) [b.toNat] d.toNat (unitOf z.toNat) sp.toNat (fun a => mAddr a b.toNat o.toNat (unitOf z.toNat)) 4 s

/-- Address of the 16-bit forms: 8 × imm6 from s9 (R258). -/
def shortAddr (i : BitVec 6) (a : Act) : Nat := (sreg a 9 + 8 * i.setWidth 64).toNat

def execLdDShort (d : BitVec 5) (i : BitVec 6) (s : State) := loadUnit true [9] d.toNat 8 false 1 (shortAddr i) 2 s
def execStDShort (d : BitVec 5) (i : BitVec 6) (s : State) := storeUnit true [9] d.toNat 8 1 (shortAddr i) 2 s

/-- ldx (R324): base plus the index times the size. -/
def execLdx (d a b : BitVec 5) (y : BitVec 2) (z : BitVec 1) (sp : BitVec 2) (s : State) :=
  loadUnit (okLdx y z sp) [a.toNat, b.toNat] d.toNat (2 ^ y.toNat) (z.toNat = 0 && y.toNat != 3) sp.toNat
    (fun r => (sreg r a.toNat + sreg r b.toNat * BitVec.ofNat 64 (2 ^ y.toNat)).toNat) 4 s

/-! ### Vector rows -/

/-- vld (R323). -/
def execVld (d b : BitVec 5) (sp : BitVec 2) (o : BitVec 10) (s : State) : Host.Outcome State Fault Refusal :=
  issueUnit s (okSpace sp) (fun _ => sNames [b.toNat]) (fun a => vNames a [d.toNat]) fun a =>
    let ad := mAddr a b.toNat o.toNat 512
    if ad % 512 != 0 then trap s a cAlign
    else if effSpace a sp.toNat ad = 1 then
      let p := ad % 262144
      poolAccess s a p 512 false (localOp a .load p 512 .load (.vrow d.toNat a.regs.vwb)) 4
        (retire (setV s a d.toNat (readN s.mem (pool (coreOf a) p) 512)) a 4)
    else issueAccess s a sp.toNat none .load ad 512 .load (.vrow d.toNat a.regs.vwb) 4

/-- vst (R323). -/
def execVst (d b : BitVec 5) (sp : BitVec 2) (o : BitVec 10) (s : State) : Host.Outcome State Fault Refusal :=
  issueUnit s (okSpace sp) (fun a => sNames [b.toNat] ++ vNames a [d.toNat]) (fun _ => []) fun a =>
    let ad := mAddr a b.toNat o.toNat 512
    let bs := toBytes 512 (vreg s a d.toNat)
    if ad % 512 != 0 then trap s a cAlign
    else if effSpace a sp.toNat ad = 1 then
      let p := ad % 262144
      poolAccess s a p 512 true (localOp a .store p 512 (.store bs) .none) 4 (retire { s with mem := writeBytes s.mem (pool (coreOf a) p) bs } a 4)
    else issueAccess s a sp.toNat (some 1) .store ad 512 (.store bs) .none 4

/-! ### Gather and scatter -/

/-- The lane addresses of vldx and vstx (R325). -/
def laneAddrs (s : State) (a : Act) (ra vb t : Nat) : List Nat :=
  let w := tWidth t
  let base := sreg a ra
  (lanes w (vreg s a vb) (tLanes t)).map fun i => (base + BitVec.ofNat 64 (i * (w / 8))).toNat

/-- The first own-pool lane that keeps the instruction from issuing (R45, R47): a trap of any lane goes before a stall of an earlier one (R325:
nothing is accessed). A lane that is held meets the rules of its slot when it is performed. -/
def lanesStop (s : State) (a : Act) (space n : Nat) (write : Bool) (ads : List Nat) : Option State :=
  let own := (ads.filter fun ad => effSpace a space ad = 1).map fun ad => ad % 262144
  let slot (p : Nat) : Option Nat := if (poolHolds s a p n write).isEmpty then ownedSlot s (coreOf a) p n else none
  if own.any fun p => !ownReach s a p n then some (trap s a cPool)
  else match own.findSome? slot with
    | some k => some (if write then trap s a cOwner else block s a (.poolSlot k false))
    | none => none

/-- What a lane waits for at the core: its bytes in the own pool, or the tile copies on its bytes in another (R328). -/
def laneWaits (s : State) (a : Act) (space n : Nat) (write : Bool) (ad : Nat) : List Nat :=
  if effSpace a space ad = 1 then poolHolds s a (ad % 262144) n write
  else if space = 2 then portHolds s a (gangCore a ad) (ad % 262144) n
  else []

/-- Lane i of a row of the window written. -/
def setLane (s : State) (a : Act) (vwb : Word) (v i w bits : Nat) : State :=
  { s with mem := writeN s.mem (pool (coreOf a) (512 * vrow s a vwb v) + i * (w / 8)) (w / 8) bits }

/-- A lane as an operation of its own, which takes its slot when it is sent (R186; DESIGN CHOICE, log 25). -/
def laneOp (a : Act) (space : Nat) (path : Option Nat) (acc : Acc) (ad n : Nat) (pay : Pay) (dst : Dst) (ids : List Nat) : Flight :=
  { (if effSpace a space ad = 1 then localOp a acc (ad % 262144) n pay dst
      else if space = 2 then gangOp a path acc ad n pay dst else opOf a path acc ad n pay dst) with slot := false, holds := ids }

/-- One lane of a gather, with what it waits for: performed at once in the own pool, else as an operation. -/
def gatherLane (a : Act) (space v w : Nat) (s : State) (l : (Nat × Nat) × List Nat) : State :=
  let n := w / 8
  if effSpace a space l.1.2 = 1 ∧ l.2 = [] then
    setLane s a a.regs.vwb v l.1.1 w (readN s.mem (pool (coreOf a) (l.1.2 % 262144)) n)
  else launchFlight s (laneOp a space none .load l.1.2 n .load (.vlane v l.1.1 w a.regs.vwb) l.2)

/-- One lane of a scatter. -/
def scatterLane (a : Act) (space w : Nat) (s : State) (l : (Nat × Nat) × List Nat) : State :=
  let n := w / 8
  let bs := toBytes n l.1.2
  if effSpace a space l.1.1 = 1 ∧ l.2 = [] then { s with mem := writeBytes s.mem (pool (coreOf a) (l.1.1 % 262144)) bs }
  else launchFlight s (laneOp a space (some 1) .store l.1.1 n (.store bs) .none l.2)

/-- Lane numbers with their addresses. -/
def numbered (ads : List Nat) : List (Nat × Nat) := (List.range ads.length).zip ads

/-- An indexed instruction (R325): the checks before its lanes, and then the lanes, each with its address and what it waits for. -/
def lanesUnit (s : State) (a : Act) (space w : Nat) (write : Bool) (ads : List Nat) (go : List (List Nat) → State → State) : State :=
  if ads.any fun ad => ad % (w / 8) != 0 then trap s a cAlign
  else match lanesStop s a space (w / 8) write ads with
    | some s => s
    | none => withSlot s a
        (pump (keepLanes (go (ads.map (laneWaits s a space (w / 8) write)) (retire s a 4)) a s.nextId) a.uid)

/-- vldx (R325): every index is read before any lane is written. -/
def execVldx (d a b : BitVec 5) (t : BitVec 4) (sp : BitVec 2) (s : State) : Host.Outcome State Fault Refusal :=
  issueUnit s (okIdxType t && okSpace sp) (fun r => sNames [a.toNat] ++ vNames r [b.toNat]) (fun r => vNames r [d.toNat])
    fun r =>
      let w := tWidth t.toNat
      let ads := laneAddrs s r a.toNat b.toNat t.toNat
      lanesUnit s r sp.toNat w false ads fun ids s => ((numbered ads).zip ids).foldl (gatherLane r sp.toNat d.toNat w) s

/-- vstx (R325): lanes in order, so the highest lane's value remains. -/
def execVstx (d a b : BitVec 5) (t : BitVec 4) (sp : BitVec 2) (s : State) : Host.Outcome State Fault Refusal :=
  issueUnit s (okIdxType t && okSpace sp) (fun r => sNames [a.toNat] ++ vNames r [b.toNat, d.toNat]) (fun _ => []) fun r =>
    let w := tWidth t.toNat
    let ads := laneAddrs s r a.toNat b.toNat t.toNat
    let vals := lanes w (vreg s r d.toNat) (tLanes t.toNat)
    lanesUnit s r sp.toNat w true ads fun ids s => ((ads.zip vals).zip ids).foldl (scatterLane r sp.toNat w) s

/-! ### Prefetch, descriptors, tile copies -/

/-- prf (R326): a request for a translation, with no operation slot and no result. -/
def execPrf (a b : BitVec 5) (s : State) : Host.Outcome State Fault Refusal :=
  issueUnit s true (fun _ => sNames [a.toNat, b.toNat]) (fun _ => []) fun r =>
    issueOp (retire s r 4)
      { opOf r none .load (sreg r a.toNat + sreg r b.toNat).toNat 1 .prf .none with slot := false }

/-- dld (R327): the 64 bytes are checked when they return. -/
def execDld (d : BitVec 3) (a : BitVec 5) (s : State) : Host.Outcome State Fault Refusal :=
  issueUnit s true (fun _ => sNames [a.toNat]) (fun _ => [.d d.toNat]) fun r =>
    let ad := (sreg r a.toNat).toNat
    if ad % 8 != 0 then trap s r cAlign
    else issueAccess s r 0 none .load ad 64 .load (.dreg d.toNat) 4

/-- Origin coordinates of a scalar register (R328). -/
def org0 (o : Word) : Nat := wfld o 0 32
def org1 (o : Word) : Nat := wfld o 32 32

/-- Is an origin misaligned for a packed type (R328)? -/
def originBad (t o0 : Nat) : Bool := (tWidth t = 4 && o0 % 2 != 0) || (tWidth t = 6 && o0 % 4 != 0)

/-- Bytes of the pool that a command may reach (R45, R52): rows of the own core that the activation reaches, or scratchpad
rows of a gang core of the same address space. -/
def placeReach (s : State) (a : Act) (core p n : Nat) : Bool :=
  if core = coreOf a then ownReach s a p n
  else
    let c := coreAt s core
    wbit c.asid 20 && wfld c.asid 0 16 = a.task.asid && wfld c.asid 16 4 = a.task.gen && inScratch c p n

/-- The places of a descriptor's tile rows: core, own-pool address, bytes; none in global space. -/
def descPlaces (a : Act) (d : DReg) : List (Nat × Nat × Nat) :=
  if dSpace d = 0 then []
  else (tileRanges d).map fun r =>
    let q := poolPlace a (dSpace d) r.1
    (q.1, q.2, r.2)

/-- Slots of the own pool among places, for R387. -/
def placeSlots (core : Nat) (ps : List (Nat × Nat × Nat)) : List Nat :=
  ((ps.filter fun q => q.1 = core).flatMap fun q => slotsOf q.2.1 q.2.2).eraseDups

/-- What a command waits for on places of pools that it reads or writes (R70, R328). -/
def placeHolds (s : State) (a : Act) (write : Bool) (ps : List (Nat × Nat × Nat)) : List Nat :=
  (ps.flatMap fun q => if q.1 = coreOf a then poolHolds s a q.2.1 q.2.2 write else portHolds s a q.1 q.2.1 q.2.2).eraseDups

/-- tld and tst (R328): the pool side and what the far side has in the own pool, in own-pool space or as gang-core addresses of the
issuing core (R52), are checked at issue; the command waits for earlier accesses to these bytes, then the copy engine runs it. -/
def tileUnit (store : Bool) (d a : BitVec 3) (o : BitVec 5) (s : State) : Host.Outcome State Fault Refusal :=
  issueUnit s true (fun _ => RegName.d d.toNat :: RegName.d a.toNat :: sNames [o.toNat]) (fun _ => []) fun r =>
    let pd := dreg r (if store then a.toNat else d.toNat)
    let fd := dreg r (if store then d.toNat else a.toNat)
    let org := sreg r o.toNat
    if dreg r d.toNat = 0 ∨ dreg r a.toNat = 0 ∨ (dSpace pd != 1 && dSpace pd != 2) ∨ dEtype pd != dEtype fd then trap s r cDesc
    else if originBad (dEtype pd) (org0 org) then trap s r cAlign
    else
      let held := descPlaces r pd ++ (descPlaces r fd).filter fun q => q.1 = coreOf r
      if held.any fun q => !placeReach s r q.1 q.2.1 q.2.2 then trap s r cPool
      else if held.any fun q => (ownedSlot s q.1 q.2.1 q.2.2).isSome then trap s r cOwner
      else
        let c := coreAt s (coreOf r)
        if 16 ≤ c.copyQ.length then block s r .copyRoom
        else withSlot s r <|
          let ids := placeHolds s r (!store) (descPlaces r pd) ++ placeHolds s r store (descPlaces r fd)
          let cmd : CopyCmd :=
            { id := s.nextId, uid := r.uid, kind := if store then 3 else 2, shadow := [], follow := none, far := fd,
              pool := pd, org := org, asid := r.task.asid, gen := r.task.gen, cls := classOf r, active := false,
              slots := [] }
          let s := retire s r 4
          issueOp (setCore s (coreOf r) { coreAt s (coreOf r) with copyQ := c.copyQ ++ [cmd] })
            { opOf r (some (if store then 1 else 0)) (if store then .store else .load) 0 0 .command .none with holds := ids }

def execTld (d a : BitVec 3) (o : BitVec 5) (s : State) := tileUnit false d a o s
def execTst (d a : BitVec 3) (o : BitVec 5) (s : State) := tileUnit true d a o s

/-! ### Memory-side operations -/

/-- Releases and acquires of a qualifier (R270): 1 .acq, 2 .rel, 3 .ar. -/
def qAcq (q : BitVec 2) : Bool := q.toNat = 1 || q.toNat = 3
def qRel (q : BitVec 2) : Bool := q.toNat = 2 || q.toNat = 3

/-- An atom or cas is sent: with a release only when the release takes effect (R72, R73); with an acquire nothing later
issues before its reply (R74). -/
def sendAtomic (s : State) (a : Act) (q : BitVec 2) (f : Flight) : State :=
  let a' := advance { a with wait := .run } 4
  let a' := if qAcq q then { a' with wait := .flights [s.nextId] false } else a'
  issueOp (putAct s a') { f with stage := if qRel q then .relWait 4 else .held, acq := qAcq q }

/-- atom of R329: op and size by R94. -/
def atomUnit (legal : Bool) (op z : Nat) (d a b : BitVec 5) (q : BitVec 2) (s : State) : Host.Outcome State Fault Refusal :=
  issueUnit s legal (fun _ => sNames [a.toNat, b.toNat]) (fun _ => sNames [d.toNat]) fun r =>
    let ad := (sreg r a.toNat).toNat
    let n := atomBytes z
    if ad % n != 0 then trap s r cAlign
    else withSlot s r (sendAtomic s r q
      (opOf r none .atom ad n (.atom op n (BitVec.ofNat 64 ((sreg r b.toNat).toNat % 2 ^ (8 * n)))) (.sreg d.toNat n false)))

/-- red of R329: no reply; complete on path 2. -/
def redOpUnit (legal : Bool) (op z : Nat) (a b : BitVec 5) (s : State) : Host.Outcome State Fault Refusal :=
  issueUnit s legal (fun _ => sNames [a.toNat, b.toNat]) (fun _ => []) fun r =>
    let ad := (sreg r a.toNat).toNat
    let n := atomBytes z
    if ad % n != 0 then trap s r cAlign
    else issueAccess s r 0 (some 2) .red ad n (.red op n (BitVec.ofNat 64 ((sreg r b.toNat).toNat % 2 ^ (8 * n)))) .none 4

/-- Bytes of a size code of the atomics: 0 two, 1 four, 2 eight (R270). -/
def execAtomAdd (d a b : BitVec 5) (z q : BitVec 2) (s : State) := atomUnit (okAtomSize z) 0 z.toNat d a b q s
def execAtomFaddF32 (d a b : BitVec 5) (q : BitVec 2) (s : State) := atomUnit true 1 1 d a b q s
def execAtomFaddF64 (d a b : BitVec 5) (q : BitVec 2) (s : State) := atomUnit true 2 2 d a b q s
def execAtomFaddBf16 (d a b : BitVec 5) (q : BitVec 2) (s : State) := atomUnit true 3 0 d a b q s
def execAtomMin (d a b : BitVec 5) (z q : BitVec 2) (s : State) := atomUnit (okAtomSize z) 4 z.toNat d a b q s
def execAtomMax (d a b : BitVec 5) (z q : BitVec 2) (s : State) := atomUnit (okAtomSize z) 5 z.toNat d a b q s
def execAtomMinz (d a b : BitVec 5) (z q : BitVec 2) (s : State) := atomUnit (okAtomSize z) 6 z.toNat d a b q s
def execAtomMaxz (d a b : BitVec 5) (z q : BitVec 2) (s : State) := atomUnit (okAtomSize z) 7 z.toNat d a b q s
def execAtomAnd (d a b : BitVec 5) (z q : BitVec 2) (s : State) := atomUnit (okAtomSize z) 8 z.toNat d a b q s
def execAtomOr (d a b : BitVec 5) (z q : BitVec 2) (s : State) := atomUnit (okAtomSize z) 9 z.toNat d a b q s
def execAtomXor (d a b : BitVec 5) (z q : BitVec 2) (s : State) := atomUnit (okAtomSize z) 10 z.toNat d a b q s
def execAtomSwap (d a b : BitVec 5) (z q : BitVec 2) (s : State) := atomUnit (okAtomSize z) 11 z.toNat d a b q s
def execRedAdd (a b : BitVec 5) (z : BitVec 2) (s : State) := redOpUnit (okAtomSize z) 0 z.toNat a b s
def execRedFaddF32 (a b : BitVec 5) (s : State) := redOpUnit true 1 1 a b s
def execRedFaddF64 (a b : BitVec 5) (s : State) := redOpUnit true 2 2 a b s
def execRedFaddBf16 (a b : BitVec 5) (s : State) := redOpUnit true 3 0 a b s
def execRedMin (a b : BitVec 5) (z : BitVec 2) (s : State) := redOpUnit (okAtomSize z) 4 z.toNat a b s
def execRedMax (a b : BitVec 5) (z : BitVec 2) (s : State) := redOpUnit (okAtomSize z) 5 z.toNat a b s
def execRedMinz (a b : BitVec 5) (z : BitVec 2) (s : State) := redOpUnit (okAtomSize z) 6 z.toNat a b s
def execRedMaxz (a b : BitVec 5) (z : BitVec 2) (s : State) := redOpUnit (okAtomSize z) 7 z.toNat a b s
def execRedAnd (a b : BitVec 5) (z : BitVec 2) (s : State) := redOpUnit (okAtomSize z) 8 z.toNat a b s
def execRedOr (a b : BitVec 5) (z : BitVec 2) (s : State) := redOpUnit (okAtomSize z) 9 z.toNat a b s
def execRedXor (a b : BitVec 5) (z : BitVec 2) (s : State) := redOpUnit (okAtomSize z) 10 z.toNat a b s

/-- cas of R329: the expected value is read from rd first. -/
def execCas (d a b : BitVec 5) (z q : BitVec 2) (s : State) : Host.Outcome State Fault Refusal :=
  issueUnit s (okAtomSize z) (fun _ => sNames [a.toNat, b.toNat, d.toNat]) (fun _ => sNames [d.toNat]) fun r =>
    let ad := (sreg r a.toNat).toNat
    let n := atomBytes z.toNat
    let low (i : Nat) : Word := BitVec.ofNat 64 ((sreg r i).toNat % 2 ^ (8 * n))
    if ad % n != 0 then trap s r cAlign
    else withSlot s r (sendAtomic s r q
      (opOf r none .cas ad n (.cas n (low d.toNat) (low b.toNat)) (.sreg d.toNat n false)))

/-- range.next (R330). -/
def execRangeNext (d a b : BitVec 5) (s : State) : Host.Outcome State Fault Refusal :=
  issueUnit s (okRange d b) (fun _ => sNames [a.toNat]) (fun _ => sNames [d.toNat, b.toNat]) fun r =>
    let ad := (sreg r a.toNat).toNat
    if ad % 32 != 0 then trap s r cAlign
    else issueAccess s r 0 none .mobj ad 32 .range (.sreg2 d.toNat b.toNat) 4

end Sys2Proof.Machine
end

