-- ==== Sys2Proof/Machine/Wire.lean ====
section
/-! DEFINITION. Conversion on the wire (R228): what the sender's and the receiver's network interface make of the elements
of a payload, and the events of each. -/
namespace Sys2Proof.Machine

/-- Pairings of local and wire type (R239): the same type, or any floating-point type for a floating-point local type. -/
def wirePairing (lt wt : Nat) : Bool := lt == wt || (7 ≤ lt && 7 ≤ wt)

/-- Local types of a send and of a collective (R239, R344): i16, i32, i64, f16, bf16, f32, f64. -/
def wireLocal (lt : Nat) : Bool := [3, 4, 6, 7, 8, 9, 10].contains lt

/-- Elements of one scale block on the wire: 0 for a wire type without scales (R228). -/
def wireBlock (wt : Nat) : Nat := if wt = 11 ∨ wt = 12 then 128 else if 13 ≤ wt then 32 else 0

/-- One block with a scale (R222, R228) sent as local type lt and received as lr: each element's local bits after the wire,
with the sender's and the receiver's events. -/
def wireScaled (lt lr wt : Nat) (xs : List Nat) : List (Nat × Nat × Nat) :=
  match fmtOf lt, fmtOf wt, fmtOf 9 with
  | some kl, some kw, some f32 =>
    let back (s : FVal) (q ev : Nat) : Nat × Nat × Nat :=
      let r := fMul (kw.val q) s
      let (b, e) := convert lr true r.1 0 true 0
      (b, ev, e ||| r.2)
    if xs.any (isNanBits lt) then xs.map fun x => back (.nan false) 0 (if isNanBits lt x then evNV else 0)
    else
      let amax := xs.foldl (fun m x => max m (x % 2 ^ (kl.w - 1))) 0
      if amax = 0 then xs.map fun _ => back (.num false (.dy 1 0)) 0 0
      else
        let a := if amax = kl.infc then f32.val f32.maxc else kl.val amax
        let fmax := kw.val kw.maxc
        let lg (v : FVal) : Int := match v with
          | .num _ m => m.log2
          | _ => 0
        let s : FVal :=
          if kw.w = 8 then
            let c := (f32.convert (fDiv a fmax).1 0 true 0).1
            f32.val (if c = 0 then 1 else c)
          else .num false (.dy 1 (max (-127) (min 127 (lg a - lg fmax))))
        xs.map fun x =>
          if x % 2 ^ (kl.w - 1) = 0 then back s 0 0
          else
            let (q, ev) := kw.convert (fDiv (kl.val x) s).1 0 true 0
            back s q ev
  | _, _, _ => xs.map fun x => (x, 0, 0)

/-- Blocks of n elements. -/
def chunks (n : Nat) : Nat → List Nat → List (List Nat)
  | 0, _ => []
  | fuel + 1, xs => if xs.isEmpty then [] else xs.take n :: chunks n fuel (xs.drop n)

/-- A payload's elements of local type lt after the wire, as the local type lr of the receiver, with the sender's and the
receiver's events of each (R228). -/
def wireFromTo (lt lr wt : Nat) (xs : List Nat) : List (Nat × Nat × Nat) :=
  let b := wireBlock wt
  if b != 0 then (chunks b (xs.length / b + 1) xs).flatMap (wireScaled lt lr wt)
  else xs.map fun x =>
    let (q, ev) := if lt = wt then (x, 0) else convertBits wt lt x 0 true 0
    let (y, er) := if lr = wt then (q, 0) else convertBits lr wt q 0 true 0
    (y, ev, er)

/-- A payload's elements after the wire between equal local types (R228). -/
def wireTrip (lt wt : Nat) (xs : List Nat) : List (Nat × Nat × Nat) := wireFromTo lt lt wt xs

/-- Elements of w bits in bytes. -/
def elemsOf (n : Nat) : Nat → List Byte → List Nat
  | 0, _ => []
  | fuel + 1, bs => if bs.isEmpty then [] else ofBytes (bs.take n) :: elemsOf n fuel (bs.drop n)

end Sys2Proof.Machine
end

