-- ==== Sys2Proof/Machine/Sync.lean ====
section
/-! DEFINITION. Synchronisation (R331 to R340), tasks (R151, R312, R341 to R343) and send (R344), as the core issues
them. -/
namespace Sys2Proof.Machine

/-! ### fence and drain -/

/-- Completes a fence whose earlier accesses within its scope are complete (R76, R332), else the activation stalls. -/
def fenceDone (s : State) (a : Act) (scope : Nat) : State :=
  if fenceReady s a.uid scope then retire s a 4 else block s a (.fence scope)

def execFence (sc : BitVec 3) (s : State) : Host.Outcome State Fault Refusal :=
  issueUnit s (okScope sc) (fun _ => []) (fun _ => []) fun a => fenceDone s a sc.toNat

/-- Completes a drain whose path is clear (R51, R333), else the activation parks. -/
def drainDone (s : State) (a : Act) (p : Nat) : State :=
  if drainReady s a.uid p then retire s a 4 else block s a (.drain p)

def execDrain (p : BitVec 3) (s : State) : Host.Outcome State Fault Refusal :=
  issueUnit s (okPath p) (fun _ => []) (fun _ => []) fun a => drainDone s a p.toNat

/-! ### Arrivals, barriers, semaphores -/

/-- A message of an activation: it holds an operation slot until it is taken (R186); with a release it leaves once the
release takes effect (R73). -/
def messageOp (a : Act) (path : Option Nat) (rel : Option Nat) (pay : Pay) : Flight :=
  { opOf a path .mobj 0 0 pay .none with
    stage := match rel with
      | some sc => .relWait sc
      | none => .held }

/-- JV of a join target (R143). -/
def joinValid (t : Word) : Bool := wbit t 23

/-- An arrival in an activation's address space (R334). -/
def arriveOf (a : Act) (target : Word) (amount : Nat) : Arrive := ⟨target, amount, a.task.asid, a.task.gen⟩

/-- arrive (R334). -/
def execArrive (a : BitVec 5) (sc : BitVec 3) (m : BitVec 7) (rl : BitVec 1) (s : State) : Host.Outcome State Fault Refusal :=
  issueUnit s (okScope sc && okAmount m) (fun _ => sNames [a.toNat]) (fun _ => []) fun r =>
    let t := sreg r a.toNat &&& 0xFFFFFF
    if !joinValid t then retire s r 4
    else withSlot s r (issueOp (retire s r 4)
      (messageOp r none (if rl.toNat = 1 then some sc.toNat else none) (.arrival (arriveOf r t m.toNat))))

/-- bar.arrive (R335): a release, sent once a release at system scope would take effect. -/
def execBarArrive (d a : BitVec 5) (s : State) : Host.Outcome State Fault Refusal :=
  issueUnit s true (fun _ => sNames [a.toNat]) (fun _ => sNames [d.toNat]) fun r =>
    let ad := (sreg r a.toNat).toNat
    if ad % 32 != 0 then trap s r cAlign
    else withSlot s r (issueOp (retire s r 4)
      { opOf r none .mobj ad 32 (.barArrive none 0) (.phase d.toNat) with stage := .relWait 4 })

/-- The read or request of a waiting instruction that is still in flight, after a replay (R189). -/
def waitingFlight (s : State) (a : Act) (p : Dst → Bool) : Option Flight :=
  s.flights.find? fun f => f.uid = a.uid && p f.dst && f.pc = pcOf a

/-- bar.wait (R336): one memory-object request, then the activation parks until the phase differs. -/
def execBarWait (d a : BitVec 5) (s : State) : Host.Outcome State Fault Refusal :=
  issueUnit s true (fun _ => sNames [a.toNat, d.toNat]) (fun _ => []) fun r =>
    let ad := (sreg r a.toNat).toNat
    let p := sreg r d.toNat
    if ad % 32 != 0 then trap s r cAlign
    else match waitingFlight s r (fun x => x == .phase d.toNat) with
      | some f => block s r (.barrier f.id 0 p 4 false s.now d.toNat ad)
      | none => withSlot s r (issueOp (block s r (.barrier s.nextId 0 p 4 false s.now d.toNat ad))
          (opOf r none .mobj ad 32 (.barWait p) (.phase d.toNat)))

/-- sem.wait (R337). -/
def execSemWait (d : BitVec 5) (k : BitVec 4) (s : State) : Host.Outcome State Fault Refusal :=
  issueUnit s true (fun _ => []) (fun _ => sNames [d.toNat]) fun r =>
    let v : Int := Sys2Proof.Machine.mget (coreAt s (coreOf r)).sems k.toNat 0
    if v ≤ 0 ∧ ownSignal s r k.toNat = false then retire s (setS r d.toNat (BitVec.ofInt 64 v)) 4 else block s r (.sem k.toNat)

/-- Core of this package that a register names (R338). -/
def namedCore (a : Act) (w : Word) : Nat := coreKey (pkgOfCore (coreOf a)) (wfld w 8 3) (wfld w 0 8)

/-- The low 32 bits of a word as a signed number. -/
def int32 (w : Word) : Int := ((w.setWidth 32 : BitVec 32)).toInt

/-- sem.add (R338). -/
def execSemAdd (d a : BitVec 5) (sc : BitVec 3) (k : BitVec 4) (e : BitVec 1) (s : State) : Host.Outcome State Fault Refusal :=
  issueUnit s (okSem d sc e) (fun _ => sNames [a.toNat, d.toNat]) (fun _ => []) fun r =>
    let core := if e.toNat = 1 then coreOf r else namedCore r (sreg r d.toNat)
    withSlot s r (issueOp (retire s r 4)
      (messageOp r none (some sc.toNat) (.signal core k.toNat (int32 (sreg r a.toNat)) r.task.asid r.task.gen)))

/-! ### Slot ownership and rings -/

/-- Slot of an ownership instruction (R339). -/
def ownSlot (a : Act) (ra : BitVec 5) (n : BitVec 6) : Nat := ((sreg a ra.toNat).toNat + n.toNat) % 64

/-- Is a slot in the scratchpad region (R46)? -/
def scratchSlot (c : Core) (slot : Nat) : Bool := scratchRow c ≤ 8 * slot

/-- Sets a slot's owner, keeping its count. -/
def setOwner (s : State) (core slot : Nat) (eng : Bool) : State :=
  let c := coreAt s core
  setCore s core { c with slots := Sys2Proof.Machine.mset c.slots slot (eng, (Sys2Proof.Machine.mget c.slots slot (false, 0)).2) }

/-- own.give (R48, R339): waits for the activation's earlier accesses to the slot, then flips it to engine ownership. -/
def giveSlot (s : State) (a : Act) (slot : Nat) : State :=
  let core := coreOf a
  if engineOwned (coreAt s core) slot then trap s a cOwner
  else if !(poolHolds s a (4096 * slot) 4096 true).isEmpty then block s a (.ownGive slot)
  else retire (setOwner s core slot true) a 4

def execOwnGive (a : BitVec 5) (n : BitVec 6) (s : State) : Host.Outcome State Fault Refusal :=
  issueUnit s true (fun _ => sNames [a.toNat]) (fun _ => []) fun r =>
    let slot := ownSlot r a n
    if !scratchSlot (coreAt s (coreOf r)) slot then trap s r cPool else giveSlot s r slot

/-- own.take (R48, R339). -/
def execOwnTake (a : BitVec 5) (n : BitVec 6) (s : State) : Host.Outcome State Fault Refusal :=
  issueUnit s true (fun _ => sNames [a.toNat]) (fun _ => []) fun r =>
    let slot := ownSlot r a n
    let c := coreAt s (coreOf r)
    if !scratchSlot c slot then trap s r cPool
    else if !engineOwned c slot then retire s r 4
    else if (Sys2Proof.Machine.mget c.slots slot (false, 0)).2 = 0 then retire (setOwner s (coreOf r) slot false) r 4
    else block s r (.ownTake slot)

/-- own.wait (R48, R339). -/
def execOwnWait (a : BitVec 5) (n : BitVec 6) (s : State) : Host.Outcome State Fault Refusal :=
  issueUnit s true (fun _ => sNames [a.toNat]) (fun _ => []) fun r =>
    let slot := ownSlot r a n
    let c := coreAt s (coreOf r)
    if !scratchSlot c slot then trap s r cPool
    else if !engineOwned c slot then retire s r 4
    else block s r (.poolSlot slot true)

/-- Fields of a circular-buffer handle (R49). -/
def cbBase (w : Word) : Nat := wfld w 0 6
def cbLen (w : Word) : Nat := wfld w 6 5
def cbHead (w : Word) : Nat := wfld w 11 4
def cbTail (w : Word) : Nat := wfld w 15 4
def cbFill (w : Word) : Nat := wfld w 19 5
def cbValid (w : Word) : Bool := wbit w 24

/-- The trap cause of a handle and a count (R49, R50), none when a ring instruction may act. -/
def ringTrap (c : Core) (w : Word) (n : Nat) : Option Nat :=
  if !cbValid w then some cIllegal
  else if !scratchSlot c (cbBase w) then some cPool
  else if cbLen w < n then some cRing
  else none

/-- A ring instruction on handle h with n slots (R340). -/
def ringUnit (h : BitVec 3) (n : BitVec 4) (s : State) (k : Act → Word → Nat → State) : Host.Outcome State Fault Refusal :=
  issueUnit s true (fun _ => []) (fun _ => []) fun r =>
    let w := creg r h.toNat
    let m := n.toNat + 1
    match ringTrap (coreAt s (coreOf r)) w m with
    | some c => trap s r c
    | none => k r w m

/-- cb.wait and cb.room (R50): the condition holds, or the activation parks. -/
def ringWait (room : Bool) (h : BitVec 3) (n : BitVec 4) (s : State) : Host.Outcome State Fault Refusal :=
  ringUnit h n s fun r _ m =>
    if waitOver s { r with wait := .cb room h.toNat m } then retire s r 4 else block s r (.cb room h.toNat m)

def execCbWait (h : BitVec 3) (n : BitVec 4) (s : State) := ringWait false h n s
def execCbRoom (h : BitVec 3) (n : BitVec 4) (s : State) := ringWait true h n s

/-- A handle with n more filled slots, and one with n slots consumed (R50). -/
def cbPushed (w : Word) (n : Nat) : Word := putFld (putFld w 15 4 ((cbTail w + n) % cbLen w)) 19 5 (cbFill w + n)
def cbPopped (w : Word) (n : Nat) : Word := putFld (putFld w 11 4 ((cbHead w + n) % cbLen w)) 19 5 (cbFill w - n)

def execCbPush (h : BitVec 3) (n : BitVec 4) (s : State) : Host.Outcome State Fault Refusal :=
  ringUnit h n s fun r w m =>
    if cbLen w - cbFill w < m then trap s r cRing else retire s (setC r h.toNat (cbPushed w m)) 4
def execCbPop (h : BitVec 3) (n : BitVec 4) (s : State) : Host.Outcome State Fault Refusal :=
  ringUnit h n s fun r w m =>
    if cbFill w < m then trap s r cRing else retire s (setC r h.toNat (cbPopped w m)) 4

/-! ### Tasks -/

/-- The read of a record by a waiting instruction: the activation parks until it returns; after a replay it waits for
the read already in flight (R189). -/
def readAndPark (s : State) (a : Act) (ad n : Nat) (dst : Dst) : State :=
  match waitingFlight s a (fun x => x == dst) with
  | some f => block s a (.read f.id)
  | none => withSlot s a (issueOp (block s a (.read s.nextId)) (opOf a none .load ad n .load dst))

/-- spawn and spawng (R341): the descriptor's read; the check and the placement follow its reply. -/
def spawnUnit (gang : Bool) (a b : BitVec 5) (h : BitVec 1) (s : State) : Host.Outcome State Fault Refusal :=
  issueUnit s true (fun _ => sNames [a.toNat, b.toNat]) (fun _ => []) fun r =>
    let ad := (sreg r a.toNat).toNat
    if ad % 64 != 0 then trap s r cAlign
    else readAndPark s r ad 64 (.spawn gang (h.toNat = 1) (sreg r b.toNat))

def execSpawn (a b : BitVec 5) (h : BitVec 1) (s : State) := spawnUnit false a b h s
def execSpawng (a b : BitVec 5) (h : BitVec 1) (s : State) := spawnUnit true a b h s

/-- wtt.arm (R342): the arming record's read. -/
def execWttArm (a b : BitVec 5) (s : State) : Host.Outcome State Fault Refusal :=
  issueUnit s true (fun _ => sNames [a.toNat, b.toNat]) (fun _ => []) fun r =>
    let ad := (sreg r a.toNat).toNat
    if ad % 32 != 0 then trap s r cAlign
    else readAndPark s r ad 32 (.wttArm (wfld (sreg r b.toNat) 0 6))

/-- A waiting-task entry of a core. -/
def wttAt (c : Core) (e : Nat) : WttEntry := Sys2Proof.Machine.mget c.wtt e WttEntry.reset

/-- ArrivalAt of R160: an arrival at an entry of a core. -/
def arriveCore (ent : Nat) (c : Core) (m : Arrive) : Core :=
  let e := wttAt c ent
  let put (e : WttEntry) : Core := { c with wtt := Sys2Proof.Machine.mset c.wtt ent e }
  if e.st = .firing then put { e with held := e.held ++ [m] }
  else if e.st != .armed ∨ m.asid != e.asid ∨ m.gen != e.gen then { c with ovf := c.ovf + BitVec.ofNat 32 m.amount }
  else if e.count ≤ m.amount then
    { put { e with count := 0, st := .firing, step := if e.kind = 0 then 1 else 0, val := 0 } with
      ovf := c.ovf + BitVec.ofNat 32 (m.amount - e.count) }
  else put { e with count := e.count - m.amount }

/-- An entry leaves FIRING or FAULT in a new state, and the held arrivals are applied in order (R162). -/
def endFiring (c : Core) (ent : Nat) (e : WttEntry) : Core :=
  e.held.foldl (arriveCore ent) { c with wtt := Sys2Proof.Machine.mset c.wtt ent { e with held := [] } }

/-- wtt.disarm (R162, R343). -/
def execWttDisarm (d b : BitVec 5) (s : State) : Host.Outcome State Fault Refusal :=
  issueUnit s true (fun _ => sNames [b.toNat]) (fun _ => sNames [d.toNat]) fun r =>
    let ent := wfld (sreg r b.toNat) 0 6
    let core := coreOf r
    let c := coreAt s core
    let e := wttAt c ent
    let off (v : Nat) : State :=
      retire (setCore s core (endFiring c ent { e with st := .disarmed })) (setS r d.toNat (BitVec.ofNat 64 v)) 4
    match e.st with
    | .firing => block s r (.wttFiring ent)
    | .armed => off e.count
    | .fault => off 0
    | .disarmed => retire s (setS r d.toNat 0) 4

/-- Are the paths of an activation complete, its matrix commands performed, its close markers sent, its transaction ended (R151), and may
its arrival, or the one of its gang, take effect for it (R73, R158)? (DEDUCED, log 13) Its own-pool operations and the commands
that wait for the matrix unit, which are on no path, are complete too. -/
def doneReady (s : State) (a : Act) : Bool :=
  a.txn.isNone && (s.flights.all fun f => f.uid != a.uid || !f.pay.isTxnEnd && !f.isLocal && f.late.isNone) && (List.range 4).all (pathClear s a.uid) && (coreAt s (coreOf a)).matQ.all (fun m => m.uid != a.uid) &&
    a.closing.isEmpty && (!joinValid (nth a.task.words 1) || releaseReady s a.uid s.nextId a.cls.rscope)

/-- Steps 4 and 5 of R151, once its other steps are complete: the arrival goes out, and the resources are freed. The arrival of a gang is
its launch unit's (R158). -/
def finishDone (s : State) (a : Act) : State :=
  let s := match a.gang with
    | some g => { s with gangs := s.gangs.map fun x => if x.id = g then { x with members := x.members.filter fun m => m != a.uid } else x }
    | none =>
      let t := nth a.task.words 1
      if joinValid t then sendMsg s (dieOf a) (.arrival (arriveOf a t 1)) else s
  subCost (freeAct s a) (clusOfCore (coreOf a)) a.task.cost

/-- done once its activation has no open merge group (R151): a transaction ends when paths 1 to 3 are complete, and the activation when
everything else is. -/
def goDone (s : State) (a : Act) : State :=
  if a.txn.isSome && !txnPathsClear s a.uid then block s a .done
  else
    let s := endTxn s a false
    let b := { a with txn := none }
    if doneReady s b then finishDone s b else block s b .done

/-- done (R151): with an open merge group the activation is terminated; else its steps are taken as they become possible. -/
def doneStep (s : State) (a : Act) : State := if a.group.isSome then trap s a 0 else goDone s a

def execDone (s : State) : Host.Outcome State Fault Refusal :=
  issueUnit s true (fun _ => []) (fun _ => []) fun a => doneStep s a

/-! ### send -/

/-- LEN, local type and join target of a send's control word (R344). -/
def sendLen (w : Word) : Nat := wfld w 24 24
def sendLocal (w : Word) : Nat := wfld w 48 4

/-- Bytes, receiver's events and sender's events of a payload (R228). -/
def sendPayload (typed : Bool) (lt wt : Nat) (bs : List Byte) : List Byte × Option (Nat × List Nat) × List Nat :=
  if !typed then (bs, none, [])
  else
    let n := tWidth lt / 8
    let r := wireTrip lt wt (elemsOf n bs.length bs)
    (r.flatMap fun x => toBytes n x.1, some (n, r.map fun x => x.2.2), r.map fun x => x.2.1)

/-- An operation that reads bytes of the own pool (R328, R344, R394, R400): it reads them at its issue (DESIGN CHOICE, log 11), and stalls while one of
their slots is engine-owned (R47); held by earlier operations it issues, and reads them once they are done. -/
def lateUnit (s : State) (a : Act) (f : Flight) (ids : List Nat) (l : Late) (bytes : Nat × Nat) (k : State → State) : State :=
  if !ids.isEmpty then withSlot s a (issueOp (retire s a 4) { f with holds := ids, late := some l })
  else match ownedSlot s (coreOf a) bytes.1 bytes.2 with
    | some slot => block s a (.poolSlot slot false)
    | none => withSlot s a (k s)

/-- send (R344): the payload is read at issue, delivered as stores of path 3, and its arrival follows it (DESIGN CHOICE, log 11). -/
def execSend (d a b : BitVec 5) (w : BitVec 4) (rr : BitVec 1) (sc : BitVec 3) (y : BitVec 1) (s : State) :
    Host.Outcome State Fault Refusal :=
  issueUnit s (okSend w rr sc y) (fun _ => sNames [a.toNat, b.toNat, d.toNat]) (fun _ => []) fun r =>
    let ctl := sreg r d.toNat
    let src := wfld (sreg r a.toNat) 0 18
    let dst := (sreg r b.toNat).toNat
    let len := sendLen ctl
    let lt := sendLocal ctl
    let n := tWidth lt / 8
    let core := coreOf r
    if len = 0 ∨ 2 ^ 20 < len then trap s r cIllegal
    else if y.toNat = 1 && (!wireLocal lt || !wirePairing lt w.toNat || len % n != 0 || wfld (sreg r a.toNat) 0 18 % n != 0 ||
        dst % n != 0) then trap s r cIllegal
    else if !inScratch (coreAt s core) src len then trap s r cPool
    else
      let t := ctl &&& 0xFFFFFF
      let f := { opOf r (some 3) .store dst len (.store []) .none with
        after := if rr.toNat = 1 && joinValid t then some (arriveOf r t 1, sc.toNat) else none }
      lateUnit s r f (poolHolds s r src len false) (.send src len (y.toNat = 1) lt w.toNat) (src, len) fun s =>
        let p := sendPayload (y.toNat = 1) lt w.toNat (readBytes s.mem (pool core src) len)
        pump (launchFlight (retireEv s r 4 p.2.2) { f with pay := .store p.1, wire := p.2.1 }) r.uid

end Sys2Proof.Machine
end

