-- ==== Sys2Proof/Machine/Engine.lean ====
section
/-! DEFINITION. The accesses of a core's engines (R328, R374, R386, R387): reads and writes of an engine command in the
global, own-pool and gang-core space, tensor elements, and the accounting of a command's slots and events. -/
namespace Sys2Proof.Machine

/-- What an engine's access comes to: a result, a fault record, an error with its trap cause, or a wait for a slot. -/
inductive Io (α : Type) where
  | ok (x : α) (s : State)
  | fault (r : FRec) (s : State)
  | err (cause : Nat) (s : State)
  | wait

/-- The next access, when this one gave a result. -/
def Io.andThen {α β : Type} (x : Io α) (k : α → State → Io β) : Io β :=
  match x with
  | .ok v s => k v s
  | .fault r s => .fault r s
  | .err c s => .err c s
  | .wait => .wait

/-- One access after another over a list. -/
def ioFor {ι : Type} (step : ι → State → Io Unit) : List ι → State → Io Unit
  | [], s => .ok () s
  | i :: r, s => (step i s).andThen fun _ s => ioFor step r s

/-- Results collected over a list. -/
def ioMap {ι α : Type} (step : ι → State → Io α) : List ι → State → Io (List α)
  | [], s => .ok [] s
  | i :: r, s => (step i s).andThen fun v s => (ioMap step r s).andThen fun vs s => .ok (v :: vs) s

/-- Does another core's pool port admit a gang-core access of an address space (R52)? -/
def gangAdmits (s : State) (core asid gen p n : Nat) : Bool :=
  let c := coreAt s core
  wbit c.asid 20 && wfld c.asid 0 16 = asid && wfld c.asid 16 4 = gen && inScratch c p n

/-- An engine request of an operation (R9, R26). -/
def engReq (f : Flight) (acc : Acc) (va n : Nat) : Req := { f.req with acc := acc, va := va % 2 ^ 57, n := n }

/-- Places in storage of n bytes of a row: a global range by its translation. -/
def placesOf (s : State) (f : Flight) (acc : Acc) (row : Nat × Int) (n : Nat) : List (Nat × Nat) :=
  let core := flightCore f
  let ad := row.2.toNat
  if row.1 = 1 then [(pool core ad, n)]
  else if row.1 = 2 then [(pool (gangTarget core ad) (ad % 262144), n)]
  else
    (List.range (n / 65536 + 2)).filterMap fun i =>
      let va := if i = 0 then ad else (ad / 65536 + i) * 65536
      if ad + n ≤ va then none
      else
        let len := min (ad + n) ((va / 65536 + 1) * 65536) - va
        let q := engReq f acc va len
        match route s (dieKey q.src.pkg q.src.die) va with
        | none => none
        | some dk => match (translateNow s dk q).1 with
          | .ok loc leaf _ =>
            if leafAPER leaf = 1 then some (hbm (peerDie s dk leaf) (leafPa leaf (vaOff q.va)), len) else some (loc, len)
          | _ => none

/-- An engine's read of n bytes (R328, R387): own-pool bytes were judged before; a gang-core read waits for an
engine-owned slot; data with an uncorrectable error terminates the activation (R412). -/
def engRead (f : Flight) (space addr n : Nat) (s : State) : Io (List Byte) :=
  let core := flightCore f
  if space = 0 then
    if (placesOf s f .erd (0, (addr : Int)) n).any fun q => linesBad s q.1 q.2 then .err 0 s
    else match readNow s (engReq f .erd addr n) with
    | (.ok bs, t) => if t.held && !s.held then .wait else .ok bs t
    | (.fault r, s) => .fault r s
  else if space = 1 then .ok (readBytes s.mem (pool core addr) n) s
  else
    let c := gangTarget core addr
    let p := addr % 262144
    if c = core then .ok (readBytes s.mem (pool core p) n) s
    else if !gangAdmits s c f.req.asid f.req.gen p n then .err cPool s
    else if (ownedSlot s c p n).isSome then .wait
    else .ok (readBytes s.mem (pool c p) n) s

/-- An engine's write of bytes: a gang-core write to an engine-owned slot is an ownership error. -/
def engWrite (f : Flight) (space addr : Nat) (bs : List Byte) (s : State) : Io Unit :=
  let core := flightCore f
  if space = 0 then
    match writeNow s (engReq f .ewr addr bs.length) bs with
    | (.ok _, t) => if t.held && !s.held then .wait else .ok () t
    | (.fault r, s) => .fault r s
  else if space = 1 then .ok () { s with mem := writeBytes s.mem (pool core addr) bs }
  else
    let c := gangTarget core addr
    let p := addr % 262144
    if c = core then .ok () { s with mem := writeBytes s.mem (pool core p) bs }
    else if !gangAdmits s c f.req.asid f.req.gen p bs.length then .err cPool s
    else if (ownedSlot s c p bs.length).isSome then .err cOwner s
    else .ok () { s with mem := writeBytes s.mem (pool c p) bs }

/-- Is an index inside the sizes of a descriptor? -/
def insideDesc (d : DReg) (x : Idx) : Bool :=
  x.1 < dSize d 0 && x.2.1 < dSize d 1 && x.2.2.1 < dSize d 2 && x.2.2.2.1 < dSize d 3 && x.2.2.2.2 < dSize d 4

/-- The bits of an element, read by an engine. -/
def readElem (f : Flight) (d : DReg) (x : Idx) (s : State) : Io Nat :=
  (ioMap (fun p => engRead f (dSpace d) p.1 p.2) (elemPieces d x) s).andThen fun bs s =>
    .ok (fld (ofBytes bs.flatten) (elemBit d x % 8) (tWidth (dEtype d))) s

/-- Writes bytes as a number over pieces in order. -/
def writePieces (f : Flight) (space v : Nat) : List (Nat × Nat) → State → Io Unit
  | [], s => .ok () s
  | p :: r, s => (engWrite f space p.1 (toBytes p.2 v) s).andThen fun _ s => writePieces f space (v / 2 ^ (8 * p.2)) r s

/-- An element written by an engine. Of a 4- or 6-bit element only its bits change: with its whole group written by the command no byte
is read (R346); a group written in part is read first and written back (R383). -/
def writeElem (f : Flight) (d : DReg) (x : Idx) (v : Nat) (whole : Bool) (s : State) : Io Unit :=
  let w := tWidth (dEtype d)
  let bit := elemBit d x % 8
  let ps := elemPieces d x
  let put (bs : List Byte) (s : State) : Io Unit :=
    let old := ofBytes bs
    writePieces f (dSpace d) (old - fld old bit w * 2 ^ bit + v % 2 ^ w * 2 ^ bit) ps s
  if w % 8 = 0 then writePieces f (dSpace d) v ps s
  else if whole then
    put (ps.flatMap fun p => (placesOf s f .ewr (dSpace d, (p.1 : Int)) p.2).flatMap fun q => readBytes s.mem q.1 q.2) s
  else (ioMap (fun p => engRead f (dSpace d) p.1 p.2) ps s).andThen fun bs s => put bs.flatten s

/-- Every index of a descriptor's tile. -/
def allIdx (d : DReg) : List Idx :=
  (outerIndices d).flatMap fun o => (List.range (dSize d 0)).map fun i0 => (i0, o.1, o.2.1, o.2.2.1, o.2.2.2)

/-! ### Slots and events of a command -/

/-- Events of a command are counted on its core and charged to its activation, or, when that no longer runs, to its class
by the interrupt (R227, R386). -/
def chargeEvents (s : State) (core uid cls pc : Nat) (evs : List Nat) : State :=
  match actByUid s uid with
  | some a =>
    let a' := addSticky a (unionEv evs)
    let s := keepCtl (putAct s a') a'
    let (s, hit) := countEvents s core cls a.cls.xtrap evs
    match actByUid s uid with
    | some a => if hit then trapAt s a pc cXs else s
    | none => s
  | none => (countEvents s core cls false evs).1

/-- The activation of a command that ends in an error is terminated, if it still runs (R387). -/
def errorTrap (s : State) (uid pc cause : Nat) : State :=
  match actByUid s uid with
  | some a => trapAt s a pc cause
  | none => s

/-- A command error (R387): counted in ERRS, and the activation is terminated; one that ends for data with an uncorrectable error, cause
0, is no error of the command (R412). -/
def commandError (s : State) (core uid pc cause : Nat) : State :=
  let c := coreAt s core
  errorTrap (if cause = 0 then s else setCore s core { c with errs := c.errs + 1 }) uid pc cause

/-- A completed operation leaves: its slot is free and held operations may go out. -/
def endOp (s : State) (f : Flight) : State := settle (dropFlight s f.id) f.uid

end Sys2Proof.Machine
end

