-- ==== Sys2Proof/Machine/Copy.lean ====
section
/-! DEFINITION. The copy engine and the gather and convert engines (R385 to R391, R58): the shadow set, queued commands,
their rows, their completion and their errors. -/
namespace Sys2Proof.Machine

/-! ### Commands of the queue -/

/-- A command of the copy engine's queue is checked and queued (R386, R387); the activation goes on as `next`. Behind tile copies it waits in the
queue, which is served in order; `ids` are the operations that its follow-on waits for (R328). -/
def queueCopy (s : State) (a next : Act) (sh : List Word) (follow : Option Follow) (ids : List Nat) : State :=
  let core := coreOf a
  if copyMalformed sh then trap s a cIllegal
  else match namedSlots s core sh false with
    | none => trap s a cPool
    | some slots =>
      let c := coreAt s core
      if 16 ≤ c.copyQ.length then block s a .copyRoom
      else withSlot s a <|
        let cmd : CopyCmd :=
          { id := s.nextId, uid := a.uid, kind := if follow.isSome then 1 else 0, shadow := sh, follow := follow, far := 0,
            pool := 0, org := 0, asid := a.task.asid, gen := a.task.gen, cls := classOf a, active := false, slots := slots }
        let s := countUp (retire s next 4) core slots
        issueOp (setCore s core { coreAt s core with copyQ := c.copyQ ++ [cmd] })
          { opOf a (some (copyPath sh)) .ewr 0 0 .command .none with holds := ids }

/-- The shadow set of an activation's core. -/
def shadowOf (s : State) (a : Act) : List Word := (coreAt s (coreOf a)).shadow

/-- eset (R389). -/
def execEset (a : BitVec 5) (n : BitVec 6) (s : State) : Host.Outcome State Fault Refusal :=
  issueUnit s (okEset n) (fun _ => sNames [a.toNat]) (fun _ => []) fun r =>
    let c := coreAt s (coreOf r)
    retire (setCore s (coreOf r) { c with shadow := lset c.shadow n.toNat (sreg r a.toNat) }) r 4

/-- ego (R389; DESIGN CHOICE, log 15). -/
def execEgo (s : State) : Host.Outcome State Fault Refusal :=
  issueUnit s true (fun _ => []) (fun _ => []) fun r => queueCopy s r r (shadowOf s r) none []

/-- The one-row command of cpy (R389). -/
def cpyShadow (src dst len : Word) (ss ds : Nat) : List Word :=
  [putFld src 57 7 ss, putFld dst 57 7 ds, BitVec.ofNat 64 (2 ^ 24 + len.toNat % 2 ^ 24), 0, 0, 0, 0]

/-- cpy (R389). -/
def execCpy (d a b : BitVec 5) (ds ss : BitVec 2) (s : State) : Host.Outcome State Fault Refusal :=
  issueUnit s (okCpy ds ss) (fun _ => sNames [a.toNat, b.toNat, d.toNat]) (fun _ => []) fun r =>
    let len := sreg r d.toNat
    if len = 0 ∨ 2 ^ 24 ≤ len.toNat then trap s r cIllegal
    else queueCopy s r r (cpyShadow (sreg r a.toNat) (sreg r b.toNat) len ss.toNat ds.toNat) none []

/-! ### Performing a copy -/

/-- Converts one element and numbers its draw (R215 to R217). -/
def copyElem (sh : List Word) (core base : Nat) (e x : Nat) : Nat × Nat :=
  convertBits (shDt sh) (shSt sh) x (shRm sh) (shSat sh) (drawAt core (base + e))

/-- One row of a copy written (R386): bytes moved, or converted element by element; the events raised. -/
def copyWrite (f : Flight) (sh : List Word) (bs : List Byte) (dst : Nat × Int) (s : State) : Io (List Nat) :=
  if !shEn sh then (engWrite f dst.1 dst.2.toNat bs s).andThen fun _ s => .ok [] s
  else
    let core := flightCore f
    let base := (coreAt s core).draws
    let xs := elemsOf (tBytes (shSt sh)) bs.length bs
    let ys := (xs.zipIdx).map fun x => copyElem sh core base x.2 x.1
    let s := useDraws s core (shRm sh) xs.length
    (engWrite f dst.1 dst.2.toNat (ys.flatMap fun y => toBytes (tBytes (shDt sh)) y.1) s).andThen fun _ s =>
      .ok (ys.map fun y => y.2) s

/-- One row of a copy read and written. -/
def copyRow (f : Flight) (sh : List Word) (src dst : Nat × Int) (s : State) : Io (List Nat) :=
  (engRead f src.1 src.2.toNat (shLen sh) s).andThen fun bs s => copyWrite f sh bs dst s

/-- Do places of a command's source and of its destination meet? -/
def overlaps (src dst : List (Nat × Nat)) : Bool := dst.any fun d => src.any fun q => meets q.1 q.2 d.1 d.2

/-- The bytes of a command's destination that are also source bytes hold free values (R386; DESIGN CHOICE, log 3). -/
def freeOverlap (s : State) (src dst : List (Nat × Nat)) : State :=
  let hit (x : Nat) : Bool := src.any fun q => q.1 ≤ x && x < q.1 + q.2
  if overlaps src dst then
    let e := s.fresh + 1
    let xs := (dst.flatMap fun d => span d.1 d.2).filter hit
    { s with fresh := e, mem := xs.foldl (fun m x => writeBytes m x [Config.freeByte e x]) s.mem }
  else s

/-- All rows of a copy with their events (R386). Where source and destination overlap, the rows are read before one is written, so that every
byte but those of the overlap is exact; these hold free values. -/
def performCopy (f : Flight) (sh : List Word) (idx : Option (List Nat)) (s : State) : Io (List Nat) :=
  let core := flightCore f
  let src := srcRows core sh idx
  let dst := dstRows core sh
  let ps := src.flatMap fun r => placesOf s f .erd r (shLen sh)
  let pd := dst.flatMap fun r => placesOf s f .ewr r (shDstLen sh)
  (if overlaps ps pd then
    (ioMap (fun r => engRead f r.1 r.2.toNat (shLen sh)) src s).andThen fun rows s =>
      ioMap (fun r => copyWrite f sh r.1 r.2) (rows.zip dst) s
   else ioMap (fun r => copyRow f sh r.1 r.2) (src.zip dst) s).andThen fun evs s => .ok evs.flatten (freeOverlap s ps pd)

/-- One element of tld or tst (R328). By R55 and the origin's alignment the elements that share its bytes are copied too. -/
def tileElemCopy (f : Flight) (c : CopyCmd) (x : Idx) (s : State) : Io Unit :=
  let j : Idx := (org0 c.org + x.1, org1 c.org + x.2.1, x.2.2.1, x.2.2.2.1, x.2.2.2.2)
  let inside := insideDesc c.far j
  let t := dEtype c.pool
  let whole := groupBelow t x.1 (dSize c.pool 0)
  if c.kind = 2 then
    if inside then (readElem f c.far j s).andThen fun v s => writeElem f c.pool x v whole s else writeElem f c.pool x 0 whole s
  else if inside then
    (readElem f c.pool x s).andThen fun v s => writeElem f c.far j v (whole && groupBelow t j.1 (dSize c.far 0)) s
  else .ok () s

/-- What a command of the copy engine does, with the events it raises. -/
def performCommand (f : Flight) (c : CopyCmd) (s : State) : Io (List Nat) :=
  if c.kind < 2 then performCopy f c.shadow none s
  else (ioFor (tileElemCopy f c) (allIdx c.pool) s).andThen fun _ s => .ok [] s

/-- The arrival of a completed command (R386): a release at its scope. -/
def sendJoin (s : State) (f : Flight) (sh : List Word) : State :=
  if joinValid (shJoin sh) then
    launchFlight s { message (dkOfCore (flightCore f)) (.arrival ⟨shJoin sh, 1, f.req.asid, f.req.gen⟩) with
      uid := f.uid, stage := .relWait (shScope sh) }
  else s

/-- The first command leaves the copy engine's queue. -/
def popCopy (s : State) (core : Nat) : State :=
  let c := coreAt s core
  setCore s core { c with copyQ := c.copyQ.drop 1 }

/-- The first command is changed. -/
def setHead (s : State) (core : Nat) (cmd : CopyCmd) : State :=
  let c := coreAt s core
  setCore s core { c with copyQ := cmd :: c.copyQ.drop 1 }

/-- A command ends in an error (R387, R328): its slots are counted down, its operation ends, its activation is
terminated. -/
def copyError (s : State) (core : Nat) (c : CopyCmd) (f : Flight) (cause : Nat) : State :=
  let s := countDown (popCopy s core) core c.slots
  let s := dropFlight s f.id
  if c.kind < 2 then commandError s core f.uid f.pc cause else errorTrap s f.uid f.pc cause

/-- A command becomes active (R48): its named slots must be engine-owned. A command whose operation was discarded leaves
the queue (DEDUCED, log 14). -/
def execCopyCommandStart (core : Nat) (s : State) : Host.Outcome State Fault Refusal :=
  match (coreAt s core).copyQ with
  | [] => .next s
  | c :: _ =>
    match flightById s c.id with
    | none => .next (countDown (popCopy s core) core c.slots)
    | some f =>
      if c.active ∨ f.stage != .sent then .next s
      else if c.kind < 2 && c.slots.any fun k => !engineOwned (coreAt s core) k then .next (copyError s core c f cOwner)
      else .next (setHead s core { c with active := true })

/-! ### Gather and convert -/

/-- Are the source and the destination of a bcvt the same bytes with equal strides (R391)? Reserved bits of the words do not count. -/
def inPlace (sh : List Word) : Bool :=
  wfld (nth sh 0) 0 59 == wfld (nth sh 1) 0 59 && nth sh 3 == nth sh 4

/-- What a gather or convert waits for where it writes pools of gang cores (R328). -/
def farHolds (s : State) (a : Act) (sh : List Word) : List Nat :=
  ((dstRows (coreOf a) sh).filter fun r => r.1 = 2).flatMap fun r =>
    portHolds s a (gangCore a r.2.toNat) (r.2.toNat % 262144) (shDstLen sh)

/-- Queues a bgath or bcvt as an operation that goes to the owner of its source (R391), once tile copies on its bytes are done (R328). -/
def queuePlinth (s : State) (a : Act) (gather : Bool) (list : Nat) : State :=
  let core := coreOf a
  let sh := shadowOf s a
  if copyMalformed sh || shSpace (nth sh 0) != 0 || (!gather && !shEn sh) ||
      (!gather && inPlace sh && tBytes (shSt sh) < tBytes (shDt sh)) then trap s a cIllegal
  else if gather && list % 4 != 0 then trap s a cAlign
  else match namedSlots s core sh gather with
    | none => trap s a cPool
    | some slots =>
      withSlot s a <|
        issueOp (countUp (retire s a 4) core slots)
          { opOf a (some (copyPath sh)) .ewr (shAddr (nth sh 0)) 0 (.plinth gather sh list []) .none with
            holds := (slots.flatMap fun k => poolHolds s a (4096 * k) 4096 true) ++ farHolds s a sh }

/-- bgath (R391). -/
def execBgath (a : BitVec 5) (s : State) : Host.Outcome State Fault Refusal :=
  issueUnit s true (fun _ => sNames [a.toNat]) (fun _ => []) fun r => queuePlinth s r true (sreg r a.toNat).toNat

/-- bcvt (R391). -/
def execBcvt (s : State) : Host.Outcome State Fault Refusal :=
  issueUnit s true (fun _ => []) (fun _ => []) fun r => queuePlinth s r false 0

/-- A gather or convert that ends in a command error (R387). -/
def plinthError (s : State) (f : Flight) (sh : List Word) (gather : Bool) (cause : Nat) : State :=
  let core := flightCore f
  let s := countDown s core (plinthSlots s f sh gather)
  commandError (dropFlight s f.id) core f.uid f.pc cause

/-- Commands that a die's gather or convert engines hold (R58): 32 for each kind. -/
def plinthLoad (s : State) (dk : Nat) (gather : Bool) : Nat :=
  (s.flights.filter fun f => f.unit = dk && f.stage == .waiting && (match f.pay with
    | .plinth g _ _ _ => g == gather
    | _ => false)).length

/-- Is an operation a gather, or a convert, of the same kind as another from the same core? -/
def sameEngine (f g : Flight) : Bool := match f.pay, g.pay with
  | .plinth x _ _ _, .plinth y _ _ _ => x == y && flightCore f == flightCore g
  | _, _ => false

/-- Is an earlier command of the same core and kind still on its way to the same die? The control plane keeps their order (R87). -/
def plinthOvertakes (s : State) (f : Flight) (dk : Nat) : Bool :=
  s.flights.any fun g => sameEngine f g && sentBefore g f && g.stage == .sent &&
    route s (dieKey g.req.src.pkg g.req.src.die) g.req.va == some dk

def Pay.isPlinth : Pay → Bool
  | .plinth .. => true
  | _ => false

/-- A fault of a gather or convert that its issuing die finds (R8). -/
def plinthFault (s : State) (f : Flight) (kind : Nat) : State :=
  let src := dieKey f.req.src.pkg f.req.src.die
  let (r, s) := raiseFault s src (engReq f .erd f.req.va 0) kind 0 f.req.va 0
  setFlight s { f with stage := .nack r }

/-- A bgath or bcvt arrives at the owner die of its source and is divided among its Plinth engines (R58); its slots are
judged. `done` keeps its place in the engines' queues. -/
def execPlinthCommand (id : Nat) (s : State) : Host.Outcome State Fault Refusal :=
  match flightById s id with
  | some f =>
    match f.pay with
    | .plinth g sh l _ =>
      if f.stage != .sent then .next s
      else
        let src := dieKey f.req.src.pkg f.req.src.die
        match route s src (shAddr (nth sh 0)) with
        | none => .next (plinthFault s f 0x0D)
        | some dk =>
          if !pathTo s src dk then .next (plinthFault s f 0x0E)
          else if (dieAt s dk).failed then .next s
          else if 32 ≤ plinthLoad s dk g || plinthOvertakes s f dk then .next s
          else if (plinthSlots s f sh g).any fun k => !engineOwned (coreAt s (flightCore f)) k then
            .next (plinthError s f sh g cOwner)
          else
            .next { setFlight s { f with
                stage := .waiting, unit := dk, pay := .plinth g sh l [0, 1, 2], wire := some (0, []), done := s.nextId } with
              nextId := s.nextId + 1 }
    | _ => .next s
  | none => .next s

/-- A source address of a gather or convert at its owner (R391): the stack that holds its granule (R57), or its fault;
an aperture other than 0 refuses the part. -/
def plinthStack (f : Flight) (ad n : Nat) (s : State) : Io Nat :=
  let q := engReq f .erd ad n
  let src := dieKey q.src.pkg q.src.die
  match route s src q.va with
  | none =>
    let (r, s) := raiseFault s src q 0x0D 0 q.va 0
    .fault r s
  | some dk =>
    if !pathTo s src dk then
      let (r, s) := raiseFault s src q 0x0E 0 q.va 0
      .fault r s
    else match translateNow s dk q with
    | (.fault r, s) => .fault r s
    | (.miss, s) =>
      let (r, s) := raiseFault s dk q 0x01 4 q.va 0
      .fault r s
    | (.ok loc leaf _, s) =>
      if leafAPER leaf != 0 then
        let (r, s) := raiseFault s dk q 0x10 0 q.va leaf
        .fault r s
      else .ok (regionOff loc / 256 % 3) s

/-- The stack of n source bytes, which may run into a second page: both pages are judged. -/
def plinthRange (f : Flight) (ad n : Nat) (s : State) : Io Nat :=
  (plinthStack f ad n s).andThen fun k s =>
    if ad % 65536 + n ≤ 65536 then .ok k s else (plinthStack f (ad + n - 1) 1 s).andThen fun _ s => .ok k s

/-- The units of a row that parts divide among themselves: source offset, bytes, destination offset; granule runs, or
elements. -/
def rowUnits (sh : List Word) (src : Nat) : List (Nat × Nat × Nat) :=
  if shEn sh then
    (List.range (shLen sh / tBytes (shSt sh))).map fun e => (e * tBytes (shSt sh), tBytes (shSt sh), e * tBytes (shDt sh))
  else
    let first := 256 - src % 256
    (List.range ((src % 256 + shLen sh + 255) / 256)).map fun k =>
      let o := if k = 0 then 0 else first + 256 * (k - 1)
      (o, min (shLen sh) (first + 256 * k) - o, o)

/-- One unit of one part: bytes whose granule lies in the part's stack are moved or converted. -/
def plinthUnit (f : Flight) (sh : List Word) (stack : Nat) (src dst : Nat × Int) (u : Nat × Nat × Nat) (s : State) :
    Io (List Nat) :=
  let ad := src.2.toNat + u.1
  (plinthRange f ad u.2.1 s).andThen fun k s =>
    if k != stack then .ok [] s
    else (engRead f 0 ad u.2.1 s).andThen fun bs s =>
      let core := flightCore f
      if !shEn sh then (engWrite f dst.1 (dst.2.toNat + u.2.2) bs s).andThen fun _ s => .ok [] s
      else
        let (y, ev) := copyElem sh core (coreAt s core).draws 0 (ofBytes bs)
        let s := useDraws s core (shRm sh) 1
        (engWrite f dst.1 (dst.2.toNat + u.2.2) (toBytes (tBytes (shDt sh)) y) s).andThen fun _ s => .ok [ev] s

/-- The index list of a gather (R391). -/
def gatherList (f : Flight) (sh : List Word) (gather : Bool) (list : Nat) (s : State) : Io (Option (List Nat)) :=
  if gather then
    (engRead f 0 list (4 * shRows sh) s).andThen fun bs s => .ok (some (elemsOf 4 bs.length bs)) s
  else .ok none s

/-- A whole source row, its pages judged as its units are (R391). -/
def plinthRow (f : Flight) (sh : List Word) (r : Nat × Int) (s : State) : Io (List Byte) :=
  (ioFor (fun (u : Nat × Nat × Nat) s => (plinthRange f (r.2.toNat + u.1) u.2.1 s).andThen fun _ s => .ok () s)
    (rowUnits sh r.2.toNat) s).andThen fun _ s => engRead f 0 r.2.toNat (shLen sh) s

/-- One part of a gather or convert. Where source and destination overlap, the last part reads all rows before it writes one: a convert in
place is exact (R391), of another the bytes of the overlap hold free values (R386). -/
def plinthPart (f : Flight) (gather : Bool) (sh : List Word) (list : Nat) (parts : List Nat) (stack : Nat) (s : State) :
    Io (List Nat) :=
  let core := flightCore f
  (gatherList f sh gather list s).andThen fun idx s =>
    let src := srcRows core sh idx
    let dst := dstRows core sh
    let ps := src.flatMap fun r => placesOf s f .erd r (shLen sh)
    let pd := dst.flatMap fun r => placesOf s f .ewr r (shDstLen sh)
    let exact := !gather && inPlace sh
    if exact || overlaps ps pd then
      if 1 < parts.length then .ok [] s
      else
        (ioMap (plinthRow f sh) src s).andThen fun rows s =>
          (ioMap (fun r => copyWrite f sh r.1 r.2) (rows.zip dst) s).andThen fun evs s =>
            .ok evs.flatten (if exact then s else freeOverlap s ps pd)
    else
      (ioMap (fun r s => (ioMap (plinthUnit f sh stack r.1 r.2) (rowUnits sh r.1.2.toNat) s).andThen fun evs s =>
        .ok evs.flatten s) (src.zip dst) s).andThen fun evs s => .ok evs.flatten s

/-- Must a part wait for an earlier command of the same engine that names one of its slots (R80)? -/
def plinthWaits (s : State) (f : Flight) (stack : Nat) : Bool :=
  let slots (g : Flight) : List Nat := match g.pay with
    | .plinth k sh _ _ => plinthSlots s g sh k
    | _ => []
  s.flights.any fun g => sameEngine f g && g.unit = f.unit && g.stage == .waiting && g.done < f.done &&
    (match g.pay with
     | .plinth _ _ _ parts => parts.contains stack
     | _ => false) && (slots g).any (slots f).contains

/-- One part of a gather or convert completes (R58), in queue order behind a command of the engine that shares a slot (R80); the command completes with its last part: its slots are counted
down, its events counted, its arrival sent (DESIGN CHOICE, log 15). -/
def execPlinthPartComplete (id stack : Nat) (s : State) : Host.Outcome State Fault Refusal :=
  unlessUnitDown s id <|
  match flightById s id with
  | some f =>
    match f.pay with
    | .plinth g sh l parts =>
      if f.stage != .waiting ∨ !parts.contains stack ∨ plinthWaits s f stack then .next s
      else
        match plinthPart f g sh l parts stack s with
        | .wait => .next s
        | .fault r s => .next (setFlight s { f with stage := .nack r })
        | .err c s => .next (plinthError s f sh g c)
        | .ok evs s =>
          let evs := (f.wire.getD (0, [])).2 ++ evs
          let left := parts.filter fun k => k != stack
          if !left.isEmpty then .next (setFlight s { f with pay := .plinth g sh l left, wire := some (0, evs) })
          else
            let core := flightCore f
            let s := countDown s core (plinthSlots s f sh g)
            .next (endOp (sendJoin (chargeEvents s core f.uid f.cls f.pc evs) f sh) f)
    | _ => .next s
  | none => .next s

end Sys2Proof.Machine
end

