-- ==== Sys2Proof/Machine/Approx.lean ====
section
/-! DEFINITION. The approximate functions of R353: the exact value to 256 fraction bits, the bounds of the table, the
free value within them (Config.approx; DESIGN CHOICE, log 9), the exact results and the special operands. -/
namespace Sys2Proof.Machine

/-- π with 448 fraction bits, and the natural logarithm of 2 with 256. -/
def piFix : Nat := 0x3243f6a8885a308d313198a2e03707344a4093822299f31d0082efa98ec4e6c89452821e638d01377be5466cf34e90c6cc0ac29b7c97c50dd
def ln2Fix : Nat := 0xb17217f7d1cf79abc9e3b39803f2f6af40f343267298b62d8a0d175b8baafa2b

/-- ⌊m · 2^e · 2^p⌋. -/
def toFix (m : Nat) (e : Int) (p : Nat) : Nat :=
  let q := e + p
  if 0 ≤ q then m * 2 ^ q.toNat else m / 2 ^ (-q).toNat

/-- Product of fixed-point numbers with 256 fraction bits. -/
def fixMul (x y : Nat) : Nat := x * y / 2 ^ 256

/-- Sum of the series of e^x: the k-th and later terms, n of them. -/
def expSeries (x term k : Nat) : Nat → Nat
  | 0 => 0
  | n + 1 => term + expSeries x (fixMul term x / (k + 1)) (k + 1) n

/-- 2^f for a fixed-point f in [0, 1). -/
def fixExp2 (f : Nat) : Nat := expSeries (fixMul f ln2Fix) (2 ^ 256) 0 70

/-- Sum of y^(2i+1) / (2i+1), n terms. -/
def atanhSeries (y2 pow k : Nat) : Nat → Nat
  | 0 => 0
  | n + 1 => pow / k + atanhSeries y2 (fixMul pow y2) (k + 2) n

/-- log2 of a fixed-point x in [1, 2). -/
def fixLog2 (x : Nat) : Nat :=
  let y := (x - 2 ^ 256) * 2 ^ 256 / (x + 2 ^ 256)
  2 * atanhSeries (fixMul y y) y 1 90 * 2 ^ 256 / ln2Fix

/-- Alternating series of sine and cosine: terms x^k / k!, from k upward in steps of 2. -/
def trigSeries (x2 term k : Nat) (plus : Bool) : Nat → Int
  | 0 => 0
  | n + 1 => (if plus then (term : Int) else -(term : Int)) +
      trigSeries x2 (fixMul term x2 / ((k + 1) * (k + 2))) (k + 2) (!plus) n

/-- Sine and cosine of r in [0, π/2], fixed point. -/
def fixSin (r : Nat) : Int := trigSeries (fixMul r r) r 1 true 40
def fixCos (r : Nat) : Int := trigSeries (fixMul r r) (2 ^ 256) 0 true 40

/-- Quadrant and remainder (256 fraction bits) of a nonnegative m · 2^e. -/
def quadrant (m : Nat) (e : Int) : Nat × Nat :=
  let x := toFix m e 448
  let h := piFix / 2
  (x / h % 4, x % h / 2 ^ 192)

/-- A signed fixed-point number as an exact value. -/
def ofFix (x : Int) : FVal := .num (x < 0) (.dy x.natAbs (-256))

/-- 2^x for a signed fixed-point x. -/
def exp2Val (x : Int) : FVal :=
  let k := x / ((2 ^ 256 : Nat) : Int)
  let f := (x % ((2 ^ 256 : Nat) : Int)).toNat
  .num false (.dy (fixExp2 f) (k - 256))

/-- x as a signed fixed-point number, bounded by 2^12. -/
def signedFix (neg : Bool) (m : Nat) (e : Int) : Int :=
  let x : Int := if 12 < Nat.log2 m + e then ((2 ^ 268 : Nat) : Int) else (toFix m e 256 : Nat)
  if neg then -x else x

/-- e^x as a power of 2. -/
def expFix (x : Int) : FVal := exp2Val (x * ((2 ^ 256 : Nat) : Int) / (ln2Fix : Int))

/-- n / (n + d) with n, d exact dyadic values of one sign. -/
def ratio (n d : FVal) : FVal :=
  match n, d with
  | .num _ (.dy a ea), .num _ (.dy b eb) =>
    let e := min ea eb
    let x := a * 2 ^ (ea - e).toNat
    let y := b * 2 ^ (eb - e).toNat
    .num false (.dy (x * 2 ^ 512 / (x + y)) (-512))
  | _, _ => .nan false

/-- The exact value of a function (its V0 code, R353) at a finite nonzero operand of either sign, to 256 fraction bits or
more. -/
def approxExact (fn : Nat) (neg : Bool) (m : Nat) (e : Int) : FVal :=
  let one : FVal := .num false (.dy 1 0)
  let x := signedFix neg m e
  match fn with
  | 8 => .num neg (.dy (2 ^ 320 / m) (-320 - e))
  | 9 =>
    let m2 := if e % 2 = 0 then m else 2 * m
    let e2 := if e % 2 = 0 then e else e - 1
    .num false (.dy (isqrt (2 ^ 640 / m2)) (-320 - e2 / 2))
  | 10 => exp2Val x
  | 11 =>
    let k := Nat.log2 m
    let l := fixLog2 (toFix m (-(k : Int)) 256)
    ofFix ((e + k) * ((2 ^ 256 : Nat) : Int) + (l : Int))
  | 12 =>
    let y := expFix (2 * x.natAbs : Nat)
    match fAdd y one.neg 0, fAdd y one 0 with
    | (.num _ (.dy a ea), _), (.num _ (.dy b eb), _) =>
      let c := min ea eb
      .num neg (.dy (a * 2 ^ (ea - c).toNat * 2 ^ 400 / (b * 2 ^ (eb - c).toNat)) (-400))
    | _, _ => one
  | 13 => if x < 0 then ratio (expFix x) one else ratio one (expFix (-x))
  | 14 =>
    let (q, r) := quadrant m e
    let v := if q % 2 = 0 then fixSin r else fixCos r
    let v := if q < 2 then v else -v
    ofFix (if neg then -v else v)
  | _ =>
    let (q, r) := quadrant m e
    let v := if q % 2 = 0 then fixCos r else fixSin r
    ofFix (if q = 1 ∨ q = 2 then -v else v)

/-- Is |x − y| at most b, all dyadic? -/
def within (x y b : FVal) : Bool :=
  match (fAdd x y.neg 0).1, b with
  | .num _ (.dy m e), .num _ (.dy n f) =>
    let c := min e f
    m * 2 ^ (e - c).toNat ≤ n * 2 ^ (f - c).toNat
  | _, _ => false

/-- Is |x| below 2^p? -/
def belowPow (x : FVal) (p : Int) : Bool :=
  match x with
  | .num _ m => m.isZero || m.log2 < p
  | _ => false

/-- Is a mantissa a power of two? Is m · 2^e an integer? -/
def isPow2 (m : Nat) : Bool := m == 2 ^ Nat.log2 m
def isIntegral (m : Nat) (e : Int) : Bool := 0 ≤ e || m % 2 ^ (-e).toNat == 0

/-- The bound of the table of R353 around an exact value v: ulps of the destination format at v, or the absolute bound
where that is larger. -/
def approxBound (fn t : Nat) (k : Fmt) (neg : Bool) (m : Nat) (e : Int) (v : FVal) : FVal :=
  let lg : Int := match v with
    | .num _ x => if x.isZero then 1 - (k.bias : Int) else x.log2
    | _ => 0
  let q := max (lg - (k.mb : Int)) (1 - (k.bias : Int) - (k.mb : Int))
  let ulps (n : Nat) : FVal := .num false (.dy n q)
  let orAbs (p : Int) (n : Nat) : FVal := if p < q then ulps n else .num false (.dy (max (2 ^ (p - q).toNat) n) q)
  let a : FVal := .num neg (.dy m e)
  let pow (i : Int) : Bool := isPow2 m && Nat.log2 m + e == i
  if t != 9 ∨ fn = 8 ∨ fn = 9 then ulps 1
  else if fn = 10 then ulps 2
  else if fn = 11 then if belowPow a 1 && !belowPow a (-1) && !pow (-1) then orAbs (-22) 2 else ulps 2
  else if fn = 12 then if belowPow v (-4) then orAbs (-26) 3 else ulps 3
  else if fn = 13 then ulps 3
  else if belowPow a 16 || pow 16 then ulps 2
  else .num false (.dy 1 (-20))

/-- Ranges of R353: |sin|, |cos| and |tanh| at most 1, the sigmoid in [0, 1]. -/
def approxRange (fn : Nat) (v : FVal) : Bool :=
  match v with
  | .num neg x =>
    let le1 := x.isZero || x.log2 < 0 || (x.floorAt 0 == (1, true))
    if fn = 13 then (!neg || x.isZero) && le1 else if fn = 12 ∨ fn = 14 ∨ fn = 15 then le1 else true
  | _ => false

/-- The value returned for a finite nonzero operand whose result is not exact: the implementation's own within the bound
and the range, else the exact value rounded to nearest. -/
def approxPick (fn t : Nat) (k : Fmt) (neg : Bool) (m : Nat) (e : Int) (bits : Nat) : Nat :=
  let v := approxExact fn neg m e
  let x := Config.approx fn t bits % 2 ^ k.w
  if approxRange fn (k.val x) && within (k.val x) v (approxBound fn t k neg m e v) then x
  else (k.convert v 0 true 0).1

/-- Results of R353 at a finite nonzero operand: sine and tanh are odd, cosine even. A reciprocal beyond the largest
finite value is that value or infinity (DESIGN CHOICE, log 9). -/
def approxFinite (fn t : Nat) (k : Fmt) (neg : Bool) (m : Nat) (e : Int) : Nat × Nat :=
  let top : Int := match k.val k.maxc with
    | .num _ x => x.log2
    | _ => 0
  let tiny : Int := 1 - (k.bias : Int) - (k.mb : Int)
  let code (n : Bool) : Nat := (k.convert (.num n (.dy m e)) 0 true 0).1
  let lg : Int := Nat.log2 m + e
  if (fn = 9 ∨ fn = 11) ∧ neg then (k.nanc, evNV ||| evNP)
  else if fn = 10 then
    let x := signedFix neg m e
    let one : Int := ((2 ^ 256 : Nat) : Int)
    if (top + 1) * one ≤ x then (k.infc, evOF ||| evNX)
    else if x < tiny * one then (0, evUF ||| evNX)
    else if isIntegral m e then k.convert (.num false (.dy 1 (x / one))) 0 true 0
    else (approxPick fn t k neg m e (code neg), evNX)
  else if fn = 11 ∧ isPow2 m then k.convert (.num (lg < 0) (.dy lg.natAbs 0)) 0 true 0
  else if fn = 12 ∨ fn = 14 then (k.signed neg 0 ^^^ approxPick fn t k false m e (code false), evNX)
  else if fn = 15 then (approxPick fn t k false m e (code false), evNX)
  else if fn = 8 ∧ top < -lg ∧ !(isPow2 m && -lg = top) ∧ !(!isPow2 m && -lg = top + 1) then
    if Config.approx fn t (code neg) % 2 = 0 then (k.signed neg k.infc, evOF ||| evNX) else (k.signed neg k.maxc, evNX)
  else (approxPick fn t k neg m e (code neg), evNX)

/-- An approximate function of R353 (its V0 code) at bits of type t: result bits and events. -/
def approxFn (fn t bits : Nat) : Nat × Nat :=
  match fmtOf t with
  | none => (0, 0)
  | some k =>
    let one := (k.convert (.num false (.dy 1 0)) 0 true 0).1
    match k.val bits with
    | .nan sig => (k.nanc, evNP ||| (if sig then evNV else 0))
    | .inf neg =>
      if fn = 8 then (k.signed neg 0, 0)
      else if fn = 9 ∨ fn = 11 then if neg then (k.nanc, evNV ||| evNP) else (if fn = 9 then 0 else k.infc, 0)
      else if fn = 10 then (if neg then 0 else k.infc, 0)
      else if fn = 12 then (k.signed neg one, 0)
      else if fn = 13 then (if neg then 0 else one, 0)
      else (k.nanc, evNV ||| evNP)
    | .num neg (.dy m e) =>
      if m != 0 then approxFinite fn t k neg m e
      else if fn = 8 ∨ fn = 9 then (k.signed neg k.infc, evDZ)
      else if fn = 10 ∨ fn = 15 then (one, 0)
      else if fn = 11 then (k.signed true k.infc, evDZ)
      else if fn = 13 then ((k.convert (.num false (.dy 1 (-1))) 0 true 0).1, 0)
      else (k.signed neg 0, 0)
    | .num _ _ => (0, 0)

end Sys2Proof.Machine
end

