-- ==== Sys2Proof/Machine/Vector.lean ====
section
/-! DEFINITION. Vector and mask instructions (R347 to R370). Each instruction is a unit that takes its VX prefix (R262)
as an argument: the default of R262 without one, the fields of the prefix when it is governed (R265). -/
namespace Sys2Proof.Machine

/-- The fields of a VX prefix with the unit's length: 4 without a prefix, 8 with one (R262, R265). -/
structure Pfx where
  mask : Nat
  z : Bool
  rnd : Nat
  vc : Nat
  vcv : Bool
  sat : Bool
  len : Nat
  deriving DecidableEq, Repr

/-- Without a prefix (R262). -/
def noPfx : Pfx := ⟨0, false, 6, 0, false, true, 4⟩

/-- Is lane i active under a prefix's mask (R347)? -/
def active (a : Act) (p : Pfx) (i : Nat) : Bool := (mreg a p.mask).getLsbD i

/-- Lane i of vector register v as type t. -/
def laneOf (s : State) (a : Act) (t v i : Nat) : Nat := lane (tWidth t) (vreg s a v) i

/-- A vector unit: legal by its fields, its vector and scalar sources awaited (R350), its destinations held until
pending replies are written. A prefix with vcv set is legal only where a fourth operand is taken. -/
def vecUnit (p : Pfx) (legal vcOk : Bool) (vs : List Nat) (ss : List Nat) (vd sd : List Nat) (s : State)
    (k : Act → State) : Host.Outcome State Fault Refusal :=
  issueUnit s (legal && p.rnd != 7 && (vcOk || !p.vcv))
    (fun a => vNames a (if p.vcv then p.vc :: vs else vs) ++ sNames ss) (fun a => vNames a vd ++ sNames sd) k

/-- The element-wise rule of R347 over n lanes of type t: f gives result and events of an active lane from its number
and a draw; lanes from n to L − 1 are inactive. -/
def elemwise (s : State) (a : Act) (p : Pfx) (t n d : Nat) (f : Nat → Nat → Nat × Nat) : State :=
  let core := coreOf a
  let w := tWidth t
  let old := vreg s a d
  let base := (coreAt s core).draws
  let rs := (List.range (tLanes t)).map fun i =>
    if i < n && active a p i then (true, f i (drawAt core (base + i)))
    else (false, (if p.z then 0 else lane w old i, 0))
  let s := useDraws s core (roundMode a p.rnd) (tLanes t)
  let s := setV s a d (ofLanes w (rs.map fun r => r.2.1))
  retireEv s a p.len ((rs.filter fun r => r.1).map fun r => r.2.2)

/-- Low bits of an exact integer, clamped with saturation or wrapped (R352). -/
def intRes (t : Nat) (sat : Bool) (x : Int) : Nat × Nat :=
  intConvert t false (.num (x < 0) (.dy x.natAbs 0)) 0 sat 0

/-- A floating-point lane operation of R351 on exact values. -/
def fpLane (t : Nat) (r : FVal × Nat) (ops : List FVal) (mode : Nat) (sat : Bool) (u : Nat) : Nat × Nat :=
  match fmtOf t with
  | some k => fResult k r ops mode sat u
  | none => (0, 0)

/-- Two-source lane arithmetic (R351, R352): by the exact floating-point operation or the exact integer one. -/
def arith2 (t : Nat) (fop : FVal → FVal → Nat → FVal × Nat) (iop : Int → Int → Int) (mode : Nat) (sat : Bool)
    (x y u : Nat) : Nat × Nat :=
  if tIsInt t then intRes t sat (iop (intVal t x) (intVal t y))
  else fpLane t (fop (valOf t x) (valOf t y) mode) [valOf t x, valOf t y] mode sat u

/-- A lane-wise unit of two vector sources. -/
def vec2 (p : Pfx) (legal : Bool) (d a b : BitVec 5) (t : BitVec 4) (f : Act → Nat → Nat → Nat → Nat × Nat) (s : State) :
    Host.Outcome State Fault Refusal :=
  vecUnit p legal false [a.toNat, b.toNat] [] [d.toNat] [] s fun r =>
    let ty := t.toNat
    let x := vreg s r a.toNat
    let y := vreg s r b.toNat
    elemwise s r p ty (tLanes ty) d.toNat fun i u => f r (lane (tWidth ty) x i) (lane (tWidth ty) y i) u

/-- A lane-wise unit of one vector source. -/
def vec1 (p : Pfx) (legal : Bool) (d a : BitVec 5) (t : BitVec 4) (f : Act → Nat → Nat → Nat × Nat) (s : State) :
    Host.Outcome State Fault Refusal :=
  vecUnit p legal false [a.toNat] [] [d.toNat] [] s fun r =>
    let ty := t.toNat
    let x := vreg s r a.toNat
    elemwise s r p ty (tLanes ty) d.toNat fun i u => f r (lane (tWidth ty) x i) u

def vaddUnit (p : Pfx) (d a b : BitVec 5) (t : BitVec 4) (s : State) :=
  vec2 p (okAI t) d a b t (fun r x y u => arith2 t.toNat fAdd (· + ·) (roundMode r p.rnd) p.sat x y u) s
def vsubUnit (p : Pfx) (d a b : BitVec 5) (t : BitVec 4) (s : State) :=
  vec2 p (okAI t) d a b t
    (fun r x y u => arith2 t.toNat (fun v w m => fAdd v w.neg m) (· - ·) (roundMode r p.rnd) p.sat x y u) s
def vmulUnit (p : Pfx) (d a b : BitVec 5) (t : BitVec 4) (s : State) :=
  vec2 p (okAI t) d a b t
    (fun r x y u => arith2 t.toNat (fun v w _ => fMul v w) (· * ·) (roundMode r p.rnd) p.sat x y u) s
def vdivUnit (p : Pfx) (d a b : BitVec 5) (t : BitVec 4) (s : State) :=
  vec2 p (okA t) d a b t
    (fun r x y u => arith2 t.toNat (fun v w _ => fDiv v w) (fun v _ => v) (roundMode r p.rnd) p.sat x y u) s

/-- The fma forms (R351): negp negates the product, negc the addend; the addend is vc with vcv, else the old vd. -/
def fmaUnit (p : Pfx) (negp negc : Bool) (d a b : BitVec 5) (t : BitVec 4) (s : State) :
    Host.Outcome State Fault Refusal :=
  vecUnit p (okAI t) true (if p.vcv then [a.toNat, b.toNat] else [a.toNat, b.toNat, d.toNat]) [] [d.toNat] [] s fun r =>
    let ty := t.toNat
    let w := tWidth ty
    let x := vreg s r a.toNat
    let y := vreg s r b.toNat
    let z := vreg s r (if p.vcv then p.vc else d.toNat)
    let mode := roundMode r p.rnd
    elemwise s r p ty (tLanes ty) d.toNat fun i u =>
      let (u1, u2, u3) := (lane w x i, lane w y i, lane w z i)
      if tIsInt ty then
        let pr := intVal ty u1 * intVal ty u2
        intRes ty p.sat ((if negp then -pr else pr) + (if negc then -intVal ty u3 else intVal ty u3))
      else
        let (v1, v2, v3) := (valOf ty u1, valOf ty u2, valOf ty u3)
        fpLane ty (fFma (if negp then v1.neg else v1) v2 (if negc then v3.neg else v3) mode) [v1, v2, v3] mode p.sat u

def vfmaUnit (p : Pfx) (d a b : BitVec 5) (t : BitVec 4) (s : State) := fmaUnit p false false d a b t s
def vfmsUnit (p : Pfx) (d a b : BitVec 5) (t : BitVec 4) (s : State) := fmaUnit p false true d a b t s
def vfnmaUnit (p : Pfx) (d a b : BitVec 5) (t : BitVec 4) (s : State) := fmaUnit p true false d a b t s

def vsqrtUnit (p : Pfx) (d a : BitVec 5) (t : BitVec 4) (s : State) :=
  vec1 p (okA t) d a t (fun r x u =>
    fpLane t.toNat (fSqrt (valOf t.toNat x)) [valOf t.toNat x] (roundMode r p.rnd) p.sat u) s

/-- An approximate function (R353): neither mode nor sat affects it. -/
def approxUnit (fn : Nat) (legal : Bool) (p : Pfx) (d a : BitVec 5) (t : BitVec 4) (s : State) :=
  vec1 p legal d a t (fun _ x _ => approxFn fn t.toNat x) s
def vrcpUnit (p : Pfx) (d a : BitVec 5) (t : BitVec 4) (s : State) := approxUnit 8 (okA t) p d a t s
def vrsqrtUnit (p : Pfx) (d a : BitVec 5) (t : BitVec 4) (s : State) := approxUnit 9 (okA t) p d a t s
def vexp2Unit (p : Pfx) (d a : BitVec 5) (t : BitVec 4) (s : State) := approxUnit 10 (okA32 t) p d a t s
def vlog2Unit (p : Pfx) (d a : BitVec 5) (t : BitVec 4) (s : State) := approxUnit 11 (okA32 t) p d a t s
def vtanhUnit (p : Pfx) (d a : BitVec 5) (t : BitVec 4) (s : State) := approxUnit 12 (okA32 t) p d a t s
def vsigmUnit (p : Pfx) (d a : BitVec 5) (t : BitVec 4) (s : State) := approxUnit 13 (okA32 t) p d a t s
def vsinUnit (p : Pfx) (d a : BitVec 5) (t : BitVec 4) (s : State) := approxUnit 14 (okA32 t) p d a t s
def vcosUnit (p : Pfx) (d a : BitVec 5) (t : BitVec 4) (s : State) := approxUnit 15 (okA32 t) p d a t s

def vminUnit (p : Pfx) (d a b : BitVec 5) (t : BitVec 4) (s : State) :=
  vec2 p (okAI t) d a b t (fun _ x y _ => minMax t.toNat false x y) s
def vmaxUnit (p : Pfx) (d a b : BitVec 5) (t : BitVec 4) (s : State) :=
  vec2 p (okAI t) d a b t (fun _ x y _ => minMax t.toNat true x y) s

/-- The sign bit of a lane. -/
def signBit (t : Nat) : Nat := 2 ^ (tWidth t - 1)

/-- vabs and vneg on type A change only the sign bit, and copy NaNs unchanged (R351). -/
def vabsUnit (p : Pfx) (d a : BitVec 5) (t : BitVec 4) (s : State) :=
  vec1 p (okAI t) d a t (fun _ x _ =>
    if tIsInt t.toNat then intRes t.toNat p.sat ((intVal t.toNat x).natAbs : Int)
    else (if isNanBits t.toNat x then x else x % signBit t.toNat, 0)) s
def vnegUnit (p : Pfx) (d a : BitVec 5) (t : BitVec 4) (s : State) :=
  vec1 p (okAI t) d a t (fun _ x _ =>
    if tIsInt t.toNat then intRes t.toNat p.sat (-intVal t.toNat x)
    else (if isNanBits t.toNat x then x else x ^^^ signBit t.toNat, 0)) s

def vandUnit (p : Pfx) (d a b : BitVec 5) (t : BitVec 4) (s : State) := vec2 p true d a b t (fun _ x y _ => (x &&& y, 0)) s
def vorUnit (p : Pfx) (d a b : BitVec 5) (t : BitVec 4) (s : State) := vec2 p true d a b t (fun _ x y _ => (x ||| y, 0)) s
def vxorUnit (p : Pfx) (d a b : BitVec 5) (t : BitVec 4) (s : State) := vec2 p true d a b t (fun _ x y _ => (x ^^^ y, 0)) s
def vnotUnit (p : Pfx) (d a : BitVec 5) (t : BitVec 4) (s : State) :=
  vec1 p true d a t (fun _ x _ => (2 ^ tWidth t.toNat - 1 - x, 0)) s
def vshlUnit (p : Pfx) (d a b : BitVec 5) (t : BitVec 4) (s : State) :=
  vec2 p (okI t) d a b t (fun _ x y _ => (x * 2 ^ (y % tWidth t.toNat) % 2 ^ tWidth t.toNat, 0)) s
def vshrUnit (p : Pfx) (d a b : BitVec 5) (t : BitVec 4) (s : State) :=
  vec2 p (okI t) d a b t (fun _ x y _ => (x / 2 ^ (y % tWidth t.toNat), 0)) s

/-- Arithmetic shift right of a w-bit value. -/
def sraNat (w x n : Nat) : Nat :=
  intBits w ((if 2 ^ (w - 1) ≤ x then (x : Int) - ((2 ^ w : Nat) : Int) else x) / ((2 ^ n : Nat) : Int))
def vsraUnit (p : Pfx) (d a b : BitVec 5) (t : BitVec 4) (s : State) :=
  vec2 p (okI t) d a b t (fun _ x y _ => (sraNat (tWidth t.toNat) x (y % tWidth t.toNat), 0)) s
def vpopcUnit (p : Pfx) (d a : BitVec 5) (t : BitVec 4) (s : State) :=
  vec1 p (okI t) d a t (fun _ x _ => (popNat x 64, 0)) s
def vclzUnit (p : Pfx) (d a : BitVec 5) (t : BitVec 4) (s : State) :=
  vec1 p (okI t) d a t (fun _ x _ => (clzNat (tWidth t.toNat) x, 0)) s

/-- vclmul (R355): the product of the even lanes of a pair fills both lanes of the pair. -/
def vclmulUnit (p : Pfx) (d a b : BitVec 5) (t : BitVec 4) (s : State) : Host.Outcome State Fault Refusal :=
  vecUnit p (okI t) false [a.toNat, b.toNat] [] [d.toNat] [] s fun r =>
    let w := tWidth t.toNat
    let x := vreg s r a.toNat
    let y := vreg s r b.toNat
    elemwise s r p t.toNat (tLanes t.toNat) d.toNat fun i _ =>
      let q := clmulNat (lane w x (i / 2 * 2)) (lane w y (i / 2 * 2)) w
      (if i % 2 = 0 then q % 2 ^ w else q / 2 ^ w, 0)

/-- A predicate of vcmp (R356) on two lanes: outcome and events. -/
def vCompare (t pred x y : Nat) : Bool × Nat :=
  let nan := isNanBits t x || isNanBits t y
  let sig := sigEv [valOf t x, valOf t y]
  let quiet := if tIsInt t then 0 else sig
  let loud := if nan then evNV else 0
  match pred with
  | 0 => (!nan && fEq t x y, quiet)
  | 1 => (nan || !fEq t x y, quiet)
  | 2 => (!nan && fLt t x y, loud)
  | 3 => (!nan && !fLt t y x, loud)
  | 4 => (!nan && fLt t y x, loud)
  | 5 => (!nan && !fLt t x y, loud)
  | _ => (nan, quiet)

/-- vcmp (R356): the predicate is the rnd field; bits at or above L are written 0. -/
def vcmpUnit (p : Pfx) (d : BitVec 3) (a b : BitVec 5) (t : BitVec 4) (s : State) : Host.Outcome State Fault Refusal :=
  let ty := t.toNat
  vecUnit p (okAI t && !(tIsInt ty && p.rnd = 6)) false [a.toNat, b.toNat] [] [] [] s fun r =>
    let w := tWidth ty
    let x := vreg s r a.toNat
    let y := vreg s r b.toNat
    let old := mreg r d.toNat
    let rs := (List.range (tLanes ty)).map fun i =>
      if active r p i then (true, vCompare ty p.rnd (lane w x i) (lane w y i))
      else (false, (if p.z then false else old.getLsbD i, 0))
    let m : MReg := BitVec.ofNat 1024 (ofLanes 1 (rs.map fun q => q.2.1.toNat))
    retireEv s (setM r d.toNat m) p.len ((rs.filter fun q => q.1).map fun q => q.2.2)

/-- vsel (R357): the prefix mask selects; every lane is written; Z is 0. -/
def vselUnit (p : Pfx) (d a b : BitVec 5) (t : BitVec 4) (s : State) : Host.Outcome State Fault Refusal :=
  vecUnit p (!p.z) false [a.toNat, b.toNat] [] [d.toNat] [] s fun r =>
    let w := tWidth t.toNat
    let x := vreg s r a.toNat
    let y := vreg s r b.toNat
    let rs := (List.range (tLanes t.toNat)).map fun i => if active r p i then lane w x i else lane w y i
    retire (setV s r d.toNat (ofLanes w rs)) r p.len

def vmovUnit (p : Pfx) (d a : BitVec 5) (t : BitVec 4) (s : State) := vec1 p true d a t (fun _ x _ => (x, 0)) s

def vbcastUnit (p : Pfx) (d a : BitVec 5) (t : BitVec 4) (s : State) : Host.Outcome State Fault Refusal :=
  vecUnit p true false [] [a.toNat] [d.toNat] [] s fun r =>
    elemwise s r p t.toNat (tLanes t.toNat) d.toNat fun _ _ => (fld (sreg r a.toNat).toNat 0 (tWidth t.toNat), 0)

/-- vins and vext (R358): mask 0 and Z 0. A 6-bit type writes bits [4095:4080] as zero (R208). -/
def vinsUnit (p : Pfx) (d a b : BitVec 5) (t : BitVec 4) (s : State) : Host.Outcome State Fault Refusal :=
  vecUnit p (p.mask = 0 && !p.z) false [d.toNat] [a.toNat, b.toNat] [d.toNat] [] s fun r =>
    let w := tWidth t.toNat
    let k := (sreg r b.toNat).toNat
    if k < tLanes t.toNat then
      let old := vreg s r d.toNat
      let x := fld (sreg r a.toNat).toNat 0 w
      let old := if w = 6 then old % 2 ^ 4080 else old
      retire (setV s r d.toNat (old - lane w old k * 2 ^ (w * k) + x * 2 ^ (w * k))) r p.len
    else retire s r p.len
def vextUnit (p : Pfx) (d a b : BitVec 5) (t : BitVec 4) (s : State) : Host.Outcome State Fault Refusal :=
  vecUnit p (p.mask = 0 && !p.z) false [a.toNat] [b.toNat] [] [d.toNat] s fun r =>
    let ty := t.toNat
    let k := (sreg r b.toNat).toNat
    let x := laneOf s r ty a.toNat k
    let v : Word := if tLanes ty ≤ k then 0
      else if tIsInt ty && tSigned ty then sextNat (tWidth ty) x else BitVec.ofNat 64 x
    retire s (setS r d.toNat v) p.len

/-- vcvt (R359): lanes from n upward are inactive. -/
def vcvtUnit (p : Pfx) (d a : BitVec 5) (st t : BitVec 4) (s : State) : Host.Outcome State Fault Refusal :=
  vecUnit p true false [a.toNat] [] [d.toNat] [] s fun r =>
    let x := vreg s r a.toNat
    let mode := roundMode r p.rnd
    elemwise s r p t.toNat (min (tLanes t.toNat) (tLanes st.toNat)) d.toNat fun i u =>
      convertBits t.toNat st.toNat (lane (tWidth st.toNat) x i) mode p.sat u

/-- Lanes of a quantisation block (R360): 128 for the 8-bit types, 32 for the others. -/
def blockLanes (t : Nat) : Nat := if tWidth t = 8 then 128 else 32

/-- vquant (R360): scales in S[sb], elements in lanes 0 to 127, lanes above written 0. -/
def vquantUnit (p : Pfx) (d a b : BitVec 5) (t : BitVec 4) (s : State) : Host.Outcome State Fault Refusal :=
  vecUnit p (okN t) false [a.toNat] [] [d.toNat] [b.toNat] s fun r =>
    let ty := t.toNat
    let core := coreOf r
    let n := blockLanes ty
    let x := vreg s r a.toNat
    let old := vreg s r d.toNat
    let mode := roundMode r p.rnd
    let base := (coreAt s core).draws
    let blocks := (List.range (128 / n)).map fun k =>
      quantise ty ((span (n * k) n).map fun i => (active r p i, lane 32 x i)) mode p.sat (fun i => drawAt core (base + n * k + i))
    let es := blocks.flatMap fun q => q.2
    let rs := es.zipIdx.map fun e =>
      if active r p e.2 then (true, e.1) else (false, (if p.z then 0 else lane (tWidth ty) old e.2, 0))
    let scale : Word := BitVec.ofNat 64 (ofLanes (if n = 128 then 32 else 8) (blocks.map fun q => q.1))
    let s := useDraws s core mode 128
    let s := setV s r d.toNat (ofLanes (tWidth ty) (rs.map fun q => q.2.1))
    retireEv s (setS r b.toNat scale) p.len ((rs.filter fun q => q.1).map fun q => q.2.2)

/-- vdequant (R361). -/
def vdequantUnit (p : Pfx) (d a b : BitVec 5) (t : BitVec 4) (s : State) : Host.Outcome State Fault Refusal :=
  vecUnit p (okN t) false [a.toNat] [b.toNat] [d.toNat] [] s fun r =>
    let ty := t.toNat
    let n := blockLanes ty
    let x := vreg s r a.toNat
    let sc := (sreg r b.toNat).toNat
    let mode := roundMode r p.rnd
    elemwise s r p 9 128 d.toNat fun i u =>
      dequant ty (n != 128) (if n = 128 then fld sc 0 32 else fld sc (8 * (i / n)) 8) (lane (tWidth ty) x i) mode p.sat u

/-- One add of a sum: RNE for floating point, wrapping for integers (R223, R362). -/
def sumAdd (t x y : Nat) : Nat × Nat :=
  if tIsInt t then ((x + y) % 2 ^ tWidth t, 0)
  else fpLane t (fAdd (valOf t x) (valOf t y) 0) [valOf t x, valOf t y] 0 true 0

/-- One level of the tree of R223. -/
def treeLevel (t : Nat) : List (Nat × Nat) → List (Nat × Nat)
  | x :: y :: r =>
    let z := sumAdd t x.1 y.1
    (z.1, x.2 ||| y.2 ||| z.2) :: treeLevel t r
  | r => r

/-- n levels of the tree. -/
def treeSum (t : Nat) : Nat → List (Nat × Nat) → Nat × Nat
  | 0, l => l.headD (0, 0)
  | n + 1, l => treeSum t n (treeLevel t l)

/-- The destination of a reduction: the value in lane 0, zero above it. -/
def setLane0 (s : State) (a : Act) (d w v : Nat) : State := setV s a d (v % 2 ^ w)

/-- vredsum (R362): Z is 0; inactive lanes enter as −0 or 0. -/
def vredsumUnit (p : Pfx) (d a : BitVec 5) (t : BitVec 4) (s : State) : Host.Outcome State Fault Refusal :=
  vecUnit p (okAI t && !p.z) false [a.toNat] [] [d.toNat] [] s fun r =>
    let ty := t.toNat
    let w := tWidth ty
    let x := vreg s r a.toNat
    let unit := if tIsInt ty then 0 else signBit ty
    let ls := (List.range (tLanes ty)).map fun i => (if active r p i then lane w x i else unit, 0)
    let (v, ev) := treeSum ty (Nat.log2 (tLanes ty)) ls
    retireEv (setLane0 s r d.toNat w v) r p.len [ev]

/-- The winner of R224 among active lanes (lane number, bits): a NaN wins, else the extreme rank; the lowest lane of
equals. -/
def extreme (t : Nat) (wantMax : Bool) : List (Nat × Nat) → Option (Nat × Nat)
  | [] => none
  | x :: r =>
    match extreme t wantMax r with
    | none => some x
    | some y =>
      if isNanBits t x.2 then some x
      else if isNanBits t y.2 then some y
      else if (if wantMax then rankOf t y.2 ≤ rankOf t x.2 else rankOf t x.2 ≤ rankOf t y.2) then some x
      else some y

/-- The value of an empty reduction (R224). -/
def emptyExtreme (t : Nat) (wantMax : Bool) : Nat :=
  match fmtOf t with
  | some k => k.signed wantMax k.infc
  | none => intBits (tWidth t) (if wantMax then tMin t else tMax t)

/-- vredmax, vredmin and the indexed forms (R363): sb receives the index. -/
def redUnit (wantMax : Bool) (sb : Option (BitVec 5)) (p : Pfx) (d a : BitVec 5) (t : BitVec 4) (s : State) :
    Host.Outcome State Fault Refusal :=
  let sd := match sb with
    | some b => b.toNat
    | none => 0
  vecUnit p (okAI t && !p.z) false [a.toNat] [] [d.toNat] [sd] s fun r =>
    let ty := t.toNat
    let w := tWidth ty
    let x := vreg s r a.toNat
    let ls := ((List.range (tLanes ty)).filter (active r p)).map fun i => (i, lane w x i)
    let (v, idx, ev) : Nat × Word × Nat := match extreme ty wantMax ls with
      | none => (emptyExtreme ty wantMax, BitVec.allOnes 64, 0)
      | some (i, b) =>
        if isNanBits ty b then
          ((match fmtOf ty with
            | some k => k.nanc
            | none => 0), BitVec.ofNat 64 i, evNP ||| sigEv (ls.map fun q => valOf ty q.2))
        else (b, BitVec.ofNat 64 i, 0)
    retireEv (setLane0 s r d.toNat w v) (setS r sd idx) p.len [ev]

def vredmaxUnit (p : Pfx) (d a : BitVec 5) (t : BitVec 4) (s : State) := redUnit true none p d a t s
def vredminUnit (p : Pfx) (d a : BitVec 5) (t : BitVec 4) (s : State) := redUnit false none p d a t s
def vredmaxiUnit (p : Pfx) (d a b : BitVec 5) (t : BitVec 4) (s : State) := redUnit true (some b) p d a t s
def vredminiUnit (p : Pfx) (d a b : BitVec 5) (t : BitVec 4) (s : State) := redUnit false (some b) p d a t s

/-- Inclusive scan (R364): each lane with the accumulator after it; inactive lanes pass it on. -/
def scanList (f : Nat → Nat → Nat → Nat × Nat) : Nat → List (Bool × Nat × Nat) → List (Nat × Nat)
  | _, [] => []
  | acc, (act, x, u) :: r =>
    if act then
      let (v, ev) := f acc x u
      (v, ev) :: scanList f v r
    else (0, 0) :: scanList f acc r

def scanUnit (legal : Bool) (f : Act → Nat → Nat → Nat → Nat × Nat) (p : Pfx) (d a : BitVec 5) (t : BitVec 4) (s : State) :
    Host.Outcome State Fault Refusal :=
  vecUnit p legal false [a.toNat] [] [d.toNat] [] s fun r =>
    let ty := t.toNat
    let w := tWidth ty
    let core := coreOf r
    let x := vreg s r a.toNat
    let base := (coreAt s core).draws
    let unit := if tIsInt ty then 0 else signBit ty
    let ls := (List.range (tLanes ty)).map fun i => (active r p i, lane w x i, drawAt core (base + i))
    let out := scanList (f r) unit ls
    elemwise s r p ty (tLanes ty) d.toNat fun i _ => out.getD i (0, 0)

def vscanAddUnit (p : Pfx) (d a : BitVec 5) (t : BitVec 4) (s : State) :=
  scanUnit (okAI t) (fun r x y u => arith2 t.toNat fAdd (· + ·) (roundMode r p.rnd) p.sat x y u) p d a t s
def vscanXorUnit (p : Pfx) (d a : BitVec 5) (t : BitVec 4) (s : State) :=
  scanUnit (okI t) (fun _ x y _ => (x ^^^ y, 0)) p d a t s

/-- Entry i of the lanes of va followed, with vcv, by those of vc; zero outside (R365, R366). -/
def tableLane (p : Pfx) (L w x c : Nat) (i : Int) : Nat :=
  if i < 0 then 0
  else if i.toNat < L then lane w x i.toNat
  else if p.vcv && i.toNat < 2 * L then lane w c (i.toNat - L)
  else 0

def vpermUnit (p : Pfx) (d a b : BitVec 5) (t : BitVec 4) (s : State) : Host.Outcome State Fault Refusal :=
  vecUnit p true true [a.toNat, b.toNat] [] [d.toNat] [] s fun r =>
    let ty := t.toNat
    let w := tWidth ty
    let x := vreg s r a.toNat
    let y := vreg s r b.toNat
    let c := vreg s r p.vc
    elemwise s r p ty (tLanes ty) d.toNat fun i _ => (tableLane p (tLanes ty) w x c (lane w y i), 0)

def vslideUnit (p : Pfx) (d a b : BitVec 5) (t : BitVec 4) (s : State) : Host.Outcome State Fault Refusal :=
  vecUnit p true true [a.toNat] [b.toNat] [d.toNat] [] s fun r =>
    let ty := t.toNat
    let x := vreg s r a.toNat
    let c := vreg s r p.vc
    let k := (sreg r b.toNat).toInt
    elemwise s r p ty (tLanes ty) d.toNat fun i _ => (tableLane p (tLanes ty) (tWidth ty) x c ((i : Int) + k), 0)

def vzipUnit (p : Pfx) (d a b : BitVec 5) (t : BitVec 4) (s : State) : Host.Outcome State Fault Refusal :=
  vecUnit p true false [a.toNat, b.toNat] [] [d.toNat] [] s fun r =>
    let ty := t.toNat
    let w := tWidth ty
    let x := vreg s r a.toNat
    let y := vreg s r b.toNat
    elemwise s r p ty (tLanes ty) d.toNat fun i _ => (if i % 2 = 0 then lane w x (i / 2) else lane w y (i / 2), 0)

def vunzipUnit (p : Pfx) (d a b : BitVec 5) (t : BitVec 4) (s : State) : Host.Outcome State Fault Refusal :=
  vecUnit p true false [a.toNat, b.toNat] [] [d.toNat] [] s fun r =>
    let ty := t.toNat
    let w := tWidth ty
    let h := tLanes ty / 2
    let x := vreg s r a.toNat
    let y := vreg s r b.toNat
    elemwise s r p ty (tLanes ty) d.toNat fun i _ => (if i < h then lane w x (2 * i) else lane w y (2 * (i - h)), 0)

/-- Location of the w-bit element (i, j) of the transpose tile (R368): w is at least 8. -/
def tileElem (a : Act) (w i j : Nat) : Nat := ttile a.ctx (128 * i + w / 8 * j)

/-- vtrw (R368): four tile rows from a vector. -/
def execVtrw (a b : BitVec 5) (t : BitVec 4) (s : State) : Host.Outcome State Fault Refusal :=
  vecUnit noPfx (okT t) false [b.toNat] [a.toNat] [] [] s fun r =>
    let w := tWidth t.toNat
    let n := 1024 / w
    let g := (sreg r a.toNat).toNat % (n / 4)
    let x := vreg s r b.toNat
    let m := (List.range 4).foldl (fun m k => writeN m (tileElem r w (4 * g + k) 0) 128 (fld x (1024 * k) 1024)) s.mem
    retire { s with mem := m } r 4

/-- vtrc (R368): four tile columns into a vector. -/
def execVtrc (d a : BitVec 5) (t : BitVec 4) (s : State) : Host.Outcome State Fault Refusal :=
  vecUnit noPfx (okT t) false [] [a.toNat] [d.toNat] [] s fun r =>
    let w := tWidth t.toNat
    let n := 1024 / w
    let g := (sreg r a.toNat).toNat % (n / 4)
    let ls := (List.range 4).flatMap fun k => (List.range n).map fun i => readN s.mem (tileElem r w i (4 * g + k)) (w / 8)
    retire (setV s r d.toNat (ofLanes w ls)) r 4

/-- A mask unit (R369): no prefix, no event. -/
def maskUnit (ss sd : List Nat) (f : Act → Act) (s : State) : Host.Outcome State Fault Refusal :=
  issueUnit s true (fun _ => sNames ss) (fun _ => sNames sd) fun r => retire s (f r) 4

def execMand (d a b : BitVec 3) (s : State) := maskUnit [] [] (fun r => setM r d.toNat (mreg r a.toNat &&& mreg r b.toNat)) s
def execMor (d a b : BitVec 3) (s : State) := maskUnit [] [] (fun r => setM r d.toNat (mreg r a.toNat ||| mreg r b.toNat)) s
def execMxor (d a b : BitVec 3) (s : State) := maskUnit [] [] (fun r => setM r d.toNat (mreg r a.toNat ^^^ mreg r b.toNat)) s
def execMnot (d a : BitVec 3) (s : State) := maskUnit [] [] (fun r => setM r d.toNat (~~~(mreg r a.toNat))) s
def execMpop (d : BitVec 5) (a : BitVec 3) (s : State) :=
  maskUnit [] [d.toNat] (fun r => setS r d.toNat (BitVec.ofNat 64 (popNat (mreg r a.toNat).toNat 1024))) s
def execMfirst (d : BitVec 5) (a : BitVec 3) (s : State) :=
  maskUnit [] [d.toNat] (fun r =>
    let m := (mreg r a.toNat).toNat
    setS r d.toNat (if m = 0 then BitVec.allOnes 64 else BitVec.ofNat 64 (ctzNat m 1024))) s
def execMset (d : BitVec 3) (a : BitVec 5) (s : State) :=
  maskUnit [a.toNat] [] (fun r => setM r d.toNat (BitVec.ofNat 1024 (2 ^ min 1024 (sreg r a.toNat).toNat - 1))) s

/-! The unprefixed instructions. -/

def execVadd (d : BitVec 5) (a : BitVec 5) (b : BitVec 5) (t : BitVec 4) (s : State) := vaddUnit noPfx d a b t s
def execVsub (d : BitVec 5) (a : BitVec 5) (b : BitVec 5) (t : BitVec 4) (s : State) := vsubUnit noPfx d a b t s
def execVmul (d : BitVec 5) (a : BitVec 5) (b : BitVec 5) (t : BitVec 4) (s : State) := vmulUnit noPfx d a b t s
def execVfma (d : BitVec 5) (a : BitVec 5) (b : BitVec 5) (t : BitVec 4) (s : State) := vfmaUnit noPfx d a b t s
def execVfms (d : BitVec 5) (a : BitVec 5) (b : BitVec 5) (t : BitVec 4) (s : State) := vfmsUnit noPfx d a b t s
def execVfnma (d : BitVec 5) (a : BitVec 5) (b : BitVec 5) (t : BitVec 4) (s : State) := vfnmaUnit noPfx d a b t s
def execVdiv (d : BitVec 5) (a : BitVec 5) (b : BitVec 5) (t : BitVec 4) (s : State) := vdivUnit noPfx d a b t s
def execVsqrt (d : BitVec 5) (a : BitVec 5) (t : BitVec 4) (s : State) := vsqrtUnit noPfx d a t s
def execVrcp (d : BitVec 5) (a : BitVec 5) (t : BitVec 4) (s : State) := vrcpUnit noPfx d a t s
def execVrsqrt (d : BitVec 5) (a : BitVec 5) (t : BitVec 4) (s : State) := vrsqrtUnit noPfx d a t s
def execVexp2 (d : BitVec 5) (a : BitVec 5) (t : BitVec 4) (s : State) := vexp2Unit noPfx d a t s
def execVlog2 (d : BitVec 5) (a : BitVec 5) (t : BitVec 4) (s : State) := vlog2Unit noPfx d a t s
def execVtanh (d : BitVec 5) (a : BitVec 5) (t : BitVec 4) (s : State) := vtanhUnit noPfx d a t s
def execVsigm (d : BitVec 5) (a : BitVec 5) (t : BitVec 4) (s : State) := vsigmUnit noPfx d a t s
def execVsin (d : BitVec 5) (a : BitVec 5) (t : BitVec 4) (s : State) := vsinUnit noPfx d a t s
def execVcos (d : BitVec 5) (a : BitVec 5) (t : BitVec 4) (s : State) := vcosUnit noPfx d a t s
def execVmin (d : BitVec 5) (a : BitVec 5) (b : BitVec 5) (t : BitVec 4) (s : State) := vminUnit noPfx d a b t s
def execVmax (d : BitVec 5) (a : BitVec 5) (b : BitVec 5) (t : BitVec 4) (s : State) := vmaxUnit noPfx d a b t s
def execVabs (d : BitVec 5) (a : BitVec 5) (t : BitVec 4) (s : State) := vabsUnit noPfx d a t s
def execVneg (d : BitVec 5) (a : BitVec 5) (t : BitVec 4) (s : State) := vnegUnit noPfx d a t s
def execVand (d : BitVec 5) (a : BitVec 5) (b : BitVec 5) (t : BitVec 4) (s : State) := vandUnit noPfx d a b t s
def execVor (d : BitVec 5) (a : BitVec 5) (b : BitVec 5) (t : BitVec 4) (s : State) := vorUnit noPfx d a b t s
def execVxor (d : BitVec 5) (a : BitVec 5) (b : BitVec 5) (t : BitVec 4) (s : State) := vxorUnit noPfx d a b t s
def execVnot (d : BitVec 5) (a : BitVec 5) (t : BitVec 4) (s : State) := vnotUnit noPfx d a t s
def execVshl (d : BitVec 5) (a : BitVec 5) (b : BitVec 5) (t : BitVec 4) (s : State) := vshlUnit noPfx d a b t s
def execVshr (d : BitVec 5) (a : BitVec 5) (b : BitVec 5) (t : BitVec 4) (s : State) := vshrUnit noPfx d a b t s
def execVsra (d : BitVec 5) (a : BitVec 5) (b : BitVec 5) (t : BitVec 4) (s : State) := vsraUnit noPfx d a b t s
def execVcmp (d : BitVec 3) (a : BitVec 5) (b : BitVec 5) (t : BitVec 4) (s : State) := vcmpUnit noPfx d a b t s
def execVsel (d : BitVec 5) (a : BitVec 5) (b : BitVec 5) (t : BitVec 4) (s : State) := vselUnit noPfx d a b t s
def execVmov (d : BitVec 5) (a : BitVec 5) (t : BitVec 4) (s : State) := vmovUnit noPfx d a t s
def execVbcast (d : BitVec 5) (a : BitVec 5) (t : BitVec 4) (s : State) := vbcastUnit noPfx d a t s
def execVins (d : BitVec 5) (a : BitVec 5) (b : BitVec 5) (t : BitVec 4) (s : State) := vinsUnit noPfx d a b t s
def execVext (d : BitVec 5) (a : BitVec 5) (b : BitVec 5) (t : BitVec 4) (s : State) := vextUnit noPfx d a b t s
def execVcvt (d : BitVec 5) (a : BitVec 5) (st : BitVec 4) (t : BitVec 4) (s : State) := vcvtUnit noPfx d a st t s
def execVquant (d : BitVec 5) (a : BitVec 5) (b : BitVec 5) (t : BitVec 4) (s : State) := vquantUnit noPfx d a b t s
def execVdequant (d : BitVec 5) (a : BitVec 5) (b : BitVec 5) (t : BitVec 4) (s : State) := vdequantUnit noPfx d a b t s
def execVredsum (d : BitVec 5) (a : BitVec 5) (t : BitVec 4) (s : State) := vredsumUnit noPfx d a t s
def execVredmax (d : BitVec 5) (a : BitVec 5) (t : BitVec 4) (s : State) := vredmaxUnit noPfx d a t s
def execVredmin (d : BitVec 5) (a : BitVec 5) (t : BitVec 4) (s : State) := vredminUnit noPfx d a t s
def execVredmaxi (d : BitVec 5) (a : BitVec 5) (b : BitVec 5) (t : BitVec 4) (s : State) := vredmaxiUnit noPfx d a b t s
def execVredmini (d : BitVec 5) (a : BitVec 5) (b : BitVec 5) (t : BitVec 4) (s : State) := vredminiUnit noPfx d a b t s
def execVscanAdd (d : BitVec 5) (a : BitVec 5) (t : BitVec 4) (s : State) := vscanAddUnit noPfx d a t s
def execVscanXor (d : BitVec 5) (a : BitVec 5) (t : BitVec 4) (s : State) := vscanXorUnit noPfx d a t s
def execVclmul (d : BitVec 5) (a : BitVec 5) (b : BitVec 5) (t : BitVec 4) (s : State) := vclmulUnit noPfx d a b t s
def execVpopc (d : BitVec 5) (a : BitVec 5) (t : BitVec 4) (s : State) := vpopcUnit noPfx d a t s
def execVclz (d : BitVec 5) (a : BitVec 5) (t : BitVec 4) (s : State) := vclzUnit noPfx d a t s
def execVperm (d : BitVec 5) (a : BitVec 5) (b : BitVec 5) (t : BitVec 4) (s : State) := vpermUnit noPfx d a b t s
def execVslide (d : BitVec 5) (a : BitVec 5) (b : BitVec 5) (t : BitVec 4) (s : State) := vslideUnit noPfx d a b t s
def execVzip (d : BitVec 5) (a : BitVec 5) (b : BitVec 5) (t : BitVec 4) (s : State) := vzipUnit noPfx d a b t s
def execVunzip (d : BitVec 5) (a : BitVec 5) (b : BitVec 5) (t : BitVec 4) (s : State) := vunzipUnit noPfx d a b t s

end Sys2Proof.Machine
end

