-- ==== Sys2Proof/Machine/Matrix.lean ====
section
/-! DEFINITION. The matrix unit (R371 to R384, R390) and its arithmetic (R218 to R221): the checks and operands of a
command at issue, the queue, accumulation, latches and the ring, mst, and a copy with its follow-on. -/
namespace Sys2Proof.Machine

/-! ### Fields and shapes -/

/-- A word of the X format (R260, R377, R379). -/
def xWord (major acc asrc bsrc mid fs flags : Nat) : Nat :=
  1 + 2 * major + 2 ^ 7 * acc + 2 ^ 9 * asrc + 2 ^ 14 * bsrc + 2 ^ 19 * mid + 2 ^ 23 * fs + 2 ^ 27 * flags

def xMajor (w : Nat) : Nat := fld w 1 6
def xAcc (w : Nat) : Nat := fld w 7 2
def xA (w : Nat) : Nat := fld w 9 5
def xB (w : Nat) : Nat := fld w 14 5
def xSub (w : Nat) : Nat := fld w 19 4
def xSC (w : Nat) : Bool := w.testBit 19
def xBK (w : Nat) : Nat := fld w 20 2
def xAK (w : Nat) : Nat := fld w 22 1
def xFs (w : Nat) : Nat := fld w 23 4
def xRing (w : Nat) : Bool := w.testBit 27
def xZf (w : Nat) : Bool := w.testBit 28
def xClip (w : Nat) : Bool := w.testBit 29
def xChain (w : Nat) : Bool := w.testBit 30
def xTr (w : Nat) : Bool := w.testBit 31

/-- A row of R373: element types of A and B, K, N, accumulator (0 FP32, 1 FP64, 2 INT32), scales (0 none, 1 FP32, 2 E8M0),
slots of A and of B. -/
structure Shape where
  ta : Nat
  tb : Nat
  k : Nat
  n : Nat
  acc : Nat
  scl : Nat
  sa : Nat
  sb : Nat
  deriving DecidableEq, Repr

/-- The shapes of the mma opcodes (R373). -/
def shapeOf (major : Nat) : Shape :=
  match major with
  | 31 => ⟨10, 10, 16, 64, 1, 0, 4, 2⟩
  | 32 => ⟨9, 9, 32, 128, 0, 0, 4, 4⟩
  | 33 => ⟨8, 8, 64, 128, 0, 0, 4, 4⟩
  | 34 => ⟨7, 7, 64, 128, 0, 0, 4, 4⟩
  | 35 => ⟨11, 11, 128, 128, 0, 1, 4, 4⟩
  | 36 => ⟨11, 12, 128, 128, 0, 1, 4, 4⟩
  | 37 => ⟨12, 11, 128, 128, 0, 1, 4, 4⟩
  | 38 => ⟨12, 12, 128, 128, 0, 1, 4, 4⟩
  | 39 => ⟨13, 13, 128, 128, 0, 2, 3, 3⟩
  | 40 => ⟨14, 14, 128, 128, 0, 2, 3, 3⟩
  | 41 => ⟨15, 15, 256, 128, 0, 2, 4, 4⟩
  | 42 => ⟨1, 1, 128, 128, 2, 0, 4, 4⟩
  | _ => ⟨0, 0, 256, 128, 2, 0, 4, 4⟩

/-- K and N of a B type for mld (R373, R381), none for a type that is no B type. -/
def latchShape (t : Nat) : Option (Nat × Nat) :=
  match t with
  | 10 => some (16, 64)
  | 9 => some (32, 128)
  | 8 => some (64, 128)
  | 7 => some (64, 128)
  | 11 => some (128, 128)
  | 12 => some (128, 128)
  | 13 => some (128, 128)
  | 14 => some (128, 128)
  | 15 => some (256, 128)
  | 1 => some (128, 128)
  | 0 => some (256, 128)
  | _ => none

/-- Width and count of the lanes of an accumulator row (R373): FP64 has 64 lanes of 64 bits. -/
def accWidth (acc : Nat) : Nat := if acc = 1 then 64 else 32
def accLanes (acc : Nat) : Nat := if acc = 1 then 64 else 128
/-- Element type of an accumulator (R207). -/
def accType (acc : Nat) : Nat := if acc = 1 then 10 else if acc = 2 then 4 else 9

/-- Is a word an mma (R373)? -/
def isMma (w : Nat) : Bool := 31 ≤ xMajor w && xMajor w ≤ 43

/-- Do the fields of an mma word follow R377, its chain flag apart? -/
def mmaFields (w : Nat) : Bool :=
  xBK w != 3 && xA w < 8 && (if xBK w = 2 then xB w == 0 else xB w < 8) && (!xRing w || xBK w == 2) &&
    (xSC w || xFs w == 0) && ((shapeOf (xMajor w)).scl != 0 || !xSC w) && !xTr w

/-- The state of a tile's latches on a core (R375). -/
def tileAt (s : State) (core t : Nat) : TileState := Sys2Proof.Machine.mget (coreAt s core).tiles t TileState.reset
def setTile (s : State) (core t : Nat) (v : TileState) : State :=
  let c := coreAt s core
  setCore s core { c with tiles := Sys2Proof.Machine.mset c.tiles t v }

/-- What a command makes of its tile's recorded state (R375, R383, R384). -/
def latchStep (t : TileState) (w etype : Nat) : TileState :=
  if isMma w then
    { t with acc := (shapeOf (xMajor w)).acc, st := if xBK w = 2 then (if xRing w then 1 else 2) else t.st }
  else if xSub w = 1 ∨ xSub w = 2 then { t with st := 2, ty := etype }
  else if xSub w = 4 then { t with scl := xB w + 1, acc := 0 }
  else t

/-- The matrix commands of an activation that wait outside the queue for earlier operations (R328). -/
def lateCmds (s : State) (uid : Nat) : List MatrixCmd :=
  s.flights.filterMap fun f => if f.uid = uid then (match f.late with
    | some (.matrix m ..) => some m
    | _ => none) else none

/-- The recorded state of a tile in program order: after the commands of the activation on it that are queued or wait for the queue (R371). -/
def tileAfter (s : State) (a : Act) (t : Nat) : TileState :=
  ((coreAt s (coreOf a)).matQ ++ lateCmds s a.uid).foldl
    (fun x m => if m.uid = a.uid ∧ m.tile = t then latchStep x m.word m.etype else x) (tileAt s (coreOf a) t)

/-! ### Operands at issue -/

/-- The byte ranges of elements, adjacent ones joined. -/
def joinRanges : List (Nat × Nat) → List (Nat × Nat)
  | [] => []
  | r :: rest =>
    match joinRanges rest with
    | [] => [r]
    | q :: t => if r.1 ≤ q.1 && q.1 ≤ r.1 + r.2 then (r.1, max (r.1 + r.2) (q.1 + q.2) - r.1) :: t else r :: q :: t

/-- Own-pool byte ranges of elements of a descriptor. -/
def elemRanges (d : DReg) (xs : List Idx) : List (Nat × Nat) :=
  joinRanges (xs.flatMap (elemPieces d))

/-- Indices (c, r) of an operand of rows × cols elements at an origin that lie inside a descriptor. -/
def operandIdx (d : DReg) (o0 o1 rows cols : Nat) : List Idx :=
  ((List.range rows).flatMap fun r => (List.range cols).map fun c => (o0 + c, o1 + r, 0, 0, 0)).filter (insideDesc d)

/-- An element of an own-pool descriptor; an index beyond its sizes reads zero bits (R374). -/
def poolElem (m : Memory) (core : Nat) (d : DReg) (x : Idx) : Nat :=
  if insideDesc d x then
    fld (ofBytes ((elemPieces d x).flatMap fun p => readBytes m (pool core p.1) p.2)) (elemBit d x % 8) (tWidth (dEtype d))
  else 0

/-- Own-pool byte ranges that an operand source reads (R374). -/
def srcRanges (src : OpSrc) (rows cols slots : Nat) : List (Nat × Nat) :=
  match src with
  | .desc d => elemRanges d (operandIdx d 0 0 rows cols)
  | .ring h => (List.range slots).map fun i => (4096 * (cbBase h + (cbHead h + i) % cbLen h), 4096)
  | .lat => []

/-- Is an operand source a descriptor that R377 calls malformed: all zero, of another space, or of another type? -/
def srcMalformed (src : OpSrc) (ty : Nat) : Bool :=
  match src with
  | .desc d => d == 0 || dSpace d != 1 || dEtype d != ty
  | _ => false

/-- The trap that the bytes of an operand source raise (R374, R378). -/
def srcTrap (s : State) (a : Act) (src : OpSrc) (rows cols slots : Nat) : Option Nat :=
  match src with
  | .desc _ => if (srcRanges src rows cols slots).all fun r => ownReach s a r.1 r.2 then none else some cPool
  | .ring h => ringTrap (coreAt s (coreOf a)) h slots
  | .lat => none

/-- The first engine-owned slot of byte ranges that no command in `mine` names. -/
def ownedIn (s : State) (core : Nat) (ranges : List (Nat × Nat)) (mine : List Nat) : Option Nat :=
  (ranges.flatMap fun r => slotsOf r.1 r.2).find? fun k => engineOwned (coreAt s core) k && !mine.contains k

/-- What byte ranges of the own pool await (R70, R328). -/
def rangeHolds (s : State) (a : Act) (write : Bool) (rs : List (Nat × Nat)) : List Nat :=
  (rs.flatMap fun r => poolHolds s a r.1 r.2 write).eraseDups

/-- The elements of an operand of rows × cols from its source, row by row (R374). -/
def srcElems (m : Memory) (core : Nat) (src : OpSrc) (ty rows cols slots : Nat) : List Nat :=
  match src with
  | .desc d => (List.range rows).flatMap fun r => (List.range cols).map fun c => poolElem m core d (c, r, 0, 0, 0)
  | .ring _ =>
    let bits := ofBytes ((srcRanges src rows cols slots).flatMap fun r => readBytes m (pool core r.1) r.2)
    (List.range (rows * cols)).map fun e => fld bits (e * tWidth ty) (tWidth ty)
  | .lat => []

/-- Operand A of an mma word, and operand B after A has popped its ring. -/
def mmaSrcA (a : Act) (w : Nat) : OpSrc := if xAK w = 1 then .ring (creg a (xA w)) else .desc (dreg a (xA w))
def mmaSrcB (a : Act) (w : Nat) : OpSrc :=
  if xBK w = 2 then .lat
  else if xBK w = 1 then
    let h := creg a (xB w)
    .ring (if xAK w = 1 ∧ xA w = xB w then cbPopped h (shapeOf (xMajor w)).sa else h)
  else .desc (dreg a (xB w))

/-- The checks of an mma at issue in the order of R377, its fields apart, and then those of R378: the cause of the trap. -/
def mmaTrap (s : State) (a : Act) (w : Nat) : Option Nat :=
  let sh := shapeOf (xMajor w)
  match a.tiles[xAcc w]? with
  | none => some cIllegal
  | some t =>
    let st := tileAfter s a t
    if srcMalformed (mmaSrcA a w) sh.ta || srcMalformed (mmaSrcB a w) sh.tb then some cDesc
    else if xBK w = 2 && (st.st == 0 || st.ty != sh.tb) then some cIllegal
    else if xSC w && st.scl != sh.scl then some cIllegal
    else match srcTrap s a (mmaSrcA a w) 128 sh.k sh.sa with
      | some c => some c
      | none => srcTrap s a (mmaSrcB a w) sh.k sh.n sh.sb

/-- Slots that the rings of an mma must hold filled: handle and count (R374). -/
def ringNeeds (w : Nat) : List (Nat × Nat) :=
  let sh := shapeOf (xMajor w)
  (if xAK w = 1 then [(xA w, sh.sa)] else []) ++
    (if xBK w = 1 then [(xB w, sh.sb + (if xAK w = 1 ∧ xA w = xB w then sh.sa else 0))] else [])

/-- The own-pool bytes that an mma reads through its sources (R374). -/
def mmaRanges (w : Nat) (x y : OpSrc) : List (Nat × Nat) :=
  let sh := shapeOf (xMajor w)
  srcRanges x 128 sh.k sh.sa ++ srcRanges y sh.k sh.n sh.sb

/-- The wait of an mma at issue for its rings' condition (R374). -/
def ringStall (a : Act) (w : Nat) : Option Wait :=
  ((ringNeeds w).find? fun r => cbFill (creg a r.1) < r.2).map fun r => .ring r.1 r.2

/-- What an mma meets at issue: its rings' condition, earlier operations on its operand bytes, or a slot of them that its engine owns, with slots of
`mine` taken as returned (R47, R374); none when its operands can be read now. -/
def mmaWait (s : State) (a : Act) (w : Nat) (mine : List Nat) : Option Wait :=
  let rs := mmaRanges w (mmaSrcA a w) (mmaSrcB a w)
  match ringStall a w with
  | some r => some r
  | none =>
    let ids := rangeHolds s a false rs
    if !ids.isEmpty then some (.flights ids false) else (ownedIn s (coreOf a) rs mine).map fun k => .poolSlot k false

/-- The rings of an mma popped (R374; DEDUCED, log 16). -/
def mmaPops (a : Act) (w : Nat) : Act :=
  (ringNeeds w).foldl (fun a r =>
    let sh := shapeOf (xMajor w)
    if xAK w = 1 ∧ xBK w = 1 ∧ xA w = xB w ∧ r.2 = sh.sa then a
    else setC a r.1 (cbPopped (creg a r.1) r.2)) a

/-! ### The queue -/

/-- What a command on a tile waits for: the activation's earlier vector loads into its rows (R70), its tile copies on them, accesses held before
it, and its commands that wait for the queue (R328, R371). -/
def tileWaits (s : State) (a : Act) (t : Nat) : List Nat :=
  (pendingRows s a (65536 * t) 65536).map (fun f => f.id) ++ portHolds s a (coreOf a) (65536 * t) 65536 ++ lateHolds s a (65536 * t) 65536 true

/-- A command of an activation with nothing read yet. -/
def matrixCmd (a : Act) (w tile rnd : Nat) (sat : Bool) : MatrixCmd where
  id := 0
  uid := a.uid
  word := w
  rnd := rnd
  sat := sat
  tile := tile
  name := xAcc w
  etype := 0
  a := []
  b := []
  scale := freg a (xFs w)
  org := 0
  desc := 0
  tx := wfld a.tx 0 32
  ty := wfld a.ty 0 32
  asid := a.task.asid
  gen := a.task.gen
  cls := classOf a
  chain := none
  started := false
  place := ⟨a.gang, a.gx, a.gy, a.gw⟩

/-- The index of element (x, j) of the latch in the descriptor of an mld (R381). -/
def mldIdx (w : Nat) (org : Word) (x j : Nat) : Idx :=
  if xSub w = 2 then (org0 org + x, org1 org + j, 0, 0, 0) else (org0 org + j, org1 org + x, 0, 0, 0)

/-- The latch elements of an mld in order: row and column. -/
def latchIdx (ty : Nat) : List (Nat × Nat) := match latchShape ty with
  | some (k, n) => (List.range k).flatMap fun x => (List.range n).map fun j => (x, j)
  | none => []

/-- Places of elements of a descriptor that lie in the pool of a core (R52). -/
def ownPlaces (core : Nat) (d : DReg) (xs : List Idx) : List (Nat × Nat) :=
  if dSpace d = 1 then elemRanges d xs
  else if dSpace d = 2 then
    joinRanges (((xs.flatMap (elemPieces d)).filter fun p => gangTarget core p.1 = core).map fun p => (p.1 % 262144, p.2))
  else []

/-- What elements of a descriptor that a command reads or writes await, in the own pool or that of another core (R328). -/
def elemHolds (s : State) (a : Act) (write : Bool) (d : DReg) (xs : List Idx) : List Nat :=
  rangeHolds s a write (ownPlaces (coreOf a) d xs) ++
    (if dSpace d = 2 then
      ((elemRanges d xs).filter fun p => gangCore a p.1 != coreOf a).flatMap fun p => portHolds s a (gangCore a p.1) (p.1 % 262144) p.2
     else []).eraseDups

/-- A command with the operands read that its sources x and y name (R374, R381, R384): elements of an mma, those of an mld from the own pool, or n
bytes of scales at p. -/
def takeOperands (s : State) (core : Nat) (m : MatrixCmd) (x y : OpSrc) (p n : Nat) : MatrixCmd :=
  if isMma m.word then
    let sh := shapeOf (xMajor m.word)
    { m with a := srcElems s.mem core x sh.ta 128 sh.k sh.sa, b := srcElems s.mem core y sh.tb sh.k sh.n sh.sb }
  else match x with
    | .desc d => { m with a := (latchIdx m.etype).map fun e => poolElem s.mem core d (mldIdx m.word m.org e.1 e.2) }
    | _ => { m with a := (readBytes s.mem (pool core p) n).map fun b => b.toNat }

/-- The own-pool bytes that a command reads through its sources, or as the source of an mld. -/
def takeRanges (core : Nat) (m : MatrixCmd) (x y : OpSrc) (p n : Nat) : List (Nat × Nat) :=
  if isMma m.word then mmaRanges m.word x y
  else if xSub m.word = 1 ∨ xSub m.word = 2 then
    let d := match x with
      | .desc d => d
      | _ => m.desc
    ownPlaces core d (((latchIdx m.etype).map fun e => mldIdx m.word m.org e.1 e.2).filter (insideDesc d))
  else if n = 0 then [] else [(p, n)]

/-- The operation of a matrix command (R371): it holds a slot as an engine command does (R63, R186). -/
def matrixOp (a : Act) (path : Option Nat) : Flight := opOf a path (if path.isSome then .ewr else .erd) 0 0 .command .none

/-- A command enters the matrix unit's queue. -/
def enqueue (s : State) (core : Nat) (m : MatrixCmd) : State :=
  let c := coreAt s core
  setCore s core { c with matQ := c.matQ ++ [m] }

/-- A matrix instruction issues (R371), and the activation goes on as `next`: its command enters the queue with its operands (DESIGN CHOICE,
log 11). It stalls while a follow-on on its tile is still to enter (R390), while the queue is full, or while a slot of its operands is
engine-owned (R47). While earlier operations hold its rows or bytes, the command alone waits, outside the queue (R328; DEDUCED, log 69). -/
def issueMatrix (s : State) (a next : Act) (len : Nat) (m : MatrixCmd) (path : Option Nat) (ids : List Nat) (x y : OpSrc) (p n : Nat) : State :=
  let core := coreOf a
  if !waitOver s { a with wait := .chain m.tile } then block s a (.chain m.tile)
  else if !ids.isEmpty then
    withSlot s a (issueOp (retire s next len) { matrixOp a path with holds := ids, late := some (.matrix { m with id := s.nextId } x y p n) })
  else if 8 ≤ (coreAt s core).matQ.length then block s a .matrixRoom
  else match ownedIn s core (takeRanges core m x y p n) [] with
    | some k => block s a (.poolSlot k false)
    | none => withSlot s a
        (issueOp (enqueue (retire s next len) core { takeOperands s core m x y p n with id := s.nextId }) (matrixOp a path))

/-- Does a prefix suit an X-format instruction (R263)? -/
def xPfx (p : Pfx) : Bool := p.mask == 0 && !p.z && !p.vcv && p.rnd != 7

/-- Descriptor registers that an mma word reads. -/
def mmaReads (w : Nat) : List RegName :=
  (if xAK w = 0 then [.d (xA w)] else []) ++ (if xBK w = 0 then [RegName.d (xB w)] else [])

/-- mma (R377). -/
def mmaUnit (p : Pfx) (w : Nat) (s : State) : Host.Outcome State Fault Refusal :=
  issueUnit s (mmaFields w && !xChain w && xPfx p) (fun _ => mmaReads w) (fun _ => []) fun r =>
    match mmaTrap s r w with
    | some c => trap s r c
    | none =>
      match ringStall r w with
      | some wt => block s r wt
      | none =>
        let t := r.tiles.getD (xAcc w) 0
        issueMatrix s r (mmaPops r w) p.len (matrixCmd r w t (roundMode r p.rnd) p.sat) none
          (tileWaits s r t ++ rangeHolds s r false (mmaRanges w (mmaSrcA r w) (mmaSrcB r w))) (mmaSrcA r w) (mmaSrcB r w) 0 0

/-- The word of an mma from its fields (R377). -/
def mmaWord (major : Nat) (c : BitVec 2) (a : BitVec 3) (b : BitVec 5) (s : BitVec 1) (j : BitVec 2) (k : BitVec 1)
    (f : BitVec 4) (r z l n : BitVec 1) : Nat :=
  xWord major c.toNat a.toNat b.toNat (s.toNat + 2 * j.toNat + 8 * k.toNat) f.toNat
    (r.toNat + 2 * z.toNat + 4 * l.toNat + 8 * n.toNat)

def execMmaF64 (c : BitVec 2) (a : BitVec 3) (b : BitVec 5) (qs : BitVec 1) (j : BitVec 2) (k : BitVec 1) (f : BitVec 4)
    (r z l n : BitVec 1) (s : State) := mmaUnit noPfx (mmaWord 31 c a b qs j k f r z l n) s
def execMmaF32 (c : BitVec 2) (a : BitVec 3) (b : BitVec 5) (qs : BitVec 1) (j : BitVec 2) (k : BitVec 1) (f : BitVec 4)
    (r z l n : BitVec 1) (s : State) := mmaUnit noPfx (mmaWord 32 c a b qs j k f r z l n) s
def execMmaBf16 (c : BitVec 2) (a : BitVec 3) (b : BitVec 5) (qs : BitVec 1) (j : BitVec 2) (k : BitVec 1) (f : BitVec 4)
    (r z l n : BitVec 1) (s : State) := mmaUnit noPfx (mmaWord 33 c a b qs j k f r z l n) s
def execMmaF16 (c : BitVec 2) (a : BitVec 3) (b : BitVec 5) (qs : BitVec 1) (j : BitVec 2) (k : BitVec 1) (f : BitVec 4)
    (r z l n : BitVec 1) (s : State) := mmaUnit noPfx (mmaWord 34 c a b qs j k f r z l n) s
def execMmaE4e4 (c : BitVec 2) (a : BitVec 3) (b : BitVec 5) (qs : BitVec 1) (j : BitVec 2) (k : BitVec 1) (f : BitVec 4)
    (r z l n : BitVec 1) (s : State) := mmaUnit noPfx (mmaWord 35 c a b qs j k f r z l n) s
def execMmaE4e5 (c : BitVec 2) (a : BitVec 3) (b : BitVec 5) (qs : BitVec 1) (j : BitVec 2) (k : BitVec 1) (f : BitVec 4)
    (r z l n : BitVec 1) (s : State) := mmaUnit noPfx (mmaWord 36 c a b qs j k f r z l n) s
def execMmaE5e4 (c : BitVec 2) (a : BitVec 3) (b : BitVec 5) (qs : BitVec 1) (j : BitVec 2) (k : BitVec 1) (f : BitVec 4)
    (r z l n : BitVec 1) (s : State) := mmaUnit noPfx (mmaWord 37 c a b qs j k f r z l n) s
def execMmaE5e5 (c : BitVec 2) (a : BitVec 3) (b : BitVec 5) (qs : BitVec 1) (j : BitVec 2) (k : BitVec 1) (f : BitVec 4)
    (r z l n : BitVec 1) (s : State) := mmaUnit noPfx (mmaWord 38 c a b qs j k f r z l n) s
def execMmaE3m2 (c : BitVec 2) (a : BitVec 3) (b : BitVec 5) (qs : BitVec 1) (j : BitVec 2) (k : BitVec 1) (f : BitVec 4)
    (r z l n : BitVec 1) (s : State) := mmaUnit noPfx (mmaWord 39 c a b qs j k f r z l n) s
def execMmaE2m3 (c : BitVec 2) (a : BitVec 3) (b : BitVec 5) (qs : BitVec 1) (j : BitVec 2) (k : BitVec 1) (f : BitVec 4)
    (r z l n : BitVec 1) (s : State) := mmaUnit noPfx (mmaWord 40 c a b qs j k f r z l n) s
def execMmaE2m1 (c : BitVec 2) (a : BitVec 3) (b : BitVec 5) (qs : BitVec 1) (j : BitVec 2) (k : BitVec 1) (f : BitVec 4)
    (r z l n : BitVec 1) (s : State) := mmaUnit noPfx (mmaWord 41 c a b qs j k f r z l n) s
def execMmaI8 (c : BitVec 2) (a : BitVec 3) (b : BitVec 5) (qs : BitVec 1) (j : BitVec 2) (k : BitVec 1) (f : BitVec 4)
    (r z l n : BitVec 1) (s : State) := mmaUnit noPfx (mmaWord 42 c a b qs j k f r z l n) s
def execMmaI4 (c : BitVec 2) (a : BitVec 3) (b : BitVec 5) (qs : BitVec 1) (j : BitVec 2) (k : BitVec 1) (f : BitVec 4)
    (r z l n : BitVec 1) (s : State) := mmaUnit noPfx (mmaWord 43 c a b qs j k f r z l n) s

/-! ### mzero, mld, mst, msc at issue -/

/-- mzero (R380). -/
def execMzero (c : BitVec 2) (s : State) : Host.Outcome State Fault Refusal :=
  issueUnit s true (fun _ => []) (fun _ => []) fun r =>
    match r.tiles[c.toNat]? with
    | none => trap s r cIllegal
    | some t => issueMatrix s r r 4 (matrixCmd r (xWord 44 c.toNat 0 0 0 0 0) t 0 true) none (tileWaits s r t) .lat .lat 0 0

/-- mld and mld.t (R381): an own-pool source is its operand; a far one is read when the command is performed. -/
def mldUnit (tr : Bool) (c : BitVec 2) (a : BitVec 3) (b : BitVec 5) (s : State) : Host.Outcome State Fault Refusal :=
  issueUnit s true (fun _ => RegName.d a.toNat :: sNames [b.toNat]) (fun _ => []) fun r =>
    let d := dreg r a.toNat
    let org := sreg r b.toNat
    match r.tiles[c.toNat]? with
    | none => trap s r cIllegal
    | some t =>
      match (if d = 0 then none else latchShape (dEtype d)) with
      | none => trap s r cDesc
      | some (k, n) =>
        if originBad (dEtype d) (org0 org) then trap s r cAlign
        else
          let xs := if tr then operandIdx d (org0 org) (org1 org) n k else operandIdx d (org0 org) (org1 org) k n
          if (ownPlaces (coreOf r) d xs).any fun q => !ownReach s r q.1 q.2 then trap s r cPool
          else
            let far := dSpace d != 1
            let w := xWord 44 c.toNat a.toNat b.toNat (if tr then 2 else 1) 0 0
            let m := { matrixCmd r w t 0 true with etype := dEtype d, org := org, desc := if far then d else 0 }
            issueMatrix s r r 4 m none (lateHolds s r (65536 * t) 65536 true ++ elemHolds s r false d xs) (if far then .lat else .desc d) .lat 0 0

def execMld (c : BitVec 2) (a : BitVec 3) (b : BitVec 5) (s : State) := mldUnit false c a b s
def execMldT (c : BitVec 2) (a : BitVec 3) (b : BitVec 5) (s : State) := mldUnit true c a b s

/-- The elements that mst writes: row and column of the tile, and the index in the descriptor (R383). -/
def mstIdx (acc : Nat) (w : Nat) (org : Word) (d : DReg) (tx ty : Nat) : List ((Nat × Nat) × Idx) :=
  ((List.range 128).flatMap fun i => (List.range (accLanes acc)).map fun j =>
    ((i, j), if xTr w then (org0 org + i, org1 org + j, 0, 0, 0) else (org0 org + j, org1 org + i, 0, 0, 0))).filter fun x =>
      insideDesc d x.2 && !(xClip w && (ty ≤ x.1.1 || tx ≤ x.1.2))

/-- mst (R382, R383): the descriptor and its own-pool bytes are checked at issue; the ownership trap is R47's, beside R403's list (DEDUCED,
log 61). -/
def mstUnit (p : Pfx) (w : Nat) (s : State) : Host.Outcome State Fault Refusal :=
  issueUnit s (xPfx p) (fun _ => RegName.d (xA w) :: sNames [xB w]) (fun _ => []) fun r =>
    let d := dreg r (xA w)
    let org := sreg r (xB w)
    match r.tiles[xAcc w]? with
    | none => trap s r cIllegal
    | some t =>
      if d = 0 then trap s r cDesc
      else if originBad (dEtype d) (org0 org) then trap s r cAlign
      else
        let xs := (mstIdx (tileAfter s r t).acc w org d (wfld r.tx 0 32) (wfld r.ty 0 32)).map fun x => x.2
        let own := ownPlaces (coreOf r) d xs
        if own.any fun q => !ownReach s r q.1 q.2 then trap s r cPool
        else if own.any fun q => (ownedSlot s (coreOf r) q.1 q.2).isSome then trap s r cOwner
        else issueMatrix s r r p.len { matrixCmd r w t (roundMode r p.rnd) p.sat with org := org, desc := d }
          (if dSpace d = 1 then none else some 1) (tileWaits s r t ++ elemHolds s r true d xs) .lat .lat 0 0

/-- The word of an mst from its fields (R379). -/
def mstWord (c : BitVec 2) (a : BitVec 3) (b : BitVec 5) (f : BitVec 4) (z l t : BitVec 1) : Nat :=
  xWord 44 c.toNat a.toNat b.toNat 3 f.toNat (2 * z.toNat + 4 * l.toNat + 16 * t.toNat)

def execMst (c : BitVec 2) (a : BitVec 3) (b : BitVec 5) (f : BitVec 4) (z l t : BitVec 1) (s : State) :=
  mstUnit noPfx (mstWord c a b f z l t) s

/-- msc and msc.e8m0 (R384): the scale bytes are its operand. -/
def mscUnit (e8 : Bool) (c : BitVec 2) (a : BitVec 5) (s : State) : Host.Outcome State Fault Refusal :=
  issueUnit s true (fun _ => sNames [a.toNat]) (fun _ => []) fun r =>
    let p := wfld (sreg r a.toNat) 0 18
    let n := if e8 then 1024 else 512
    match r.tiles[c.toNat]? with
    | none => trap s r cIllegal
    | some t =>
      if p % 512 != 0 then trap s r cAlign
      else if !ownReach s r p n then trap s r cPool
      else issueMatrix s r r 4 (matrixCmd r (xWord 44 c.toNat a.toNat e8.toNat 4 0 0) t 0 true) none
        (lateHolds s r (65536 * t) 65536 true ++ poolHolds s r p n false) .lat .lat p n

def execMsc (c : BitVec 2) (a : BitVec 5) (s : State) := mscUnit false c a s
def execMscE8m0 (c : BitVec 2) (a : BitVec 5) (s : State) := mscUnit true c a s

/-! ### Accumulation -/

/-- An exact sum of terms (R218, R219): with a window, every term is first truncated toward zero to a multiple of
2^(h − window), 2^h the weight of the largest term's first bit. Any NaN, or infinities of both signs, are invalid; a zero
sum is −0 only when every term is −0, or in mode 2. -/
def sumTerms (window : Option Nat) (ts : List FVal) (mode : Nat) : FVal × Nat :=
  let infs := ts.filterMap fun t => match t with
    | .inf n => some n
    | _ => none
  if ts.any FVal.isNan then (.nan false, evNV)
  else match infs with
    | n :: r => if r.all fun x => x == n then (.inf n, 0) else (.nan false, evNV)
    | [] =>
      let nums := ts.filterMap fun t => match t with
        | .num n m => if m.isZero then none else some (n, m)
        | _ => none
      let expOf (m : Mag) : Int := match m with
        | .dy _ e => e
        | m => m.log2
      let q : Int := match nums with
        | [] => 0
        | x :: r => match window with
          | some w => r.foldl (fun h y => max h y.2.log2) x.2.log2 - (w : Int)
          | none => r.foldl (fun h y => min h (expOf y.2)) (expOf x.2)
      let v : Int := nums.foldl (fun v x => let t : Int := (x.2.floorAt q).1; if x.1 then v - t else v + t) 0
      if v = 0 then
        (.num (mode == 2 || ts.all fun t => match t with
          | .num n m => n && m.isZero
          | _ => false) (.dy 0 0), 0)
      else (.num (v < 0) (.dy v.natAbs q), 0)

/-- Accumulate (R218 to R220): the accumulator element c, the products' factors, and the scales of row i: none, an FP32
factor, or one factor for each block of 32. Result bits and events (DEDUCED, log 16). -/
def accumulate (sh : Shape) (c : Nat) (xs ys : List Nat) (scale : Option (List FVal)) (mode : Nat) (sat : Bool) (u : Nat) :
    Nat × Nat :=
  if sh.acc = 2 then
    let v := (xs.zip ys).foldl (fun (v : Int) (p : Nat × Nat) => v + intVal sh.ta p.1 * intVal sh.tb p.2) (intVal 4 c)
    intConvert 4 false (.num (v < 0) (.dy v.natAbs 0)) 0 sat 0
  else
    let t := accType sh.acc
    let prods := (xs.zip ys).map fun p => (fMul (valOf sh.ta p.1) (valOf sh.tb p.2)).1
    let window := if sh.scl != 0 then none else if sh.acc = 1 then some 159 else some 95
    let r := match scale with
      | none => sumTerms window (valOf t c :: prods) mode
      | some sc =>
        if sh.scl = 1 then
          sumTerms none [valOf t c, (fMul (sumTerms none prods mode).1 (sc.getD 0 (.nan false))).1] mode
        else sumTerms none (valOf t c :: (prods.zipIdx).map fun (p : FVal × Nat) => (fMul p.1 (sc.getD (p.2 / 32) (.nan false))).1) mode
    match fmtOf t with
    | some k =>
      let (b, ev) := k.convert r.1 mode sat u
      (b, ev ||| r.2)
    | none => (0, 0)

/-- The scales of row i of a scaled step (R377): sa_i × sw, or the products of the block scales. -/
def rowScales (sh : Shape) (scl : List Byte) (scale : Word) (i : Nat) : List FVal :=
  if sh.scl = 1 then
    [(fMul (valOf 9 (ofBytes ((scl.drop (4 * i)).take 4))) (valOf 9 (wfld scale 0 32))).1]
  else (List.range (sh.k / 32)).map fun b =>
    (fMul (scaleVal true (scl.getD (8 * i + b) 0).toNat) (scaleVal true (wfld scale (8 * b) 8))).1

/-- The written lanes of one tile row: every lane's bits, and the events of those written (R377). -/
def mmaRow (sh : Shape) (w core base cols : Nat) (mode : Nat) (sat : Bool) (old : Nat) (x : List Nat) (bcols : List (List Nat))
    (sc : Option (List FVal)) : List (Nat × Option Nat) :=
  (bcols.zipIdx).map fun b =>
    let c := lane (accWidth sh.acc) old b.2
    if cols ≤ b.2 then (c, none)
    else
      let r := accumulate sh (if xZf w then 0 else c) x b.1 sc mode sat (drawAt core (base + b.2))
      (r.1, some r.2)

/-- The elements of a K × N operand by columns. -/
def columns (k n : Nat) (b : List Nat) : List (List Nat) :=
  let arr := b.toArray
  (List.range n).map fun j => (List.range k).map fun x => arr.getD (x * n + j) 0

/-- One row of an mma performed: the state and the events so far. -/
def mmaStep (sh : Shape) (core : Nat) (m : MatrixCmd) (bcols : List (List Nat)) (scl : List Byte)
    (p : State × List Nat) (i : Nat) : State × List Nat :=
  if xClip m.word && m.ty ≤ i then p
  else
    let s := p.1
    let at' := pool core (65536 * m.tile + 512 * i)
    let cols := if xClip m.word then min sh.n m.tx else sh.n
    let sc := if xSC m.word then some (rowScales sh scl m.scale i) else none
    let row := mmaRow sh m.word core (coreAt s core).draws cols m.rnd m.sat (readN s.mem at' 512)
      ((m.a.drop (i * sh.k)).take sh.k) bcols sc
    let s := useDraws s core m.rnd cols
    ({ s with mem := writeN s.mem at' 512 (ofLanes (accWidth sh.acc) (row.map fun r => r.1)) },
      p.2 ++ row.filterMap fun r => r.2)

/-- An mma performed with its operand B: new state and events (R377). -/
def mmaPerform (s : State) (core : Nat) (m : MatrixCmd) (b : List Nat) : State × List Nat :=
  let sh := shapeOf (xMajor m.word)
  let bcols := columns sh.k sh.n b
  let scl := readBytes s.mem (scaleLatch core m.tile 0) 1024
  let (s, evs) := (List.range 128).foldl (mmaStep sh core m bcols scl) (s, [])
  (setTile s core m.tile (latchStep (tileAt s core m.tile) m.word m.etype), evs)

/-! ### Latches and the ring -/

/-- Activations that run or are suspended. -/
def allActs (s : State) : List Act := s.acts.map (fun e => e.2) ++ s.cores.flatMap fun c => c.2.susp.map fun x => x.2.act

/-- The member at a column of the row of a place in a gang, running or suspended (R375). -/
def memberAt (s : State) (q : Place) (gx : Nat) : Option Act :=
  q.gang.bind fun g => (allActs s).find? fun e => e.gang = some g && e.gx = gx && e.gy = q.gy

/-- The member that a command's ring step exchanges with (R375): a member of its gang; without a gang the activation is its own neighbour. -/
def ringMember (s : State) (who : Option Act) (q : Place) (gx : Nat) : Option Act :=
  if q.gang.isNone then who else memberAt s q gx

/-- Is the state of a tile of a suspended activation saved (R376)? -/
def tileSaved (s : State) (a : Act) (t : Nat) : Bool :=
  (coreAt s (coreOf a)).susp.any fun x => x.2.act.uid = a.uid && x.2.savedTiles.any fun y => y.1 = t

/-- Columns of the east and west members. -/
def eastCol (q : Place) : Nat := (q.gx + 1) % q.gw
def westCol (q : Place) : Nat := (q.gx + q.gw - 1) % q.gw

/-- The elements of a packed latch. -/
def latchElems (s : State) (core t ty n : Nat) : List Nat :=
  let bits := ofBytes (readBytes s.mem (latch core t 0) 16384)
  (List.range n).map fun e => fld bits (e * tWidth ty) (tWidth ty)

/-- Elements packed as a circular buffer packs them (R374); the latch keeps this form (DESIGN CHOICE, log 30). -/
def packElems (ty : Nat) (xs : List Nat) : List Byte :=
  toBytes ((xs.length * tWidth ty + 7) / 8) (ofLanes (tWidth ty) xs)

/-- The operand of the latch goes to the east member's incoming buffer; a member that has ended gets nothing (R375). -/
def sendEast (s : State) (who : Option Act) (core : Nat) (m : MatrixCmd) : State :=
  match ringMember s who m.place (eastCol m.place) with
  | none => s
  | some e =>
    match e.tiles[m.name]? with
    | none => s
    | some t =>
      let c := coreOf e
      let s := { s with mem := copyBytes s.mem (incoming c t 0) (latch core m.tile 0) 16384 }
      setTile s c t { tileAt s c t with inFull := true, inTy := (tileAt s core m.tile).ty }

/-- May a ring step send now (R375, R376)? -/
def eastRoom (s : State) (who : Option Act) (m : MatrixCmd) : Bool :=
  match ringMember s who m.place (eastCol m.place) with
  | none => true
  | some e => match e.tiles[m.name]? with
    | none => true
    | some t => !tileSaved s e t && !(tileAt s (coreOf e) t).inFull

/-- An mma on operand B of its command, or of the latch with its waits and its ring send (R375, R377). Its neighbours are those of the place of the
activation that issued it, which may have ended (R192); with no west member no operand will come (R158). -/
def mmaCommand (s : State) (core : Nat) (who : Option Act) (m : MatrixCmd) : Io (List Nat) :=
  let sh := shapeOf (xMajor m.word)
  if xBK m.word != 2 then
    let (s, evs) := mmaPerform s core m m.b
    .ok evs s
  else
    let t := tileAt s core m.tile
    if t.st = 1 then
      if !t.inFull && (ringMember s who m.place (westCol m.place)).isNone then .err cIllegal s else .wait
    else if t.st = 0 ∨ t.ty != sh.tb then .err cIllegal s
    else if xRing m.word && !eastRoom s who m then .wait
    else
      let b := latchElems s core m.tile sh.tb (sh.k * sh.n)
      let s := if xRing m.word then sendEast s who core m else s
      let (s, evs) := mmaPerform s core m b
      .ok evs s

/-- The elements of a far mld (R381). -/
def mldFar (f : Flight) (m : MatrixCmd) (s : State) : Io (List Nat) :=
  ioMap (fun (e : Nat × Nat) s =>
    let i := mldIdx m.word m.org e.1 e.2
    if insideDesc m.desc i then readElem f m.desc i s else .ok 0 s) (latchIdx m.etype) s

/-- The operand of an mld is in the latch (R375, R381). -/
def mldDone (s : State) (core : Nat) (m : MatrixCmd) (xs : List Nat) : State :=
  let s := { s with mem := writeBytes s.mem (latch core m.tile 0) (packElems m.etype xs) }
  setTile s core m.tile (latchStep (tileAt s core m.tile) m.word m.etype)

/-- Does an mst write every element of the group of one (R383)? -/
def mstWhole (acc : Nat) (m : MatrixCmd) (x : Nat × Nat) : Bool :=
  let k := if xTr m.word then x.1 else x.2
  let lim := if xTr m.word then min 128 (if xClip m.word then m.ty else 128)
    else min (accLanes acc) (if xClip m.word then m.tx else 128)
  groupBelow (dEtype m.desc) k lim && groupBelow (dEtype m.desc) (org0 m.org + k) (dSize m.desc 0)

/-- One element of an mst (R383): its exact scaled value, converted once and written. -/
def mstElem (f : Flight) (core acc : Nat) (m : MatrixCmd) (x : (Nat × Nat) × Idx) (s : State) : Io Nat :=
  let t := accType acc
  let v := valOf t (lane (accWidth acc) (readN s.mem (pool core (65536 * m.tile + 512 * x.1.1)) 512) x.1.2)
  let ts := if acc = 1 then valOf 10 m.scale.toNat else valOf 9 (wfld m.scale 0 32)
  let r := fMul v ts
  let u := drawAt core (coreAt s core).draws
  let (b, ev) := convert (dEtype m.desc) true r.1 m.rnd m.sat u
  (writeElem f m.desc x.2 b (mstWhole acc m x.1) (useDraws s core m.rnd 1)).andThen fun _ s => .ok (ev ||| r.2 ||| sigEv [v, ts]) s

/-- mst performed (R383): every element in turn, then the zero-first clear. -/
def mstCommand (f : Flight) (s : State) (core : Nat) (m : MatrixCmd) : Io (List Nat) :=
  let acc := (tileAt s core m.tile).acc
  (ioMap (mstElem f core acc m) (mstIdx acc m.word m.org m.desc m.tx m.ty) s).andThen fun evs s =>
    .ok evs (if xZf m.word then { s with mem := writeBytes s.mem (pool core (65536 * m.tile)) (List.replicate 65536 0) } else s)

/-- What a matrix command does, with the events it raises. -/
def matrixPerform (f : Flight) (s : State) (core : Nat) (who : Option Act) (m : MatrixCmd) : Io (List Nat) :=
  if isMma m.word then mmaCommand s core who m
  else if xSub m.word = 0 then
    .ok [] { s with mem := writeBytes s.mem (pool core (65536 * m.tile)) (List.replicate 65536 0) }
  else if xSub m.word = 3 then mstCommand f s core m
  else if xSub m.word = 4 then
    let s := { s with mem := writeBytes s.mem (scaleLatch core m.tile 0) (m.a.map fun b => BitVec.ofNat 8 b) }
    .ok [] (setTile s core m.tile (latchStep (tileAt s core m.tile) m.word 0))
  else if m.desc = 0 then .ok [] (mldDone s core m m.a)
  else (mldFar f m s).andThen fun xs s => .ok [] (mldDone s core m xs)

/-- The first command leaves the matrix unit's queue; the slots of its copy return (R80). -/
def popMatrix (s : State) (core : Nat) (m : MatrixCmd) : State :=
  let c := coreAt s core
  let s := setCore s core { c with matQ := c.matQ.drop 1 }
  match m.chain with
  | some (_, slots) => countDown s core slots
  | none => s

/-- The first command is changed. -/
def setMatrixHead (s : State) (core : Nat) (m : MatrixCmd) : State :=
  let c := coreAt s core
  setCore s core { c with matQ := m :: c.matQ.drop 1 }

/-- The matrix unit takes the next command (R371), whether or not its activation still runs (R188, R192). A command whose operation was
discarded leaves the queue (DEDUCED, log 14). -/
def execMatrixCommandStart (core : Nat) (s : State) : Host.Outcome State Fault Refusal :=
  match (coreAt s core).matQ with
  | [] => .next s
  | m :: _ =>
    match flightById s m.id with
    | some f => if m.started ∨ f.stage != .sent then .next s else .next (setMatrixHead s core { m with started := true })
    | none => .next (popMatrix s core m)

/-- A matrix command completes (R371, R375, R390): its results are written, its events are delivered, and a charged event
of an XTRAP class traps. A command that must wait changes nothing. -/
def execMatrixCommandComplete (core : Nat) (s : State) : Host.Outcome State Fault Refusal :=
  match (coreAt s core).matQ with
  | [] => .next s
  | m :: _ =>
    match flightById s m.id with
    | some f =>
      if !m.started then .next s
      else match matrixPerform f s core (actByUid s m.uid) m with
        | .wait => .next s
        | .fault r s => .next (setFlight (setMatrixHead s core { m with started := false }) { f with stage := .nack r })
        | .err c s =>
          let s := dropFlight (popMatrix s core m) f.id
          .next (if m.chain.isSome then commandError s core f.uid f.pc (if c = 0 then 0 else cIllegal) else errorTrap s f.uid f.pc c)
        | .ok evs s => .next (endOp (chargeEvents (popMatrix s core m) core f.uid m.cls f.pc evs) f)
    | none => .next (popMatrix s core m)

/-- An operand in an incoming buffer moves into an empty latch with its type (R375). -/
def execLatchMoveIn (core t : Nat) (s : State) : Host.Outcome State Fault Refusal :=
  let x := tileAt s core t
  if x.st = 1 ∧ x.inFull then
    let s := { s with mem := copyBytes s.mem (latch core t 0) (incoming core t 0) 16384 }
    .next (setTile s core t { x with st := 2, ty := x.inTy, inFull := false })
  else .next s

/-! ### cpy.chain and the copy engine's completion -/

/-- cpy.chain (R390): the checks of the follow-on are made now, its registers are read and its rings popped now (DESIGN CHOICE, log 15); its traps
are those of R377 and R378, beside R403's list (DEDUCED, log 61). -/
def execCpyChain (a : BitVec 5) (s : State) : Host.Outcome State Fault Refusal :=
  issueUnit s true (fun _ => sNames [a.toNat]) (fun _ => []) fun r =>
    let w := wfld (sreg r a.toNat) 0 32
    let fs := pending s r (mmaReads w)
    if !(w % 2 = 1 && isMma w && xChain w && mmaFields w) then trap s r cIllegal
    else if !fs.isEmpty then block s r (waitFor fs)
    else match mmaTrap s r w with
      | some c => trap s r c
      | none =>
        let sh := shadowOf s r
        let mine := (namedSlots s (coreOf r) sh false).getD []
        let t := r.tiles.getD (xAcc w) 0
        let rs := mmaRanges w (mmaSrcA r w) (mmaSrcB r w)
        let ids := tileWaits s r t ++ rangeHolds s r false rs
        if copyMalformed sh || (namedSlots s (coreOf r) sh false).isNone then queueCopy s r r sh none []
        else if !waitOver s { r with wait := .chain t } then block s r (.chain t)
        else match ringStall r w with
          | some wt => block s r wt
          | none => match (if ids.isEmpty then ownedIn s (coreOf r) rs mine else none) with
            | some k => block s r (.poolSlot k false)
            | none =>
              queueCopy s r (mmaPops r w) sh (some
                { word := w, rnd := wfld r.regs.fcr 0 3, tile := t, a := mmaSrcA r w, b := mmaSrcB r w,
                  scale := freg r (xFs w), tx := wfld r.tx 0 32, ty := wfld r.ty 0 32, place := ⟨r.gang, r.gx, r.gy, r.gw⟩ }) ids

/-- The follow-on of a completed copy enters the matrix unit's queue with its operands (R390). The copy's operation on its path goes on
with it, since its slots are counted down only at its end (R51, R80). -/
def enterFollow (s : State) (core : Nat) (c : CopyCmd) (f : Flight) (x : Follow) : State :=
  let m : MatrixCmd :=
    { id := f.id, uid := c.uid, word := x.word, rnd := x.rnd, sat := true, tile := x.tile, name := xAcc x.word, etype := 0, a := [], b := [],
      scale := x.scale, org := 0, desc := 0, tx := x.tx, ty := x.ty, asid := c.asid, gen := c.gen, cls := c.cls,
      chain := some (c.id, c.slots), started := false, place := x.place }
  enqueue s core (takeOperands s core m x.a x.b 0 0)

/-- May the follow-on enter (R371, R374): the queue has room and no operand byte is in a slot of another command? -/
def followReady (s : State) (core : Nat) (c : CopyCmd) (x : Follow) : Bool :=
  (coreAt s core).matQ.length < 8 && (ownedIn s core (mmaRanges x.word x.a x.b) c.slots).isNone

/-- Is the first command of a copy engine due: active, and its follow-on able to enter? -/
def copyDue (s : State) (core : Nat) (c : CopyCmd) : Bool :=
  c.active && (match c.follow with
    | some x => followReady s core c x
    | none => true)

/-- A copy-engine command completes (R386, R387, R390, R328): its writes are performed, its slots counted down or kept for
its follow-on, its events counted, its arrival sent. -/
def execCopyCommandComplete (core : Nat) (s : State) : Host.Outcome State Fault Refusal :=
  match (coreAt s core).copyQ with
  | [] => .next s
  | c :: _ =>
    match flightById s c.id with
    | none => .next (countDown (popCopy s core) core c.slots)
    | some f =>
      if !copyDue s core c then .next s
      else match performCommand f c s with
        | .wait => .next s
        | .fault r s => .next (setFlight (setHead s core { c with active := false }) { f with stage := .nack r })
        | .err k s => .next (copyError s core c f k)
        | .ok evs s =>
          let s := popCopy s core
          let s := match c.follow with
            | some x => enterFollow s core c f x
            | none => countDown s core c.slots
          let s := chargeEvents s core f.uid c.cls f.pc evs
          let s := if c.kind < 2 then sendJoin s f c.shadow else s
          .next (if c.follow.isSome then s else endOp s f)

end Sys2Proof.Machine
end

