-- ==== Sys2Proof/Machine/Group.lean ====
section
/-! DEFINITION. Merge instructions (R103 to R107, R392 to R396), transaction instructions (R121 to R124, R137, R397) and
network commands (R398 to R402), as the core issues them, and the VX prefix (R262 to R265). -/
namespace Sys2Proof.Machine

/-! ### Merge instructions -/

/-- The group that bim.open names (R103, R393): the generation is raised by the replay count. -/
def groupOf (a : Act) (dom : Nat) (w : Word) : GroupId where
  dom := dom
  contrib := wfld w 0 16
  group := wfld w 16 24
  gen := (wfld w 40 8 + a.task.rc) % 256

/-- bim.open (R393). -/
def execBimOpen (a b : BitVec 5) (m : BitVec 4) (s : State) : Host.Outcome State Fault Refusal :=
  issueUnit s true (fun _ => sNames [a.toNat, b.toNat]) (fun _ => []) fun r =>
    let rows := (sreg r b.toNat).toNat
    if r.group.isSome then trap s r cMerge
    else if rows = 0 ∨ 4096 < rows then trap s r cIllegal
    else withSlot s r <|
      let g := groupOf r m.toNat (sreg r a.toNat)
      issueOp (retire s { r with group := some { g := g, acks := [], members := [], opened := false } } 4)
        (messageOp r none none (.mopen g rows (dieOfCore (coreOf r))))

/-- bim.push (R106, R394): the pool row is read at issue (DESIGN CHOICE, log 11). -/
def execBimPush (a b : BitVec 5) (s : State) : Host.Outcome State Fault Refusal :=
  issueUnit s true (fun _ => sNames [a.toNat, b.toNat]) (fun _ => []) fun r =>
    let p := wfld (sreg r b.toNat) 0 18
    let ad := (sreg r a.toNat).toNat
    match r.group with
    | none => trap s r cMerge
    | some o =>
      if p % 512 != 0 ∨ ad % 512 != 0 then trap s r cAlign
      else if !ownReach s r p 512 then trap s r cPool
      else
        let op (row : List Byte) : Flight := opOf r (some 2) .red ad 512 (.push row o.g) .none
        lateUnit s r (op []) (poolHolds s r p 512 false) (.push p) (p, 512) fun s =>
          issueOp (retire s r 4) (op (readBytes s.mem (pool (coreOf r) p) 512))

/-- bim.close (R107, R395): the open group becomes the closing group. -/
def execBimClose (s : State) : Host.Outcome State Fault Refusal :=
  issueUnit s true (fun _ => []) (fun _ => []) fun r =>
    match r.group with
    | none => trap s r cMerge
    | some o => withSlot s r (issueOp (retire s { r with group := none, closing := r.closing ++ [o] } 4)
        (messageOp r (some 2) none (.mclose o.g)))

/-- bim.wait (R396): the word is read, and the activation parks until it reaches the target. -/
def execBimWait (d a b : BitVec 5) (s : State) : Host.Outcome State Fault Refusal :=
  issueUnit s true (fun _ => sNames [a.toNat, b.toNat]) (fun _ => sNames [d.toNat]) fun r =>
    let ad := (sreg r a.toNat).toNat
    if ad % 8 != 0 then trap s r cAlign
    else withSlot s r (issueOp (block s r (.bimWait s.nextId s.now ad d.toNat (sreg r b.toNat)))
      (opOf r none .load ad 8 .load (.bimWait d.toNat (sreg r b.toNat))))

/-! ### Transaction instructions -/

/-- The declaration buffer with one more tile (R122); none when it would be a 17th. -/
def declare (l : List (Nat × Bool)) (tile : Nat) (w : Bool) : Option (List (Nat × Bool)) :=
  if l.any fun e => e.1 = tile then some (l.map fun e => if e.1 = tile then (e.1, e.2 || w) else e)
  else if l.length < 16 then some (l ++ [(tile, w)])
  else none

/-- oft.decl (R122): the tile of an address, bits [56:12]. -/
def execOftDecl (a : BitVec 5) (w : BitVec 1) (s : State) : Host.Outcome State Fault Refusal :=
  issueUnit s true (fun _ => sNames [a.toNat]) (fun _ => []) fun r =>
    match declare r.decl ((sreg r a.toNat).toNat % 2 ^ 57 / 4096 * 4096) (w.toNat = 1) with
    | some l => retire s { r with decl := l } 4
    | none => trap s r cDeclFull

/-- oft.sub (R123): with an empty buffer a declaration trap, after the one for its descriptor's alignment (DESIGN CHOICE, log 58); else the
descriptor's read. -/
def execOftSub (d a : BitVec 5) (s : State) : Host.Outcome State Fault Refusal :=
  issueUnit s true (fun _ => sNames [a.toNat]) (fun _ => sNames [d.toNat]) fun r =>
    let ad := (sreg r a.toNat).toNat
    if ad % 64 != 0 then trap s r cAlign
    else if r.decl.isEmpty then trap s r cDecl
    else readAndPark s r ad 64 (.oftSub d.toNat)

/-- oft.rel (R137): parks until paths 1 to 3 are complete, then the transaction ends. -/
def execOftRel (s : State) : Host.Outcome State Fault Refusal :=
  issueUnit s true (fun _ => []) (fun _ => []) fun r =>
    if r.txn.isNone then trap s r cTxn
    else if waitOver s { r with wait := .oftRel } then retire (endTxn s r false) { r with txn := none } 4
    else block s r .oftRel

/-! ### Network commands -/

/-- Key of the ring sequencer of an activation's die and a panel port. -/
def seqOf (a : Act) (p : Nat) : Nat := coreOf a / 256 * 2 + p

/-- coll.go (R238, R399): a release at system scope; it stalls while 4 programs are queued. -/
def execCollGo (a : BitVec 5) (p : BitVec 1) (s : State) : Host.Outcome State Fault Refusal :=
  issueUnit s true (fun _ => sNames [a.toNat]) (fun _ => []) fun r =>
    let q := seqOf r p.toNat
    if !waitOver s { r with wait := .collRoom q } then block s r (.collRoom q)
    else withSlot s r (issueOp (retire s r 4)
      (messageOp r none (some 4) (.coll q ((sreg r a.toNat).toNat % 2 ^ 57) r.task.asid r.task.gen)))

/-- topk.send (R245, R400): eight entries of the own pool, read at issue (DESIGN CHOICE, log 11); the pool-bounds trap is R45's, beside R403's
list (DEDUCED, log 61). -/
def execTopkSend (a b : BitVec 5) (s : State) : Host.Outcome State Fault Refusal :=
  issueUnit s true (fun _ => sNames [a.toNat, b.toNat]) (fun _ => []) fun r =>
    let p := wfld (sreg r a.toNat) 0 18
    let core := coreOf r
    if p % 8 != 0 then trap s r cAlign
    else if !ownReach s r p 64 then trap s r cPool
    else
      let g := wfld (sreg r b.toNat) 32 4
      let t := wfld (sreg r b.toNat) 0 32
      let op (l : List Word) : Flight := messageOp r (some 3) none (.topk (dieOf r) g t (numOfCore core) l)
      if !mergeRoom (dieAt s (dieOf r)) g t then block s r (.topkRoom (dieOf r) g t)
      else lateUnit s r (op []) (poolHolds s r p 64 false) (.list p) (p, 64) fun s =>
        issueOp (retire s r 4) (op (wordsOf 8 (readBytes s.mem (pool core p) 64)))

/-- Sender number of an activation's cluster (R249, R401). -/
def senderOf (a : Act) : Nat := 16 * dieOfCore (coreOf a) + clusOfNum (numOfCore (coreOf a))

/-- slot.claim (R401). -/
def execSlotClaim (d a b : BitVec 5) (s : State) : Host.Outcome State Fault Refusal :=
  issueUnit s true (fun _ => sNames [a.toNat, b.toNat]) (fun _ => sNames [d.toNat]) fun r =>
    let ad := (sreg r a.toNat).toNat
    if ad % 64 != 0 then trap s r cAlign
    else issueAccess s r 0 none .mobj ad 64 (.claim (wfld (sreg r b.toNat) 0 8) (senderOf r)) (.sreg d.toNat 8 false) 4

/-- slot.ret (R401): with rows it is a release at system scope. -/
def execSlotRet (a b : BitVec 5) (s : State) : Host.Outcome State Fault Refusal :=
  issueUnit s true (fun _ => sNames [a.toNat, b.toNat]) (fun _ => []) fun r =>
    let ad := (sreg r a.toNat).toNat
    let w := sreg r b.toNat
    let n := wfld w 0 12
    if ad % 64 != 0 then trap s r cAlign
    else withSlot s r (issueOp (retire s r 4)
      { opOf r (some 1) .mobj ad 64 (.slotRet (wfld w 12 45 * 4096) n) .none with
        stage := if n = 0 then .held else .relWait 4 })

/-- ctr.snap (R248, R402). -/
def execCtrSnap (a b : BitVec 5) (s : State) : Host.Outcome State Fault Refusal :=
  issueUnit s true (fun _ => sNames [a.toNat, b.toNat]) (fun _ => []) fun r =>
    let ad := (sreg r a.toNat).toNat
    let w := sreg r b.toNat
    if ad % 64 != 0 then trap s r cAlign
    else withSlot s r (issueOp (retire s r 4)
      { opOf r (some 1) .store ad 1024 (.snap (dieKey (pkgOfCore (coreOf r)) (wfld w 4 3)) (wfld w 0 2)) .none with
        stage := .held })

/-! ### Operations that read the own pool once earlier ones are done -/

/-- The own-pool bytes that a held operation has still to read. -/
def lateBytes (core : Nat) : Late → List (Nat × Nat)
  | .matrix m x y p n => takeRanges core m x y p n
  | l => l.reads

/-- Is an activation parked on a fault (R189)? -/
def parkedOnFault (s : State) (uid : Nat) : Bool := match actByUid s uid with
  | some a => (match a.wait with
    | .fault .. => true
    | _ => false)
  | none => false

/-- Must a held operation go on waiting: its activation is parked on a fault, an earlier operation is not done (R328), or a slot that it reads is
engine-owned (R47)? -/
def lateWaits (s : State) (f : Flight) (l : Late) : Bool :=
  f.stage != .held || parkedOnFault s f.uid || (s.flights.any fun g => f.holds.contains g.id) ||
    (ownedIn s (flightCore f) (lateBytes (flightCore f) l) []).isSome

/-- A held operation reads its own-pool bytes and leaves, as it would have at its issue (R328): a matrix command for its unit's queue, when that
has room (R371); the events of a conversion are charged (R227). -/
def lateStep (s : State) (f : Flight) (l : Late) : State :=
  let core := flightCore f
  let bytes (p n : Nat) := readBytes s.mem (pool core p) n
  let go (s : State) (pay : Pay) (wire : Option (Nat × List Nat)) : State :=
    pump (setFlight s { f with late := none, pay := pay, wire := wire }) f.uid
  if lateWaits s f l then s
  else match l, f.pay with
    | .send src n typed lt wt, _ =>
      let p := sendPayload typed lt wt (bytes src n)
      chargeEvents (go s (.store p.1) p.2.1) core f.uid f.cls f.pc p.2.2
    | .push p, .push _ g => go s (.push (bytes p 512) g) none
    | .list p, .topk d g t c _ => go s (.topk d g t c (wordsOf 8 (bytes p 64))) none
    | .matrix m x y p n, _ =>
      if 8 ≤ (coreAt s core).matQ.length then s else go (enqueue s core (takeOperands s core m x y p n)) f.pay none
    | _, _ => s

end Sys2Proof.Machine
end

