-- ==== Sys2Proof/Machine/Fetch.lean ====
section
/-! DEFINITION. Routine fetch (R203, R204, R206): the lines of a core's routine store and the bytes of a unit; and the VX
prefix with the instruction it governs (R262 to R265). -/
namespace Sys2Proof.Machine

/-- The bytes of a line of an activation's image in its core's routine store (R203). -/
def lineBytes (c : Core) (a : Act) (off : Nat) : Option (List Byte) :=
  (c.lines.find? fun l => l.1 = a.task.asid && l.2.1 = a.task.gen && l.2.2.1 = classOf a && l.2.2.2.1 = off).map
    fun l => l.2.2.2.2

/-- Lies a range of bytes inside the image (R206)? -/
def inImage (a : Act) (ad n : Nat) : Bool := a.cls.img ≤ ad && ad + n ≤ a.cls.img + a.cls.len

/-- Offset of an address in the image. -/
def codeOff (a : Act) (ad : Nat) : Nat := ad - a.cls.img

/-- The first line of n bytes that the routine store does not hold. -/
def missingLine (s : State) (a : Act) (ad n : Nat) : Option Nat :=
  [codeOff a ad / 64 * 64, (codeOff a ad + n - 1) / 64 * 64].find? fun l => (lineBytes (coreAt s (coreOf a)) a l).isNone

/-- A byte of the image from the routine store. -/
def codeByte (c : Core) (a : Act) (ad : Nat) : Byte :=
  ((lineBytes c a (codeOff a ad / 64 * 64)).getD []).getD (codeOff a ad % 64) 0

/-- n bytes of the image from the routine store. -/
def codeBytes (s : State) (a : Act) (ad n : Nat) : List Byte :=
  (List.range n).map fun i => codeByte (coreAt s (coreOf a)) a (ad + i)

/-- A missing line is fetched with kind FETCH (R203); the activation waits for it. -/
def fetchLine (s : State) (a : Act) (off : Nat) : State :=
  match s.flights.find? fun f => f.uid = a.uid && f.dst == .line (classOf a) off with
  | some f => block s a (.line f.id)
  | none => issueOp (block s a (.line s.nextId))
      { opOf a none .fetch (a.cls.img + off) 64 .fetch (.line (classOf a) off) with slot := false }

/-- n bytes of the image for a unit: a fetch outside the image traps (R206), a missing line is fetched first (R204). -/
def withCode (s : State) (a : Act) (ad n : Nat) (k : List Byte → Host.Outcome State Fault Refusal) :
    Host.Outcome State Fault Refusal :=
  if !inImage a ad n then .next (trap s a cFetch)
  else match missingLine s a ad n with
    | some off => .next (fetchLine s a off)
    | none => k (codeBytes s a ad n)

/-- The instructions that accept a prefix (R263), run under it; any other traps (R264). -/
def governed (p : Pfx) (i : Instr) (s : State) : Host.Outcome State Fault Refusal :=
  match i with
  | .vadd d a b t => vaddUnit p d a b t s
  | .vsub d a b t => vsubUnit p d a b t s
  | .vmul d a b t => vmulUnit p d a b t s
  | .vfma d a b t => vfmaUnit p d a b t s
  | .vfms d a b t => vfmsUnit p d a b t s
  | .vfnma d a b t => vfnmaUnit p d a b t s
  | .vdiv d a b t => vdivUnit p d a b t s
  | .vsqrt d a t => vsqrtUnit p d a t s
  | .vrcp d a t => vrcpUnit p d a t s
  | .vrsqrt d a t => vrsqrtUnit p d a t s
  | .vexp2 d a t => vexp2Unit p d a t s
  | .vlog2 d a t => vlog2Unit p d a t s
  | .vtanh d a t => vtanhUnit p d a t s
  | .vsigm d a t => vsigmUnit p d a t s
  | .vsin d a t => vsinUnit p d a t s
  | .vcos d a t => vcosUnit p d a t s
  | .vmin d a b t => vminUnit p d a b t s
  | .vmax d a b t => vmaxUnit p d a b t s
  | .vabs d a t => vabsUnit p d a t s
  | .vneg d a t => vnegUnit p d a t s
  | .vand d a b t => vandUnit p d a b t s
  | .vor d a b t => vorUnit p d a b t s
  | .vxor d a b t => vxorUnit p d a b t s
  | .vnot d a t => vnotUnit p d a t s
  | .vshl d a b t => vshlUnit p d a b t s
  | .vshr d a b t => vshrUnit p d a b t s
  | .vsra d a b t => vsraUnit p d a b t s
  | .vcmp d a b t => vcmpUnit p d a b t s
  | .vsel d a b t => vselUnit p d a b t s
  | .vmov d a t => vmovUnit p d a t s
  | .vbcast d a t => vbcastUnit p d a t s
  | .vins d a b t => vinsUnit p d a b t s
  | .vext d a b t => vextUnit p d a b t s
  | .vcvt d a st t => vcvtUnit p d a st t s
  | .vquant d a b t => vquantUnit p d a b t s
  | .vdequant d a b t => vdequantUnit p d a b t s
  | .vredsum d a t => vredsumUnit p d a t s
  | .vredmax d a t => vredmaxUnit p d a t s
  | .vredmin d a t => vredminUnit p d a t s
  | .vredmaxi d a b t => vredmaxiUnit p d a b t s
  | .vredmini d a b t => vredminiUnit p d a b t s
  | .vscanAdd d a t => vscanAddUnit p d a t s
  | .vscanXor d a t => vscanXorUnit p d a t s
  | .vclmul d a b t => vclmulUnit p d a b t s
  | .vpopc d a t => vpopcUnit p d a t s
  | .vclz d a t => vclzUnit p d a t s
  | .vperm d a b t => vpermUnit p d a b t s
  | .vslide d a b t => vslideUnit p d a b t s
  | .vzip d a b t => vzipUnit p d a b t s
  | .vunzip d a b t => vunzipUnit p d a b t s
  | .mmaF64 c a b qs j k f r z l n => mmaUnit p (mmaWord 31 c a b qs j k f r z l n) s
  | .mmaF32 c a b qs j k f r z l n => mmaUnit p (mmaWord 32 c a b qs j k f r z l n) s
  | .mmaBf16 c a b qs j k f r z l n => mmaUnit p (mmaWord 33 c a b qs j k f r z l n) s
  | .mmaF16 c a b qs j k f r z l n => mmaUnit p (mmaWord 34 c a b qs j k f r z l n) s
  | .mmaE4e4 c a b qs j k f r z l n => mmaUnit p (mmaWord 35 c a b qs j k f r z l n) s
  | .mmaE4e5 c a b qs j k f r z l n => mmaUnit p (mmaWord 36 c a b qs j k f r z l n) s
  | .mmaE5e4 c a b qs j k f r z l n => mmaUnit p (mmaWord 37 c a b qs j k f r z l n) s
  | .mmaE5e5 c a b qs j k f r z l n => mmaUnit p (mmaWord 38 c a b qs j k f r z l n) s
  | .mmaE3m2 c a b qs j k f r z l n => mmaUnit p (mmaWord 39 c a b qs j k f r z l n) s
  | .mmaE2m3 c a b qs j k f r z l n => mmaUnit p (mmaWord 40 c a b qs j k f r z l n) s
  | .mmaE2m1 c a b qs j k f r z l n => mmaUnit p (mmaWord 41 c a b qs j k f r z l n) s
  | .mmaI8 c a b qs j k f r z l n => mmaUnit p (mmaWord 42 c a b qs j k f r z l n) s
  | .mmaI4 c a b qs j k f r z l n => mmaUnit p (mmaWord 43 c a b qs j k f r z l n) s
  | .mst c a b f z l t => mstUnit p (mstWord c a b f z l t) s
  | _ => match actAt s s.cur with
    | some a => .next (trap s a cIllegal)
    | none => .next s

/-- The VX prefix and the instruction it governs, one unit at the prefix's address (R262 to R265). -/
def execVxPrefix (m : BitVec 3) (z : BitVec 1) (r : BitVec 3) (c : BitVec 5) (v qs : BitVec 1) (s : State) :
    Host.Outcome State Fault Refusal :=
  match actAt s s.cur with
  | none => .next s
  | some a =>
    if r.toNat = 7 then .next (trap s a cIllegal)
    else
      let ad := pcOf a + 4
      withCode s a ad 2 fun h =>
        if leNat h % 2 = 0 then .next (trap s a cIllegal)
        else withCode s a ad 4 fun w =>
          match decode32 (leNat w) with
          | none => .next (trap s a cIllegal)
          | some i => governed ⟨m.toNat, z.toNat = 1, r.toNat, c.toNat, v.toNat = 1, qs.toNat = 1, 8⟩ i s

end Sys2Proof.Machine
end

