-- ==== Sys2Proof/Machine/Mtu.lean ====
section
/-! DEFINITION. Requests at the owner (R8, R10 to R35, R53, R59, R69, R97, R99): translation, walks, forwarding, the ports,
windows, gang-core accesses, and the invalidation commands. -/
namespace Sys2Proof.Machine

/-! ### Translation -/

/-- The part of a flight's request that is not performed yet (R26). -/
def curReq (f : Flight) : Req := { f.req with va := (f.req.va + f.done) % 2 ^ 57, n := f.req.n - f.done }

/-- The die that issues a flight's request. -/
def srcDie (f : Flight) : Nat := dieKey f.req.src.pkg f.req.src.die

/-- A request ends in a fault record; a prefetch is dropped silently (R26). -/
def nackFlight (s0 : State) (f : Flight) (r : FRec) (s : State) : State :=
  if f.pay == .prf then endOp s0 f else setFlight s { f with stage := .nack r }

/-- A fault found by a unit for a flight. -/
def faultFlight (s : State) (dk : Nat) (f : Flight) (kind lvl : Nat) (entry : Word) : State :=
  let (r, s') := raiseFault s dk (curReq f) kind lvl (curReq f).va entry
  nackFlight s f r s'

/-- Dispatch of a translated request (R24, R25), after the check of grants (R131). -/
def dispatch (s : State) (dk : Nat) (f : Flight) (loc : Nat) (leaf : Word) (left : Nat) : State :=
  let q := curReq f
  let n := min q.n left
  if undeclared s dk q n then faultFlight s dk f 0x16 0 0
  else if f.pay == .prf then endOp s f
  else if leafAPER leaf = 1 then
    setFlight s { f with unit := dk, stage := .fwd (peerDie s dk leaf) (leafPa leaf (vaOff q.va)) n leaf }
  else setFlight s { f with unit := dk, stage := .port loc n (leafAPER leaf) leaf }

/-- What a translation makes of a flight. -/
def serve (s0 : State) (dk : Nat) (f : Flight) (t : Trans × State) : State :=
  match t with
  | (.fault r, s) => nackFlight s0 { f with unit := dk } r s
  | (.miss, s) => setFlight s { f with unit := dk, stage := .walking }
  | (.ok loc leaf left, s) => dispatch s dk f loc leaf left

/-- Entries that a translation unit's caches lose to make room (R10): the leaf, the pointer entries and the ASDT entry
that a request would use. -/
def dropCached (s : State) (dk : Nat) (q : Req) (tlb ptr asdt : Bool) : State :=
  let m := mtuAt s dk
  if !tlb && !ptr && !asdt then s
  else setMtu s dk { m with
    tlb := if tlb then m.tlb.filter fun t => !tlbHits q.asid q.gen (vaOff q.va) t else m.tlb
    ptrs := if ptr then m.ptrs.filter fun p => !(p.asid = q.asid && p.gen = q.gen && p.base = lvlPrefix p.lvl (vaOff q.va)) else m.ptrs
    asdts := if asdt then m.asdts.filter fun e => e.1 != q.asid else m.asdts }

/-- Requests that wait in the miss-coalescing table of a unit (R10, R11). -/
def walkersAt (s : State) (dk : Nat) : Nat := (s.flights.filter fun f => f.unit = dk && f.stage == .walking).length

/-- The walk that a request waits for (R11): its ASID, generation and 64 KiB page. -/
def walkKey (f : Flight) : Nat × Nat × Nat := ((curReq f).asid, (curReq f).gen, vaOff (curReq f).va / 65536)

/-- Has the walk that a request waits for one of the 256 walkers (R10, R11)? They serve the walks asked for first (DESIGN CHOICE, log 52). -/
def hasWalker (s : State) (f : Flight) : Bool :=
  ((((s.flights.filter fun g => g.unit = f.unit && g.stage == .walking).map walkKey).eraseDups.take 256).contains (walkKey f))

/-- TRANSLATE: a request is taken at the owner's unit (R7, R8, R26). An unroutable one ends at the issuing die; one that misses is held back
while the coalescing table is full (R11). -/
def execTranslate (id : Nat) (dropTlb dropPtr dropAsdt : Bool) (s : State) : Host.Outcome State Fault Refusal :=
  match flightById s id with
  | none => .next s
  | some f =>
    if f.stage != .sent ∨ !f.pay.isAccess ∨ f.gang.isSome then .next s
    else
      let q := curReq f
      match route s (srcDie f) q.va with
      | none => .next (faultFlight s (srcDie f) f 0x0D 0 0)
      | some dk =>
        if !pathTo s (srcDie f) dk then .next s
        else
          let s' := dropCached s dk q dropTlb dropPtr dropAsdt
          match translateReq s' dk q with
          | (.miss, t) => if 1024 ≤ walkersAt s dk then .next s else .next (serve s' dk f (.miss, t))
          | r => .next (serve s' dk f r)

/-- Does a request wait on the same walk, or does the returned leaf cover it (R11)? -/
def joinsWalk (dk : Nat) (q : Req) (size : Nat) (g : Flight) : Bool :=
  let r := curReq g
  g.stage == .walking && g.unit = dk && r.asid = q.asid && r.gen = q.gen && vaOff r.va / size = vaOff q.va / size

/-- Bytes of the page that a walk reaches; 64 KiB when it ends in a fault. -/
def walkedSize (s : State) (dk : Nat) (q : Req) : Nat :=
  match walk s dk q (wfld (asdtEntry s dk q.asid).1 12 40 * 4096) with
  | .leaf e _ _ _ => pageBytes (leafSZ e)
  | .fault .. => 65536

/-- PAGE_WALK_RETURN: a walk completes and serves every request that waited on it (R11, R26). -/
def execPageWalkReturn (id : Nat) (dropPtr : Bool) (s : State) : Host.Outcome State Fault Refusal :=
  unlessUnitDown s id <|
  match flightById s id with
  | none => .next s
  | some f =>
    if f.stage != .walking ∨ !hasWalker s f then .next s
    else
      let q := curReq f
      let s := dropCached s f.unit q false dropPtr false
      let served := s.flights.filter (joinsWalk f.unit q (walkedSize s f.unit q))
      .next (served.foldl (fun s g => serve s g.unit g (walkTranslate s g.unit (curReq g))) s)

/-- PEER_UNREACHABLE: the fabric finds no path to another package, or its delivery timeout expires (R8, R25). The owner's own record carries
LVL 0 and the leaf (DESIGN CHOICE, log 55). -/
def execPeerUnreachable (id : Nat) (s : State) : Host.Outcome State Fault Refusal :=
  match flightById s id with
  | none => .next s
  | some f =>
    match f.stage with
    | .sent =>
      if f.pay.isPlinth then
        match route s (srcDie f) f.req.va with
        | some dk => if dk / 16 = f.req.src.pkg then .next s else .next (plinthFault s f 0x0E)
        | none => .next s
      else if !f.pay.isAccess ∨ f.gang.isSome then .next s
      else match route s (srcDie f) (curReq f).va with
        | some dk => if dk / 16 = f.req.src.pkg then .next s else .next (faultFlight s (srcDie f) f 0x0E 0 0)
        | none => .next s
    | .fwd p _ _ leaf => if p / 16 = f.unit / 16 then .next s else .next (faultFlight s f.unit f 0x0E 0 leaf)
    | _ => .next s

/-! ### The ports -/

/-- Bytes become free values (DESIGN CHOICE, log 3). -/
def freeBytes (s : State) (loc n : Nat) : State :=
  let e := s.fresh + 1
  { s with fresh := e, mem := writeBytes s.mem loc ((List.range n).map fun i => Config.freeByte e (loc + i)) }

/-- Locations of barrier objects whose arrivals are in flight and that a store of n bytes at a location meets (R236). -/
def metObjects (s : State) (f : Flight) (loc n : Nat) : List Nat :=
  s.flights.filterMap fun g =>
    match g.pay with
    | .barArrive .. =>
      match g.stage with
      | .port l _ _ _ => if meets l 32 loc n then some l else none
      | _ =>
        if g.req.asid = f.req.asid ∧ meets g.req.va 32 (f.req.va + f.done) n then some (loc / 32 * 32 + (g.req.va / 32 - (f.req.va + f.done) / 32) * 32)
        else none
    | _ => none

/-- The events of a payload's conversion at the receiver (R228): counted at the core whose network interface it is. -/
def wireEvents (s : State) (f : Flight) (loc n : Nat) : State :=
  match f.wire with
  | none => s
  | some (w, evs) =>
    let part := (evs.drop (f.done / w)).take (n / w)
    if regionKind loc = 1 then
      (countEvents s (coreKey (regionIdx loc / 16) (regionIdx loc % 16) 0) 0x3FF false part).1
    else if regionKind loc = 4 then (countEvents s (poolCore loc) 0x3FF false part).1
    else s

/-- n bytes of a flight's access are performed: the next page's part is translated, or the reply or acknowledgement is on
its way; a send's arrival follows its payload (R83), and its activation's replay list may be fixed with it (R430). -/
def partDone (s : State) (f : Flight) (n : Nat) (bs : List Byte) : State :=
  let f := { f with done := f.done + n, got := f.got ++ bs }
  if f.done < f.req.n then setFlight s { f with stage := .sent }
  else match f.pay with
    | .store _ => match f.after with
      | some (a, sc) => settle (setFlight s { f with pay := .arrival a, stage := .relWait sc, after := none }) f.uid
      | none => setFlight s { f with stage := .ack }
    | _ => setFlight s { f with stage := .reply f.got }

/-- The next n bytes of a plain load, fetch or store performed at a location (R69), with the bytes read. A store that meets an arrival
leaves the barrier object's bytes free (R236). -/
def performBytes (s : State) (f : Flight) (loc n : Nat) : List Byte × State :=
  match f.pay with
  | .store bs =>
    let objs := metObjects s f loc n
    let s := portWrite s loc ((bs.drop f.done).take n)
    let s := objs.foldl (fun s l => freeBytes s l 32) s
    ([], wireEvents s f loc n)
  | _ => portRead s loc n

/-- The activation of an operation ends with a trap at the instruction that issued it. -/
def trapFlight (s : State) (f : Flight) (cause : Nat) : State :=
  let s := dropFlight s f.id
  match actByUid s f.uid with
  | some a => trapAt s a f.pc cause
  | none => s

/-- Does an operation of an activation read data with an uncorrectable error, which terminates the activation (R412)? -/
def readsBad (s : State) (f : Flight) (loc n : Nat) : Bool :=
  f.uid != 0 && linesBad s loc n && match f.pay with
    | .load | .fetch | .atom .. | .cas .. | .range => true
    | _ => false

/-- What is left of a plain access at a location is performed there. -/
def performPlain (s : State) (f : Flight) (loc n : Nat) : State :=
  if readsBad s f loc n then trapFlight s f 0
  else
    let (bs, s) := performBytes s f loc n
    partDone s f n bs

/-- Is a flight a plain load, fetch or store? -/
def Pay.isPlain : Pay → Bool
  | .load | .fetch | .store _ => true
  | _ => false

/-- PORT_ACCESS: a translated load or store is performed at its port (R69). -/
def execPortAccess (id : Nat) (s : State) : Host.Outcome State Fault Refusal :=
  unlessUnitDown s id <|
  match flightById s id with
  | none => .next s
  | some f =>
    match f.stage with
    | .port loc n aper _ => if f.gang.isSome ∨ aper = 5 ∨ !f.pay.isPlain then .next s else .next (performPlain s f loc n)
    | _ => .next s

/-- FORWARDED_REQUEST: the peer admits a forwarded request and performs it, or refuses it with kind 0x11 (R25); a frame beyond the peer's
memory is refused too, whatever a window admits (DESIGN CHOICE, log 55). -/
def execForwardedRequest (id : Nat) (s : State) : Host.Outcome State Fault Refusal :=
  match flightById s id with
  | none => .next s
  | some f =>
    match f.stage with
    | .fwd p pa n leaf =>
      if !pathTo s f.unit p then .next s
      else if !admits s p (sysPkg s (f.unit / 16)) pa n f.req.acc ∨ pa + n > localSize p then
        .next (faultFlight s p f 0x11 0 leaf)
      else if f.pay.isPlain then .next (performPlain s f (hbm p pa) n)
      else .next (setFlight s { f with stage := .port (hbm p pa) n 1 leaf })
    | _ => .next s

/-- WINDOW_ACCESS: an aperture-5 access at the pool port of its core (R53): performed, held, or refused. -/
def execWindowAccess (id : Nat) (s : State) : Host.Outcome State Fault Refusal :=
  unlessUnitDown s id <|
  match flightById s id with
  | none => .next s
  | some f =>
    match f.stage with
    | .port loc n aper leaf =>
      if f.gang.isSome ∨ aper != 5 ∨ !f.pay.isPlain then .next s
      else match windowVerdict s loc n f.req.acc.writes with
        | 0 => .next (performPlain s f loc n)
        | 1 => .next s
        | k => .next (faultFlight s f.unit { f with req := windowReq f.req } k 0 leaf)
    | _ => .next s

/-- Does the pool port of a core admit what is left of an operation there (R52)? One of the core's own was judged at its issue (R45). -/
def portAdmits (s : State) (f : Flight) (core : Nat) : Bool := f.isLocal || gangAdmits s core f.req.asid f.req.gen f.req.va f.req.n

/-- GANG_CORE_ACCESS: an operation at a pool port of a core: a gang-core access at the target's (R47, R52), or one of the own core that an earlier
operation held (R328); and an operation that has still to read its own pool, which it now does. -/
def execGangCoreAccess (id : Nat) (s : State) : Host.Outcome State Fault Refusal :=
  unlessUnitDown s id <|
  match flightById s id with
  | none => .next s
  | some f =>
    match f.late with
    | some l => .next (lateStep s f l)
    | none => match f.gang, f.stage with
    | some c, .port .. =>
      let p := f.req.va
      let n := f.req.n
      if !portAdmits s f c then .next (trapFlight s f cPool)
      else match ownedSlot s c p n, f.pay with
        | some _, .store _ => .next (trapFlight s f cOwner)
        | some _, _ => .next s
        | none, .store bs => .next (setFlight { s with mem := writeBytes s.mem (pool c p) bs } { f with stage := .ack })
        | none, _ => .next (setFlight s { f with stage := .reply (f.got ++ readBytes s.mem (pool c p) n) })
    | _, _ => .next s

/-- Offset of entry i's register block in a Caliper's die block (R119). -/
def bimOff (cal i : Nat) : Nat := calBlk (cal % 3) + 0x100 + 0x40 * i
def bimReg (s : State) (cal i off : Nat) : Word := rawReg s (dkOfCal cal) (bimOff cal i + off)

/-- Is the entry of a domain at a Caliper valid? -/
def bimV (s : State) (cal i : Nat) : Bool := wbit (bimReg s cal i 0) 63

/-- The first and the last total row of a domain at a Caliper, by row number (R102, R119). -/
def rowLo (s : State) (cal i : Nat) : Nat := wfld (bimReg s cal i 0x10) 9 43
def rowHi (s : State) (cal i : Nat) : Nat := wfld (bimReg s cal i 0x18) 9 43

/-- The home Caliper of a row at a location of an HBM (R102). -/
def homeCal (loc : Nat) : Nat := calKey (regionIdx loc) (regionOff loc / 256 % 3)

/-- Is a range of bytes one whole total row of a domain at its home Caliper (R90)? A single access to one is indivisible. -/
def wholeRow (s : State) (loc n : Nat) : Bool :=
  let cal := homeCal loc
  let row := regionOff loc / 512
  regionKind loc == 1 && loc % 512 == 0 && n == 512 &&
    (List.range 16).any fun i => bimV s cal i && rowLo s cal i ≤ row && row ≤ rowHi s cal i

/-- One step of an access that a port performs word by word (R67): its next aligned 8-byte word, while more is left behind it. The rest of
the access is performed by later steps, whole or again by words. The words go in ascending order, of the orders that R67 leaves open (DESIGN
CHOICE, log 4). -/
def performWord (id : Nat) (s : State) : State :=
  match flightById s id with
  | none => s
  | some f =>
    if (dieAt s (actingDie f)).failed then s
    else match f.gang, f.stage with
    | some c, .port .. =>
      let p := f.req.va
      let k := 8 - p % 8
      let rest := { f.req with va := p + k, n := f.req.n - k }
      if f.req.n ≤ k ∨ !portAdmits s f c ∨ (ownedSlot s c p f.req.n).isSome then s
      else match f.pay with
        | .store bs =>
          setFlight { s with mem := writeBytes s.mem (pool c p) (bs.take k) } { f with req := rest, pay := .store (bs.drop k) }
        | _ => setFlight s { f with req := rest, got := f.got ++ readBytes s.mem (pool c p) k }
    | none, .port loc n aper leaf =>
      let k := 8 - loc % 8
      if n ≤ k ∨ !f.pay.isPlain ∨ wholeRow s loc n ∨ readsBad s f loc n ∨ (aper = 5 ∧ windowVerdict s loc n f.req.acc.writes != 0) then s
      else
        let (bs, s) := performBytes s f loc k
        setFlight s { f with done := f.done + k, got := f.got ++ bs, stage := .port (loc + k) (n - k) aper leaf }
    | none, .fwd p pa n leaf =>
      if !pathTo s f.unit p ∨ !f.pay.isPlain ∨ !admits s p (sysPkg s (f.unit / 16)) pa n f.req.acc ∨ localSize p < pa + n then s
      else setFlight s { f with stage := .port (hbm p pa) n 1 leaf }
    | _, _ => s

/-- REDUCTION_MERGE: a reduction at its write queue (R59, R97): merged and acknowledged, or held while an entry closes. -/
def execReductionMerge (id : Nat) (s : State) : Host.Outcome State Fault Refusal :=
  unlessUnitDown s id <|
  match flightById s id with
  | none => .next s
  | some f =>
    match f.stage, f.pay with
    | .port loc _ _ _, .red op size v =>
      match reduceInOrder s id loc op size v with
      | (s, true) => .next (setFlight s { f with stage := .ack })
      | (s, false) => .next s
    | _, _ => .next s

/-- The reductions held at a port proceed in their order of arrival, as far as the queue takes them (R59). -/
def releaseHeldReds (port : Nat) : List Nat → State → State
  | [], s => s
  | id :: r, s =>
    match flightById s id with
    | none => releaseHeldReds port r { s with redHeld := mset s.redHeld port r }
    | some f => match f.stage, f.pay with
      | .port loc _ _ _, .red op size v =>
        match reduceAt s loc op size v with
        | (s, true) => releaseHeldReds port r (setFlight { s with redHeld := mset s.redHeld port r } { f with stage := .ack })
        | (s, false) => s
      | _, _ => releaseHeldReds port r { s with redHeld := mset s.redHeld port r }

/-- WRITE_QUEUE_APPLY: the oldest closed entry of a port is applied, and the reductions held at the port proceed in order (R59). -/
def execWriteQueueApply (port : Nat) (s : State) : Host.Outcome State Fault Refusal :=
  unlessDown s (port / 4) <|
  match (wqAt s port).find? (fun e => e.closed) with
  | none => .next s
  | some _ => .next (releaseHeldReds port (mget s.redHeld port []) (applyOldest s port))

/-- PORT_ATOMIC: an atom or cas is performed indivisibly at its port (R96, R97). -/
def execPortAtomic (id : Nat) (s : State) : Host.Outcome State Fault Refusal :=
  unlessUnitDown s id <|
  match flightById s id with
  | none => .next s
  | some f =>
    match f.stage, f.pay with
    | .port loc _ _ _, .atom op n v =>
      if readsBad s f loc n then .next (trapFlight s f 0)
      else
        let s := closeLine s loc
        let old := readN s.mem loc n
        .next (setFlight { s with mem := writeN s.mem loc n (memOp op n old v.toNat) } { f with stage := .reply (toBytes n old) })
    | .port loc _ _ _, .cas n e v =>
      if readsBad s f loc n then .next (trapFlight s f 0)
      else
        let s := closeLine s loc
        let old := readN s.mem loc n
        let s := if old = e.toNat then { s with mem := writeN s.mem loc n v.toNat } else s
        .next (setFlight s { f with stage := .reply (toBytes n old) })
    | _, _ => .next s

/-- RangeNext of R99 on the words of an object: first index and count. -/
def rangeNext (next end_ div minc : Nat) : Nat × Nat :=
  if end_ ≤ next then (next, 0)
  else
    let rem := end_ - next
    (next, min rem (max (max minc 1) (ceilDiv rem (max div 1))))

/-- RANGE_NEXT_PERFORM: a range.next request is performed at the port (R98, R99). -/
def execRangeNextPerform (id : Nat) (s : State) : Host.Outcome State Fault Refusal :=
  unlessUnitDown s id <|
  match flightById s id with
  | none => .next s
  | some f =>
    match f.stage, f.pay with
    | .port loc _ _ _, .range =>
      if readsBad s f loc 32 then .next (trapFlight s f 0)
      else
        let s := closeLine s loc
        let w (i : Nat) : Word := readW s.mem (loc + 8 * i)
        let (first, n) := rangeNext (w 0).toNat (w 1).toNat (wfld (w 2) 32 32) (wfld (w 2) 0 32)
        let s := if n = 0 then s
          else { s with mem := writeN (writeN s.mem loc 8 ((first + n) % 2 ^ 64)) (loc + 24) 8 (((w 3).toNat + 1) % 2 ^ 64) }
        .next (setFlight s { f with stage := .reply (toBytes 8 first ++ toBytes 8 n) })
    | _, _ => .next s

/-! ### Invalidation -/

/-- A unit's OVF (R32): a command write was discarded. -/
def setOvf (s : State) (dk : Nat) : State := setRaw s dk (mtuBlk + 0x18) (rawReg s dk (mtuBlk + 0x18) ||| 1)

/-- Queues a command at a translation unit; with 16 queued it is discarded and sets OVF (R32). -/
def queueInv (s : State) (dk : Nat) (c : InvCmd) : State :=
  let m := mtuAt s dk
  if 16 ≤ m.queue.length then setOvf s dk else setMtu s dk { m with queue := m.queue ++ [c] }

/-- The eight compute dies of a package. -/
def computeDies (pkg : Nat) : List Nat := (List.range 8).map fun d => dieKey pkg d

/-- A command written to a unit's block, or to the broadcast block of the I/O die (unit 9): there it goes to all eight
units with the broadcast block's address, or is discarded whole when one of them is full, which sets OVF there (R32; DEDUCED, log 26). -/
def invWrite (s : State) (unit op asid : Nat) : State :=
  if (dieAt s unit).failed then s
  else if unit % 16 = 9 then
    let pkg := unit / 16
    let io := ioDie pkg
    let va := wfld (rawReg s io (bcastBlk + 8)) 0 57
    let full := (computeDies pkg).filter fun d => 16 ≤ (mtuAt s d).queue.length
    if !full.isEmpty then full.foldl setOvf s
    else
      let b := mget s.bcasts pkg Bcast.reset
      let n := s.nextId
      let s := { s with nextId := n + 1, bcasts := mset s.bcasts pkg { b with open_ := b.open_ ++ [(n, 8)] } }
      (computeDies pkg).foldl (fun s d => queueInv s d ⟨op, asid, va, some n, none⟩) s
  else queueInv s unit ⟨op, asid, wfld (rawReg s unit (mtuBlk + 8)) 0 57, none, none⟩

def execInvPage (unit : Nat) (asid : BitVec 16) (s : State) : Host.Outcome State Fault Refusal := .next (invWrite s unit 1 asid.toNat)
def execInvAsid (unit : Nat) (asid : BitVec 16) (s : State) : Host.Outcome State Fault Refusal := .next (invWrite s unit 2 asid.toNat)
def execInvAll (unit : Nat) (asid : BitVec 16) (s : State) : Host.Outcome State Fault Refusal := .next (invWrite s unit 3 asid.toNat)
def execInvRefresh (unit : Nat) (asid : BitVec 16) (s : State) : Host.Outcome State Fault Refusal := .next (invWrite s unit 4 asid.toNat)

/-- Codes 0 and 5 to 15 queue a command without effect (R33). -/
def execInvNop (unit : Nat) (asid : BitVec 16) (op : BitVec 4) (s : State) : Host.Outcome State Fault Refusal :=
  if 1 ≤ op.toNat ∧ op.toNat ≤ 4 then .next s else .next (invWrite s unit 0 asid.toNat)

/-- Does a command remove a leaf of an ASID and page (R33)? Only OFF of the address is compared. -/
def invHits (c : InvCmd) (asid base size : Nat) : Bool :=
  if c.op = 1 then asid = c.asid && base ≤ vaOff c.va && vaOff c.va < base + size
  else if c.op = 2 then asid = c.asid
  else c.op = 3

/-- Was a request translated with a leaf, or under an ASDT entry, that a command removes (R34)? -/
def invHolds (c : InvCmd) (dk : Nat) (f : Flight) : Bool :=
  let q := curReq f
  let hit (leaf : Word) : Bool :=
    f.unit = dk && f.gang.isNone && (c.op = 4 && q.asid = c.asid || invHits c q.asid (vaOff q.va / pageBytes (leafSZ leaf) * pageBytes (leafSZ leaf)) (pageBytes (leafSZ leaf)))
  match f.stage with
  | .port _ _ _ leaf => hit leaf
  | .fwd _ _ _ leaf => hit leaf
  | _ => false

/-- The effect of a command on the caches of a unit (R33). -/
def invApply (m : Mtu) (c : InvCmd) : Mtu :=
  { m with
    tlb := m.tlb.filter fun t => !invHits c t.asid t.base t.size
    ptrs := m.ptrs.filter fun p => !((c.op = 1 || c.op = 2) && p.asid = c.asid) && c.op != 3
    asdts := m.asdts.filter fun e => !((c.op = 2 || c.op = 4) && e.1 = c.asid) && c.op != 3 }

/-- A part of a broadcast command has completed; DONE counts it when all eight have (R32). -/
def bcastDone (s : State) (pkg n : Nat) : State :=
  let b := mget s.bcasts pkg Bcast.reset
  let open' := b.open_.map fun e => if e.1 = n then (e.1, e.2 - 1) else e
  let fin := open'.filter fun e => e.2 = 0
  { s with bcasts := mset s.bcasts pkg { open_ := open'.filter fun e => e.2 != 0, done := b.done + BitVec.ofNat 32 fin.length } }

end Sys2Proof.Machine
end

