-- ==== Sys2Proof/Machine/Relief.lean ====
section
/-! DEFINITION. Placement on the Relief (R168 to R182): the grid and its links, pressure, the tick, walks, eviction, the
cluster queues, and fenced and failed clusters. -/
namespace Sys2Proof.Machine

/-! ### The grid -/

/-- Grid row and column of a cluster within its package (R168). -/
def gridRow (k : Nat) : Nat := 4 * (k / 16 % 8 / 4) + k % 16 / 4
def gridCol (k : Nat) : Nat := 4 * (k / 16 % 8 % 4) + k % 16 % 4

/-- The cluster at a grid place of a package. -/
def gridClus (pkg r c : Nat) : Nat := pkg * 128 + (4 * (r / 4) + c / 4) * 16 + 4 * (r % 4) + c % 4

/-- A link of a router: its place in the port order (0 to 3 mesh, 4 to 7 die, 8 and 9 panel), the peer, the weight, and the
place of the same link at the peer. -/
structure Link where
  port : Nat
  peer : Nat
  weight : Nat
  back : Nat
  deriving DecidableEq, Repr

/-- The neighbour to the east, west, north or south (directions 0 to 3). -/
def neighbour (k dir : Nat) : Option Nat :=
  let r := gridRow k
  let c := gridCol k
  let p := k / 128
  if dir = 0 then (if c < 15 then some (gridClus p r (c + 1)) else none)
  else if dir = 1 then (if 0 < c then some (gridClus p r (c - 1)) else none)
  else if dir = 2 then (if 0 < r then some (gridClus p (r - 1) c) else none)
  else if r < 7 then some (gridClus p (r + 1) c) else none

/-- The opposite direction. -/
def opposite (dir : Nat) : Nat := if dir % 2 = 0 then dir + 1 else dir - 1

/-- Mesh links first, then die links, each east, west, north, south (R168). -/
def gridLinks (k : Nat) : List Link :=
  let all := (List.range 4).filterMap fun d => (neighbour k d).map fun p => (d, p)
  ((all.filter fun x => x.2 / 16 = k / 16).map fun x => ⟨x.1, x.2, 1, opposite x.1⟩) ++
    (all.filter fun x => x.2 / 16 != k / 16).map fun x => ⟨4 + x.1, x.2, 2, 4 + opposite x.1⟩

/-- Are two packages in one panel (R8, R168)? -/
def samePanel (s : State) (p q : Nat) : Bool := sysPkg s p / 64 == sysPkg s q / 64

/-- The panel links: port 0 at cluster 0 of a die, port 1 at cluster 15, to the far end of the cable (R168; DESIGN CHOICE, log 12). None
leads to another panel. -/
def panelLinks (s : State) (k : Nat) : List Link :=
  [0, 1].filterMap fun p =>
    if k % 16 = (if p = 0 then 0 else 15) then
      match mfind s.cables (2 * k + p) with
      | some far => if samePanel s (k / 128) (far / 2 / 128) then some ⟨8 + p, far / 2, 8, 8 + far % 2⟩ else none
      | none => none
    else none

/-- Every link of a router, in port order. -/
def linksOf (s : State) (k : Nat) : List Link := gridLinks k ++ panelLinks s k

/-! ### Pressure -/

/-- Fields of a task's header (R142). -/
def tHeader (t : Task) : Word := nth t.words 0
def tClass (t : Task) : Nat := wfld (tHeader t) 0 10
def tPrio (t : Task) : Nat := wfld (tHeader t) 10 5
def tLgw (t : Task) : Nat := wfld (tHeader t) 15 3
def tLgh (t : Task) : Nat := wfld (tHeader t) 18 3
def tPin (t : Task) : Bool := wbit (tHeader t) 25
def tOft (t : Task) : Bool := wbit (tHeader t) 26
def tBim (t : Task) : Bool := wbit (tHeader t) 27
def tHdie (t : Task) : Nat := wfld (tHeader t) 32 3
def tHclus (t : Task) : Nat := wfld (tHeader t) 35 4

/-- Is a task a gang, and one with a side of 8 or 16 (R154)? -/
def isGang (t : Task) : Bool := tLgw t != 0 || tLgh t != 0
def bigGang (t : Task) : Bool := 3 ≤ tLgw t || 3 ≤ tLgh t

/-- What a task adds to SUM of a cluster (R169, R179): COST for each core of its gang that lies there. -/
def clusCost (t : Task) : Nat :=
  if bigGang t then t.cost * (min 4 (2 ^ tLgw t) * min 4 (2 ^ tLgh t)) else t.cost * 2 ^ (tLgw t + tLgh t)

/-- Is a cluster fenced through RLF_FENCE? -/
def rlfFenced (s : State) (k : Nat) : Bool := wbit (rawReg s (dkOfClus k) (rlfBlk + 8)) (k % 16)

/-- Is a die drained by a pending partition change (R407)? -/
def draining (s : State) (dk : Nat) : Bool := (pkgAt s (dk / 16)).partReq.isSome && (pkgAt s (dk / 16)).aff.testBit (dk % 16)

/-- Is a cluster fenced (R176)? -/
def fencedClus (s : State) (k : Nat) : Bool :=
  rlfFenced s k || (dieAt s (dkOfClus k)).failed || draining s (dkOfClus k)

/-- Pressure of a cluster (R169), and θstay of its die (R171). -/
def pressure (s : State) (k : Nat) : Nat := if fencedClus s k then 255 else min 254 (clusAt s k).sum
def theta (s : State) (k : Nat) : Nat := wfld (rawReg s (dkOfClus k) rlfBlk) 0 8

/-- Partition of a die under a mode (R406). -/
def partOf (mode d : Nat) : Nat := if mode = 0 then 0 else if mode = 1 then d / 4 else if mode = 2 then d / 2 else d

/-- Do two clusters of a package lie in one partition? A panel link leaves the package and its partition map (DESIGN CHOICE, log 40). -/
def samePart (s : State) (k j : Nat) : Bool :=
  k / 128 != j / 128 ||
    partOf (pkgAt s (k / 128)).partMode (k / 16 % 8) == partOf (pkgAt s (k / 128)).partMode (j / 16 % 8)

/-- Does a panel link carry the Relief: PANELEN at both ends (R170)? -/
def panelOn (s : State) (k : Nat) (l : Link) : Bool :=
  l.port < 8 || (wbit (rawReg s (dkOfClus k) rlfBlk) (16 + (l.port - 8)) && wbit (rawReg s (dkOfClus l.peer) rlfBlk) (16 + (l.back - 8)))

/-- What a peer has published last: D, and whether P was 255. -/
def published (s : State) (k : Nat) (l : Link) : Nat × Bool :=
  if l.port < 8 then ((clusAt s l.peer).dist, (clusAt s l.peer).press == 255)
  else match (clusAt s k).heard.find? (fun h => h.1 = l.port) with
    | some h => (h.2.1, h.2.2)
    | none => (63, false)

/-- Is a link reachable (R170)? -/
def linkUp (s : State) (k : Nat) (l : Link) : Bool :=
  samePart s k l.peer && !(published s k l).2 && !(clusAt s k).silent.contains l.port && panelOn s k l

/-! ### Queues -/

/-- A queue with a task at its place: by PRIO, then in order of acceptance (R181). -/
def insertQ (q : QTask) : List QTask → List QTask
  | [] => [q]
  | x :: r =>
    if tPrio x.task < tPrio q.task ∨ (tPrio x.task = tPrio q.task ∧ q.seq < x.seq) then q :: x :: r else x :: insertQ q r

/-- Tasks that a cluster's queue and spill part hold (R175). -/
def queueCap (s : State) (k : Nat) : Nat := if wbit (rawReg s (dkOfClus k) (rlfBlk + 0x10)) 0 then 256 + 16384 else 256

def queueFull (s : State) (k : Nat) : Bool := queueCap s k ≤ (clusAt s k).queue.length

/-- The fault-wait that a class marked not loaded on a die puts its tasks into (R204). -/
def loadWait (s : State) (dk : Nat) (t : Task) : Option FaultWait :=
  ((dieAt s dk).notLoaded.find? fun m => m.1 = t.asid ∧ m.2.1 = t.gen ∧ m.2.2.1 = tClass t).map fun m => ⟨m.2.2.2, dk⟩

/-- A cluster's record with its queue changed. The tasks beyond the 256 of the die lie in the cluster's part of the spill area, in a form
that only the hardware reads: those bytes take free values (R175; DESIGN CHOICE, log 63). -/
def setQueue (s : State) (k : Nat) (c : Cluster) : State :=
  let dk := dkOfClus k
  let reg := rawReg s dk (rlfBlk + 0x10)
  let s := setClus s k c
  if c.queue.length ≤ 256 || !wbit reg 0 then s
  else
    let e := s.fresh + 1
    { s with fresh := e
             mem := poison s.mem (hbm dk (wfld reg 24 28 * 2 ^ 24 + k % 16 * 2 ^ 20)) e ((c.queue.length - 256 + 7) / 8) }

/-- Enters a task with an acceptance number in a queue: its cost counts unless it is in fault-wait (R169, R174). -/
def enterQueue (s : State) (k : Nat) (q : QTask) : State :=
  let c := clusAt s k
  setQueue s k { c with queue := insertQ q c.queue, sum := if q.wait.isNone then c.sum + clusCost q.task else c.sum }

/-- A task present at a cluster from the next tick on (R170). -/
def makePresent (s : State) (k : Nat) (t : Transit) : State :=
  let c := clusAt s k
  setClus s k { c with present := c.present ++ [{ t with since := s.now / 64 + 1 }] }

/-- A task put in transit at a cluster with a budget and no hops. -/
def inTransit (s : State) (k : Nat) (t : Task) (budget : Nat) : State := makePresent s k ⟨t, budget, 0, 0, 0⟩

/-- Accept of R174: the task is queued at a cluster, or stays present at x while queue and spill are full (R175). -/
def acceptAt (s : State) (x k : Nat) (t : Transit) : State :=
  if queueFull s k then makePresent s x { t with port := 0 }
  else enterQueue { s with nextId := s.nextId + 1 } k ⟨t.task, s.nextId, loadWait s (dkOfClus k) t.task, none⟩

/-- The clusters of a die in order, and the first of them that is not fenced. -/
def dieClusters (d8 : Nat) : List Nat := span (d8 * 16) 16
def firstOpen (s : State) (ks : List Nat) : Option Nat := ks.find? fun k => !fencedClus s k

/-- The event of a dropped placement (R176). -/
def placementFailed (s : State) (k : Nat) (t : Task) : State :=
  postEvent s (dkOfClus k) (mkEvent s (dkOfClus k) 0x0C (tHeader t) (BitVec.ofNat 64 k))

/-- The rectangle of a gang with a side of 8 or 16 (R154): origin row and column. -/
def bigOrigin (t : Task) : Nat × Nat :=
  (4 * (tHclus t / 4) / 2 ^ tLgh t * 2 ^ tLgh t, 4 * (tHclus t % 4) / 2 ^ tLgw t * 2 ^ tLgw t)

/-- Core keys of a rectangle of a die, row-major. -/
def rectCores (d8 row col h w : Nat) : List Nat :=
  (List.range h).flatMap fun y => (List.range w).map fun x => d8 * 256 + 16 * (row + y) + col + x

/-- Clusters that a rectangle covers. -/
def rectClusters (d8 row col h w : Nat) : List Nat := ((rectCores d8 row col h w).map clusOfCore).eraseDups

/-- An empty class entry, before a class is read. -/
def noClass : ClassEntry := ⟨0, 0, 0, 0, false, false, false, false, false, false, 0, 0, 0, 0, []⟩

/-- Places a gang with a side of 8 or 16 at its rectangle (R179), spawned at cluster x: entered in every cluster that it
covers, or dropped when the die has failed; while one of these queues is full it stays present at x (DESIGN CHOICE, log 40). -/
def placeBig (s : State) (x : Nat) (t : Task) (seq : Option Nat) (wait : Option FaultWait) : State :=
  let d8 := t.pkg * 8 + tHdie t
  let (row, col) := bigOrigin t
  let ks := rectClusters d8 row col (2 ^ tLgh t) (2 ^ tLgw t)
  if (dieAt s (dieKey t.pkg (tHdie t))).failed then placementFailed s x t
  else if ks.any (queueFull s) && seq.isNone then inTransit s x t 0
  else
    let id := s.nextId
    let n := seq.getD id
    let g : Gang := { id := id, task := t, cls := noClass, die := d8, clus := ks, seq := n, row := row, col := col,
                      h := 2 ^ tLgh t, w := 2 ^ tLgw t, reserved := [], launched := false, reading := false,
                      extents := none, members := [], dead := false }
    let w := match wait with
      | some w => some w
      | none => loadWait s (dieKey t.pkg (tHdie t)) t
    let s := { s with nextId := id + 1, gangs := s.gangs ++ [g] }
    ks.foldl (fun s k => enterQueue s k ⟨t, n, w, some id⟩) s

/-- Where a task goes that no link takes on (R176): its home when it is not fenced, else the lowest-numbered cluster of its partition, that
of cluster k, that is not fenced; with none it is dropped, and router x posts the event. The transaction of a body that is dropped keeps its
grants (DESIGN CHOICE, log 40). -/
def lastPlace (s : State) (x k : Nat) (t : Transit) : State :=
  let part := (List.range 8).filter fun d => samePart s k (k / 128 * 128 + 16 * d)
  match firstOpen s (t.task.home :: part.flatMap fun d => dieClusters (k / 128 * 8 + d)) with
  | some j => acceptAt s x j t
  | none => placementFailed s x t.task

/-- Placement of a task that does not walk at its home cluster, asked for at router x (R130, R179): there, else at the lowest-numbered
cluster of its die that is not fenced. When the whole die is fenced it is evicted from its home (R176); the router of a die that does not
answer has no link, so it goes to the last place of R176 at once. For a body the rules name no other place: it goes the same way (DESIGN
CHOICE, log 40). -/
def placeHome (s : State) (x : Nat) (t : Task) : State :=
  match firstOpen s (t.home :: dieClusters (t.home / 16)) with
  | some k => acceptAt s k k ⟨t, 63, 0, 0, 0⟩
  | none => if (dieAt s (dkOfClus t.home)).failed then lastPlace s x t.home ⟨t, 63, 0, 0, 0⟩ else inTransit s t.home t 63

/-- A spawned task is placed (R172, R179): gangs with a side of 8 or 16 at their rectangle, pinned tasks at their home,
others accepted where pressure is below θstay, else put in transit with their budget. One accepted at once that finds queue and spill full
stays present with budget 0, since R172 gives it none (DESIGN CHOICE, log 70). -/
def placeTask (s : State) (x : Nat) (t : Task) : State :=
  if bigGang t then placeBig s x t none none
  else if tPin t then placeHome s x { t with home := (t.pkg * 8 + tHdie t) * 16 + tHclus t }
  else if pressure s x < theta s x then acceptAt s x x ⟨t, 0, 0, 0, 0⟩
  else inTransit s x t (min 63 (pressure s x - theta s x))

/-! ### The walk -/

/-- Manhattan distance in the grid. -/
def gridDist (k j : Nat) : Nat :=
  (gridRow k - gridRow j) + (gridRow j - gridRow k) + (gridCol k - gridCol j) + (gridCol j - gridCol k)

/-- Is a step away from a home (R173)? -/
def awayStep (x n h : Nat) : Bool :=
  if n / 128 = h / 128 then x / 128 = h / 128 && gridDist x h < gridDist n h else true

/-- Tasks in an output port's forwarding queue. -/
def fwdLen (s : State) (x port : Nat) : Nat := ((clusAt s x).fwd.filter fun e => e.1 = port).length

/-- Forwards a task over a link. -/
def forwardTask (s : State) (x : Nat) (l : Link) (t : Transit) : State :=
  let c := clusAt s x
  setClus s x { c with fwd := c.fwd ++ [(l.port, t)] }

/-- Evict of R176. -/
def evictTask (s : State) (x : Nat) (t : Transit) : State :=
  let open_ := (linksOf s x).filter fun l =>
    !fencedClus s l.peer && samePart s x l.peer && panelOn s x l && !(clusAt s x).silent.contains l.port
  match open_.find? (fun l => fwdLen s x l.port < 8) with
  | some l => forwardTask s x l { t with hops := t.hops + 1 }
  | none =>
    if !open_.isEmpty then makePresent s x { t with port := 0 }
    else lastPlace s x x t

/-- The reachable link whose peer has the smallest D, the first in port order on a tie (R173). -/
def bestLink (s : State) (x : Nat) : Option Link :=
  ((linksOf s x).filter (linkUp s x)).foldl (fun b l =>
    match b with
    | none => some l
    | some c => if (published s x l).1 < (published s x c).1 then some l else b) none

/-- Handle of R173. A task that does not walk is accepted where it stands, a body too that R177 had evicted (R130, R179; DESIGN CHOICE,
log 40). -/
def handleTask (s : State) (x : Nat) (t : Transit) : State :=
  if bigGang t.task then placeBig s x t.task none none
  else if pressure s x = 255 then evictTask s x t
  else if tOft t.task then acceptAt s x x t
  else if (clusAt s x).dist = 0 ∨ t.hops = 15 ∨ (t.hops = 0 ∧ tPin t.task) then acceptAt s x x t
  else match bestLink s x with
    | none => acceptAt s x x t
    | some l =>
      if (clusAt s x).dist ≤ (published s x l).1 then acceptAt s x x t
      else
        let cost := if awayStep x l.peer t.task.home then t.task.w * l.weight else 0
        if t.budget < cost ∨ 8 ≤ fwdLen s x l.port then acceptAt s x x t
        else forwardTask s x l { t with budget := t.budget - cost, hops := t.hops + 1 }

/-! ### The tick -/

/-- Clusters of a package whose dies answer. -/
def liveClusters (s : State) (pkg : Nat) : List Nat :=
  (span (pkg * 128) 128).filter fun k => !(dieAt s (dkOfClus k)).failed

/-- P and D of a cluster at a tick (R170), from what was published in the tick before. -/
def tickValues (s : State) (k : Nat) : Nat × Nat :=
  let p := pressure s k
  if p = 255 then (p, 63)
  else if p < theta s k then (p, 0)
  else
    let up := (linksOf s k).filter (linkUp s k)
    (p, up.foldl (fun m l => min m ((published s k l).1 + l.weight)) 63)

/-- What a cluster publishes is received by its neighbours: a silent link is heard again, a panel peer keeps the value. It has it from the same
tick on, of the ages up to 8 ticks that R170 allows (DESIGN CHOICE, log 70). -/
def publish (s : State) (k : Nat) : State :=
  (linksOf s k).foldl (fun s l =>
    let c := clusAt s l.peer
    let heard := if l.port < 8 then c.heard
      else (c.heard.filter fun h => h.1 != l.back) ++ [(l.back, (clusAt s k).dist, (clusAt s k).press == 255)]
    if c.silent.contains l.back ∨ (mfind c.missed l.back).isSome ∨ 8 ≤ l.port then
      setClus s l.peer { c with silent := c.silent.filter fun p => p != l.back, missed := mdel c.missed l.back, heard := heard }
    else s) s

/-- A link from whose peer nothing has been received for 4 ticks becomes unreachable (R170). -/
def silence (s : State) (k port : Nat) : State :=
  let c := clusAt s k
  if 4 ≤ mget c.missed port 0 && !c.silent.contains port then setClus s k { c with silent := c.silent ++ [port] } else s

/-- The links of a cluster over which nothing was received in a tick: those to dies that do not answer, and panel links, whose peers tick on
their own. -/
def countMissed (s : State) (k : Nat) : State :=
  (linksOf s k).foldl (fun s l =>
    let c := clusAt s k
    let n := mget c.missed l.port 0
    if (l.port < 8 && !(dieAt s (dkOfClus l.peer)).failed) || 4 ≤ n then s
    else silence (setClus s k { c with missed := mset c.missed l.port (n + 1) }) k l.port) s

/-- Tasks in the order of their handling: spawned ones first, then arrivals by port (R170). -/
def byPort (l : List Transit) : List Transit := (List.range 11).flatMap fun p => l.filter fun t => t.port = p

/-- Handles the tasks present at a cluster at tick t. -/
def handleAll (t : Nat) (s : State) (k : Nat) : State :=
  let c := clusAt s k
  let due := c.present.filter fun x => x.since ≤ t
  let s := setClus s k { c with present := c.present.filter fun x => t < x.since }
  (byPort due).foldl (fun s x => handleTask s k x) s

/-- Sends up to 4 tasks of each forwarding queue, present at the peer from the next tick (R173). -/
def sendForward (t : Nat) (s : State) (k : Nat) : State :=
  (linksOf s k).foldl (fun s l =>
    let c := clusAt s k
    let mine := c.fwd.filter fun e => e.1 = l.port
    if mine.isEmpty then s
    else
      let s := setClus s k { c with fwd := (c.fwd.filter fun e => e.1 != l.port) ++ mine.drop 4 }
      let d := clusAt s l.peer
      setClus s l.peer { d with present := d.present ++ (mine.take 4).map fun e => { e.2 with port := 1 + l.back, since := t + 1 } }) s

/-- RELIEF_TICK: the three phases of a tick at every router of a package (R170). -/
def execReliefTick (pkg : Nat) (s : State) : Host.Outcome State Fault Refusal :=
  let t := mget s.ticks pkg 0 + 1
  if s.now < 64 * t then .next s
  else
    let s := { s with ticks := mset s.ticks pkg t }
    let live := liveClusters s pkg
    let vals := live.map fun k => (k, tickValues s k)
    let s := vals.foldl (fun s v => setClus s v.1 { clusAt s v.1 with press := v.2.1, dist := v.2.2 }) s
    let s := live.foldl countMissed (live.foldl publish s)
    let s := live.foldl (handleAll t) s
    .next (live.foldl (sendForward t) s)

/-- LINK_SILENCE: nothing has been received from a link's peer for 4 ticks (R170); RELIEF_TICK does the same when it counts the fourth. -/
def execLinkSilence (clus port : Nat) (s : State) : Host.Outcome State Fault Refusal :=
  if (linksOf s clus).any fun l => l.port = port then .next (silence s clus port) else .next s

/-! ### Fences and failures -/

/-- A queued task whose cluster is fenced through RLF_FENCE is put in transit; one in fault-wait and a gang with a side of 8
or 16 stay (R177). Cores reserved for it are freed with its gang's record. -/
def fenceTask (k : Nat) (s : State) (q : QTask) : State :=
  if q.wait.isSome ∨ bigGang q.task then s
  else
    let c := clusAt s k
    let s := setQueue s k { c with queue := c.queue.filter fun x => x.seq != q.seq, sum := c.sum - clusCost q.task }
    let s := match q.gang with
      | some g => { s with gangs := s.gangs.filter fun x => x.id != g }
      | none => s
    inTransit s k q.task 63

/-- RLF_FENCE_WRITE: clusters are fenced, and the tasks in their queues are put in transit (R176, R177, R182). -/
def execRlfFenceWrite (die : Nat) (v : Word) (s : State) : Host.Outcome State Fault Refusal :=
  if (dieAt s die).failed then .next s
  else
    let old := rawReg s die (rlfBlk + 8)
    let s := storeReg s die (rlfBlk + 8) v
    let newly := (List.range 16).filter fun c => wbit v c && !wbit old c
    .next (newly.foldl (fun s c =>
      let k := (die / 16 * 8 + die % 16) * 16 + c
      (clusAt s k).queue.foldl (fenceTask k) s) s)

/-- A Patina record of the management core (R411): kind PKIND about a die, with two detail words. -/
def patinaRecord (s : State) (dk pkind : Nat) (w5 w6 : Word) : State :=
  patinaWrite s (dk / 16) ((mkEvent s dk 0 w5 w6).words pkind)

/-- DIE_FAILURE: a compute die stops answering on its links and sideband; Patina records it failed, a fatal error (R178,
R411). -/
def execDieFailure (die : Nat) (s : State) : Host.Outcome State Fault Refusal :=
  if 8 ≤ die % 16 ∨ (dieAt s die).failed then .next s
  else
    let s := setDie s die { dieAt s die with failed := true, failedAt := s.now }
    .next (patinaFlush (patinaRecord s die 5 0 0) (die / 16))

end Sys2Proof.Machine
end

