-- ==== Sys2Proof/Machine/Context.lean ====
section
/-! DEFINITION. Contexts in the pool and in memory (R40 to R43, R196): the image of a context, the yield table, eviction and
filling. -/
namespace Sys2Proof.Machine

/-- The live-state mask of a yield point: its two entry words; none: everything is live (R196). -/
abbrev LiveMask := Option (Nat × Nat)

def live0 (m : LiveMask) (i : Nat) : Bool := match m with
  | none => true
  | some w => w.1.testBit i
def live1 (m : LiveMask) (i : Nat) : Bool := match m with
  | none => true
  | some w => w.2.testBit i

/-- Bytes of a number at an offset, when they are live. -/
structure Piece where
  off : Nat
  n : Nat
  v : Nat
  live : Bool

/-- The register block as pieces (R40): s0 and m0 are written only with a whole context (R196). -/
def blockPieces (r : Regs) (m : LiveMask) : List Piece :=
  (List.range 32).map (fun i => ⟨8 * i, 8, if i = 0 then 0 else (r.s.toList.getD i 0).toNat, m.isNone || (i != 0 && live0 m i)⟩) ++
  (List.range 16).map (fun i => ⟨0x100 + 8 * i, 8, (r.f.toList.getD i 0).toNat, live1 m (16 + i)⟩) ++
  (List.range 8).map (fun i => ⟨0x180 + 128 * i, 128, if i = 0 then 2 ^ 1024 - 1 else (r.m.toList.getD i 0).toNat,
    m.isNone || (i != 0 && live1 m i)⟩) ++
  (List.range 8).map (fun i => ⟨0x580 + 64 * i, 64, (r.d.toList.getD i 0).toNat, live1 m (8 + i)⟩) ++
  (List.range 8).map (fun i => ⟨0x780 + 8 * i, 8, (r.c.toList.getD i 0).toNat, live0 m (32 + i)⟩) ++
  [⟨0x7C0, 8, r.pc.toNat, true⟩, ⟨0x7C8, 8, r.vwb.toNat, true⟩, ⟨0x7D0, 8, r.fcr.toNat, true⟩,
   ⟨0x7D8, 8, r.lend.toNat * 2 ^ 32 + r.lstart.toNat, true⟩, ⟨0x7E0, 8, r.lcnt.toNat, true⟩, ⟨0x7E8, 24, 0, m.isNone⟩]

/-- Writes a register block at a location, limited to what is live. -/
def saveBlock (s : State) (base : Nat) (r : Regs) (m : LiveMask) : State :=
  { s with mem := (blockPieces r m).foldl (fun mem p => if p.live then writeN mem (base + p.off) p.n p.v else mem) s.mem }

/-- Location of row v of a frame's home window (R40). -/
def homeRow (s : State) (core frame v : Nat) : Nat := pool core (512 * (frameRow (coreAt s core) frame + v))

/-- Writes a resident context's image at a location (R42), limited to what is live. -/
def saveContext (s : State) (a : Act) (base : Nat) (m : LiveMask) : State :=
  let s := saveBlock s base a.regs m
  let s := if live0 m 0 then { s with mem := copyBytes s.mem (base + 0x800) (ttile a.ctx 0) 16384 } else s
  (List.range 32).foldl (fun s v =>
    if live1 m (32 + v) then
      { s with mem := copyBytes s.mem (base + 0x4800 + 512 * v) (homeRow s (coreOf a) (a.frame.getD 0) v) 512 }
    else s) s

/-- n bytes of an image as a number; a free value where they are not live (R43; DESIGN CHOICE, log 3). -/
def imageN (s : State) (base e off n : Nat) (live : Bool) : Nat :=
  if live then readN s.mem (base + off) n else ofBytes ((List.range n).map fun i => Config.freeByte e (base + off + i))

/-- A program counter, whose bit 0 is 0 (R256). -/
def evenPc (w : Word) : Word := w &&& ~~~1

/-- The registers of an image; unmarked ones are free values of epoch e, and reserved bits read as zero (R5). -/
def loadRegs (s : State) (base : Nat) (m : LiveMask) (e : Nat) : Regs :=
  let loop0 := readN s.mem (base + 0x7D8) 8
  { s := Vector.ofFn fun i : Fin 32 => BitVec.ofNat 64 (imageN s base e (8 * i.val) 8 (live0 m i.val))
    f := Vector.ofFn fun i : Fin 16 => BitVec.ofNat 64 (imageN s base e (0x100 + 8 * i.val) 8 (live1 m (16 + i.val)))
    m := Vector.ofFn fun i : Fin 8 => BitVec.ofNat 1024 (imageN s base e (0x180 + 128 * i.val) 128 (live1 m i.val))
    d := Vector.ofFn fun i : Fin 8 => BitVec.ofNat 512 (imageN s base e (0x580 + 64 * i.val) 64 (live1 m (8 + i.val)))
    c := Vector.ofFn fun i : Fin 8 => BitVec.ofNat 64 (imageN s base e (0x780 + 8 * i.val) 8 (live0 m (32 + i.val))) &&& 0x1FFFFFF
    pc := evenPc (readW s.mem (base + 0x7C0))
    vwb := readW s.mem (base + 0x7C8) &&& 0x1C0F
    fcr := readW s.mem (base + 0x7D0) &&& 0x7F07
    lend := BitVec.ofNat 32 (loop0 / 2 ^ 32)
    lstart := BitVec.ofNat 32 loop0
    lcnt := readW s.mem (base + 0x7E0) }

/-- Loads an image into a frame: registers, transpose tile and home window; unmarked state becomes undefined. -/
def loadContext (s : State) (a : Act) (base : Nat) (m : LiveMask) (frame : Nat) : State × Act :=
  let e := s.fresh + 1
  let regs := loadRegs s base m e
  let tile := if live0 m 0 then copyBytes s.mem (ttile a.ctx 0) (base + 0x800) 16384 else poison s.mem (ttile a.ctx 0) e 32
  let s := { s with fresh := e, mem := tile }
  let s := (List.range 32).foldl (fun s v =>
    let row := homeRow s (coreOf a) frame v
    { s with mem := if live1 m (32 + v) then copyBytes s.mem row (base + 0x4800 + 512 * v) 512 else poison s.mem row e 1 }) s
  (s, { a with regs := regs, frame := some frame, filling := false, mask := none })

/-! ### The yield table -/

/-- A read that the core makes for an activation, as a load of it (R196). -/
def coreLoad (s : State) (a : Act) (va n : Nat) : Option (List Byte) × State :=
  match readNow s (reqOf a .load va n) with
  | (.ok bs, s) => (some bs, s)
  | (.fault _, s) => (none, s)

/-- Binary search of the yield table for an image offset (R196), between two entry numbers. -/
def searchYield (a : Act) (off : Nat) : Nat → Nat → Nat → State → LiveMask × State
  | 0, _, _, s => (none, s)
  | fuel + 1, lo, hi, s =>
    if hi ≤ lo then (none, s)
    else
      let mid := (lo + hi) / 2
      match coreLoad s a (a.cls.ytab + 16 + 16 * mid) 16 with
      | (none, s) => (none, s)
      | (some bs, s) =>
        let w0 := ofBytes (bs.take 8)
        let o := w0 / 2 ^ 40
        if o = off then (some (w0, ofBytes (bs.drop 8)), s)
        else if o < off then searchYield a off fuel (mid + 1) hi s
        else searchYield a off fuel lo mid s

/-- The live-state mask of an activation's program counter, when it is a listed yield point (R196). A fault in reading the
table counts as not listed; a transactional activation has no yield points (R135). -/
def yieldMask (s : State) (a : Act) : LiveMask × State :=
  let off := codeOff a (pcOf a)
  if pcOf a < a.cls.img ∨ 2 ^ 24 ≤ off ∨ a.txn.isSome then (none, s)
  else match coreLoad s a a.cls.ytab 16 with
    | (none, s) => (none, s)
    | (some bs, s) => searchYield a off 33 0 (ofBytes (bs.take 4)) s

/-! ### Eviction and filling -/

/-- Activations of a core. -/
def actsOn (s : State) (core : Nat) : List Act := (s.acts.filter fun e => e.1 / 8 = core).map fun e => e.2

/-- The context resident in frame k. -/
def frameAt (c : Core) (k : Nat) : Option Nat := c.frames.getD k none

/-- The frame list with frame k given to a context. -/
def setFrame (c : Core) (k : Nat) (v : Option Nat) : Core :=
  { c with frames := (List.range 8).map fun i => if i = k then v else frameAt c i }

/-- A free frame of a core (DESIGN CHOICE, log 41). -/
def freeFrame (c : Core) : Option Nat := (List.range (frameCount c)).find? fun k => (frameAt c k).isNone

/-- Is an activation parked, its event not yet come? -/
def isParked (s : State) (a : Act) : Bool := a.wait.parks && !waitOver s a

/-- The least of a list by a measure, the first on a tie. -/
def leastBy (f : Act → Nat) : List Act → Option Act
  | [] => none
  | a :: r => match leastBy f r with
    | some b => if f b < f a then some b else some a
    | none => some a

/-- The victim of an eviction (R43): the resident activation parked longest, else the one that issued least recently. -/
def victim (s : State) (core uid : Nat) : Option Act :=
  let rs := (actsOn s core).filter fun a => resident a && a.uid != uid
  match leastBy (fun a => a.parkedAt) (rs.filter (isParked s)) with
  | some a => some a
  | none => leastBy (fun a => a.issuedAt) rs

/-- Evicts a context to its slot of the context area (R43). -/
def evict (s : State) (a : Act) : State :=
  let (m, s) := yieldMask s a
  let s := saveContext s a (areaOf s a.ctx) m
  let c := coreAt s (coreOf a)
  putAct (setCore s (coreOf a) (leaveFrame c a)) { a with frame := none, mask := m }

/-- A frame is given to a context that is not resident, a victim evicted when none is free; its fill begins (R43). -/
def startFill (s : State) (a : Act) : State :=
  let core := coreOf a
  let take (s : State) (k : Nat) : State :=
    putAct (setCore s core (setFrame (coreAt s core) k (some (ctxNum a.ctx)))) { a with frame := some k, filling := true }
  match freeFrame (coreAt s core) with
  | some k => take s k
  | none =>
    if frameCount (coreAt s core) = 0 then s
    else match victim s core a.uid with
      | none => s
      | some v => take (evict s v) (v.frame.getD 0)

/-- CONTEXT_FILL: the issue logic selects a ready activation whose context is not resident (R43, R183). -/
def execContextFill (ctx : Nat) (s : State) : Host.Outcome State Fault Refusal :=
  unlessHeld s <|
  match actAt s ctx with
  | none => .next s
  | some a =>
    if a.frame.isNone && (selectContext s (coreOfCtx ctx)).any (fun p => p.1 = ctxNum ctx) then .next (startFill s a) else .next s

/-- CONTEXT_FILL_DONE: the fill completes (R43). -/
def execContextFillDone (ctx : Nat) (s : State) : Host.Outcome State Fault Refusal :=
  match actAt s ctx with
  | none => .next s
  | some a =>
    if !a.filling || a.frame.isNone then .next s
    else
      let (s, a) := loadContext s a (areaOf s ctx) a.mask (a.frame.getD 0)
      .next (putAct s a)

/-! ### Results of replies -/

/-- Writes a scalar register of an activation: in its frame, or in the context area when it is evicted (R42, R185). -/
def writeS (s : State) (a : Act) (i : Nat) (v : Word) : State :=
  if i = 0 then s
  else if resident a then putAct s (setS a i v)
  else { s with mem := writeN s.mem (areaOf s a.ctx + 8 * i) 8 v.toNat }

/-- Writes a descriptor slot. -/
def writeD (s : State) (a : Act) (i : Nat) (v : DReg) : State :=
  if resident a then putAct s (setD a i v)
  else { s with mem := writeN s.mem (areaOf s a.ctx + 0x580 + 64 * i) 64 v.toNat }

/-- Where the row of vector register v under a VWB value lies: a tile, the home window, or the context area. -/
def rowPlaceOf (s : State) (a : Act) (vwb : Word) (v : Nat) : Nat :=
  if wbit vwb 12 ∨ resident a then pool (coreOf a) (512 * vrow s a vwb v) else areaOf s a.ctx + 0x4800 + 512 * v

/-- Is an activation parked on a fault, or sending its replay list (R189)? -/
def onFault (a : Act) : Bool := match a.wait with
  | .fault .. => true
  | .sending _ => true
  | _ => false

/-- A waiting instruction of 4 bytes completes; an activation parked on a fault of another operation stays parked. -/
def finishWait (s : State) (a : Act) : State :=
  let b := advance { a with wait := if onFault a then a.wait else .run } 4
  keepCtl (putAct s b) b

end Sys2Proof.Machine
end

