-- ==== Sys2Proof/Machine/Tasks.lean ====
section
/-! DEFINITION. Classes and tasks (R142 to R150), launches (R145, R150), gangs (R154 to R158, R180), the waiting-task table
(R160 to R163) and the launch unit (R405). -/
namespace Sys2Proof.Machine

/-! ### Classes -/

/-- A class table entry of 64 bytes (R147). -/
def parseClass (bs : List Byte) : ClassEntry :=
  let w := wordsOf 8 bs
  let x (i lo len : Nat) : Nat := wfld (nth w i) lo len
  let region (i lo : Nat) : List (Nat × Nat) := if wbit (nth w i) (lo + 31) then [(x i lo 9, x i (lo + 9) 9)] else []
  { img := x 0 0 57, len := x 1 32 32, entry := x 1 0 32, ytab := x 2 0 57
    valid := wbit (nth w 3) 31, idem := wbit (nth w 3) 30, res := wbit (nth w 3) 29, ofc := wbit (nth w 3) 28
    split := wbit (nth w 3) 27, xtrap := wbit (nth w 3) 26, rscope := min 4 (x 3 23 3), sslots := x 3 16 7
    nacc := x 3 14 2, cost := x 3 0 4, regions := region 4 0 ++ region 4 32 ++ region 5 0 ++ region 5 32 }

/-- The class of an address space as a core sees it: its cached copy, else the table at CORE_CLSTAB (R146, R148). -/
def classAt (s : State) (core asid cls : Nat) : ClassEntry × State :=
  let c := coreAt s core
  match mfind c.classes (asid * 1024 + cls) with
  | some e => (e, s)
  | none =>
    let dk := dkOfCore core
    let base := wfld (rawReg s dk (coreBlk (numOfCore core) + 0x18)) 16 36 * 65536
    let e := parseClass (readBytes s.mem (hbm dk (base + 64 * cls)) 64)
    (e, setCore s core { c with classes := mset c.classes (asid * 1024 + cls) e })

/-- Is a task invalid (R144)? -/
def taskBad (e : ClassEntry) (t : Task) (sub : Bool) : Bool :=
  !e.valid || e.idem == e.res || e.cost == 0 || 4 < tLgw t || 4 < tLgh t || tOft t != e.ofc || (tOft t && !sub)

/-- Does a task come from oft.sub (R144): it is a body, or a body that ended its transaction and was then aborted (DEDUCED, log 46)? -/
def fromSub (t : Task) : Bool := t.txn.isSome || t.body

/-- A task of a descriptor as a core of cluster k issues it (R172): W from the header, or from the operand bytes. -/
def mkTask (ws : List Word) (asid gen k : Nat) (home : Bool) (bytes cost : Nat) : Task :=
  let h := nth ws 0
  { words := ws, asid := asid, gen := gen, rc := 0, txn := none, cost := cost, pkg := k / 128
    home := if home then (k / 128 * 8 + wfld h 32 3) * 16 + wfld h 35 4 else k
    w := if wfld h 21 4 = 0 then min 15 (ceilDiv bytes 65536) else wfld h 21 4 }

/-! ### What a core can give -/

/-- Suspend slot j of a core: its image, and the place of its saved tile t (R199, R376). -/
def psaveBase (s : State) (core : Nat) : Nat :=
  hbm (dkOfCore core) (wfld (rawReg s (dkOfCore core) (coreBlk (numOfCore core) + 0x20)) 22 30 * 2 ^ 22)
def psaveSlot (s : State) (core j : Nat) : Nat := psaveBase s core + 327680 * j
def psaveTile (s : State) (core j t : Nat) : Nat := psaveBase s core + 0x280000 + 0x30000 * j + 0x10000 * t

/-- The states and recorded types of a tile as the save area holds them at +0x8400 (R376: a form that only the core reads; DESIGN CHOICE,
log 60). -/
def tileBytes (t : TileState) : List Byte :=
  [t.st, t.ty, t.inFull.toNat, t.inTy, t.scl, t.acc].map fun x => BitVec.ofNat 8 x

/-- The tile's states and types of those bytes. -/
def tileOfBytes (bs : List Byte) : TileState :=
  let x (i : Nat) : Nat := (bs.getD i 0).toNat
  { st := x 0, ty := x 1, inFull := x 2 != 0, inTy := x 3, scl := x 4, acc := x 5 }

/-- Saves every held row of a suspend slot, with the state of its tiles, and frees them (R199, R376). -/
def saveRows (s : State) (core j : Nat) : State :=
  match mfind (coreAt s core).susp j with
  | none => s
  | some x =>
    if x.rows.isEmpty then s
    else
      let s := x.rows.foldl (fun s r =>
        { s with mem := copyBytes s.mem (psaveSlot s core j + 65536 + 512 * r) (pool core (512 * r)) 512 }) s
      let s := x.act.tiles.foldl (fun s t =>
        let b := psaveTile s core j t
        let mem := copyBytes (copyBytes (copyBytes s.mem b (latch core t 0) 16384) (b + 0x4000) (incoming core t 0) 16384)
                     (b + 0x8000) (scaleLatch core t 0) 1024
        { s with mem := writeBytes mem (b + 0x8400) (tileBytes (tileAt s core t)) }) s
      let c := coreAt s core
      setCore s core { c with susp := mset c.susp j { x with rows := [], savedRows := x.rows,
                                                              savedTiles := x.act.tiles.map fun t => (t, tileAt s core t) } }

/-- Tiles that activations or suspend slots of a core hold. -/
def heldTiles (s : State) (core : Nat) : List Nat :=
  (actsOn s core).flatMap (fun a => a.tiles) ++
    (coreAt s core).susp.flatMap fun x => if x.2.rows.isEmpty then [] else x.2.act.tiles

/-- The lowest free tiles of a core (R150; DESIGN CHOICE, log 41). -/
def freeTiles (s : State) (core n : Nat) : Option (List Nat) :=
  let free := (List.range (wfld (coreAt s core).partw 0 2)).filter fun t => !(heldTiles s core).contains t
  if n ≤ free.length then some (free.take n) else none

/-- Rows of slots. -/
def allocRows (a : Option (Nat × Nat)) : List Nat := match a with
  | some (f, n) => span (8 * f) (8 * n)
  | none => []

/-- Scratchpad rows that allocations of activations and suspend slots hold. -/
def heldScratch (s : State) (core : Nat) : List Nat :=
  (actsOn s core).flatMap (fun a => allocRows a.alloc) ++ (coreAt s core).susp.flatMap fun x => x.2.rows

/-- Rows of a list of regions. -/
def regionRows (rs : List (Nat × Nat)) : List Nat := rs.flatMap fun r => span r.1 r.2

/-- Does R149 permit the named regions of a class on a core? -/
def regionsOk (s : State) (core cls : Nat) (e : ClassEntry) : Bool :=
  let c := coreAt s core
  e.regions.all fun r =>
    scratchRow c ≤ r.1 && r.1 + r.2 ≤ 512 &&
      c.claimed.all (fun k => k.1 == cls || !meets k.2.1 k.2.2 r.1 r.2) &&
      (c.claimed.contains (cls, r.1, r.2) || (span r.1 r.2).all fun x => !(heldScratch s core).contains x)

/-- The lowest run of n free slots outside claimed regions (R150; DESIGN CHOICE, log 41). -/
def freeAlloc (s : State) (core : Nat) (e : ClassEntry) : Option (Option (Nat × Nat)) :=
  if e.sslots = 0 then some none
  else
    let c := coreAt s core
    let busy := heldScratch s core ++ regionRows (c.claimed.map fun k => k.2) ++ regionRows e.regions
    let free (slot : Nat) : Bool := slot < 64 && scratchRow c ≤ 8 * slot && (span (8 * slot) 8).all fun r => !busy.contains r
    ((List.range 64).find? fun f => (span f e.sslots).all free).map fun f => some (f, e.sslots)

/-- The lowest free hardware context of a core (DESIGN CHOICE, log 41). -/
def freeCtx (s : State) (core : Nat) : Option Nat := (List.range 8).find? fun h => (actAt s (core * 8 + h)).isNone

/-- What a launch takes of a core: context, tiles, allocation. -/
structure Fit where
  ctx : Nat
  tiles : List Nat
  alloc : Option (Nat × Nat)

/-- The needs of a class met from rows that no suspend slot holds (R150). -/
def fitNow (s : State) (core cls : Nat) (e : ClassEntry) : Option Fit :=
  match freeCtx s core, freeTiles s core e.nacc, freeAlloc s core e with
  | some h, some ts, some al => if regionsOk s core cls e then some ⟨core * 8 + h, ts, al⟩ else none
  | _, _, _ => none

/-- The lowest-numbered suspend slot whose held rows help: it holds tiles when tiles are short, scratchpad rows when these
are (R199). -/
def helpfulSlot (s : State) (core cls : Nat) (e : ClassEntry) : Option Nat :=
  ((coreAt s core).susp.find? fun x =>
    ((freeTiles s core e.nacc).isNone && !x.2.rows.isEmpty && !x.2.act.tiles.isEmpty) ||
    (((freeAlloc s core e).isNone || !regionsOk s core cls e) && !x.2.rows.isEmpty && x.2.act.alloc.isSome)).map fun x => x.1

/-- The needs of a class met on a core, with suspend slots saved where nothing else meets them (R150, R199). -/
def fitOn (core cls : Nat) (e : ClassEntry) : Nat → State → Option (Fit × State)
  | 0, s => (fitNow s core cls e).map fun f => (f, s)
  | n + 1, s => match fitNow s core cls e with
    | some f => some (f, s)
    | none => match helpfulSlot s core cls e with
      | some j => fitOn core cls e n (saveRows s core j)
      | none => none

/-- Does a core run tasks of an address space (R39, R150)? -/
def coreServes (s : State) (core asid gen : Nat) : Bool :=
  let c := coreAt s core
  wbit c.asid 20 && 3 ≤ wfld c.partw 2 6 && c.partwHeld.isNone && wfld c.asid 0 16 == asid && wfld c.asid 16 4 == gen

/-! ### Launch -/

/-- The place of an activation in its gang. -/
structure Member where
  gang : Option Nat
  gx : Nat
  gy : Nat
  gw : Nat
  gh : Nat
  tx : Word
  ty : Word

/-- A single task (R156, R157). -/
def soloMember : Member := ⟨none, 0, 0, 1, 1, 0xFFFFFFFF, 0xFFFFFFFF⟩

/-- The registers at the start of an activation (R145). -/
def startRegs (t : Task) (e : ClassEntry) (alloc : Option (Nat × Nat)) : Regs :=
  let own : Word := match alloc with
    | some (f, _) => BitVec.ofNat 64 (4096 * f)
    | none => 0
  let s : List Word := [0, nth t.words 2, nth t.words 3, nth t.words 4, nth t.words 5, nth t.words 6, nth t.words 7,
    nth t.words 1, nth t.words 0, own]
  { Regs.reset with
    s := Vector.ofFn fun i : Fin 32 => s.getD i.val 0
    pc := evenPc (BitVec.ofNat 64 (e.img + e.entry)) }

/-- Launches an activation on a core (R145, R149, R150): its rows, tile and transpose tile hold undefined values. -/
def launchOn (s : State) (core : Nat) (t : Task) (e : ClassEntry) (f : Fit) (m : Member) (seq : Nat) : State :=
  let c := coreAt s core
  let ep := s.fresh + 1
  let frame := freeFrame c
  let launches := (c.launches + 1) % 2 ^ 53
  let c := { c with
    launches := launches
    claimed := c.claimed ++ ((e.regions.map fun r => (tClass t, r.1, r.2)).filter fun k => !c.claimed.contains k)
    slots := match f.alloc with
      | some (a, n) => (span a n).foldl (fun l k => mset l k (false, (mget l k (false, 0)).2)) c.slots
      | none => c.slots
    tiles := f.tiles.foldl (fun l k => mset l k TileState.reset) c.tiles }
  let c := match frame with
    | some k => setFrame c k (some (ctxNum f.ctx))
    | none => c
  let a : Act :=
    { uid := s.nextId, ctx := f.ctx, task := t, cls := e
      taskId := BitVec.ofNat 64 (dieOfCore core * 2 ^ 61 + numOfCore core * 2 ^ 53 + launches)
      gx := m.gx, gy := m.gy, gw := m.gw, gh := m.gh, tx := m.tx, ty := m.ty, gang := m.gang
      tiles := f.tiles, alloc := f.alloc, regs := startRegs t e f.alloc, frame := frame, filling := false, mask := none
      wait := .run, parkedAt := 0, issuedAt := s.now, group := none, closing := [], committed := false, decl := [], txn := t.txn
      txnCycles := 0, txnMark := s.now, preempt := none, stopped := false, move := none, seq := seq, doneRel := false }
  let mem := poison s.mem (ttile f.ctx 0) ep 32
  let mem := f.tiles.foldl (fun m k => poison m (pool core (65536 * k)) ep 128) mem
  let mem := match f.alloc with
    | some (k, n) => poison mem (pool core (4096 * k)) ep (8 * n)
    | none => mem
  let mem := match frame with
    | some k => poison mem (pool core (512 * frameRow c k)) ep 32
    | none => poison mem (areaOf s f.ctx + 0x800) ep 64
  let s := putAct (setCore { s with fresh := ep, nextId := s.nextId + 1, mem := mem } core c) a
  if frame.isNone then saveBlock s (areaOf s f.ctx) a.regs none else s

/-- The event of a launch that fails (R144, R157, R405): word 5 the task's header, word 6 the core's number. -/
def launchFault (s : State) (dk : Nat) (header : Word) (n : Nat) (r : Option FRec) : State :=
  let e := mkEvent s dk 0x08 header (BitVec.ofNat 64 n)
  postEvent s dk (match r with
    | some r => withRec e r
    | none => e)

/-- A body found invalid at its launch (R130): its transaction ends with no write performed, at its home die, wherever the body was queued. -/
def dropBody (s : State) (t : Task) : State :=
  match t.txn with
  | none => s
  | some tid =>
    let home := dkOfClus t.home
    let o := osqAt s home
    let s := setOsq s home { o with term := o.term + 1 }
    launchFlight s { message home (.txnEnd tid (txnDies s home tid) home) with stage := .relWait 4 }

/-- A queued task leaves the queue of a cluster; its cost leaves too when `cost` is set. -/
def dequeue (s : State) (k seq : Nat) (cost : Bool) : State :=
  let c := clusAt s k
  match c.queue.find? (fun q => q.seq = seq) with
  | none => s
  | some q =>
    setQueue s k { c with queue := c.queue.filter fun x => x.seq != seq,
                          sum := if cost && q.wait.isNone then c.sum - clusCost q.task else c.sum }

/-! ### Gangs -/

def gangById (s : State) (id : Nat) : Option Gang := s.gangs.find? fun g => g.id = id
def setGang (s : State) (g : Gang) : State := { s with gangs := s.gangs.map fun x => if x.id = g.id then g else x }
def dropGangRec (s : State) (id : Nat) : State := { s with gangs := s.gangs.filter fun x => x.id != id }

/-- Cores of a gang's rectangle, row-major. -/
def gangCores (g : Gang) : List Nat := rectCores g.die g.row g.col g.h g.w

/-- Is a core reserved for a gang that has not launched (R155)? -/
def isReserved (s : State) (core : Nat) : Bool := s.gangs.any fun g => !g.launched && g.reserved.contains core

/-- Does a core satisfy R150 for a task now? A class found invalid needs nothing: its second check drops it (R144). -/
def canTake (s : State) (core : Nat) (t : Task) : Bool :=
  coreServes s core t.asid t.gen && (freeCtx s core).isSome && !isReserved s core &&
    (let (e, s) := classAt s core t.asid (tClass t)
     taskBad e t (fromSub t) || (fitOn core (tClass t) e 8 s).isSome)

/-- The rectangle of a gang with sides of at most 4 (R180): most cores that can take it, then the lowest origin. -/
def bestRect (s : State) (k : Nat) (t : Task) : Nat × Nat :=
  let h := 2 ^ tLgh t
  let w := 2 ^ tLgw t
  let r0 := 4 * (k % 16 / 4)
  let c0 := 4 * (k % 4)
  let origins := (List.range (4 / h)).flatMap fun y => (List.range (4 / w)).map fun x => (r0 + y * h, c0 + x * w)
  let count (o : Nat × Nat) : Nat := ((rectCores (k / 16) o.1 o.2 h w).filter fun c => canTake s c t).length
  (origins.foldl (fun (b : (Nat × Nat) × Nat) o => if b.2 < count o + 1 ∧ (b.2 = 0 ∨ b.2 - 1 < count o) then (o, count o + 1) else b)
    ((r0, c0), 0)).1

/-- A gang with sides of at most 4, or a single task of a SPLIT class, gets its rectangle, and the cores of it that can take
it are reserved (R155, R180). -/
def openGang (s : State) (k : Nat) (q : QTask) (origin : Nat × Nat) (h w : Nat) : State :=
  let id := s.nextId
  let cores := (rectCores (k / 16) origin.1 origin.2 h w).filter fun c => canTake s c q.task
  let g : Gang := { id := id, task := q.task, cls := noClass, die := k / 16, clus := [k], seq := q.seq, row := origin.1, col := origin.2,
                    h := h, w := w, reserved := cores, launched := false, reading := false, extents := none, members := [], dead := false }
  let c := clusAt s k
  { setClus s k { c with queue := c.queue.map fun x => if x.seq = q.seq then { x with gang := some id } else x } with
    nextId := id + 1, gangs := s.gangs ++ [g] }

/-- One core takes a queued task (R150, R181): a single task is launched or dropped, a core of a gang is reserved. None:
the core passes it over. -/
def takeTask (s : State) (k core : Nat) (q : QTask) : Option State :=
  if q.wait.isSome then none
  else match q.gang with
    | some id =>
      match gangById s id with
      | some g =>
        if !g.launched && !g.reserved.contains core && (gangCores g).contains core && canTake s core q.task then
          some (setGang s { g with reserved := g.reserved ++ [core] })
        else none
      | none => none
    | none =>
      if !canTake s core q.task then none
      else
        let (e, s) := classAt s core q.task.asid (tClass q.task)
        if isGang q.task then some (openGang s k q (bestRect s k q.task) (2 ^ tLgh q.task) (2 ^ tLgw q.task))
        else if taskBad e q.task (fromSub q.task) then
          some (dropBody (launchFault (dequeue s k q.seq true) (dkOfCore core) (tHeader q.task) (numOfCore core) none) q.task)
        else if e.split then some (openGang s k q (rowOfCore core, colOfCore core) 1 1)
        else match fitOn core (tClass q.task) e 8 s with
          | some (f, s) => some (launchOn (dequeue s k q.seq false) core q.task e f soloMember q.seq)
          | none => none

/-- The first task of a queue that a core takes. -/
def coreTakes (k : Nat) (s : State) (core : Nat) : State :=
  if isReserved s core then s
  else ((clusAt s k).queue.findSome? (takeTask s k core)).getD s

/-- TASK_TAKE: each core of a cluster with a free context takes the first task whose needs it meets (R150, R181). -/
def execTaskTake (clus : Nat) (s : State) : Host.Outcome State Fault Refusal :=
  if fencedClus s clus then .next s
  else .next ((rectCores (clus / 16) (4 * (clus % 16 / 4)) (4 * (clus % 4)) 4 4).foldl (coreTakes clus) s)

/-- A gang is dropped before its launch (R144, R157); a body of a SPLIT class ends its transaction (R130). -/
def dropGang (s : State) (g : Gang) (r : Option FRec) : State :=
  let s := g.clus.foldl (fun s k => dequeue s k g.seq true) s
  let s := dropGangRec s g.id
  dropBody (launchFault s (dieKey (g.die / 8) (g.die % 8)) (tHeader g.task) (16 * g.row + g.col) r) g.task

/-- %tx and %ty of a member (R157). -/
def gangExtents (size0 size1 gx gy gw gh : Nat) : Word × Word :=
  let wx := ceilDiv size0 gw
  let wy := ceilDiv size1 gh
  (BitVec.ofNat 64 (gx * wx * 2 ^ 32 + min wx (size0 - gx * wx)), BitVec.ofNat 64 (gy * wy * 2 ^ 32 + min wy (size1 - gy * wy)))

/-- Launches a gang's members, row-major, in one cycle (R155). -/
def launchGang (s : State) (g : Gang) : Option State :=
  let solo := g.h = 1 ∧ g.w = 1
  let step (o : Option (State × List Nat)) (core : Nat) : Option (State × List Nat) :=
    match o with
    | none => none
    | some (s, us) =>
      let (e, s) := classAt s core g.task.asid (tClass g.task)
      match fitOn core (tClass g.task) e 8 s with
      | none => none
      | some (f, s) =>
        let gx := colOfCore core - g.col
        let gy := rowOfCore core - g.row
        let (tx, ty) := match g.extents with
          | some (a, b) => gangExtents a b gx gy g.w g.h
          | none => (0xFFFFFFFF, 0xFFFFFFFF)
        let m : Member := ⟨if solo then none else some g.id, gx, gy, g.w, g.h, tx, ty⟩
        some (launchOn s core g.task e f m g.seq, us ++ [s.nextId])
  match (gangCores g).foldl step (some (s, [])) with
  | none => none
  | some (s, us) =>
    let s := g.clus.foldl (fun s k => dequeue s k g.seq false) s
    let e := (classAt s ((gangCores g).headD 0) g.task.asid (tClass g.task)).1
    some (if solo then dropGangRec s g.id else setGang s { g with launched := true, reserved := [], members := us, cls := e })

/-- GANG_LAUNCH: every core of a gang is reserved (R155): the members begin, after the launch unit's read of a SPLIT
descriptor (R157); a class invalid at any member drops the gang (R144). -/
def execGangLaunch (gid : Nat) (s : State) : Host.Outcome State Fault Refusal :=
  match gangById s gid with
  | none => .next s
  | some g =>
    if g.launched ∨ g.reading ∨ !(gangCores g).all g.reserved.contains ∨ g.clus.any (fencedClus s) then .next s
    else if (gangCores g).any fun c => taskBad (classAt s c g.task.asid (tClass g.task)).1 g.task (fromSub g.task) then
      .next (dropGang s g none)
    else if (classAt s ((gangCores g).headD 0) g.task.asid (tClass g.task)).1.split && g.extents.isNone then
      .next (setGang s { g with reading := true })
    else .next ((launchGang s g).getD s)

/-- A gang goes into fault-wait before its launch (R157): its cores are freed and its cost leaves SUM. -/
def gangFaultWait (s : State) (g : Gang) (w : FaultWait) : State :=
  let s := g.clus.foldl (fun s k =>
    let c := clusAt s k
    setClus s k { c with sum := c.sum - clusCost g.task,
                         queue := c.queue.map fun q => if q.seq = g.seq then
                           { q with wait := some w, gang := if bigGang g.task then q.gang else none } else q }) s
  if bigGang g.task then setGang s { g with reserved := [], reading := false, extents := none } else dropGangRec s g.id

/-- SPLIT_DESCRIPTOR_READ: the launch unit's read of the descriptor returns (R157). -/
def execSplitDescriptorRead (gid : Nat) (s : State) : Host.Outcome State Fault Refusal :=
  unlessHeld s <|
  match gangById s gid with
  | none => .next s
  | some g =>
    if !g.reading then .next s
    else
      let dk := dieKey (g.die / 8) (g.die % 8)
      match readNow s (agentReq dk 8 g.task.asid g.task.gen .load (nth g.task.words 2).toNat 64) with
      | (.ok bs, s) =>
        let d := dOfBytes bs
        if descMalformed d then .next (dropGang s g none)
        else .next (setGang s { g with reading := false, extents := some (dSize d 0, dSize d 1) })
      | (.fault r, s) =>
        if recoverable r.kind then
          .next (gangFaultWait (launchFault s dk (tHeader g.task) (16 * g.row + g.col) (some r)) g ⟨r.va, dk⟩)
        else .next (dropGang s g (some r))

/-- GANG_JOIN: every member has completed its paths and may publish its accesses at RSCOPE: one arrival goes to the join target, unless a
member was terminated (R158, R77). -/
def execGangJoin (gid : Nat) (s : State) : Host.Outcome State Fault Refusal :=
  match gangById s gid with
  | none => .next s
  | some g =>
    if !g.launched ∨ !g.members.isEmpty then .next s
    else
      let s := dropGangRec s gid
      let t := nth g.task.words 1
      if g.dead ∨ !joinValid t then .next s
      else .next (sendMsg s (dieKey (g.die / 8) (g.die % 8)) (.arrival ⟨t &&& 0xFFFFFF, 1, g.task.asid, g.task.gen⟩))

/-- DONE_COMPLETE: a waiting done takes the steps that its completed paths and returned loads allow (R151). -/
def execDoneComplete (ctx : Nat) (s : State) : Host.Outcome State Fault Refusal :=
  match actAt s ctx with
  | some a =>
    if a.wait == .done && (doneReady s a || a.txn.isSome && txnPathsClear s a.uid) then .next (goDone s a) else .next s
  | none => .next s

/-- CLS_INV: a write names classes to invalidate on every core of the die (R148). -/
def execClsInv (die : Nat) (v : Word) (s : State) : Host.Outcome State Fault Refusal :=
  unlessDown s die <|
  let d := dieAt s die
  .next (setDie s die { d with clsQ := d.clsQ ++ [v &&& 0x7FFFFFF] })

/-- A core without the class copies and routine lines that a CLS_INV value names (R148, R205). -/
def clsDropped (v : Word) (c : Core) : Core :=
  let asid := wfld v 0 16
  let hit (cls : Nat) : Bool := wbit v 26 || cls == wfld v 16 10
  { c with
    classes := c.classes.filter fun e => !(e.1 / 1024 = asid && hit (e.1 % 1024))
    lines := c.lines.filter fun l => !(l.1 = asid && hit l.2.2.1) }

/-- CLS_INV_COMPLETE: no core can use the oldest invalidated copy any longer (R148). -/
def execClsInvComplete (die : Nat) (s : State) : Host.Outcome State Fault Refusal :=
  let d := dieAt s die
  match d.clsQ with
  | [] => .next s
  | v :: r =>
    let s := setDie s die { d with clsQ := r, clsDone := d.clsDone + 1 }
    .next { s with cores := s.cores.map fun e => if dkOfCore e.1 = die then (e.1, clsDropped v e.2) else e }

/-! ### Arrivals and waiting-task entries -/

/-- The core of a join target, seen from a die (R143): none when its map entry is invalid or its package unreachable. -/
def joinCore (s : State) (dk : Nat) (t : Word) : Option Nat :=
  let j := wfld t 17 6
  let e := pkmap s dk j
  let pkg := if j = 63 then some (dk / 16) else if wbit e 15 then some (pkgOfSys s (wfld e 0 12)) else none
  match pkg with
  | none => none
  | some p =>
    if p != dk / 16 && !pathTo s dk (dieKey p (wfld t 14 3)) then none
    else some (coreKey p (wfld t 14 3) (16 * wfld t 10 4 + wfld t 6 4))

/-- Do two messages come from one source (R87): the same core, or the units of the same die (DESIGN CHOICE, log 72)? -/
def sameSource (f g : Flight) : Bool :=
  f.req.src.pkg == g.req.src.pkg && f.req.src.die == g.req.src.die && f.req.src.core == g.req.src.core && f.req.src.agent == g.req.src.agent

/-- Is an earlier arrival or signal of the same source still on its way to a core (R87, R232)? -/
def overtakes (s : State) (f : Flight) (core : Nat) : Bool :=
  s.flights.any fun g => sameSource f g && sentBefore g f && g.stage == .sent && (match g.pay with
    | .arrival a => joinCore s (srcDie g) a.target == some core
    | .signal c .. => c == core
    | _ => false)

/-- ARRIVAL: a core's entry port applies an arrival (R160), after what its source sent to the core before it (R87); one that cannot be sent is
counted as lost (R143). -/
def execArrival (id : Nat) (s : State) : Host.Outcome State Fault Refusal :=
  match flightById s id with
  | none => .next s
  | some f =>
    match f.stage, f.pay with
    | .sent, .arrival a =>
      let dk := srcDie f
      match joinCore s dk a.target with
      | none =>
        .next (endOp (postEvent s dk (mkEvent s dk 0x0D a.target (BitVec.ofNat 64 a.amount))) f)
      | some core => if overtakes s f core then .next s else .next (endOp (setCore s core (arriveCore (wfld a.target 0 6) (coreAt s core) a)) f)
    | _, _ => .next s

/-- Where an indivisible access of an engine is performed. -/
inductive Spot where
  | at (loc : Nat)
  | fault (r : FRec)

/-- Translates a request of one page and finds the location at which it is performed (R24 to R26). A die that does not answer (R178) serves
nothing: the step that asks does not take place. -/
def spotNow (s : State) (q : Req) : Spot × State :=
  let src := dieKey q.src.pkg q.src.die
  match route s src q.va with
  | none =>
    let (r, s) := raiseFault s src q 0x0D 0 q.va 0
    (.fault r, s)
  | some dk =>
    if dk / 16 != q.src.pkg && !pathTo s src dk then
      let (r, s) := raiseFault s src q 0x0E 0 q.va 0
      (.fault r, s)
    else if (dieAt s dk).failed then (.at 0, { s with held := true })
    else
      match translateNow s dk q with
      | (.fault r, s) => (.fault r, s)
      | (.miss, s) =>
        let (r, s) := raiseFault s dk q 0x01 4 q.va 0
        (.fault r, s)
      | (.ok loc leaf _, s) =>
        if leafAPER leaf != 1 then (.at loc, { s with held := s.held || (dieAt s (locDie loc)).failed })
        else
          let p := peerDie s dk leaf
          let pa := leafPa leaf (vaOff q.va)
          if !pathTo s dk p then
            let (r, s) := raiseFault s dk q 0x0E 0 q.va leaf
            (.fault r, s)
          else if !admits s p (sysPkg s (dk / 16)) pa q.n q.acc ∨ pa + q.n > localSize p then
            let (r, s) := raiseFault s p q 0x11 0 q.va leaf
            (.fault r, s)
          else (.at (hbm p pa), { s with held := s.held || (dieAt s p).failed })

/-- An indivisible read and write of an engine at the port (R96). -/
def rmwNow (s : State) (q : Req) (f : Nat → Nat) : Got × State :=
  match spotNow s q with
  | (.fault r, s) => (.fault r, s)
  | (.at loc, s) =>
    let (bs, s) := portRead s loc q.n
    (.ok bs, { s with mem := writeN s.mem loc q.n (f (ofBytes bs)) })

/-- The entry's firing stops with a fault record or an invalid template (R162). -/
def entryFault (s : State) (core ent : Nat) (r : Option FRec) : State :=
  let c := coreAt s core
  let s := setCore s core { c with wtt := mset c.wtt ent { wttAt c ent with st := .fault } }
  let dk := dkOfCore core
  let e := mkEvent s dk 0x09 (BitVec.ofNat 64 (numOfCore core)) (BitVec.ofNat 64 ent)
  postEvent s dk (match r with
    | some r => withRec e r
    | none => e)

/-- A request of a waiting-task entry (R31, R161). -/
def wttReq (core : Nat) (e : WttEntry) (acc : Acc) (va n : Nat) : Req :=
  let q := agentReq (dkOfCore core) 9 e.asid e.gen acc va n
  { q with src := { q.src with core := numOfCore core } }

/-- The end of a firing that spawned its template, or launched nothing (R161). -/
def wttEnds (s : State) (core ent : Nat) (again : Bool) : State :=
  let c := coreAt s core
  let e := wttAt c ent
  setCore s core (endFiring c ent (if again then { e with st := .armed, count := e.n } else { e with st := .disarmed }))

/-- WTT_FIRE_READ: the read of a firing returns (R161, R162). -/
def execWttFireRead (core ent : Nat) (s : State) : Host.Outcome State Fault Refusal :=
  unlessHeld s <|
  let e := wttAt (coreAt s core) ent
  let step (s : State) (v : Nat) : State :=
    let c := coreAt s core
    setCore s core { c with wtt := mset c.wtt ent { e with step := 1, val := v } }
  if e.st != .firing then .next s
  else if e.step = 0 then
    if e.kind = 3 then
      match rmwNow s (wttReq core e .mobj e.ctlw 8) (fun v => v - 1) with
      | (.fault r, s) => .next (entryFault s core ent (some r))
      | (.ok bs, s) => if ofBytes bs = 0 then .next (wttEnds s core ent false) else .next (step s (ofBytes bs))
    else
      match readNow s (wttReq core e .load e.ctlw 8) with
      | (.fault r, s) => .next (entryFault s core ent (some r))
      | (.ok bs, s) =>
        let v := ofBytes bs
        if e.kind = 1 then (if v = 0 then .next (wttEnds s core ent false) else .next (step s 0))
        else if 3 < v then
          let dk := dkOfCore core
          .next (wttEnds (postEvent s dk (mkEvent s dk 0x0A (BitVec.ofNat 64 (numOfCore core)) (BitVec.ofNat 64 ent))) core ent false)
        else .next (step s v)
  else
    let k := if e.kind = 2 then e.val else 0
    match readNow s (wttReq core e .load (e.tmpl + 64 * k) 64) with
    | (.fault r, s) => .next (entryFault s core ent (some r))
    | (.ok bs, s) =>
      let ws := wordsOf 8 bs
      let (cl, s) := classAt s core e.asid (wfld (nth ws 0) 0 10)
      let t := mkTask ws e.asid e.gen (clusOfCore core) false 0 cl.cost
      if taskBad cl t false then .next (entryFault s core ent none)
      else .next (wttEnds (placeTask s (clusOfCore core) t) core ent (e.kind = 3 && 1 < e.val))

/-- WTT_RETRY: a faulted firing resumes at its recorded step, or its entry is disarmed (R163). -/
def execWttRetry (core : Nat) (v : Word) (s : State) : Host.Outcome State Fault Refusal :=
  unlessDown s (dkOfCore core) <|
  let ent := wfld v 0 6
  let c := coreAt s core
  let e := wttAt c ent
  if e.st != .fault then .next s
  else if wbit v 6 then .next (setCore s core (endFiring c ent { e with st := .disarmed }))
  else .next (setCore s core { c with wtt := mset c.wtt ent { e with st := .firing } })

/-! ### The launch unit -/

/-- LU_LAUNCH: a write reads a task descriptor in the address space of LU_LASID (R405). -/
def execLuLaunch (die : Nat) (v : Word) (s : State) : Host.Outcome State Fault Refusal :=
  let d := dieAt s die
  let l := rawReg s die (luBlk + 0x10)
  if 8 ≤ die % 16 ∨ d.failed then .next s
  else .next (setDie s die { d with launchQ := d.launchQ ++ [(wfld v 0 57, wfld l 0 16, wfld l 16 4)] })

/-- LAUNCH_DESCRIPTOR_READ: the read returns; the task is checked and placed as a spawn from cluster 0 (R405). -/
def execLaunchDescriptorRead (die : Nat) (s : State) : Host.Outcome State Fault Refusal :=
  unlessHeld s <|
  let d := dieAt s die
  match d.launchQ with
  | [] => .next s
  | (va, asid, gen) :: r =>
    let s := setDie s die { d with launchQ := r }
    match readNow s (agentReq die 8 asid gen .load va 64) with
    | (.fault r, s) => .next (launchFault s die 0 0 (some r))
    | (.ok bs, s) =>
      let ws := wordsOf 8 bs
      let core := coreKey (die / 16) (die % 16) 0
      let (cl, s) := classAt s core asid (wfld (nth ws 0) 0 10)
      let t := mkTask ws asid gen (clusOfCore core) false 0 cl.cost
      if taskBad cl t false then .next (launchFault s die (nth ws 0) 0 none)
      else .next (placeTask s (clusOfCore core) t)

end Sys2Proof.Machine
end

