-- ==== Sys2Proof/Machine/Order.lean ====
section
/-! DEFINITION. Order-first transactions (R121 to R141): the order sequencers, slice queues, homes, releases and the time
limit. -/
namespace Sys2Proof.Machine

/-! ### Domains and beats -/

def osqCtl (s : State) (dk : Nat) : Word := rawReg s dk osqBlk
def osqOn (s : State) (dk : Nat) : Bool := wbit (osqCtl s dk) 63

/-- Cycles of a beat under a value of OSQ_CTL: 250 ns, or 2 µs across a panel (R126; DEDUCED, log 7). -/
def beatOf (ctl : Word) : Nat := if wbit ctl 24 then 8000 else 1000
def beatLen (s : State) (dk : Nat) : Nat := beatOf (osqCtl s dk)

/-- Members of a sequencer's domain as its registers name them (R125). -/
def domainDies (s : State) (dk : Nat) : List Nat :=
  let ctl := osqCtl s dk
  let pkgs := if wbit ctl 24 then
      ((List.range 64).filter fun p => wbit (rawReg s dk (osqBlk + 8)) p).map fun p =>
        pkgOfSys s (sysPkg s (dk / 16) / 64 * 64 + p)
    else [dk / 16]
  pkgs.flatMap fun p => ((List.range 8).filter fun d => wbit ctl (16 + d)).map fun d => dieKey p d

/-- A sequencer's number in batches: system package and die (R127). -/
def seqNumber (s : State) (dk : Nat) : Nat := sysPkg s (dk / 16) * 8 + dk % 16

/-- The transaction id of a submission (R123). -/
def tidOf (s : State) (dk beat idx : Nat) : Word :=
  BitVec.ofNat 64 (beat % 2 ^ 32 * 2 ^ 32 + sysPkg s (dk / 16) % 4096 * 2 ^ 20 + dk % 16 * 2 ^ 17 + idx)

/-- The die that submitted a transaction. -/
def tidDie (s : State) (tid : Word) : Nat := dieKey (pkgOfSys s (wfld tid 20 12)) (wfld tid 17 3)

/-- OSQ_SUBMIT: the sequencer accepts a submission, or it waits at the core while a limit or a stall holds (R123, R138); one that still waits
when EN is clear traps as a later one does (R139; DESIGN CHOICE, log 57). The oft.sub then completes. -/
def execOsqSubmit (id : Nat) (s : State) : Host.Outcome State Fault Refusal :=
  match flightById s id with
  | none => .next s
  | some f =>
    match f.pay with
    | .oftSub dk desc tiles =>
      let o := osqAt s dk
      if f.stage != .sent then .next s
      else if !osqOn s dk then .next (trapFlight s f cDomain)
      else if o.stall ∨ 256 ≤ o.batch.length ∨ 4096 ≤ o.inflight.length then .next s
      else
        let tid := tidOf s dk o.beat o.batch.length
        let sub : Sub := { tid := tid, desc := desc, tiles := tiles, asid := f.req.asid, gen := f.req.gen }
        let s := setOsq s dk { o with batch := o.batch ++ [sub], inflight := o.inflight ++ [tid] }
        let s := endOp s f
        match actByUid s f.uid, f.dst with
        | some a, .oftSub d =>
          let s := writeS (putAct s { a with decl := [] }) { a with decl := [] } d tid
          match actByUid s f.uid with
          | some a => .next (finishWait s a)
          | none => .next s
        | _, _ => .next s
    | _ => .next s

/-- The submissions of a sequencer's own batches that are discarded unmerged are counted in LOST; as no release of theirs will come, they leave
INFLIGHT (R138; DESIGN CHOICE, log 57). -/
def discardBatches (s : State) (dk : Nat) : State :=
  let o := osqAt s dk
  let mine := (o.have_.filter fun h => h.2.1 = seqNumber s dk).flatMap fun h => h.2.2
  let lost := mine ++ o.batch
  let st := rawReg s dk (osqBlk + 0x18)
  let s := if lost.isEmpty then s
    else setRaw s dk (osqBlk + 0x18) (putFld st 48 16 (min 65535 (wfld st 48 16 + lost.length)))
  setOsq s dk { o with have_ := [], batch := [], inflight := o.inflight.filter fun t => !lost.any fun x => x.tid = t }

/-- A pending OSQ_CTL value takes effect at a beat boundary (R138, R139). Setting EN starts a new count of beats, with the one that begins at
that boundary and without what is unmerged; clearing EN discards what is unmerged when the sequencer is stalled (R138), and else lets the beats that have ended be merged (R139;
DESIGN CHOICE, log 57). -/
def applyOsqCtl (s : State) (dk : Nat) (v : Word) : State :=
  let old := osqCtl s dk
  let s := storeReg s dk osqBlk v
  let beat := s.now / beatLen s dk
  if wbit v 63 && !wbit old 63 then
    let s := discardBatches s dk
    let first := (osqAt s dk).ctlAt / beatLen s dk
    setOsq s dk { osqAt s dk with ctlPend := none, stall := false, beat := first, merged := first }
  else if !wbit v 63 && wbit old 63 then
    let s := if (osqAt s dk).stall then discardBatches s dk else s
    let o := osqAt s dk
    setOsq s dk { o with ctlPend := none, endBeat := o.beat, merged := if o.stall then o.beat else o.merged }
  else setOsq s dk { osqAt s dk with ctlPend := none, beat := if wbit v 63 then (osqAt s dk).beat else beat }

/-- The batch of the beat that ends goes to every other member, even when it is empty (R126). -/
def sendBatch (s : State) (dk : Nat) : State :=
  let o := osqAt s dk
  let me := seqNumber s dk
  let s := setOsq s dk { o with batch := [], have_ := o.have_ ++ [(o.beat, me, o.batch)], beat := o.beat + 1 }
  ((domainDies s dk).filter fun m => m != dk).foldl (fun s m => sendMsg s dk (.batch m o.beat me o.batch)) s

/-- BEAT_END: a beat ends; the sequencer's batch is sent while EN is set (R126), and an OSQ_CTL write whose boundary has come takes
effect (R139). -/
def execBeatEnd (dk : Nat) (s : State) : Host.Outcome State Fault Refusal :=
  let o := osqAt s dk
  let len := beatLen s dk
  let on := osqOn s dk
  let due := if on then (o.beat + 1) * len ≤ s.now else o.beat < s.now / len
  let pend (s : State) (edge : Nat) : State := match o.ctlPend with
    | some v => if o.ctlAt ≤ edge then applyOsqCtl s dk v else s
    | none => s
  if (dieAt s dk).failed then .next s
  else if on then (if due then .next (pend (sendBatch s dk) ((o.beat + 1) * len)) else .next s)
  else .next (pend (if due then setOsq s dk { o with beat := s.now / len } else s) s.now)

/-- BATCH_RECEIVE: another member's batch arrives (R126). -/
def execBatchReceive (id : Nat) (s : State) : Host.Outcome State Fault Refusal :=
  match flightById s id with
  | none => .next s
  | some f =>
    match f.pay with
    | .batch dk beat sender subs =>
      let o := osqAt s dk
      let s := dropFlight s f.id
      if (domainDies s dk).any (fun m => seqNumber s m = sender) && o.merged ≤ beat then
        .next (setOsq s dk { o with have_ := o.have_ ++ [(beat, sender, subs)] })
      else .next s
    | _ => .next s

/-! ### Slice queues -/

/-- The slice of a tile (R128). -/
def sliceOf (va : Nat) : Nat := fld va 12 8 ^^^ fld va 20 8

/-- The home tile of a declaration (R130): the first declared W tile, else the first tile. -/
def homeTile (tiles : List (Nat × Bool)) : Nat := ((tiles.find? fun t => t.2).getD (tiles.headD (0, false))).1

/-- Enqueues held entries in order until one finds its slice queue full (R128). -/
def enqueueFrom : List QEntry → List QEntry → List QEntry × List QEntry
  | [], q => ([], q)
  | e :: r, q => if (q.filter fun x => x.slice = e.slice).length < 128 then enqueueFrom r (q ++ [e]) else (e :: r, q)

/-- May an entry be granted behind the entries before it (R129)? -/
def grantable (before : List QEntry) (e : QEntry) : Bool :=
  before.all fun x => x.asid != e.asid || x.tile != e.tile || (!x.w && !e.w)

/-- Grants what may be granted; the entries granted now. -/
def grantList : List QEntry → List QEntry → List QEntry × List QEntry
  | _, [] => ([], [])
  | before, e :: r =>
    let (q, new) := grantList (before ++ [e]) r
    if !e.granted && grantable before e then ({ e with granted := true } :: q, { e with granted := true } :: new) else (e :: q, new)

/-- A die's slice queues after room or an entry has appeared: enqueues and grants (R128, R129). -/
def runSlices (s : State) (dk : Nat) : State :=
  let o := osqAt s dk
  let (pend, q) := enqueueFrom o.pend o.queue
  let (q, new) := grantList [] q
  let s := setOsq s dk { o with pend := pend, queue := q }
  new.foldl (fun s e => sendMsg s dk (.grant e.home e.tid)) s

/-- The entries that one die enqueues for a submission (R128). -/
def entriesAt (s : State) (dk : Nat) (x : Sub) : List QEntry :=
  (x.tiles.filter fun t => route s dk t.1 = some dk).map fun t =>
    { slice := sliceOf t.1, asid := x.asid, tile := t.1, w := t.2, tid := x.tid
      home := (route s dk (homeTile x.tiles)).getD dk, granted := false }

/-- Insertion of a batch by its sender's number. -/
def insertBatch (b : Nat × Nat × List Sub) : List (Nat × Nat × List Sub) → List (Nat × Nat × List Sub)
  | [] => [b]
  | x :: r => if b.2.1 < x.2.1 then b :: x :: r else x :: insertBatch b r

/-- BATCH_MERGE: with every member's batch of a beat held, the batches are merged into the global order, and the die's
entries are enqueued (R127, R128). -/
def execBatchMerge (dk : Nat) (s : State) : Host.Outcome State Fault Refusal :=
  let o := osqAt s dk
  let b := o.merged
  let got := o.have_.filter fun h => h.1 = b
  if o.stall ∨ o.beat ≤ b ∨ got.isEmpty ∨
      !(domainDies s dk).all (fun m => got.any fun h => h.2.1 = seqNumber s m) then .next s
  else
    let subs := (got.foldl (fun l h => insertBatch h l) []).flatMap fun h => h.2.2
    let homes := (subs.filter fun x => route s dk (homeTile x.tiles) = some dk).map fun x =>
      { sub := x, got := 0, placed := false, ended := false : HomeTxn }
    let s := setOsq s dk { o with
      merged := b + 1, have_ := o.have_.filter fun h => h.1 != b, ordered := o.ordered + BitVec.ofNat 32 subs.length
      homes := o.homes ++ homes, pend := o.pend ++ subs.flatMap (entriesAt s dk) }
    .next (runSlices s dk)

/-- HOME_GRANT: a grant reaches the home; with all grants held the body is placed in the home cluster's queue (R130). -/
def execHomeGrant (id : Nat) (s : State) : Host.Outcome State Fault Refusal :=
  match flightById s id with
  | none => .next s
  | some f =>
    match f.pay with
    | .grant dk tid =>
      let o := osqAt s dk
      match o.homes.find? (fun h => h.sub.tid = tid) with
      | none => .next s
      | some h =>
        let full := h.got + 1 = h.sub.tiles.length && !h.placed
        let h' := { h with got := h.got + 1, placed := h.placed || full }
        let s := dropFlight (setOsq s dk { o with homes := o.homes.map fun x => if x.sub.tid = tid then h' else x }) f.id
        if !full then .next s
        else
          let k := (dk / 16 * 8 + dk % 16) * 16 + sliceOf (homeTile h.sub.tiles) / 16
          let core := (rectCores (k / 16) (4 * (k % 16 / 4)) (4 * (k % 4)) 1 1).headD 0
          let (cl, s) := classAt s core h.sub.asid (wfld (nth h.sub.desc 0) 0 10)
          .next (placeHome s k { mkTask h.sub.desc h.sub.asid h.sub.gen k false 0 cl.cost with txn := some tid, body := true })
    | _ => .next s

/-! ### The end of a transaction -/

/-- Does the release at the end of a transaction take effect (R73, R132, R137): every load that it issued has returned, and every write
has been performed? -/
def txnQuiet (s : State) (f : Flight) : Bool :=
  f.uid = 0 || (releaseReady s f.uid f.id 4 && s.flights.all fun g => g.uid != f.uid || f.id ≤ g.id || g.stage == .ack || !g.req.acc.writes)

/-- TXN_RELEASE_SEND: a release message goes to every die whose slice queues hold an entry of the transaction (R132, R137). -/
def execTxnReleaseSend (id : Nat) (s : State) : Host.Outcome State Fault Refusal :=
  match flightById s id with
  | none => .next s
  | some f =>
    match f.pay with
    | .txnEnd tid dies home =>
      if !txnQuiet s f then .next s
      else
        let s := dropFlight s f.id
        let o := osqAt s home
        let s := setOsq s home { o with homes := o.homes.map fun x => if x.sub.tid = tid then { x with ended := true } else x }
        .next (dies.foldl (fun s d => sendMsg s home (.release d tid home)) s)
    | _ => .next s

/-- Is a flight a release message of a transaction? -/
def isReleaseOf (tid : Word) (f : Flight) : Bool := match f.pay with
  | .release _ t _ => t == tid
  | _ => false

/-- SLICE_RELEASE: the entries of a transaction leave a die's slice queues; held enqueues and grants go on (R137). With the
last of them the transaction is released. -/
def execSliceRelease (id : Nat) (s : State) : Host.Outcome State Fault Refusal :=
  match flightById s id with
  | none => .next s
  | some f =>
    match f.pay with
    | .release dk tid home =>
      let s := dropFlight s f.id
      let o := osqAt s dk
      let s := runSlices (setOsq s dk { o with queue := o.queue.filter fun e => e.tid != tid }) dk
      if s.flights.any (isReleaseOf tid) then .next s
      else
        let h := osqAt s home
        let s := setOsq s home { h with homes := h.homes.filter fun x => x.sub.tid != tid }
        let sub := tidDie s tid
        let o := osqAt s sub
        .next (setOsq s sub { o with inflight := o.inflight.filter fun t => t != tid })
    | _ => .next s

/-- Cycles that a transactional activation has run (R134). -/
def txnRun (s : State) (a : Act) : Nat :=
  a.txnCycles + (match a.wait with
    | .fault .. => 0
    | _ => s.now - a.txnMark)

/-- TXN_TIME_LIMIT: a transactional activation passes 2^20 cycles and is terminated with kind 0x17 (R134). -/
def execTxnTimeLimit (ctx : Nat) (s : State) : Host.Outcome State Fault Refusal :=
  match actAt s ctx with
  | none => .next s
  | some a =>
    if a.txn.isNone ∨ txnRun s a ≤ 2 ^ 20 then .next s
    else
      let (_, s) := raiseFault s (dieOf a) (reqOf a .load 0 0) 0x17 0 0 0
      .next (trap s a 0)

/-- OSQ_STALL: a member's batch b is missing at the end of beat b + 8 (R138), of a beat that ended while EN was set (DESIGN CHOICE,
log 57). The event's word 5 is DOMID, word 6 the beat. -/
def execOsqStall (dk : Nat) (s : State) : Host.Outcome State Fault Refusal :=
  let o := osqAt s dk
  let got := o.have_.filter fun h => h.1 = o.merged
  if o.stall ∨ (!osqOn s dk && o.endBeat ≤ o.merged) ∨ o.beat ≤ o.merged + 8 ∨
      (domainDies s dk).all (fun m => got.any fun h => h.2.1 = seqNumber s m) then .next s
  else
    let e := mkEvent s dk 0x07 (BitVec.ofNat 64 (wfld (osqCtl s dk) 0 16)) (BitVec.ofNat 64 o.merged)
    .next (postEvent (setOsq s dk { o with stall := true }) dk e)

/-- Do the dies of a mask lie in one partition (R125)? -/
def oneMaskPart (s : State) (pkg mask : Nat) : Bool :=
  let ps := ((List.range 8).filter fun d => mask.testBit d).map (partOf (pkgAt s pkg).partMode)
  ps.all fun p => p = ps.headD 0

/-- OSQ_CTL_WRITE: a write to OSQ_CTL waits for the next beat boundary; membership does not change while EN is set (R125,
R139). The boundary is one of the beats in force, of a write that sets EN one of the beats that it starts
(DESIGN CHOICE, log 57). -/
def execOsqCtlWrite (dk off : Nat) (v : Word) (s : State) : Host.Outcome State Fault Refusal :=
  if 8 ≤ dk % 16 ∨ (dieAt s dk).failed then .next s
  else if off = 8 then
    if osqOn s dk then .next s else .next (storeReg s dk (osqBlk + 8) v)
  else if off != 0 then .next s
  else
    let old := osqCtl s dk
    if (osqOn s dk && wfld old 0 25 != wfld v 0 25) || !oneMaskPart s (dk / 16) (wfld v 16 8) then .next s
    else
      let len := if osqOn s dk || !wbit v 63 then beatLen s dk else beatOf v
      .next (setOsq s dk { osqAt s dk with ctlPend := some v, ctlAt := (s.now / len + 1) * len })

end Sys2Proof.Machine
end

