-- ==== Sys2Proof/Machine/Barrier.lean ====
section
/-! DEFINITION. Signals (R232), barrier objects (R234 to R237) and the polls of bar.wait and bim.wait (R236, R396). -/
namespace Sys2Proof.Machine

/-! ### Signals -/

/-- A semaphore's sum saturates at the ends of 32 bits (R232). -/
def clampSem (v : Int) : Int := max (-2147483648) (min 2147483647 v)

/-- Does a core run an address space and generation now? -/
def coreNames (c : Core) (asid gen : Nat) : Bool := wbit c.asid 20 && wfld c.asid 0 16 == asid && wfld c.asid 16 4 == gen

/-- SIGNAL_APPLY: a core applies a signal to a semaphore; one of another address space is discarded with event 0x0D, word 5
the core, word 6 the amount (R232, R338). What one source sends to the core stays in the order in which it was sent (R87). -/
def execSignalApply (id : Nat) (s : State) : Host.Outcome State Fault Refusal :=
  match flightById s id with
  | none => .next s
  | some f =>
    match f.stage, f.pay with
    | .sent, .signal core k amount asid gen =>
      if overtakes s f core then .next s
      else
        let c := coreAt s core
        if !coreNames c asid gen then
          let dk := dkOfCore core
          .next (endOp (postEvent s dk (mkEvent s dk 0x0D (BitVec.ofNat 64 (numOfCore core)) (BitVec.ofInt 64 amount))) f)
        else .next (endOp (setCore s core { c with sems := mset c.sems k (clampSem (mget c.sems k 0 + amount)) }) f)
    | _, _ => .next s

/-! ### Barrier objects -/

/-- The die whose port performs a location. -/
def portDie (loc : Nat) : Nat := if regionKind loc = 1 then regionIdx loc else ioDie (regionIdx loc)

/-- Fields of a barrier object at a location (R234). -/
def barCnt (s : State) (loc : Nat) : Nat := readN s.mem loc 4
def barN (s : State) (loc : Nat) : Nat := readN s.mem (loc + 4) 4
def barPhase (s : State) (loc : Nat) : Word := readW s.mem (loc + 8)
def barUp (s : State) (loc : Nat) : Bool := wbit (readW s.mem (loc + 16)) 63
def barScope (s : State) (loc : Nat) : Nat := min 4 (wfld (readW s.mem (loc + 16)) 57 3)
def barParent (s : State) (loc : Nat) : Nat := wfld (readW s.mem (loc + 16)) 0 57

/-- Sets or clears UP. -/
def setUp (s : State) (loc : Nat) (b : Bool) : State :=
  { s with mem := writeN s.mem (loc + 16) 8 (putBit (readW s.mem (loc + 16)) 63 b).toNat }

/-- The participants of an object with one more arrival of the current phase (R184). -/
def barJoin (bars : List (Nat × List Nat × List Nat)) (loc uid : Nat) : List (Nat × List Nat × List Nat) :=
  if bars.any fun b => b.1 = loc then bars.map fun b => if b.1 = loc then (b.1, b.2.1, b.2.2 ++ [uid]) else b
  else bars ++ [(loc, [], [uid])]

/-- Flip of R235: the phase ends; a flip goes to every recorded child and to every waiter. -/
def flipObject (s : State) (loc : Nat) : State :=
  let phase := barPhase s loc + 1
  let s := setUp { s with mem := writeN (writeN s.mem loc 4 0) (loc + 8) 8 phase.toNat } loc false
  let dk := portDie loc
  let kids := (s.barKids.filter fun k => k.1 = loc).map fun k => k.2
  let waits := (s.barWaits.filter fun w => w.2.1 = loc).map fun w => w.2.2.2
  let s := { s with
    barKids := s.barKids.filter fun k => k.1 != loc
    barWaits := s.barWaits.filter fun w => w.2.1 != loc
    bars := s.bars.map fun b => if b.1 = loc then (b.1, b.2.2, []) else b }
  let s := kids.foldl (fun s k => sendMsg s dk (.flip k)) s
  waits.foldl (fun s u => sendMsg s dk (.wake u loc phase)) s

/-- The arrival that a completed child sends to its parent, in the address space of the arriving request (R235). -/
def upward (child dk parent asid gen : Nat) : Flight :=
  { message dk (.barArrive (some child) 0) with req := agentReq dk 3 asid gen .mobj parent 32 }

/-- ArriveAt of R235 for an arrival at the port of its object. -/
def arriveAt (s : State) (loc : Nat) (f : Flight) : State :=
  let s := closeLine s loc
  if barN s loc = 0 then faultFlight { s with barHeld := s.barHeld.filter fun i => i != f.id } (portDie loc) f 0x19 0 0
  else if barUp s loc then { s with barHeld := if s.barHeld.contains f.id then s.barHeld else s.barHeld ++ [f.id] }
  else
    let cnt := (barCnt s loc + 1) % 2 ^ 32
    let s := { s with
      mem := writeN s.mem loc 4 cnt
      barHeld := s.barHeld.filter fun i => i != f.id
      barKids := match f.pay with
        | .barArrive (some child) _ => s.barKids ++ [(loc, child)]
        | _ => s.barKids
      bars := if f.uid = 0 then s.bars else barJoin s.bars loc f.uid }
    let s := if f.uid = 0 then dropFlight s f.id
      else setFlight s { f with stage := .reply (toBytes 8 (barPhase s loc).toNat) }
    if cnt != barN s loc then s
    else if barParent s loc = 0 then flipObject s loc
    else
      let s := setUp s loc true
      if (dieAt s (portDie loc)).failed then s
      else launchFlight s (upward loc (portDie loc) (barParent s loc) f.req.asid f.req.gen)

/-- The location of a flight at its port. -/
def portLoc (f : Flight) : Option Nat := match f.stage with
  | .port loc _ _ _ => if f.gang.isNone then some loc else none
  | _ => none

/-- The arrivals that an object held are applied in order (R235). -/
def applyHeld (s : State) (loc : Nat) : State :=
  s.barHeld.foldl (fun s i => match flightById s i with
    | some f => if portLoc f = some loc then arriveAt s loc f else s
    | none => s) s

/-- Is an earlier arrival of the same source at the same object still on its way (R87)? -/
def arrivesBefore (s : State) (f : Flight) : Bool :=
  s.flights.any fun g => sameSource f g && sentBefore g f && g.req.va == f.req.va && g.req.asid == f.req.asid && !s.barHeld.contains g.id &&
    (match g.pay with
     | .barArrive .. => true
     | _ => false) && (match g.stage with
     | .sent | .walking | .port .. | .fwd .. => true
     | _ => false)

/-- BARRIER_ARRIVE: the unit at the object's port counts an arrival, holds it, sends one upward, or flips (R235), after those that its source
sent before it (R87). -/
def execBarrierArrive (id : Nat) (s : State) : Host.Outcome State Fault Refusal :=
  unlessUnitDown s id <|
  match flightById s id with
  | none => .next s
  | some f =>
    match portLoc f, f.pay with
    | some loc, .barArrive .. => if s.barHeld.contains id || arrivesBefore s f then .next s else .next (arriveAt s loc f)
    | _, _ => .next s

/-- BARRIER_FLIP_RECEIVE: a child receives a flip and flips in turn; arrivals it held are applied (R235). -/
def execBarrierFlipReceive (id : Nat) (s : State) : Host.Outcome State Fault Refusal :=
  match flightById s id with
  | none => .next s
  | some f =>
    match f.pay with
    | .flip loc => unlessDown s (portDie loc) (.next (applyHeld (flipObject (dropFlight s id) loc) loc))
    | _ => .next s

/-- The pairs of object and core that a barrier unit has recorded (R236). -/
def barPairs (s : State) (unit : Nat) : List (Nat × Nat) :=
  ((s.barWaits.filter fun w => w.1 = unit).map fun w => (w.2.1, w.2.2.1)).eraseDups

/-- BARRIER_WAIT_REQUEST: PHASE is read and, while it equals the awaited phase, the waiting pair recorded in one action; with
4096 pairs recorded the core polls (R236, R336). -/
def execBarrierWaitRequest (id : Nat) (s : State) : Host.Outcome State Fault Refusal :=
  unlessUnitDown s id <|
  match flightById s id with
  | none => .next s
  | some f =>
    match portLoc f, f.pay with
    | some loc, .barWait p =>
      let s := closeLine s loc
      let unit := wqKey loc
      let core := flightCore f
      let phase := barPhase s loc
      if barN s loc = 0 then .next (faultFlight s (portDie loc) f 0x19 0 0)
      else
        let s' := setFlight s { f with stage := .reply (toBytes 8 phase.toNat) }
        if phase != p then .next s'
        else
          let full := !(barPairs s unit).contains (loc, core) && decide (4096 ≤ (barPairs s unit).length)
          let s' := if full then s' else { s' with
            barWaits := (s'.barWaits.filter fun w => w.2 != (loc, core, f.uid)) ++ [(unit, loc, core, f.uid)] }
          match actByUid s' f.uid with
          | some a => match a.wait with
            | .barrier i _ q _ _ since d ad =>
              if i = id then .next (putAct s' { a with wait := .barrier i loc q (barScope s loc) full since d ad }) else .next s'
            | _ => .next s'
          | none => .next s'
    | _, _ => .next s

/-- The end of a waiting read (R236, R336, R396): the value is written and the instruction completes. -/
def endWaitRead (s : State) (a : Act) (d : Nat) (v : Word) : State :=
  let s := writeS s a d v
  match actByUid s a.uid with
  | some a => finishWait s a
  | none => s

/-- BARRIER_WAKE: a flip reaches a core, and the activation that waits on the object for the end of the phase before the one it names becomes
ready (R236); a flip of an earlier wait leaves it waiting. -/
def execBarrierWake (id : Nat) (s : State) : Host.Outcome State Fault Refusal :=
  match flightById s id with
  | none => .next s
  | some f =>
    match f.pay with
    | .wake uid obj phase =>
      let s := dropFlight s id
      match actByUid s uid with
      | some a => match a.wait with
        | .barrier _ o p _ _ _ d _ => if o = obj && phase == p + 1 then .next (endWaitRead s a d phase) else .next s
        | _ => .next s
      | none => .next s
    | _ => .next s

/-- Is no read of a waiting instruction in flight, and a slot free for the next? -/
def mayPoll (s : State) (a : Act) (dst : Dst) : Bool :=
  slotsUsed s a.uid < 32 && (flightsOf s a.uid).all fun f => f.dst != dst

/-- BARRIER_POLL: a core with an unrecorded waiter reads PHASE again after 1024 cycles (R236). -/
def execBarrierPoll (ctx : Nat) (s : State) : Host.Outcome State Fault Refusal :=
  match actAt s ctx with
  | none => .next s
  | some a => match a.wait with
    | .barrier i o p sc true since d ad =>
      if s.now < since + 1024 ∨ !mayPoll s a (.phase d) then .next s
      else .next (issueOp (putAct s { a with wait := .barrier i o p sc true s.now d ad })
        (opOf a none .load (ad + 8) 8 .load (.phase d)))
    | _ => .next s

/-- BIM_WAIT_POLL: a parked bim.wait reads its word again after 1024 cycles (R396). -/
def execBimWaitPoll (ctx : Nat) (s : State) : Host.Outcome State Fault Refusal :=
  match actAt s ctx with
  | none => .next s
  | some a => match a.wait with
    | .bimWait _ since ad d target =>
      if s.now < since + 1024 ∨ !mayPoll s a (.bimWait d target) then .next s
      else .next (issueOp (putAct s { a with wait := .bimWait s.nextId s.now ad d target })
        (opOf a none .load ad 8 .load (.bimWait d target)))
    | _ => .next s

end Sys2Proof.Machine
end

