-- ==== Sys2Proof/Machine/Collective.lean ====
section
/-! DEFINITION. Ring sequencers (R238 to R243): collective programs, their steps, chunks and ends; those of a die that does not answer do nothing
(R178). A sequencer's key is (package * 8 + die) * 2 + port. -/
namespace Sys2Proof.Machine

/-! ### Registers and queue -/

def collCtl (s : State) (q : Nat) : Word := rawReg s (dkOfSeq q) (collBlk (q % 2))
def collOn (s : State) (q : Nat) : Bool := wbit (collCtl s q) 32
def collTmo (s : State) (q : Nat) : Nat := wfld (collCtl s q) 0 32
def collErr (s : State) (q : Nat) : Bool := wbit (rawReg s (dkOfSeq q) (collBlk (q % 2) + 8)) 23

/-- Programs of a sequencer, the running one first. -/
def collQ (s : State) (q : Nat) : List Coll := mget (dieAt s (dkOfSeq q)).ringQ (q % 2) []
def setCollQ (s : State) (q : Nat) (l : List Coll) : State :=
  let d := dieAt s (dkOfSeq q)
  setDie s (dkOfSeq q) { d with ringQ := mset d.ringQ (q % 2) l }

/-- The running program replaced. -/
def putColl (s : State) (q : Nat) (c : Coll) : State := setCollQ s q (c :: (collQ s q).drop 1)

/-- A program enters the queue; false when 4 are queued (R238). -/
def queueColl (s : State) (q hdr asid gen : Nat) : State × Bool :=
  let l := collQ s q
  if 4 ≤ (l.filter fun c => !c.started).length then (s, false)
  else
    let c : Coll := { hdr := hdr, asid := asid, gen := gen, words := [], steps := [], pc := 0, lc := [], since := s.now
                      started := false, ended := false, group := none, closed := false, peers := [] }
    (setCollQ s q (l ++ [c]), true)

/-- A request of a sequencer (R31). -/
def collReq (q : Nat) (c : Coll) (acc : Acc) (va n : Nat) : Req := agentReq (dkOfSeq q) (5 + q % 2) c.asid c.gen acc va n

/-! ### Header and steps -/

def hNrank (ws : List Word) : Nat := wfld (nth ws 0) 0 13
def hRank (ws : List Word) : Nat := wfld (nth ws 0) 16 13
def hNstep (ws : List Word) : Nat := if wfld (nth ws 0) 32 8 = 0 then 256 else wfld (nth ws 0) 32 8
def hSem (ws : List Word) : Nat := wfld (nth ws 0) 40 4
def hBim (ws : List Word) : Bool := wbit (nth ws 0) 44
def hDom (ws : List Word) : Nat := wfld (nth ws 0) 45 4

/-- A step: its two words (R239). -/
abbrev CStep := Word × Word

def stOp (x : CStep) : Nat := wfld x.1 0 4
def stLc (x : CStep) : Nat := wfld x.1 4 2
def stK (x : CStep) : Nat := wfld x.1 6 12
def stLtype (x : CStep) : Nat := wfld x.1 18 4
def stWtype (x : CStep) : Nat := wfld x.1 22 4
def stRop (x : CStep) : Nat := wfld x.1 26 2
def stWb (x : CStep) : Bool := wbit x.1 28
def stFwd (x : CStep) : Bool := wbit x.1 29
def stBytes (x : CStep) : Nat := 512 * wfld x.1 32 14
def stTarget (x : CStep) : Nat := wfld x.1 48 8

/-- Does a step receive a chunk, send one, write one? -/
def stRecv (x : CStep) : Bool := stOp x = 1 || stOp x = 2
def stSend (x : CStep) : Bool := stOp x = 0 || stOp x = 2 || (stOp x = 1 && stFwd x)
def stDeliver (x : CStep) : Bool := stOp x = 1 || (stOp x = 2 && stWb x)

/-- Is a step malformed (R239 to R241)? The codes that the rules call malformed are so in every step, whatever its operation uses; a CLEN
outside 1 to 8192 too (DEDUCED, log 64). -/
def stBad (bim : Bool) (nstep : Nat) (x : CStep) : Bool :=
  6 ≤ stOp x || wfld x.1 32 14 = 0 || 8192 < wfld x.1 32 14 || !wireLocal (stLtype x) || !wirePairing (stLtype x) (stWtype x) ||
  stRop x = 3 || (stOp x = 5 && nstep ≤ stTarget x) || (bim && stDeliver x && stLtype x != 9)

/-- The chunk index of a step (R239). -/
def stIndex (c : Coll) (x : CStep) : Nat :=
  let lc : Int := (c.lc.getD (wfld x.2 16 2) 0 : Nat)
  let use : Int := if wbit x.2 19 then (if wbit x.2 18 then -lc else lc) else 0
  (((hRank c.words + wfld x.2 4 12 : Nat) + use) % (hNrank c.words : Int)).toNat

/-- Src and Dst of a step (R239). -/
def stAddr (c : Coll) (x : CStep) (k : Nat) : Nat :=
  (wfld (nth c.words (8 + k)) 0 57 + stIndex c x * wfld (nth c.words (12 + k)) 0 48) % 2 ^ 57
def stSrc (c : Coll) (x : CStep) : Nat := stAddr c x (wfld x.2 0 2)
def stDst (c : Coll) (x : CStep) : Nat := stAddr c x (wfld x.2 2 2)

/-- Ranks that a step sends to and receives from (R239). -/
def stTo (c : Coll) (x : CStep) : Nat := (hRank c.words + stK x) % hNrank c.words
def stFrom (c : Coll) (x : CStep) : Nat :=
  (((hRank c.words : Int) - (stK x : Int)) % (hNrank c.words : Int)).toNat

/-- The ranks whose peer entries a step needs. -/
def stRanks (c : Coll) (x : CStep) : List Nat :=
  (if stSend x then [stTo c x] else []) ++ (if stRecv x then [stFrom c x] else [])

/-- The sequencer that a peer entry names, when its package lies in the die's package map (R238, R242). -/
def peerSeq (s : State) (dk entry : Nat) : Option Nat :=
  let sys := fld entry 0 12
  if (List.range 63).any fun i => wbit (pkmap s dk i) 15 && wfld (pkmap s dk i) 0 12 = sys then some ((pkgOfSys s sys * 8 + fld entry 12 3) * 2 + fld entry 15 1) else none

/-- The sequencer of a rank whose entry the program has read; what goes to the own rank is looped back inside the port (R240). -/
def rankSeq (s : State) (q : Nat) (c : Coll) (rank : Nat) : Nat :=
  if rank = hRank c.words then q else (peerSeq s (dkOfSeq q) (mget c.peers rank 0)).getD q

/-! ### Ends -/

/-- Sequencer and code of the program whose open, push or close a flight is. -/
def seqOfFlight (f : Flight) : Option Nat :=
  match f.req.src.agent with
  | some a => if f.uid = 0 ∧ (a = 5 ∨ a = 6) then some ((f.req.src.pkg * 8 + f.req.src.die) * 2 + (a - 5)) else none
  | none => none

/-- Is a flight the open or the close of a group? -/
def Pay.opensOrCloses (g : GroupId) : Pay → Bool
  | .mopen h .. => h == g
  | .mclose h => h == g
  | _ => false

/-- A program ends early (R242): no signal; an open merge group is aborted, and its open or close is no longer on its way; ERR, CAUSE and STEP
are set. -/
def collFail (s : State) (q : Nat) (c : Coll) (cause : Nat) : State :=
  let dk := dkOfSeq q
  let s := setCollQ s q ((collQ s q).drop 1)
  let s := match c.group with
    | some o => { s with flights := s.flights.filter fun f => !(seqOfFlight f == some q && f.pay.opensOrCloses o.g) }
    | none => s
  let s := abortGroups s dk c.group.toList
  let s := setRaw s dk (collBlk (q % 2) + 8) (putBit (rawReg s dk (collBlk (q % 2) + 8)) 23 true)
  let d := dieAt s dk
  setDie s dk { d with cause := mset d.cause (q % 2) cause, estep := mset d.estep (q % 2) c.pc }

/-- A malformed program is refused with kind 0x19 at its header (R237, R242). -/
def collMalformed (s : State) (q : Nat) (c : Coll) : State :=
  let (_, s) := raiseFault s (dkOfSeq q) (collReq q c .mobj c.hdr 128) 0x19 0 c.hdr 0
  collFail s q c 1

/-- Sends −1 to the semaphore of each core of CMASK (R242). -/
def collSignals (s : State) (q : Nat) (c : Coll) : State :=
  ((List.range 256).filter fun i => wbit (nth c.words (4 + i / 64)) (i % 64)).foldl (fun s i =>
    launchFlight s { message (dkOfSeq q) (.signal (q / 2 * 256 + i) (hSem c.words) (-1) c.asid c.gen) with
      req := collReq q c .mobj 0 0 }) s

/-! ### Chunks -/

/-- Chunks on their way to a sequencer, and the bytes that they hold of its 4 MiB port buffer. -/
def chunksAt (s : State) (q : Nat) : List Flight := s.flights.filter fun f => match f.pay with
  | .chunk dst _ _ _ => dst == q
  | _ => false
def portUsed (s : State) (q : Nat) : Nat := (chunksAt s q).foldl (fun n f => n + f.req.n) 0
def portBytes : Nat := 4194304

/-- The oldest chunk from a peer. -/
def nextChunk (s : State) (q src : Nat) : Option Flight := (chunksAt s q).find? fun f => match f.pay with
  | .chunk _ from_ _ _ => from_ == src
  | _ => false

/-- Elements of a local type in bytes. -/
def localElems (t : Nat) (bs : List Byte) : List Nat := elemsOf (tWidth t / 8) bs.length bs

/-- Sends local bytes in a wire type; the events of the conversion are counted at cluster 0 of the die (R240). -/
def sendChunk (s : State) (q dst lt wt : Nat) (bs : List Byte) : State :=
  let evs := (wireFromTo lt lt wt (localElems lt bs)).map fun x => x.2.1
  let s := (countEvents s (q / 2 * 256) 0x3FF false evs).1
  launchFlight s { message (dkOfSeq q) (.chunk dst q s.nextId bs) with
    req := agentReq (dkOfSeq q) (5 + q % 2) 0 0 .mobj 0 bs.length, wire := some (lt * 16 + wt, []) }

/-- The bytes of a chunk as a receiving step takes it, in its local type (R228, R240). The spec states no result where the
step's wire type or element count is not the sender's: the bytes are then free values (DESIGN CHOICE, log 3). -/
def takeChunk (s : State) (q : Nat) (x : CStep) (f : Flight) : List Byte × State :=
  let s := dropFlight s f.id
  let lr := stLtype x
  let bs := match f.pay with
    | .chunk _ _ _ bs => bs
    | _ => []
  let code := match f.wire with
    | some (c, _) => c
    | none => 0
  let xs := localElems (code / 16) bs
  if code % 16 = stWtype x ∧ xs.length * (tWidth lr / 8) = stBytes x then
    let r := wireFromTo (code / 16) lr (stWtype x) xs
    let s := (countEvents s (q / 2 * 256) 0x3FF false (r.map fun y => y.2.2)).1
    (r.flatMap fun y => toBytes (tWidth lr / 8) y.1, s)
  else
    let e := s.fresh + 1
    ((List.range (stBytes x)).map fun i => Config.freeByte e i, { s with fresh := e })

/-- The combining operation of rrs (R240). -/
def combine (rop t a b : Nat) : Nat :=
  if rop = 0 then
    match fmtOf t with
    | some k => (k.convert (fAdd (valOf t a) (valOf t b) 0).1 0 true 0).1
    | none => (a + b) % 2 ^ tWidth t
  else (minMax t (rop = 1) a b).1

/-- Two chunks combined element by element. -/
def combineBytes (rop t : Nat) (xs ys : List Byte) : List Byte :=
  ((localElems t xs).zip (localElems t ys)).flatMap fun p => toBytes (tWidth t / 8) (combine rop t p.1 p.2)

/-- Pushes the 512-byte rows of a result into the program's merge group (R117, R241), from Dst on whatever its alignment (DESIGN CHOICE,
log 71). -/
def pushRows (q : Nat) (c : Coll) (g : GroupId) : Nat → Nat → List Byte → State → State
  | 0, _, _, s => s
  | n + 1, va, bs, s =>
    pushRows q c g n (va + 512) (bs.drop 512)
      (launchFlight s { message (dkOfSeq q) (.push (bs.take 512) g) with req := collReq q c .red (va % 2 ^ 57) 512 })

/-- Writes a result at Dst: as stores, or pushed into the merge domain (R240, R241). -/
def deliver (s : State) (q : Nat) (c : Coll) (x : CStep) (bs : List Byte) : Got × State :=
  match c.group with
  | some o => (.ok [], pushRows q c o.g (bs.length / 512) (stDst c x) bs s)
  | none => writeNow s (collReq q c .ewr (stDst c x) bs.length) bs

/-- Has a sequencer pushes or merge messages that are not complete? -/
def mergeBusy (s : State) (q : Nat) : Bool := s.flights.any fun f => seqOfFlight f == some q && (match f.pay with
  | .push .. | .mopen .. | .mclose _ => true
  | _ => false)

/-- The next step is a program's current one. -/
def atStep (s : State) (q : Nat) (c : Coll) (pc : Nat) : State := putColl s q { c with pc := pc, since := s.now }

/-- One step that receives nothing (R240): none when it must wait. -/
def quietStep (s : State) (q : Nat) (c : Coll) (x : CStep) : Option State :=
  let read := readNow s (collReq q c .erd (stSrc c x) (stBytes x))
  match stOp x with
  | 0 =>
    let dst := rankSeq s q c (stTo c x)
    if portBytes < portUsed s dst + stBytes x then none
    else match read with
      | (.fault _, s) => some (collFail s q c 2)
      | (.ok bs, s) => some (atStep (sendChunk s q dst (stLtype x) (stWtype x) bs) q c (c.pc + 1))
  | 3 => match read with
    | (.fault _, s) => some (collFail s q c 2)
    | (.ok bs, s) => match writeNow s (collReq q c .ewr (stDst c x) bs.length) bs with
      | (.fault _, s) => some (collFail s q c 2)
      | (.ok _, s) => some (atStep s q c (c.pc + 1))
  | 4 => if mergeBusy s q then none else some (atStep s q c (c.pc + 1))
  | 5 =>
    let n := c.lc.getD (stLc x) 0 - 1
    some (atStep s q { c with lc := lset c.lc (stLc x) n } (if n = 0 then c.pc + 1 else stTarget x))
  | _ => none

/-- Steps that receive nothing run until one waits or a receiving step comes; at most `fuel` at a time. -/
def runQuiet (q : Nat) : Nat → State → State
  | 0, s => s
  | fuel + 1, s =>
    match collQ s q with
    | c :: _ =>
      if !c.started ∨ hNstep c.words ≤ c.pc then s
      else match quietStep s q c (c.steps.getD c.pc (0, 0)) with
        | some t => if t.held && !s.held then s else runQuiet q fuel t
        | none => s
    | [] => s

/-- Reads the peer entries of a program's steps (R238): none when an entry names no package of the map. -/
def readPeers (q : Nat) : List Nat → Coll → State → Option Coll × Bool × State
  | [], c, s => (some c, true, s)
  | r :: rest, c, s =>
    if (mfind c.peers r).isSome then readPeers q rest c s
    else match readNow s (collReq q c .erd (wfld (nth c.words 1) 0 57 + 4 * r) 4) with
      | (.fault _, s) => (none, true, s)
      | (.ok bs, s) =>
        if (peerSeq s (dkOfSeq q) (ofBytes bs)).isNone then (none, false, s)
        else readPeers q rest { c with peers := mset c.peers r (ofBytes bs) } s

/-- The open of a program's merge group (R117): with RC 0; the row count that it sends is a free value (DESIGN CHOICE, log 42). -/
def collOpen (s : State) (q : Nat) (c : Coll) : State × Coll :=
  if !hBim c.words then (s, c)
  else
    let w := nth c.words 2
    let g : GroupId := ⟨hDom c.words, wfld w 0 16, wfld w 16 24, wfld w 40 8⟩
    let rows := max 1 (min 4096 (Config.collRows c.hdr))
    (launchFlight s { message (dkOfSeq q) (.mopen g rows (dkOfSeq q % 16)) with req := collReq q c .mobj 0 0 },
      { c with group := some ⟨g, [], [], false⟩ })

/-- COLL_PROGRAM_START: an enabled sequencer without ERR starts its next program: header, steps and peers are read and
checked before any step runs (R238, R242), and its group is opened. A started program goes on with steps that receive
nothing (R240). -/
def execCollProgramStart (q : Nat) (s : State) : Host.Outcome State Fault Refusal :=
  unlessDown s (dkOfSeq q) <| unlessHeld s <|
  match collQ s q with
  | [] => .next s
  | c :: _ =>
    if c.started then .next (runQuiet q 64 s)
    else if !collOn s q ∨ collErr s q then .next s
    else
      let c := { c with started := true, since := s.now }
      let s := putColl s q c
      if c.hdr % 128 != 0 then .next (collMalformed s q c)
      else match readNow s (collReq q c .erd c.hdr 128) with
        | (.fault _, s) => .next (collFail s q c 2)
        | (.ok hb, s) =>
          let ws := wordsOf 16 hb
          let n := hNstep ws
          let lc := (List.range 4).map fun i => wfld (nth ws 3) (16 * i) 16
          let c := { c with words := ws, lc := lc }
          match readNow s (collReq q c .erd (c.hdr + 128) (16 * n)) with
          | (.fault _, s) => .next (collFail s q c 2)
          | (.ok sb, s) =>
            let sw := wordsOf (2 * n) sb
            let steps := (List.range n).map fun i => (nth sw (2 * i), nth sw (2 * i + 1))
            let c := { c with steps := steps }
            if hNrank ws = 0 ∨ 4096 < hNrank ws ∨ hNrank ws ≤ hRank ws ∨ steps.any (stBad (hBim ws) n) then
              .next (collMalformed s q c)
            else match readPeers q (steps.flatMap (stRanks c)).eraseDups c s with
              | (none, true, s) => .next (collFail s q c 2)
              | (none, false, s) => .next (collMalformed s q c)
              | (some c, _, s) =>
                let (s, c) := collOpen s q c
                .next (runQuiet q 64 (putColl s q c))

/-- A receiving step with its chunk (R240). -/
def recvStep (s : State) (q : Nat) (c : Coll) (x : CStep) (f : Flight) : State :=
  let (bs, s) := takeChunk s q x f
  let dst := rankSeq s q c (stTo c x)
  let src := if stOp x = 2 then readNow s (collReq q c .erd (stSrc c x) (stBytes x)) else (.ok [], s)
  match src with
  | (.fault _, s) => collFail s q c 2
  | (.ok own, s) =>
    let res := if stOp x = 2 then combineBytes (stRop x) (stLtype x) bs own else bs
    let s := if stSend x then sendChunk s q dst (stLtype x) (stWtype x) res else s
    let put := if stDeliver x then deliver s q c x res else (.ok [], s)
    match put with
    | (.fault _, s) => collFail s q c 2
    | (.ok _, s) => atStep s q c (c.pc + 1)

/-- Is a program's merge group, if it has one, open (R117)? -/
def collOpened (c : Coll) : Bool := match c.group with
  | some o => o.opened
  | none => true

/-- COLL_CHUNK_RECEIVE: the next receiving step takes the oldest chunk of its peer; a result is written, combined or
forwarded, and a forward waits while the peer's buffer is over-full (R240). With BIM the group must be open (R117). -/
def execCollChunkReceive (q : Nat) (s : State) : Host.Outcome State Fault Refusal :=
  unlessDown s (dkOfSeq q) <| unlessHeld s <|
  match collQ s q with
  | [] => .next s
  | c :: _ =>
    let x := c.steps.getD c.pc (0, 0)
    if !c.started ∨ hNstep c.words ≤ c.pc ∨ !stRecv x then .next s
    else if !collOpened c then .next s
    else if stSend x && decide (portBytes < portUsed s (rankSeq s q c (stTo c x))) then .next s
    else match nextChunk s q (rankSeq s q c (stFrom c x)) with
      | none => .next s
      | some f => .next (runQuiet q 64 (recvStep s q c x f))

/-- COLL_PROGRAM_END: after the last step, with every write performed and the group's close markers sent, the completion
signals go out and the program leaves the sequencer (R117, R242). -/
def execCollProgramEnd (q : Nat) (s : State) : Host.Outcome State Fault Refusal :=
  unlessDown s (dkOfSeq q) <|
  match collQ s q with
  | [] => .next s
  | c :: r =>
    if !c.started ∨ c.pc < hNstep c.words then .next s
    else match c.group, c.closed with
      | some o, false =>
        .next (launchFlight (putColl s q { c with closed := true }) { message (dkOfSeq q) (.mclose o.g) with req := collReq q c .mobj 0 0 })
      | _, _ => if mergeBusy s q then .next s else .next (collSignals (setCollQ s q r) q c)

/-- Does a program wait now for a chunk or for buffer room at a peer (R242)? -/
def collWaits (s : State) (q : Nat) (c : Coll) : Bool :=
  let x := c.steps.getD c.pc (0, 0)
  let dst := rankSeq s q c (stTo c x)
  c.pc < hNstep c.words &&
    ((stOp x = 0 && decide (portBytes < portUsed s dst + stBytes x)) ||
     (stRecv x && collOpened c && ((stSend x && decide (portBytes < portUsed s dst)) || (nextChunk s q (rankSeq s q c (stFrom c x))).isNone)))

/-- COLL_STEP_TIMEOUT: a step has waited longer than TMO × 1024 cycles (R242). -/
def execCollStepTimeout (q : Nat) (s : State) : Host.Outcome State Fault Refusal :=
  unlessDown s (dkOfSeq q) <|
  match collQ s q with
  | [] => .next s
  | c :: _ =>
    let t := collTmo s q
    if !c.started ∨ t = 0 ∨ s.now ≤ c.since + 1024 * t ∨ !collWaits s q c then .next s else .next (collFail s q c 3)

/-- COLL_STAT_ERR_CLEAR: a write of 1 to ERR clears it, and queued programs may run (R243). -/
def execCollStatErrClear (q : Nat) (s : State) : Host.Outcome State Fault Refusal :=
  unlessDown s (dkOfSeq q) <|
  .next (storeReg s (dkOfSeq q) (collBlk (q % 2) + 8) (BitVec.ofNat 64 (2 ^ 23)))

end Sys2Proof.Machine
end

