-- ==== Sys2Proof/Machine/Experts.lean ====
section
/-! DEFINITION. Gate choice and expert routing: top-k merge trees (R244 to R247), routing counters (R248), slot pools (R249 to
R253), and the notice of a dropped bulk packet (R230). -/
namespace Sys2Proof.Machine

/-! ### Top-k merge trees -/

/-- The merge-group record of a group on a die (R244). -/
def tkRecord (s : State) (dk g : Nat) : List Word × State :=
  let base := wfld (rawReg s dk tkBlk) 10 42 * 1024
  let (bs, s) := portRead s (hbm dk (base + 64 * g)) 64
  (wordsOf 8 bs, s)

def tkOn (s : State) (dk : Nat) : Bool := wbit (rawReg s dk tkBlk) 63
def rV (w : List Word) : Bool := wbit (nth w 0) 63
def rGen (w : List Word) : Nat := wfld (nth w 0) 48 4
def rAsid (w : List Word) : Nat := wfld (nth w 0) 32 16
def rIdbase (w : List Word) : Nat := wfld (nth w 0) 20 12
def rCnt (w : List Word) : Bool := wbit (nth w 0) 18
def rTbl (w : List Word) : Nat := wfld (nth w 0) 16 2
def rRoot (w : List Word) : Nat := wfld (nth w 0) 12 3
def rDies (w : List Word) : List Nat := (List.range 8).filter fun n => wbit (nth w 0) (4 + n)
def rK (w : List Word) : Nat := wfld (nth w 0) 0 4
def rResult (w : List Word) : Nat := wfld (nth w 1) 0 57
def rNtok (w : List Word) : Nat := wfld (nth w 3) 0 32
def rCores (w : List Word) : List Nat := (List.range 256).filter fun i => wbit (nth w (4 + i / 64)) (i % 64)

/-- SCORE and ID of a list entry (R244). -/
def eScore (e : Word) : Nat := wfld e 32 32
def eId (e : Word) : Nat := wfld e 0 12

/-- Does an entry rank before another (R246)? -/
def ranksBefore (a b : Word) : Bool :=
  rankOf 9 (eScore b) < rankOf 9 (eScore a) || (eScore a == eScore b && eId a ≤ eId b)

/-- An entry at its place among ranked entries. -/
def insertEntry (e : Word) : List Word → List Word
  | [] => [e]
  | x :: r => if ranksBefore e x then e :: x :: r else x :: insertEntry e r

/-- The k best entries of lists, filled with empty entries of SCORE 0 (R246). -/
def bestOf (k : Nat) (lists : List (List Word)) : List Word :=
  let real := lists.flatten.filter fun e => eId e != 0xFFF && !isNanBits 9 (eScore e)
  let real := real.map fun e => BitVec.ofNat 64 (eScore e * 2 ^ 32 + eId e)
  let best := (real.foldl (fun l e => insertEntry e l) []).take k
  best ++ List.replicate (k - best.length) (0xFFF : Word)

/-- The open merge of a token at a die: its tree's, or the root's. -/
def mergeAt (d : Die) (root : Bool) (g t : Nat) : Option Merge :=
  d.merges.find? fun m => m.root == root && m.group == g && m.token == t

/-- A list entered in a merge, which opens if need be. -/
def addList (d : Die) (root : Bool) (g t src : Nat) (es : List Word) : Die :=
  match mergeAt d root g t with
  | some _ => { d with merges := d.merges.map fun m =>
      if m.root == root && m.group == g && m.token == t then { m with from_ := m.from_ ++ [src], lists := m.lists ++ [es] } else m }
  | none => { d with merges := d.merges ++ [⟨g, t, root, [src], [es]⟩] }

/-- A list from a core at its die's tree (R245, R246). -/
def coreList (s : State) (f : Flight) (dk g t core : Nat) (es : List Word) : State :=
  let (w, s) := tkRecord s dk g
  let d := dieAt s dk
  if !tkOn s dk ∨ !rV w ∨ rAsid w != f.req.asid ∨ rGen w != f.req.gen ∨ rNtok w ≤ t ∨ !(rCores w).contains core ∨
      !(rDies w).contains (dk % 16) then faultFlight s dk f 0x19 0 0
  else
    let had := match mergeAt d false g t with
      | some m => m.from_
      | none => []
    if had.contains core then endOp (setDie s dk { d with dup := d.dup + 1 }) f
    else if !mergeRoom d g t then s
    else
      let d := addList d false g t core (es.take (rK w))
      let s := endOp (setDie s dk d) f
      if had.length + 1 < (rCores w).length then s
      else match mergeAt d false g t with
        | some m => sendMsg s dk (.topkRoot (dk / 16 * 16 + rRoot w) g t (dk % 16) (bestOf (rK w) m.lists))
        | none => s

/-- TOPK_LIST: a list reaches a die's tree, or a tree's list the root (R245, R246). A root whose tree is disabled drops it. -/
def execTopkList (id : Nat) (s : State) : Host.Outcome State Fault Refusal :=
  match flightById s id with
  | none => .next s
  | some f =>
    match f.stage, f.pay with
    | .sent, .topk dk g t core es => .next (coreList s f dk g t core es)
    | .sent, .topkRoot dk g t src es =>
      let s := dropFlight s id
      if tkOn s dk then .next (setDie s dk (addList (dieAt s dk) true g t src es)) else .next s
    | _, _ => .next s

/-- One increment of a routing counter, saturating (R247, R248). -/
def bumpRoute (d : Die) (key : Nat) : Die := { d with routes := mset d.routes key (min (2 ^ 32 - 1) (mget d.routes key 0 + 1)) }

/-- The merges of a token leave the trees of the package (R245: the token's merge is complete). -/
def closeMerges (s : State) (pkg g t : Nat) : State :=
  (computeDies pkg).foldl (fun s dk =>
    let d := dieAt s dk
    if d.merges.any fun m => m.group == g && m.token == t then
      setDie s dk { d with merges := d.merges.filter fun m => !(m.group == g && m.token == t) }
    else s) s

/-- TOPK_ROOT_MERGE: with a list from every die of the group the root writes the result, increments the routing counters and
sends the join arrival (R247). A result that faults is posted, and no arrival is sent. -/
def execTopkRootMerge (die group : Nat) (token : BitVec 32) (s : State) : Host.Outcome State Fault Refusal :=
  unlessHeld s <|
  let t := token.toNat
  match mergeAt (dieAt s die) true group t with
  | none => .next s
  | some m =>
    let (w, s) := tkRecord s die group
    if !(rDies w).all m.from_.contains then .next s
    else
      let best := bestOf (rK w) m.lists
      let list := best ++ List.replicate (8 - best.length) (0xFFF : Word)
      let (r, s) := writeNow s (agentReq die 7 (rAsid w) (rGen w) .store (rResult w + 64 * t) 64) (bytesOf list)
      let keys := (best.filter fun e => eId e != 0xFFF && rIdbase w ≤ eId e && eId e - rIdbase w ≤ 255).map fun e =>
        rTbl w * 256 + (eId e - rIdbase w)
      let s := if rCnt w then setDie s die (keys.foldl bumpRoute (dieAt s die)) else s
      let s := closeMerges s (die / 16) group t
      match r with
      | .fault _ => .next s
      | .ok _ =>
        if joinValid (nth w 2) then
          .next (sendMsg s die (.arrival ⟨nth w 2 &&& 0xFFFFFF, 1, rAsid w, rGen w⟩))
        else .next s

/-- TK_CTL_WRITE: a write sets the tree; clearing EN discards every open merge of the die (R247). -/
def execTkCtlWrite (die : Nat) (v : Word) (s : State) : Host.Outcome State Fault Refusal :=
  if 8 ≤ die % 16 ∨ (dieAt s die).failed then .next s
  else
    let s := storeReg s die tkBlk v
    if wbit v 63 then .next s else .next (setDie s die { dieAt s die with merges := [] })

/-- CTR_SNAP_TABLE: a table's 256 counters are copied and cleared as one action, and the copy goes on as a store (R248). -/
def execCtrSnapTable (id : Nat) (s : State) : Host.Outcome State Fault Refusal :=
  match flightById s id with
  | none => .next s
  | some f =>
    match f.stage, f.pay with
    | .sent, .snap dk tbl =>
      let d := dieAt s dk
      let bs := (List.range 256).flatMap fun i => toBytes 4 (mget d.routes (tbl * 256 + i) 0)
      let s := setDie s dk { d with routes := d.routes.filter fun e => e.1 / 256 != tbl }
      .next (setFlight s { f with pay := .store bs })
    | _, _ => .next s

/-! ### Slot pools -/

/-- A pool's header as its unit reads it at its location (R249), with the record of what the unit keeps. -/
structure PoolView where
  loc : Nat
  w : List Word
  p : Pool

def pvE (v : PoolView) : Nat := wfld (nth v.w 0) 48 8 + 1
def pvRes (v : PoolView) : Nat := wfld (nth v.w 0) 40 8
def pvF (v : PoolView) : Nat := wfld (nth v.w 0) 32 8
def pvBslots (v : PoolView) : Nat := wfld (nth v.w 0) 24 8
def pvSlots (v : PoolView) : Nat := wfld (nth v.w 1) 0 57
def pvTseal (v : PoolView) : Nat := max 1 (wfld (nth v.w 2) 32 32)
def pvN (v : PoolView) : Nat := wfld (nth v.w 2) 0 32
def pvOvBase (v : PoolView) : Nat := wfld (nth v.w 3) 0 57
def pvOvN (v : PoolView) : Nat := min 512 (wfld (nth v.w 4) 0 32)
def pvState (v : PoolView) : Nat := wfld (nth v.w 5) 0 57
def pvExp (v : PoolView) : Nat := wfld (nth v.w 6) 0 57

/-- Array slots that partitions hold while STATE is zeroed (R249). -/
def pvParts (v : PoolView) : Nat := 128 * pvE v * pvRes v

/-- A pool whose STATE is zeroed. -/
def Pool.reset : Pool := ⟨[], [], [], [], [], [], 0, 0⟩

/-- A slot as the zeroed STATE has it (R249). -/
def initSlot (v : PoolView) (i : Nat) : PSlot :=
  if i < pvParts v then ⟨1, i / pvRes v % pvE v, i / pvRes v / pvE v, 0⟩ else ⟨0, 0, 0, 0⟩

def slotAt (v : PoolView) (i : Nat) : PSlot := mget v.p.slots i (initSlot v i)
def setSlot (v : PoolView) (i : Nat) (x : PSlot) : PoolView := { v with p := { v.p with slots := mset v.p.slots i x } }

/-- Partition slots of a pair of sender and expert (R249). -/
def partSlots (v : PoolView) (snd e : Nat) : List Nat :=
  ((span (pvRes v * (snd * pvE v + e)) (pvRes v)).filter fun i => (mfind v.p.slots i).isNone) ++
    (v.p.slots.filter fun x => x.2.st = 1 && x.2.expert = e && x.2.sender = snd).map fun x => x.1

/-- Free slots that the unit has listed, and the number of those that are free since the zeroing. -/
def freeListed (v : PoolView) : List Nat := (v.p.slots.filter fun x => x.2.st = 0).map fun x => x.1
def freeInit (v : PoolView) : Nat :=
  pvN v - pvParts v - (v.p.slots.filter fun x => pvParts v ≤ x.1 && x.1 < pvN v).length
def freeCount (v : PoolView) : Nat := (freeListed v).length + freeInit v

/-- The k-th free slot. -/
def nthFree (v : PoolView) (k : Nat) : Nat :=
  if k < (freeListed v).length then (freeListed v).getD k 0
  else (v.p.slots.filter fun x => pvParts v ≤ x.1 && x.1 < pvN v).foldl (fun i x => if x.1 ≤ i then i + 1 else i)
    (pvParts v + (k - (freeListed v).length))

/-- H of an expert (R249): slots in its partitions, claimed, filled, launched; overflow slots claimed for it count too. -/
def heldBy (v : PoolView) (e : Nat) : Nat :=
  let own := 128 * pvRes v - (v.p.slots.filter fun x => x.1 < pvParts v && (initSlot v x.1).expert = e).length
  own + (v.p.slots.filter fun x => x.2.st != 0 && x.2.expert = e).length +
    (v.p.ovfl.filter fun x => x.2.st != 0 && x.2.expert = e).length

/-- The floor rule of R250: may expert e take one slot of the free pool? -/
def floorAllows (v : PoolView) (e : Nat) : Bool :=
  let need := ((List.range (pvE v)).filter fun f => f != e).foldl (fun n f => n + (pvF v - heldBy v f)) 0
  0 < freeCount v && need ≤ freeCount v - 1

/-- Take of R250 on an array slot: claimed, and the value returned. -/
def takeSlot (v : PoolView) (snd e src i : Nat) : PoolView × Nat :=
  (setSlot v i ⟨2, e, snd, 0⟩, pvSlots v + 4096 * i + e * 8 + src)

/-- A pick among n slots: the spec leaves open which (DESIGN CHOICE, log 43). -/
def pickOf (s : State) (n : Nat) : Nat := Config.poolPick s.fresh % n

/-- The first sender after Rot(e) with a slot to steal (R250). -/
def stealFrom (v : PoolView) (snd e : Nat) : Option Nat :=
  ((List.range 128).map fun i => (mget v.p.rot e 0 + 1 + i) % 128).find? fun x => x != snd && !(partSlots v x e).isEmpty

/-- The expert record of an expert (R249), read by the unit. -/
def expRecord (s : State) (q : Req) (v : PoolView) (e : Nat) : Got × State :=
  readNow s { q with acc := .load, va := (pvExp v + 32 * e) % 2 ^ 57, n := 32 }

/-- What a claim comes to. -/
inductive Claimed where
  | done (v : PoolView) (x : Nat)
  | fault (r : FRec)

/-- The overflow part of Claim (R250). -/
def claimOver (s : State) (v : PoolView) (snd e0 : Nat) : Claimed × State :=
  let cnt := min (2 ^ 32 - 1) (wfld (nth v.w 4) 32 32 + 1)
  let s := { s with mem := writeN s.mem (v.loc + 36) 4 cnt }
  let free := (List.range (pvOvN v)).filter fun i => (mget v.p.ovfl i ⟨0, 0, 0, 0⟩).st = 0
  if free.isEmpty then (.done v 0, s)
  else
    let i := free.getD (pickOf s free.length) 0
    (.done { v with p := { v.p with ovfl := mset v.p.ovfl i ⟨2, e0, snd, 0⟩ } } (pvOvBase v + 4096 * (1 + i) + e0 * 8 + 3),
      { s with fresh := s.fresh + 1 })

/-- The hops of Claim (R250); at most eight. -/
def claimHops (q : Req) (snd e0 : Nat) : Nat → Nat → PoolView → State → Claimed × State
  | 0, _, v, s => claimOver s v snd e0
  | hops + 1, e, v, s =>
    let own := partSlots v snd e
    let next (s : State) : State := { s with fresh := s.fresh + 1 }
    if !own.isEmpty then
      let (v, x) := takeSlot v snd e 0 (own.getD (pickOf s own.length) 0)
      (.done v x, next s)
    else if floorAllows v e then
      let (v, x) := takeSlot v snd e 1 (nthFree v (pickOf s (freeCount v)))
      (.done v x, next s)
    else match stealFrom v snd e with
      | some b =>
        let l := partSlots v b e
        let v := { v with p := { v.p with rot := mset v.p.rot e b } }
        let (v, x) := takeSlot v snd e 2 (l.getD (pickOf s l.length) 0)
        (.done v x, next s)
      | none =>
        match expRecord s q v e with
        | (.fault r, s) => (.fault r, s)
        | (.ok bs, s) =>
          let w := nth (wordsOf 4 bs) 1
          if wbit w 63 ∧ wfld w 0 8 < pvE v then claimHops q snd e0 hops (wfld w 0 8) v s else claimOver s v snd e0

/-- What the unit finds at a pool's header: an invalid header, a fault in reading STATE, or the pool. -/
inductive PoolFound where
  | bad
  | fault (r : FRec)
  | ok (v : PoolView)

/-- The slot-pool unit's own requests for a claim or a return (R8, R31): of its die, in the address space of the request. -/
def poolReq (loc : Nat) (q : Req) : Req := agentReq (portDie loc) 4 q.asid q.gen .load 0 0

/-- A pool at its unit (R249): the header is valid, and a zeroed STATE starts it afresh. The unit marks STATE in use in its
first word (DESIGN CHOICE, log 44). -/
def poolAt (s : State) (loc : Nat) (q : Req) : PoolFound × State :=
  let s := closeRange s loc 64
  let v : PoolView := ⟨loc, wordsOf 8 (readBytes s.mem loc 64), mget s.pools loc Pool.reset⟩
  if !wbit (nth v.w 0) 63 ∨ pvN v < pvParts v + 1 then (.bad, s)
  else match readNow s { q with acc := .load, va := pvState v, n := 8 } with
    | (.fault r, s) => (.fault r, s)
    | (.ok bs, s) =>
      if ofBytes bs != 0 then (.ok v, s)
      else match writeNow s { q with acc := .store, va := pvState v, n := 8 } (toBytes 8 1) with
        | (.fault r, s) => (.fault r, s)
        | (.ok _, s) => (.ok { v with p := Pool.reset }, s)

/-- The pool's record stored, with the address space of the request. -/
def putPool (s : State) (v : PoolView) (q : Req) : State :=
  { s with pools := mset s.pools v.loc { v.p with asid := q.asid, gen := q.gen } }

/-- SLOT_CLAIM_PERFORM: a pool unit performs a claim (R250); an expert above NEXPM1 is refused (R401). A fault of the unit's own accesses
refuses the claim (DESIGN CHOICE, log 44). -/
def execSlotClaimPerform (id : Nat) (s : State) : Host.Outcome State Fault Refusal :=
  unlessUnitDown s id <|
  unlessHeld s <|
  match flightById s id with
  | none => .next s
  | some f =>
    match portLoc f, f.pay with
    | some loc, .claim e snd =>
      match poolAt s loc (poolReq loc f.req) with
      | (.bad, s) => .next (faultFlight s (portDie loc) f 0x19 0 0)
      | (.fault r, s) => .next (setFlight s { f with stage := .nack r })
      | (.ok v, s) =>
        if pvE v ≤ e then .next (faultFlight (putPool s v f.req) (portDie loc) f 0x19 0 0)
        else match claimHops (poolReq loc f.req) snd e 8 e v s with
          | (.fault r, s) => .next (setFlight s { f with stage := .nack r })
          | (.done v x, s) => .next (setFlight (putPool s v f.req) { f with stage := .reply (toBytes 8 x) })
    | _, _ => .next s

/-- A slot named by slot.ret: an array slot, an overflow slot, or neither. -/
inductive Named where
  | array (i : Nat)
  | ovfl (i : Nat)
  | nothing

def namedSlot (v : PoolView) (va : Nat) : Named :=
  if pvSlots v ≤ va ∧ va < pvSlots v + 4096 * pvN v then .array ((va - pvSlots v) / 4096)
  else if pvOvBase v + 4096 ≤ va ∧ va < pvOvBase v + 4096 * (1 + pvOvN v) then .ovfl ((va - pvOvBase v) / 4096 - 1)
  else .nothing

/-- An array slot returned with n 0 leaves every record that lists it (R252). -/
def leaveRecords (p : Pool) (i : Nat) : Pool :=
  { p with recs := p.recs.map fun x => (x.1, (x.2.map fun r => (r.1, r.2.filter fun j => j != i)).filter fun r => !r.2.isEmpty) }

/-- SLOT_RET_PERFORM: a pool unit performs a return (R251). A fill of a buffer that holds 255 slots waits (R252). -/
def execSlotRetPerform (id : Nat) (s : State) : Host.Outcome State Fault Refusal :=
  unlessUnitDown s id <|
  unlessHeld s <|
  match flightById s id with
  | none => .next s
  | some f =>
    match portLoc f, f.pay with
    | some loc, .slotRet va n =>
      match poolAt s loc (poolReq loc f.req) with
      | (.bad, s) => .next (faultFlight s (portDie loc) f 0x19 0 0)
      | (.fault r, s) => .next (setFlight s { f with stage := .nack r })
      | (.ok v, s) =>
        let s := putPool s v f.req
        let refuse := Host.Outcome.next (faultFlight s (portDie loc) f 0x19 0 0)
        let finish (v : PoolView) (s : State) : Host.Outcome State Fault Refusal :=
          .next (setFlight (putPool s v f.req) { f with stage := .ack })
        match namedSlot v va with
        | .nothing => refuse
        | .array i =>
          let x := slotAt v i
          if x.st != 2 && x.st != 4 then refuse
          else if n = 0 then finish { setSlot v i ⟨0, 0, 0, 0⟩ with p := leaveRecords (setSlot v i ⟨0, 0, 0, 0⟩).p i } s
          else if x.st = 4 then refuse
          else
            let (l, t) := mget v.p.buf x.expert ([], 0)
            if 255 ≤ l.length then .next s
            else
              let v := setSlot v i { x with st := 3, rows := n }
              finish { v with p := { v.p with buf := mset v.p.buf x.expert (l ++ [i], if l.isEmpty then s.now else t) } } s
        | .ovfl i =>
          let x := mget v.p.ovfl i ⟨0, 0, 0, 0⟩
          let word (b : Nat) : Got × State :=
            writeNow s { poolReq loc f.req with acc := .store, va := (pvOvBase v + 8 * i) % 2 ^ 57, n := 8 } (toBytes 8 b)
          let ovfl (y : PSlot) : PoolView := { v with p := { v.p with ovfl := mset v.p.ovfl i y } }
          if x.st = 0 ∨ (x.st = 4 ∧ n != 0) then refuse
          else match word (if n = 0 then 0 else 2 ^ 63 + x.expert * 2 ^ 12 + n) with
            | (.fault r, s) => .next (setFlight s { f with stage := .nack r })
            | (.ok _, s) => finish (ovfl (if n = 0 then ⟨0, 0, 0, 0⟩ else { x with st := 4, rows := n })) s
    | _, _ => .next s

/-- The expert's unclaimed partition slots go back to the free pool (R252 step 3). -/
def returnParts (v : PoolView) (e : Nat) : PoolView :=
  (List.range 128).foldl (fun v snd => (partSlots v snd e).foldl (fun v i => setSlot v i ⟨0, 0, 0, 0⟩) v) v

/-- Each pair of the expert is refilled up to RES as far as the floor rule allows (R252 step 4). -/
def refillParts (v : PoolView) (e : Nat) (s : State) : PoolView × State :=
  ((List.range 128).flatMap fun snd => List.replicate (pvRes v) snd).foldl (fun r snd =>
    if floorAllows r.1 e then
      (setSlot r.1 (nthFree r.1 (pickOf r.2 (freeCount r.1))) ⟨1, e, snd, 0⟩, { r.2 with fresh := r.2.fresh + 1 })
    else r) (v, s)

/-- The first free record of an expert's ring, from the next one on (R252). -/
def freeRecord (v : PoolView) (e n : Nat) : Option Nat :=
  let used := (mget v.p.recs e []).map fun r => r.1
  ((List.range n).map fun i => (mget v.p.nextRec e 0 + i) % n).find? fun i => !used.contains i

/-- BUFFER_SEAL: an open buffer that is full or due, with a record free, is written to the record and launches the expert's
task; the expert's partitions are returned and refilled (R252). A fault of the unit leaves the buffer open. -/
def execBufferSeal (hdr expert : Nat) (s : State) : Host.Outcome State Fault Refusal :=
  unlessHeld s <|
  let p := mget s.pools hdr Pool.reset
  let v : PoolView := ⟨hdr, wordsOf 8 (readBytes s.mem hdr 64), p⟩
  let (l, t) := mget p.buf expert ([], 0)
  let dk := portDie hdr
  let q := agentReq dk 4 p.asid p.gen .load 0 0
  if l.isEmpty ∨ (l.length < pvBslots v ∧ s.now < t + 1024 * pvTseal v) then .next s
  else match expRecord s q v expert with
    | (.fault _, s) => .next s
    | (.ok eb, s) =>
      let w := wordsOf 4 eb
      let nrec := wfld (nth w 3) 0 16
      match freeRecord v expert nrec with
      | none => .next s
      | some i =>
        let rec_ := (wfld (nth w 2) 0 57 + 2048 * i) % 2 ^ 57
        let list := BitVec.ofNat 64 l.length :: l.map fun j => BitVec.ofNat 64 (pvSlots v + 4096 * j + (slotAt v j).rows)
        match writeNow s { q with acc := .ewr, va := rec_, n := 0 } (bytesOf list) with
        | (.fault _, s) => .next s
        | (.ok _, s) => match readNow s { q with va := wfld (nth w 0) 0 57, n := 64 } with
          | (.fault _, s) => .next s
          | (.ok tb, s) =>
            let ws := lset (wordsOf 8 tb) 7 (BitVec.ofNat 64 rec_)
            let k := (dk / 16 * 8 + wfld (nth ws 0) 32 3) * 16 + wfld (nth ws 0) 35 4
            let core := (rectCores (k / 16) (4 * (k % 16 / 4)) (4 * (k % 4)) 1 1).headD 0
            let (cl, s) := classAt s core p.asid (wfld (nth ws 0) 0 10)
            let s := placeTask s k (mkTask ws p.asid p.gen k false 0 cl.cost)
            let v := l.foldl (fun v j => setSlot v j { slotAt v j with st := 4 }) v
            let v := { v with p := { v.p with
              buf := mdel v.p.buf expert
              recs := mset v.p.recs expert (mget v.p.recs expert [] ++ [(i, l)])
              nextRec := mset v.p.nextRec expert ((i + 1) % nrec) } }
            let (v, s) := refillParts (returnParts v expert) expert s
            .next { s with pools := mset s.pools hdr v.p }

/-- BULK_DROP_NOTICE: a dropped bulk packet has no effect at the target, and its source sends it again (R230): the operation
stays on its way. -/
def execBulkDropNotice (_id : Nat) (s : State) : Host.Outcome State Fault Refusal := .next s

end Sys2Proof.Machine
end

