-- ==== Sys2Proof/Machine/Merge.lean ====
section
/-! DEFINITION. Merge domains (R101 to R120): opens, pushes, close markers, measurement, commits, aborts and the registers of
the Calipers. -/
namespace Sys2Proof.Machine

/-! ### Entries -/

def bimOn (s : State) (cal : Nat) : Bool := wbit (rawReg s (dkOfCal cal) (calBlk (cal % 3))) 0
def bimAsid (s : State) (cal i : Nat) : Nat := wfld (bimReg s cal i 0) 0 16
/-- The leader's and the members' Caliper keys (R101, R119). -/
def bimLeader (s : State) (cal i : Nat) : Nat := cal / 24 * 24 + wfld (bimReg s cal i 0) 48 5 % 24
def bimMembers (s : State) (cal i : Nat) : List Nat :=
  ((List.range 24).filter fun k => wbit (bimReg s cal i 0) (24 + k)).map fun k => cal / 24 * 24 + k

/-- Do the valid entries of a domain agree in members, leader and ASID (R101)? (DEDUCED, log 39) -/
def domainAgrees (s : State) (pkg i : Nat) : Bool :=
  let vs := ((span (24 * pkg) 24).filter fun c => bimV s c i).map fun c => wfld (bimReg s c i 0) 0 53
  vs.all fun v => v = vs.headD 0

/-- The staged rows of a domain at a Caliper take free values. -/
def freeStaging (s : State) (cal i : Nat) : State :=
  let e := s.fresh + 1
  let lane (row j : Nat) : BitVec 32 := BitVec.ofNat 32 (ofBytes ((List.range 4).map fun b => Config.freeByte e (row + 4 * j + b)))
  let c := calAt s cal
  setCal { s with fresh := e } cal { c with slots := c.slots.map fun x =>
    if x.g.dom = i then { x with rows := x.rows.map fun r => (r.1, (List.range 128).map (lane r.1)) } else x }

/-- Work at a Caliper in a domain whose valid entries differ: R101 leaves the behaviour undefined, for that domain only. By a free value
the work goes by the Caliper's own entry, or it is held, or what is staged there for the domain is lost first (DESIGN CHOICE, log 39). -/
def inDomain (s : State) (cal i : Nat) (k : State → Host.Outcome State Fault Refusal) : Host.Outcome State Fault Refusal :=
  if domainAgrees s (cal / 24) i then k s
  else match (Config.freeWord (s.fresh + 1)).toNat % 3 with
    | 0 => k s
    | 1 => .next s
    | _ => k (freeStaging s cal i)

/-- Is the die of a Caliper at work? -/
def calUp (s : State) (cal : Nat) : Bool := !(dieAt s (dkOfCal cal)).failed

/-- Numbers n from lo to hi with n mod 3 = r. -/
def countMod3 (lo hi r : Nat) : Nat :=
  let upTo (m : Nat) : Nat := (m + 3 - r) / 3
  if hi < lo then 0 else upTo hi - (if lo = 0 then 0 else upTo (lo - 1))

/-- The rows of a domain that a Caliper homes (R105): row n begins at granule 2n, in stack 2n mod 3 (R57, R102). -/
def rowsHomed (s : State) (cal i : Nat) : Nat := countMod3 (rowLo s cal i) (rowHi s cal i) (2 * (cal % 3) % 3)

/-- Free staging rows (R118). -/
def freeRows (c : Caliper) : Nat := 16384 - c.slots.foldl (fun n x => n + x.resv) 0

/-- The slot of a group, whatever its generation; and the slot of exactly this group. -/
def slotLike (c : Caliper) (g : GroupId) : Option MSlot :=
  c.slots.find? fun x => x.g.dom = g.dom && x.g.contrib = g.contrib && x.g.group = g.group
def slotOf (c : Caliper) (g : GroupId) : Option MSlot := c.slots.find? fun x => x.g = g
def putMSlot (c : Caliper) (x : MSlot) : Caliper := { c with slots := c.slots.map fun y => if y.g = x.g then x else y }
def dropSlot (c : Caliper) (g : GroupId) : Caliper := { c with slots := c.slots.filter fun y => y.g != g }

/-- A merge fault (R111): ACC 8, LVL 0. An open names no address, and its record has VA 0 (DESIGN CHOICE, log 71). -/
def mergeFault (s : State) (dk : Nat) (f : Flight) (kind : Nat) : State :=
  let q := { curReq f with acc := .mobj }
  let (r, s) := raiseFault s dk q kind 0 q.va 0
  setFlight s { f with stage := .nack r }

/-! ### Opens -/

/-- A change of the merge group that an operation belongs to: of its activation's open or closing groups, or of its
sequencer's program. -/
def mapGroup (s : State) (f : Flight) (g : GroupId) (h : OpenGroup → OpenGroup) : State :=
  let up (o : OpenGroup) : OpenGroup := if o.g = g then h o else o
  match actByUid s f.uid with
  | some a => putAct s { a with group := a.group.map up, closing := a.closing.map up }
  | none => match seqOfFlight f with
    | some q => match collQ s q with
      | c :: _ => putColl s q { c with group := c.group.map up }
      | [] => s
    | none => s

/-- The group that an operation belongs to, as its activation or program holds it. -/
def groupHeld (s : State) (f : Flight) (g : GroupId) : Option OpenGroup :=
  match actByUid s f.uid with
  | some a => (a.closing ++ a.group.toList).find? fun o => o.g = g
  | none => match seqOfFlight f with
    | some q => match collQ s q with
      | c :: _ => c.group.toList.find? fun o => o.g = g
      | [] => none
    | none => none

/-- MERGE_OPEN_ENTRY: an open at the entry Caliper of its die is passed to the leader, or refused (R101, R105, R393). -/
def execMergeOpenEntry (id : Nat) (s : State) : Host.Outcome State Fault Refusal :=
  match flightById s id with
  | none => .next s
  | some f =>
    match f.stage, f.pay with
    | .sent, .mopen g rows _ =>
      let dk := srcDie f
      let cal := calKey dk 0
      inDomain s cal g.dom fun s =>
        if !bimOn s cal ∨ !bimV s cal g.dom ∨ bimAsid s cal g.dom != f.req.asid then .next (mergeFault s dk f 0x15)
        else
          let s := setFlight s { f with stage := .waiting }
          let s := mapGroup s f g fun o => { o with members := bimMembers s cal g.dom }
          .next (sendMsg s dk (.mopenLead g rows (bimLeader s cal g.dom) id))
    | _, _ => .next s

/-- MERGE_OPEN_LEADER: the leader forwards an open to every member, in the order in which it numbers them (R105). -/
def execMergeOpenLeader (id : Nat) (s : State) : Host.Outcome State Fault Refusal :=
  match flightById s id with
  | none => .next s
  | some f =>
    match f.pay with
    | .mopenLead g rows leader op =>
      inDomain s leader g.dom fun s =>
        if !calUp s leader then .next s
        else
          let s := dropFlight s id
          if !bimOn s leader ∨ !bimV s leader g.dom then
            match flightById s op with
            | some o => .next (mergeFault s (dkOfCal leader) o 0x15)
            | none => .next s
          else .next ((bimMembers s leader g.dom).foldl (fun s c => sendMsg s (dkOfCal leader) (.mopenMem g rows c op)) s)
    | _ => .next s

/-- Does a member hold an open for which it lacks rows or a slot? It then holds every later one (R105, R116). -/
def openHeldAt (s : State) (cal id : Nat) : Bool := s.flights.any fun f => f.id != id && f.stage == .waiting && (match f.pay with
  | .mopenMem _ _ c _ => c == cal
  | _ => false)

/-- Is a flight an open or an abort marker for a member of a domain: what it handles in leader order (R105, R110)? -/
def ordersAt (cal dom : Nat) (f : Flight) : Bool := match f.pay with
  | .mopenMem g _ c _ => c == cal && g.dom == dom
  | .mabortMem g c => c == cal && g.dom == dom
  | _ => false

/-- Does an earlier open or abort marker of the leader's order wait at a member? The order is that of one domain, whatever other domains the same
Caliper leads (DESIGN CHOICE, log 71). -/
def earlierAt (s : State) (cal dom id : Nat) : Bool := s.flights.any fun f => f.id < id && ordersAt cal dom f

/-- The reservation of an open at a member (R105). -/
def reserveOf (s : State) (cal dom rows : Nat) : Nat := min rows (rowsHomed s cal dom)

/-- Generation g is newer than h (R103). -/
def newerGen (g h : Nat) : Bool := 1 ≤ (g + 256 - h) % 256 && (g + 256 - h) % 256 ≤ 128

/-- CALIPER_OPEN: a member handles the next open of the leader's order; one for which it lacks rows or a slot is held, and every later one
behind it (R105, R108, R116). An open of a newer generation whose fresh reservation does not fit is held so too, and the old slot keeps its
rows until it is handled (DESIGN CHOICE, log 62). -/
def execCaliperOpen (id : Nat) (s : State) : Host.Outcome State Fault Refusal :=
  match flightById s id with
  | none => .next s
  | some f =>
    match f.pay with
    | .mopenMem g rows cal op =>
      inDomain s cal g.dom fun s =>
        if !calUp s cal ∨ earlierAt s cal g.dom id ∨ openHeldAt s cal id then .next s
        else
          let c := calAt s cal
          let hold : Host.Outcome State Fault Refusal := .next (setFlight s { f with stage := .waiting })
          let n := reserveOf s cal g.dom rows
          let ack (c : Caliper) : Host.Outcome State Fault Refusal :=
            .next (sendMsg (setCal (dropFlight s id) cal c) (dkOfCal cal) (.mopenAck g cal op))
          let refuse (kind : Nat) : Host.Outcome State Fault Refusal :=
            match flightById s op with
            | some o => .next (mergeFault (dropFlight s id) (dkOfCal cal) o kind)
            | none => .next (dropFlight s id)
          if !bimOn s cal ∨ !bimV s cal g.dom then refuse 0x15
          else match slotLike c g with
            | none =>
              if 1024 ≤ c.slots.length ∨ freeRows c < n then hold
              else ack { c with slots := c.slots ++ [⟨g, 1, n, [], false, false⟩] }
            | some x =>
              if x.st != 1 then .next s
              else if !newerGen g.gen x.g.gen then refuse 0x14
              else if freeRows c + x.resv < n then hold
              else ack { dropSlot c x.g with slots := (dropSlot c x.g).slots ++ [⟨g, 1, n, [], true, false⟩] }
    | _ => .next s

/-- MERGE_OPEN_ACK: the core receives a member's acknowledgement; with all of them the open completes and the group's pushes
may go out (R105). -/
def execMergeOpenAck (id : Nat) (s : State) : Host.Outcome State Fault Refusal :=
  match flightById s id with
  | none => .next s
  | some f =>
    match f.pay with
    | .mopenAck g cal op =>
      let s := dropFlight s id
      match flightById s op with
      | none => .next s
      | some o =>
        let s := mapGroup s o g fun x => { x with acks := x.acks ++ [cal] }
        match groupHeld s o g with
        | none => .next s
        | some x =>
          if o.stage == .waiting && x.members.all x.acks.contains then
            .next (endOp (mapGroup s o g fun x => { x with opened := true }) o)
          else .next s
    | _ => .next s

/-! ### Pushes and close markers -/

/-- The 128 FP32 lanes of a row. -/
def rowLanes (bs : List Byte) : List (BitVec 32) := (elemsOf 4 bs.length bs).map (BitVec.ofNat 32)

/-- The adds of a push into a staged row (R106): each by R95. -/
def stageRow (old : List (BitVec 32)) (new : List (BitVec 32)) : List (BitVec 32) :=
  (old.zip new).map fun p => BitVec.ofNat 32 (portFAdd 9 p.1.toNat p.2.toNat)

/-- A staged row with its lanes at +0. -/
def zeroRow : List (BitVec 32) := List.replicate 128 0

/-- What refuses a push at its home (R106, R111): 0 for none. A push that reaches the Caliper of another package by aperture 1 is judged as any other,
by that Caliper's own entry and slots (DESIGN CHOICE, log 71). -/
def pushKind (s : State) (f : Flight) (loc : Nat) (g : GroupId) : Nat :=
  let cal := homeCal loc
  let row := regionOff loc / 512
  if regionKind loc != 1 ∨ !bimOn s cal ∨ bimAsid s cal g.dom != f.req.asid ∨ row < rowLo s cal g.dom ∨ rowHi s cal g.dom < row then 0x15
  else match slotOf (calAt s cal) g with
    | none => if !bimV s cal g.dom ∨ !(bimMembers s cal g.dom).contains cal then 0x15 else 0x14
    | some x => if x.st != 1 ∨ ((mfind x.rows loc).isNone ∧ x.resv ≤ x.rows.length) then 0x14 else 0

/-- CALIPER_PUSH: a push at its row's home is added into a staging row, or refused (R106, R116). -/
def execCaliperPush (id : Nat) (s : State) : Host.Outcome State Fault Refusal :=
  match flightById s id with
  | none => .next s
  | some f =>
    match portLoc f, f.pay with
    | some loc, .push bs g =>
      let cal := homeCal loc
      inDomain s cal g.dom fun s =>
        if regionKind loc = 1 ∧ !calUp s cal then .next s
        else if pushKind s f loc g != 0 then .next (mergeFault s (portDie loc) f (pushKind s f loc g))
        else
          let c := calAt s cal
          match slotOf c g with
          | none => .next s
          | some x =>
            let row := stageRow (mget x.rows loc zeroRow) (rowLanes bs)
            .next (setFlight (setCal s cal (putMSlot c { x with rows := mset x.rows loc row })) { f with stage := .ack })
    | _, _ => .next s

/-- Are pushes of a group still on their way? -/
def pushesLeft (s : State) (f : Flight) (g : GroupId) : Bool := s.flights.any fun p => p.uid = f.uid && p.req.src == f.req.src && p.id < f.id &&
  (match p.pay with
   | .push _ h => h == g
   | _ => false)

/-- CLOSE_MARKER_SEND: with every push of the group acknowledged the close markers leave for every member: the commit point
(R107). Nothing leaves while the activation is parked on a fault (R189). -/
def execCloseMarkerSend (id : Nat) (s : State) : Host.Outcome State Fault Refusal :=
  match flightById s id with
  | none => .next s
  | some f =>
    match f.pay with
    | .mclose g =>
      let parked := match actByUid s f.uid with
        | some a => (match a.wait with
          | .fault .. => true
          | _ => false)
        | none => false
      match groupHeld s f g with
      | none => .next s
      | some o =>
        if parked || !o.opened || pushesLeft s f g then .next s
        else
          let s := o.members.foldl (fun s c => sendMsg s (srcDie f) (.mcloseMem g c)) s
          let s := match actByUid s f.uid with
            | some a => putAct s { a with closing := a.closing.eraseP fun x => x.g == g, committed := true }
            | none => s
          let s := match seqOfFlight f with
            | some q => (match collQ s q with
              | c :: _ => putColl s q { c with group := none }
              | [] => s)
            | none => s
          .next (endOp s f)
    | _ => .next s

/-! ### Seal, measure, apply -/

/-- One add in FP64, rounded RNE (R112). -/
def f64Add (a b : FVal) : Nat := match fmtOf 10 with
  | some k => (k.convert (fAdd a b 0).1 0 true 0).1
  | none => 0

/-- The sum of squares of a row, in lane order (R112). -/
def rowSum (row : List (BitVec 32)) : Nat :=
  row.foldl (fun acc x => f64Add (valOf 10 acc) (fMul (valOf 9 x.toNat) (valOf 9 x.toNat)).1) 0

/-- A member's partial sum of squares (R112): row sums in ascending row address. A row with an uncorrectable error makes it a
NaN, which discards the group (R115; DESIGN CHOICE, log 45). -/
def partialSum (x : MSlot) : Nat :=
  if x.bad then 0x7FF8000000000000
  else x.rows.foldl (fun acc r => f64Add (valOf 10 acc) (valOf 10 (rowSum r.2))) 0

/-- CALIPER_CLOSE: a member seals the slot and sends its partial (R112). -/
def execCaliperClose (id : Nat) (s : State) : Host.Outcome State Fault Refusal :=
  match flightById s id with
  | none => .next s
  | some f =>
    match f.pay with
    | .mcloseMem g cal =>
      if !calUp s cal then .next s
      else
        let s := dropFlight s id
        let c := calAt s cal
        match slotOf c g with
        | none => .next s
        | some x =>
          let s := setCal s cal (putMSlot c { x with st := 2 })
          .next (sendMsg s (dkOfCal cal)
            (.mpart g (bimLeader s cal g.dom) cal (BitVec.ofNat 64 (partialSum x)) x.rows.length x.replayed))
    | _ => .next s

/-- Partials in ascending Caliper number. -/
def insertPart (p : Nat × Word × Nat × Bool) : List (Nat × Word × Nat × Bool) → List (Nat × Word × Nat × Bool)
  | [] => [p]
  | x :: r => if p.1 < x.1 then p :: x :: r else x :: insertPart p r

/-- Norm, factor and flags CLIPPED and DISCARDED of a group (R112). -/
def measure (limit : Nat) (sum : Nat) : Nat × Nat × Bool × Bool :=
  match fmtOf 9 with
  | none => (0, 0, false, true)
  | some k =>
    let norm := (k.convert (fSqrt (valOf 10 sum)).1 0 true 0).1
    if isNanBits 9 norm ∨ norm = k.infc then (norm, 0, false, true)
    else if !fLt 9 limit norm then (norm, 0x3F800000, false, false)
    else (norm, (k.convert (fDiv (valOf 9 limit) (valOf 9 norm)).1 0 true 0).1, true, false)

/-- LEADER_PARTIAL: with the partials of every member the leader measures the group, numbers it and sends the commit to the
members (R112, R113; DESIGN CHOICE, log 38); an uncorrectable error in a staged row has discarded the group (R115). -/
def execLeaderPartial (id : Nat) (s : State) : Host.Outcome State Fault Refusal :=
  match flightById s id with
  | none => .next s
  | some f =>
    match f.pay with
    | .mpart g leader cal sum rows rep =>
      if !calUp s leader then .next s
      else
        let s := dropFlight s id
        let c := calAt s leader
        let parts := insertPart (cal, sum, rows, rep) ((c.leads.find? fun l => l.g = g).elim [] fun l => l.parts)
        let rest := c.leads.filter fun l => l.g != g
        let members := bimMembers s leader g.dom
        if !members.all fun m => parts.any fun p => p.1 = m then .next (setCal s leader { c with leads := rest ++ [⟨g, parts⟩] })
        else
          let total := parts.foldl (fun acc p => f64Add (valOf 10 acc) (valOf 10 p.2.1.toNat)) 0
          let (norm, factor, clipped, disc) := measure (wfld (bimReg s leader g.dom 8) 0 32) total
          let bad := members.any fun m => (slotOf (calAt s m) g).any fun x => x.bad
          let (factor, clipped, disc) := if bad then (0, false, true) else (factor, clipped, disc)
          let seq := mget c.seqs g.dom 0 + 1
          let log : MLog :=
            { dom := g.dom, seq := seq, g := g, factor := BitVec.ofNat 32 factor, norm := BitVec.ofNat 32 norm, clipped := clipped
              discard := disc, replayed := parts.any fun p => p.2.2.2
              rows := min 0xFFFFFF (parts.foldl (fun n p => n + p.2.2.1) 0), acks := [] }
          let s := setCal s leader { c with leads := rest, logs := c.logs ++ [log], seqs := mset c.seqs g.dom seq }
          .next (members.foldl (fun s m =>
            let x := calAt s m
            setCal s m { x with commits := x.commits ++ [⟨g.dom, seq, g, BitVec.ofNat 32 factor, disc⟩] }) s)
    | _ => .next s

/-- One staged row of a commit: the total row is read and written as one action (R113); a row with an uncorrectable
error is left unwritten (R115). -/
def applyRow (factor : Nat) (s : State) (r : Nat × List (BitVec 32)) : State :=
  if s.eccBad.any fun l => r.1 / 512 = l / 8 then s
  else
    let (old, s) := portRead s r.1 512
    let new := ((rowLanes old).zip r.2).map fun p => portFma 9 p.1.toNat factor p.2.toNat
    { s with mem := writeBytes s.mem r.1 (new.flatMap fun v => toBytes 4 v) }

/-- CALIPER_APPLY: a member applies the next commit in sequence order, frees the slot and acknowledges (R113). -/
def execCaliperApply (cal dom : Nat) (s : State) : Host.Outcome State Fault Refusal :=
  let c := calAt s cal
  let n := mget c.applied dom 0 + 1
  if !calUp s cal then .next s
  else match c.commits.find? (fun x => x.dom = dom && x.seq = n) with
    | none => .next s
    | some k =>
      let rows := (slotOf c k.g).elim [] fun x => x.rows
      let s := if k.discard then s else rows.foldl (applyRow k.factor.toNat) s
      let c := { dropSlot c k.g with commits := c.commits.filter fun x => !(x.dom = dom && x.seq = n)
                                     applied := mset c.applied dom n }
      .next (sendMsg (setCal s cal c) (dkOfCal cal) (.mack dom n (bimLeader s cal dom) cal))

/-- The words of a commit log record (R114). -/
def logWords (l : MLog) : List Word :=
  [BitVec.ofNat 64 l.seq, BitVec.ofNat 64 (l.g.gen * 2 ^ 40 + l.g.group * 2 ^ 16 + l.g.contrib),
   BitVec.ofNat 64 (l.factor.toNat * 2 ^ 32 + l.norm.toNat),
   BitVec.ofNat 64 (l.replayed.toNat * 2 ^ 26 + l.discard.toNat * 2 ^ 25 + l.clipped.toNat * 2 ^ 24 + l.rows)]

/-- The commits of a domain that every member has acknowledged are logged and published in turn (R114). -/
def publishCommits (leader dom : Nat) : Nat → State → State
  | 0, s => s
  | fuel + 1, s =>
    let c := calAt s leader
    match c.logs.find? (fun l => l.dom = dom) with
    | none => s
    | some l =>
      if !(bimMembers s leader dom).all l.acks.contains then s
      else
        let dk := dkOfCal leader
        let n := wfld (bimReg s leader dom 0x30) 0 16
        let s := if n = 0 then s
          else portWrite s (hbm dk (wfld (bimReg s leader dom 0x28) 3 49 * 8 + 32 * (l.seq % n))) (bytesOf (logWords l))
        let s := portWrite s (hbm dk (wfld (bimReg s leader dom 0x20) 3 49 * 8)) (toBytes 8 l.seq)
        publishCommits leader dom fuel (setCal s leader { c with logs := c.logs.filter fun x => !(x.dom = dom && x.seq = l.seq) })

/-- LEADER_COMMIT_ACK: a member's acknowledgement of a commit; a commit that all have acknowledged is logged, then the
sequence word is written (R114). -/
def execLeaderCommitAck (id : Nat) (s : State) : Host.Outcome State Fault Refusal :=
  match flightById s id with
  | none => .next s
  | some f =>
    match f.pay with
    | .mack dom n leader cal =>
      if !calUp s leader then .next s
      else
        let s := dropFlight s id
        let c := calAt s leader
        let s := setCal s leader { c with logs := c.logs.map fun l =>
          if l.dom = dom && l.seq = n then { l with acks := l.acks ++ [cal] } else l }
        .next (publishCommits leader dom c.logs.length s)
    | _ => .next s

/-! ### Aborts and registers -/

/-- Is an open of a group still on its way to the leader? -/
def openComing (s : State) (g : GroupId) : Bool := s.flights.any fun f => match f.pay with
  | .mopen h _ _ => h == g && f.stage == .sent
  | .mopenLead h _ _ _ => h == g
  | _ => false

/-- ABORT_MARKER_ENTRY: an abort marker at its die's entry Caliper is passed to the leader, behind the group's open (R110). -/
def execAbortMarkerEntry (id : Nat) (s : State) : Host.Outcome State Fault Refusal :=
  match flightById s id with
  | none => .next s
  | some f =>
    match f.pay with
    | .mabort g _ =>
      if openComing s g then .next s
      else .next (sendMsg (dropFlight s id) (srcDie f) (.mabortLead g (bimLeader s (calKey (srcDie f) 0) g.dom)))
    | _ => .next s

/-- ABORT_MARKER_LEADER: the leader forwards the marker to every member and posts event 0x04: word 5 the group as the log has
it, word 6 the domain (R110). -/
def execAbortMarkerLeader (id : Nat) (s : State) : Host.Outcome State Fault Refusal :=
  match flightById s id with
  | none => .next s
  | some f =>
    match f.pay with
    | .mabortLead g leader =>
      if openComing s g ∨ !calUp s leader then .next s
      else
        let s := (bimMembers s leader g.dom).foldl (fun s c => sendMsg s (dkOfCal leader) (.mabortMem g c)) (dropFlight s id)
        let dk := dkOfCal leader
        .next (postEvent s dk (mkEvent s dk 0x04 (BitVec.ofNat 64 (g.gen * 2 ^ 40 + g.group * 2 ^ 16 + g.contrib)) (BitVec.ofNat 64 g.dom)))
    | _ => .next s

/-- CALIPER_ABORT: a member frees the group's slot, rows and reservation (R110, R116). -/
def execCaliperAbort (id : Nat) (s : State) : Host.Outcome State Fault Refusal :=
  match flightById s id with
  | none => .next s
  | some f =>
    match f.pay with
    | .mabortMem g cal =>
      if !calUp s cal ∨ earlierAt s cal g.dom id then .next s
      else
        let c := calAt s cal
        let s := dropFlight s id
        match slotOf c g with
        | some x => if x.st = 1 then .next (setCal s cal (dropSlot c g)) else .next s
        | none => .next s
    | _ => .next s

/-- BIM_DISC: a write frees an unsealed slot that matches exactly (R118). -/
def execBimDisc (cal : Nat) (v : Word) (s : State) : Host.Outcome State Fault Refusal :=
  let g : GroupId := ⟨wfld v 48 4, wfld v 0 16, wfld v 16 24, wfld v 40 8⟩
  let c := calAt s cal
  match slotOf c g with
  | some x => if x.st = 1 ∧ calUp s cal then .next (setCal s cal (dropSlot c g)) else .next s
  | none => .next s

/-- BIM_CTL_WRITE: a write to BIM_CTL, TLO, THI, SEQA, LOGA or LOGN of an entry (R119, R120): ignored when it changes a locked
field while V is set; setting V clears SEQ, and the leader's sequence word becomes 0. A write of 1 to a V that is set already sets nothing
(DEDUCED, log 29). -/
def execBimCtlWrite (cal dom off : Nat) (v : Word) (s : State) : Host.Outcome State Fault Refusal :=
  let dk := dkOfCal cal
  let old := bimReg s cal dom off
  let on := bimV s cal dom
  if 16 ≤ dom ∨ !calUp s cal then .next s
  else if off = 0 then
    if on && (wfld old 24 29 != wfld v 24 29 || wfld old 0 16 != wfld v 0 16) then .next s
    else
      let s := storeReg s dk (bimOff cal dom) v
      if on || !wbit v 63 then .next s
      else
        let c := calAt s cal
        let s := setCal s cal { c with seqs := mset c.seqs dom 0, applied := mset c.applied dom 0 }
        if bimLeader s cal dom = cal then
          .next (portWrite s (hbm dk (wfld (bimReg s cal dom 0x20) 3 49 * 8)) (toBytes 8 0))
        else .next s
  else if [0x10, 0x18, 0x20, 0x28, 0x30].contains off then
    if on then .next s else .next (storeReg s dk (bimOff cal dom + off) v)
  else .next s

/-- BIM_LIM_WRITE: a NaN or negative limit is ignored (R120). -/
def execBimLimWrite (cal dom : Nat) (v : Word) (s : State) : Host.Outcome State Fault Refusal :=
  let l := wfld v 0 32
  if 16 ≤ dom ∨ !calUp s cal ∨ isNanBits 9 l ∨ 2 ^ 31 ≤ l then .next s
  else .next (storeReg s (dkOfCal cal) (bimOff cal dom + 8) v)

end Sys2Proof.Machine
end

