-- ==== Sys2Proof/Machine/Reply.lean ====
section
/-! DEFINITION. What comes back to a core: NACKs and the class rule (R187 to R190, R153, R136), replies (R185), acknowledgements
(R186), releases (R73), and the completion of waits (R48, R51, R76, R203, R204). -/
namespace Sys2Proof.Machine

/-! ### Abort -/

/-- An activation is aborted (R188): unsent operations are discarded, its resources freed, its cost leaves SUM; an open merge
group gets no marker (R110). -/
def abortOne (s : State) (a : Act) : State :=
  subCost (freeAct (discardUnsent s a.uid) a) (clusOfCore (coreOf a)) a.task.cost

/-- The suspended members of a gang leave their slots; their costs left SUM when they were suspended (R188, R197). -/
def abortSuspended (s : State) (gang : Nat) : State :=
  { s with cores := s.cores.map fun e =>
      if e.2.susp.any fun x => x.2.act.gang = some gang then (e.1, { e.2 with susp := e.2.susp.filter fun x => x.2.act.gang != some gang })
      else e }

/-- The task of an aborted activation as it re-enters a queue: its replay count is increased, modulo 256 (R103, R188; DEDUCED, log 46). -/
def replayed (a : Act) : Task := { a.task with rc := (a.task.rc + 1) % 256, txn := a.txn }

/-- An idempotent activation is aborted and its task re-enters its queue, in fault-wait or not, at its old place (R188, R198). A
gang is aborted whole and re-enters once. -/
def abortAct (s : State) (a : Act) (w : Option FaultWait) : State :=
  match a.gang with
  | none => enterQueue (abortOne s a) (clusOfCore (coreOf a)) ⟨replayed a, a.seq, w, none⟩
  | some g =>
    let members := (s.acts.filter fun e => e.2.gang = some g).map fun e => e.2
    let s := abortSuspended (members.foldl abortOne s) g
    let clus := (gangById s g).elim [clusOfCore (coreOf a)] fun x => x.clus
    let s := dropGangRec s g
    if bigGang a.task then placeBig s (clus.headD 0) (replayed a) (some a.seq) w
    else enterQueue s (clus.headD 0) ⟨replayed a, a.seq, w, none⟩

/-! ### NACKs -/

/-- An operation whose fault ends its activation leaves; a gather or convert counts its slots down, and an undeclared access of
an engine command is a command error (R132, R387). -/
def dropFaulted (s : State) (f : Flight) (r : FRec) : State :=
  let core := flightCore f
  let s := match f.pay with
    | .plinth g sh _ _ => countDown s core (plinthSlots s f sh g)
    | _ => s
  let cmd := match f.pay with
    | .plinth .. | .command => true
    | _ => false
  let s := if cmd && r.kind = 0x16 then setCore s core { coreAt s core with errs := (coreAt s core).errs + 1 } else s
  dropFlight s f.id

/-- A recoverable fault parks the activation, its operation on the replay list (R136, R189), which keeps each operation's faulting VA, and a send whole (R344); the
cycles of a transaction stop counting (R134); it stands at no yield point (R197). -/
def parkOnFault (s : State) (a : Act) (f : Flight) (va : Nat) : State :=
  let whole := f.path == some 3
  let s := setFlight s { f with stage := .replay, faulted := true, faultVa := va, done := if whole then 0 else f.done }
  match a.wait with
  | .fault .. => settle s a.uid
  | _ => settle (putAct s { a with wait := .fault va false, parkedAt := s.now, stopped := false
                                   txnCycles := a.txnCycles + (s.now - a.txnMark) }) a.uid

/-- The event of a merge replay refused (R153): word 5 the task's header, word 6 the core. -/
def replayRefused (s : State) (a : Act) : State :=
  postEvent s (dieOf a) (mkEvent s (dieOf a) 0x05 (tHeader a.task) (BitVec.ofNat 64 (numOfCore (coreOf a))))

/-- The class rule for a fault of an activation (R187): a kind that is not recoverable terminates it; a transactional one or one
of a resumable class parks; one of an idempotent class is aborted, or terminated after a commit point when its task has BIM
set (R153). -/
def classRule (s : State) (a : Act) (f : Flight) (r : FRec) : State :=
  if !recoverable r.kind then trapAt (dropFaulted s f r) a f.pc 0
  else if a.txn.isSome || a.cls.res then parkOnFault s a f r.va
  else if tBim a.task && a.committed then trapAt (replayRefused (dropFaulted s f r) a) a f.pc 0
  else abortAct (dropFaulted s f r) a (some ⟨r.va, dieOf a⟩)

/-- A NACK to an agent with no activation behind it: an upward barrier arrival is kept for a retry when it can be retried
(R235); a refused merge request ends its collective program (R242). -/
def agentNack (s : State) (f : Flight) (r : FRec) : State :=
  let s := dropFlight s f.id
  let fails (g : GroupId) : State := match seqOfFlight f with
    | some q => match collQ s q with
      | c :: _ => if c.group.any fun o => o.g = g then collFail s q c 2 else s
      | [] => s
    | none => s
  match f.pay with
  | .barArrive (some child) _ =>
    if recoverable r.kind then { s with barUps := s.barUps ++ [(child, srcDie f, r.va, f.req.asid, f.req.gen)] } else s
  | .push _ g => fails g
  | .mopen g _ _ => fails g
  | _ => s

/-- FAULT_NACK: a fault record reaches the requester (R187). A fetch's fault is handled when its line would be filled (R204). -/
def execFaultNack (id : Nat) (s : State) : Host.Outcome State Fault Refusal :=
  match flightById s id with
  | none => .next s
  | some f =>
    match f.stage with
    | .nack r =>
      if f.pay == .fetch then .next s
      else if f.uid = 0 then .next (agentNack s f r)
      else match actByUid s f.uid with
        | none => .next (dropFaulted s f r)
        | some a => .next (classRule s a f r)
    | _ => .next s

/-! ### Replies -/

/-- Does a waiting instruction of the activation await this operation: it waits for it, or it is parked on a fault at that
instruction? -/
def awaits (a : Act) (f : Flight) : Bool := match a.wait with
  | .read i => i = f.id
  | .fault .. => pcOf a = f.pc
  | .sending _ => pcOf a = f.pc
  | _ => false

/-- The waiting instruction of an operation completes. -/
def finishAt (s : State) (uid : Nat) : State := match actByUid s uid with
  | some a => finishWait s a
  | none => s

/-- spawn and spawng once the descriptor is read (R341): the check, then a release whose placement keeps the slot. -/
def spawnReply (s : State) (a : Act) (f : Flight) (gang home : Bool) (bytes : Word) (bs : List Byte) : State :=
  let ws := wordsOf 8 bs
  let (cl, s) := classAt s (coreOf a) a.task.asid (wfld (nth ws 0) 0 10)
  let k := clusOfCore (coreOf a)
  let t := mkTask ws a.task.asid a.task.gen k home bytes.toNat cl.cost
  if taskBad cl t false || isGang t != gang then trapAt (dropFlight s f.id) a f.pc cTask
  else settle (finishAt (setFlight s { f with pay := .spawn t k, stage := .relWait 4, dst := .none, got := [], done := 0 }) a.uid) a.uid

/-- wtt.arm once the record is read (R159). -/
def armReply (s : State) (a : Act) (f : Flight) (ent : Nat) (bs : List Byte) : State :=
  let w := wordsOf 4 bs
  let kind := wfld (nth w 0) 36 2
  let n := wfld (nth w 0) 0 32
  let tmpl := wfld (nth w 1) 0 57
  let ctlw := wfld (nth w 2) 0 57
  let core := coreOf a
  let c := coreAt s core
  let e := wttAt c ent
  if n = 0 ∨ tmpl % 64 != 0 ∨ (kind != 0 ∧ ctlw % 8 != 0) ∨ e.st != .disarmed then trapAt (dropFlight s f.id) a f.pc cArm
  else
    let e : WttEntry := { st := .armed, kind := kind, scope := min 4 (wfld (nth w 0) 32 3), n := n, count := n, tmpl := tmpl
                          ctlw := ctlw, asid := a.task.asid, gen := a.task.gen, step := 0, val := 0, held := [] }
    finishAt (endOp (setCore s core { c with wtt := mset c.wtt ent e }) f) a.uid

/-- oft.sub once the descriptor is read (R123, R124): the checks in their order, then a release that goes to the sequencer. -/
def subReply (s : State) (a : Act) (f : Flight) (bs : List Byte) : State :=
  let ws := wordsOf 8 bs
  let dk := dieOf a
  let (cl, s) := classAt s (coreOf a) a.task.asid (wfld (nth ws 0) 0 10)
  if a.decl.isEmpty then trapAt (dropFlight s f.id) a f.pc cDecl
  else if !cl.ofc ∨ wfld (nth ws 0) 15 6 != 0 then trapAt (dropFlight s f.id) a f.pc cTask
  else if !osqOn s dk ∨ !(a.decl.all fun t => (route s dk t.1).any (domainDies s dk).contains) then
    trapAt (dropFlight s f.id) a f.pc cDomain
  else settle (setFlight s { f with pay := .oftSub dk ws a.decl, stage := .relWait 4, got := [], done := 0 }) a.uid

/-- A reply is written where its request says (R185): to the frame, or to the context area of an evicted context (R42). -/
def deliverReply (s : State) (a : Act) (f : Flight) (bs : List Byte) : State :=
  let v := BitVec.ofNat 64 (ofBytes (bs.take 8))
  match f.dst with
  | .none | .line .. => endOp s f
  | .sreg d n sx => endOp (writeS s a d (loadValue n sx (ofBytes bs))) f
  | .sreg2 d b =>
    let s := writeS s a d v
    let s := match actByUid s a.uid with
      | some a => writeS s a b (BitVec.ofNat 64 (ofBytes (bs.drop 8)))
      | none => s
    endOp s f
  | .vrow r vwb => endOp { s with mem := writeBytes s.mem (rowPlaceOf s a vwb r) bs } f
  | .vlane r i w vwb => endOp { s with mem := writeBytes s.mem (rowPlaceOf s a vwb r + i * (w / 8)) bs } f
  | .dreg k =>
    let d := dOfBytes bs
    if descMalformed d then trapAt (dropFlight s f.id) a f.pc cDesc else endOp (writeD s a k d) f
  | .spawn g h b => if awaits a f then spawnReply s a f g h b bs else endOp s f
  | .wttArm ent => if awaits a f then armReply s a f ent bs else endOp s f
  | .oftSub _ => if awaits a f then subReply s a f bs else endOp s f
  | .bimWait d target =>
    match a.wait with
    | .bimWait i _ _ _ _ =>
      if i = f.id ∧ target.toNat ≤ v.toNat then endOp (endWaitRead s a d v) f else endOp s f
    | _ => endOp s f
  | .phase d =>
    match f.pay, a.wait with
    | .barArrive .., _ => endOp (writeS s a d v) f
    | _, .barrier i o p sc polls since d' ad =>
      if f.pc != pcOf a then endOp s f
      else if v != p then endOp (endWaitRead s a d v) f
      else endOp (putAct s { a with wait := .barrier i o p sc (polls || f.pay == .load) since d' ad }) f
    | _, _ => endOp s f

/-- Is a reply's core the activation's, or does a forwarding entry send the reply on (R202)? -/
def reachesAct (s : State) (a : Act) (f : Flight) : Bool :=
  flightCore f == coreOf a || (coreAt s (flightCore f)).forwards.any fun w => w.uid = a.uid && s.now ≤ w.till

/-- REPLY_ARRIVE: a reply reaches its core; it is written, and a parked activation becomes ready (R185). -/
def execReplyArrive (id : Nat) (s : State) : Host.Outcome State Fault Refusal :=
  match flightById s id with
  | none => .next s
  | some f =>
    match f.stage with
    | .reply bs =>
      if f.pay == .fetch then .next s
      else match actByUid s f.uid with
        | none => .next (dropFlight s f.id)
        | some a => if reachesAct s a f then .next (deliverReply s a f bs) else .next s
    | _ => .next s

/-- ACKNOWLEDGE: an acknowledgement frees the operation's slot, and operations held behind it may go out (R186). -/
def execAcknowledge (id : Nat) (s : State) : Host.Outcome State Fault Refusal :=
  match flightById s id with
  | none => .next s
  | some f => if f.stage == .ack then .next (endOp s f) else .next s

/-! ### Releases and completed waits -/

/-- Is a spawn that the activation issued earlier still waiting (R341)? -/
def spawnBefore (s : State) (f : Flight) : Bool := s.flights.any fun g => g.uid = f.uid && g.id < f.id && (match g.pay with
  | .spawn .. => true
  | _ => false)

/-- Does a release wait at its core: its condition does not hold (R73, R88), or its activation is parked on a fault (R189)? -/
def releaseHeld (s : State) (f : Flight) (sc : Nat) : Bool :=
  !releaseReady s f.uid f.id sc || (match actByUid s f.uid with
    | some a => (match a.wait with
      | .fault .. => true
      | _ => false)
    | none => false)

/-- RELEASE_READY: a release takes effect, and what it carries is sent (R73): a program is queued at its sequencer while one may
(R238), a spawn is placed behind earlier spawns (R341), any other request or message goes out, as the next of its source (R87). -/
def execReleaseReady (id : Nat) (s : State) : Host.Outcome State Fault Refusal :=
  match flightById s id with
  | none => .next s
  | some f =>
    match f.stage with
    | .relWait sc =>
      if f.uid != 0 && releaseHeld s f sc then .next s
      else match f.pay with
        | .txnEnd .. => .next s
        | .coll q hdr asid gen =>
          match queueColl s q hdr asid gen with
          | (s, true) => .next (endOp s f)
          | (s, false) => .next s
        | .spawn t k => if spawnBefore s f then .next s else .next (endOp (placeTask s k t) f)
        | p =>
          let t := { s with nextId := s.nextId + 1 }
          if p.isAccess then .next (pump (setFlight t { f with stage := .held }) f.uid)
          else .next (setFlight t { f with stage := .sent, sentNo := s.nextId })
    | _ => .next s

/-- DRAIN_COMPLETE: the drained path is clear (R51). -/
def execDrainComplete (ctx : Nat) (s : State) : Host.Outcome State Fault Refusal :=
  match actAt s ctx with
  | none => .next s
  | some a => match a.wait with
    | .drain p => if drainReady s a.uid p then .next (keepCtlAt (drainDone s a p) ctx) else .next s
    | _ => .next s

/-- FENCE_COMPLETE: the earlier accesses within the fence's scope are complete (R76). -/
def execFenceComplete (ctx : Nat) (s : State) : Host.Outcome State Fault Refusal :=
  match actAt s ctx with
  | none => .next s
  | some a => match a.wait with
    | .fence sc => if fenceReady s a.uid sc then .next (keepCtlAt (fenceDone s a sc) ctx) else .next s
    | _ => .next s

/-- OWNER_FLIP: the activation's earlier accesses to the slot are performed, and own.give flips it (R48). -/
def execOwnerFlip (ctx : Nat) (s : State) : Host.Outcome State Fault Refusal :=
  match actAt s ctx with
  | none => .next s
  | some a => match a.wait with
    | .ownGive slot =>
      if (poolHolds s a (4096 * slot) 4096 true).isEmpty then .next (keepCtlAt (giveSlot s a slot) ctx) else .next s
    | _ => .next s

/-! ### Routine lines -/

/-- A class is marked not loaded on a die, and its queued tasks enter fault-wait on the page (R204): their costs leave SUM, and
what a launch unit holds for a gang of it is freed. -/
def markNotLoaded (s : State) (dk asid gen cls va : Nat) : State :=
  let d := dieAt s dk
  let s := setDie s dk { d with notLoaded := d.notLoaded ++ [(asid, gen, cls, va)] }
  let hit (t : Task) : Bool := t.asid = asid && t.gen = gen && tClass t = cls
  let s := (dieClusters (dk / 16 * 8 + dk % 16)).foldl (fun s k =>
    let c := clusAt s k
    let moved := c.queue.filter fun q => hit q.task && q.wait.isNone
    if moved.isEmpty then s
    else setQueue s k { c with
      sum := c.sum - moved.foldl (fun n q => n + clusCost q.task) 0
      queue := c.queue.map fun q => if hit q.task && q.wait.isNone then
        { q with wait := some ⟨va, dk⟩, gang := if bigGang q.task then q.gang else none } else q }) s
  let mine (g : Gang) : Bool := !g.launched && g.die = dk / 16 * 8 + dk % 16 && hit g.task
  { s with gangs := (s.gangs.filter fun g => !(mine g && !bigGang g.task)).map fun g =>
      if mine g then { g with reserved := [], reading := false, extents := none } else g }

/-- ROUTINE_LINE_FILL: a fetched line enters the routine store of 256 lines, from which the line filled first leaves when it is full (DESIGN CHOICE,
log 73); a fetch that faults is a fault of the activation, and the class is marked not loaded on the die (R203, R204). -/
def execRoutineLineFill (id : Nat) (s : State) : Host.Outcome State Fault Refusal :=
  match flightById s id with
  | none => .next s
  | some f =>
    match f.dst, f.stage with
    | .line cls off, .reply bs =>
      let core := flightCore f
      let c := coreAt s core
      let lines := if c.lines.length < 256 then c.lines else c.lines.drop 1
      .next (endOp (setCore s core { c with lines := lines ++ [(f.req.asid, f.req.gen, cls, off, bs)] }) f)
    | .line cls _, .nack r =>
      let s := markNotLoaded s (srcDie f) f.req.asid f.req.gen cls r.va
      match actByUid s f.uid with
      | none => .next (dropFlight s f.id)
      | some a => .next (classRule s a f r)
    | _, _ => .next s

end Sys2Proof.Machine
end

