-- ==== Sys2Proof/Machine/Faults.lean ====
section
/-! DEFINITION. Fault release (R191, R188, R189, R204, R235) and the event queue (R194, R195). -/
namespace Sys2Proof.Machine

/-! ### FLT_PAGE and FLT_CTX -/

/-- Does an FLT_PAGE value release an address of an address space (R191)? -/
def releases (v : Word) (asid va : Nat) : Bool :=
  let sz := wfld v 62 2
  let n := if sz = 0 then 65536 else if sz = 1 then 2 ^ 21 else 2 ^ 30
  wfld v 0 16 == asid && (sz == 3 || va / n == (wfld v 16 41 * 65536) / n)

/-- Does an FLT_PAGE value written on a die end a task's fault-wait? -/
def endsWait (die : Nat) (v : Word) (q : QTask) : Bool := match q.wait with
  | some w => w.die == die && releases v q.task.asid w.va
  | none => false

/-- A released task of a cluster's queue (R177, R188): an ordinary queued task whose cost counts, or, where the cluster is
fenced through RLF_FENCE, a task in transit there. -/
def releaseTask (k : Nat) (s : State) (q : QTask) : State :=
  let c := clusAt s k
  if rlfFenced s k && !bigGang q.task then
    inTransit (setQueue s k { c with queue := c.queue.filter fun x => x.seq != q.seq }) k q.task 63
  else setQueue s k { c with
    sum := c.sum + clusCost q.task
    queue := c.queue.map fun x => if x.seq = q.seq then { x with wait := none } else x }

/-- Every fault-wait task that an FLT_PAGE releases. -/
def releaseTasks (s : State) (die : Nat) (v : Word) : State :=
  s.clus.foldl (fun s e => (e.2.queue.filter (endsWait die v)).foldl (releaseTask e.1) s) s

/-- Does an FLT_PAGE value release an activation parked on a fault: the VA of a fault that it has received lies in the region (R191,
R430)? -/
def releasesAct (s : State) (v : Word) (a : Act) (va : Nat) : Bool :=
  releases v a.task.asid va || (flightsOf s a.uid).any fun f => f.stage == .replay && releases v a.task.asid f.faultVa

/-- Parked activations of a die that an FLT_PAGE releases go on once their lists are fixed (R189, R191). -/
def releaseActs (s : State) (die : Nat) (v : Word) : State :=
  s.acts.foldl (fun s e =>
    let a := e.2
    match a.wait with
    | .fault va _ =>
      if dieOf a = die && releasesAct s v a va then settle (putAct s { a with wait := .fault va true }) a.uid else s
    | _ => s) s

/-- Upward barrier arrivals that a die's units hold on the region are sent again (R235). -/
def retryUps (s : State) (die : Nat) (v : Word) : State :=
  let mine (u : Nat × Nat × Nat × Nat × Nat) : Bool := u.2.1 == die && releases v u.2.2.2.1 u.2.2.1
  (s.barUps.filter mine).foldl (fun s u => launchFlight s (upward u.1 die (barParent s u.1) u.2.2.2.1 u.2.2.2.2))
    { s with barUps := s.barUps.filter fun u => !mine u }

/-- FLT_PAGE: a write on a die releases what waits on the region there (R191), and clears the marks of R204. -/
def execFltPage (die : Nat) (v : Word) (s : State) : Host.Outcome State Fault Refusal :=
  let d := dieAt s die
  if d.failed then .next s
  else
    let s := setDie s die { d with notLoaded := d.notLoaded.filter fun m => !releases v m.1 m.2.2.2 }
    .next (retryUps (releaseActs (releaseTasks s die v) die v) die v)

/-- The activation that an FLT_CTX value names on a die, when it is parked on a fault (R191). -/
def fltTarget (s : State) (die : Nat) (v : Word) : Option (Act × Nat) :=
  match actAt s (coreKey (die / 16) (die % 16) (wfld v 8 8) * 8 + wfld v 0 3) with
  | some a => (match a.wait with
    | .fault va _ => if die % 16 < 8 then some (a, va) else none
    | _ => none)
  | none => none

/-- FLT_CTX with OP 0: the context's replay list is resumed (R191). -/
def execFltCtxResume (die : Nat) (v : Word) (s : State) : Host.Outcome State Fault Refusal :=
  unlessDown s die <|
  match fltTarget s die v with
  | some (a, va) => .next (settle (putAct s { a with wait := .fault va true }) a.uid)
  | none => .next s

/-- FLT_CTX with OP 1: the activation is terminated (R191, R192). -/
def execFltCtxTerminate (die : Nat) (v : Word) (s : State) : Host.Outcome State Fault Refusal :=
  unlessDown s die <|
  match fltTarget s die v with
  | some (a, _) => .next (trap s a 0)
  | none => .next s

/-- FLT_CTX with OP 2 or 3 has no effect (R191). -/
def execFltCtxNop (_die : Nat) (_v : Word) (s : State) : Host.Outcome State Fault Refusal := .next s

/-! ### The event queue -/

/-- Registers of a package's event queue (R194). -/
def evqReg (s : State) (pkg off : Nat) : Word := rawReg s (ioDie pkg) (evqBlk + off)
def evqSize (s : State) (pkg : Nat) : Nat := wfld (evqReg s pkg 8) 0 21

/-- Is the queue full (R194)? One whose EN is clear, or whose SIZE leaves EN without effect, counts as full. -/
def evqFull (s : State) (pkg : Nat) : Bool :=
  !wbit (evqReg s pkg 0) 0 || evqSize s pkg < 16 || 2 ^ 20 < evqSize s pkg ||
    ((pkgAt s pkg).evqTail - (evqReg s pkg 0x10).setWidth 32).toNat == evqSize s pkg

/-- EVENT_BUFFER_SEND: the overflow buffer's oldest record goes to the event queue when it has room; TAIL shows it once it is
performed (R92, R194, R195). -/
def execEventBufferSend (die : Nat) (s : State) : Host.Outcome State Fault Refusal :=
  let d := dieAt s die
  let pkg := die / 16
  match d.buf with
  | [] => .next s
  | e :: r =>
    if evqFull s pkg then .next s
    else
      let p := pkgAt s pkg
      let base := wfld (evqReg s pkg 0) 6 46 * 64
      let s := portWrite s (ddr pkg (base + 64 * (p.evqTail.toNat % evqSize s pkg))) (bytesOf (e.words 0))
      .next (aplicUpdate (setPkg (setDie s die { d with buf := r }) pkg { p with evqTail := p.evqTail + 1 }) pkg)

/-- EVQ_HEAD_WRITE: the supervisor writes HEAD (R194). -/
def execEvqHeadWrite (pkg : Nat) (v : Word) (s : State) : Host.Outcome State Fault Refusal :=
  .next (aplicUpdate (storeReg s (ioDie pkg) (evqBlk + 0x10) v) pkg)

/-- EVO_STAT_CLR: CLR sets LOST to 0 and deasserts the sideband interrupt (R195). -/
def execEvoStatClr (die : Nat) (s : State) : Host.Outcome State Fault Refusal :=
  unlessDown s die <|
  .next (setDie s die { dieAt s die with lost := 0 })

end Sys2Proof.Machine
end

