-- ==== Sys2Proof/Machine/Preempt.lean ====
section
/-! DEFINITION. PARTW and CORE_ASID (R38, R39), pre-emption and suspension (R197 to R200, R376), migration (R201, R202). -/
namespace Sys2Proof.Machine

/-! ### PARTW and CORE_ASID -/

/-- The held rows of every suspend slot of a core are saved (R199). -/
def saveAllRows (s : State) (core : Nat) : State := (List.range 8).foldl (fun s j => saveRows s core j) s

/-- The register blocks that the frames of a core keep, written to their rows (R40). -/
def flushFrames (s : State) (core : Nat) : State :=
  let c := coreAt s core
  c.frameRegs.foldl (fun s e => saveBlock s (pool core (512 * (frameRow c e.1 + 32))) e.2 none) s

/-- A PARTW value takes effect: the rows that were frames hold their register blocks, every slot is thread-owned with count 0, named
regions are given up (R39, R40, R46, R149). -/
def applyPartw (s : State) (core : Nat) (v : Word) : State :=
  let s := flushFrames s core
  setCore s core
    { coreAt s core with partw := v, partwHeld := none, frames := [], frameRegs := [], slots := [], claimed := [] }

/-- PARTW_WRITE: ignored when it overflows the pool; held while the core holds an activation (R39; DESIGN CHOICE, log 32). -/
def execPartwWrite (core : Nat) (v : Word) (s : State) : Host.Outcome State Fault Refusal :=
  unlessDown s (dkOfCore core) <|
  if 512 < 128 * wfld v 0 2 + 16 * wfld v 2 6 then .next s
  else
    let s := saveAllRows s core
    if (actsOn s core).isEmpty then .next (applyPartw s core (v &&& 0xFF))
    else .next (setCore s core { coreAt s core with partwHeld := some (v &&& 0xFF) })

/-- PARTW_APPLY: a held value takes effect once the core holds no activation (R39). -/
def execPartwApply (core : Nat) (s : State) : Host.Outcome State Fault Refusal :=
  match (coreAt s core).partwHeld with
  | some v => if (actsOn s core).isEmpty then .next (applyPartw s core v) else .next s
  | none => .next s

/-- Arrivals that a core's firing or faulted entries hold. -/
def heldArrivals (c : Core) : Nat := c.wtt.foldl (fun n e => e.2.held.foldl (fun n m => n + m.amount) n) 0

/-- CORE_ASID_WRITE: suspend rows are saved; semaphores, HDRF entries, the shadow set and named regions are cleared, and every
waiting-task entry is disarmed, its held arrivals counted in WTT_OVF (R39, R149, R162, R199, R232, R292, R385). -/
def execCoreAsidWrite (core : Nat) (v : Word) (s : State) : Host.Outcome State Fault Refusal :=
  unlessDown s (dkOfCore core) <|
  let s := saveAllRows s core
  let c := coreAt s core
  .next (setCore s core { c with
    asid := v &&& 0x1FFFFF
    sems := []
    hdrf := []
    shadow := Core.reset.shadow
    ovf := c.ovf + BitVec.ofNat 32 (heldArrivals c)
    wtt := []
    claimed := [] })

/-! ### Pre-emption -/

/-- A request reaches an activation: one parked at a listed address, not on a fault, stops at once (R135, R196, R197). -/
def requestStop (s : State) (a : Act) : State :=
  let a := { a with preempt := some (a.preempt.getD s.now) }
  if isParked s a && !onFault a && a.txn.isNone then
    let (m, s) := yieldMask s a
    putAct s { a with stopped := m.isSome }
  else putAct s a

/-- PRE_CTL_REQ: pre-emption of hardware contexts is requested; ignored while CORE_PSAVE is 0 (R197). A context that holds no
activation takes no request. -/
def execPreCtlReq (core : Nat) (bits : BitVec 8) (s : State) : Host.Outcome State Fault Refusal :=
  unlessDown s (dkOfCore core) <|
  orHold s (.preempt core bits) <|
  if wfld (rawReg s (dkOfCore core) (coreBlk (numOfCore core) + 0x20)) 22 30 = 0 then .next s
  else .next ((List.range 8).foldl (fun s h =>
    match actAt s (core * 8 + h) with
    | some a => if bits.getLsbD h then
        requestStop (setCore s core { coreAt s core with req := (coreAt s core).req ||| BitVec.twoPow 8 h }) a
      else s
    | none => s) s)

/-- Has an activation no operation left in its slots, and none at its core (R186, R197)? -/
def slotsEmpty (s : State) (a : Act) : Bool :=
  a.closing.isEmpty && (coreAt s (coreOf a)).matQ.all (fun m => m.uid != a.uid) &&
    (flightsOf s a.uid).all fun f => f.pay == .prf ||
      (!f.slot && !f.stage.unsent && !f.pay.isAccess && f.pay != .command)

/-- The image of an activation written at a location: from its frame by a mask, or from its context area (R42, R196). -/
def imageTo (s : State) (a : Act) (base : Nat) (m : LiveMask) : State :=
  if resident a then saveContext s a base m else { s with mem := copyBytes s.mem base (areaOf s a.ctx) 65536 }

/-- A context and its frame are freed with nothing else changed. -/
def leaveCtx (s : State) (a : Act) : State :=
  let k := coreOf a
  let c := coreAt s k
  let c := { leaveFrame c a with req := c.req &&& ~~~(BitVec.twoPow 8 (ctxNum a.ctx)) }
  { setCore s k c with acts := mdel s.acts a.ctx }

/-- Pool rows that an activation holds: its tiles and its allocation. -/
def actRows (a : Act) : List Nat := a.tiles.flatMap (fun t => span (128 * t) 128) ++ allocRows a.alloc

/-- A free suspend slot, the lowest (DESIGN CHOICE, log 41). -/
def freeSusp (c : Core) : Option Nat := (List.range 8).find? fun j => (mfind c.susp j).isNone

/-- SUSPEND: a stopped activation with empty operation slots is written to a free suspend slot, which keeps its rows in place; its
context is freed and its cost leaves SUM (R197). One whose move has been accepted is not: it stays where it is until it is installed (R202). -/
def execSuspend (ctx : Nat) (s : State) : Host.Outcome State Fault Refusal :=
  unlessHeld s <|
  match actAt s ctx with
  | none => .next s
  | some a =>
    let core := coreOf a
    match freeSusp (coreAt s core) with
    | none => .next s
    | some j =>
      if !a.stopped || a.move.isSome || !slotsEmpty s a then .next s
      else
        let (m, s) := if resident a then yieldMask s a else (a.mask, s)
        let s := imageTo s a (psaveSlot s core j) m
        let s := subCost (leaveCtx s a) (clusOfCore core) a.task.cost
        let c := coreAt s core
        let held : Act := { a with wait := .run, preempt := none, stopped := false, frame := none, filling := false, mask := m }
        .next (setCore s core { c with susp := mset c.susp j ⟨held, c.partw, actRows a, [], []⟩ })

/-- PREEMPT_BOUND: 65 536 cycles after its request an idempotent activation that has not stopped is aborted, its task re-queued at
once (R198). -/
def execPreemptBound (ctx : Nat) (s : State) : Host.Outcome State Fault Refusal :=
  match actAt s ctx with
  | none => .next s
  | some a => match a.preempt with
    | none => .next s
    | some t =>
      if s.now < t + 65536 ∨ a.stopped ∨ a.cls.res ∨ a.txn.isSome then .next s
      else
        let e := mkEvent s (dieOf a) 0x10 (tHeader a.task) (BitVec.ofNat 64 (numOfCore (coreOf a)))
        .next (postEvent (abortAct s a none) (dieOf a) e)

/-! ### Resumption -/

/-- Is a suspended activation's resume refused (R200)? -/
def resumeRefused (c : Core) (x : Suspended) : Bool :=
  c.partw != x.partw || !wbit c.asid 20 || wfld c.asid 0 16 != x.act.task.asid || wfld c.asid 16 4 != x.act.task.gen

/-- ERR is set, the slot kept (R200). -/
def refuseResume (s : State) (core j : Nat) : State :=
  let c := coreAt s core
  setCore s core { c with preErr := true, res := c.res &&& ~~~(BitVec.twoPow 8 j) }

/-- PRE_CTL_RES: resumption of suspend slots is requested, or refused (R200). A slot that holds nothing takes no request. -/
def execPreCtlRes (core : Nat) (bits : BitVec 8) (s : State) : Host.Outcome State Fault Refusal :=
  unlessDown s (dkOfCore core) <|
  .next ((List.range 8).foldl (fun s j =>
    let c := coreAt s core
    match mfind c.susp j with
    | some x =>
      if !bits.getLsbD j then s
      else if resumeRefused c x then refuseResume s core j
      else setCore s core { c with res := c.res ||| BitVec.twoPow 8 j }
    | none => s) s)

/-- Are the rows that a slot saved free: no activation, other slot or named region holds them (R200)? -/
def rowsFree (s : State) (core : Nat) (x : Suspended) : Bool :=
  let c := coreAt s core
  x.savedTiles.all (fun t => !(heldTiles s core).contains t.1) &&
    (x.savedRows.all fun r => 128 * wfld c.partw 0 2 > r || !((heldScratch s core ++ regionRows (c.claimed.map fun k => k.2)).contains r))

/-- The saved rows of a slot and the state of its tiles are restored in place (R200, R376). -/
def restoreRows (s : State) (core j : Nat) (x : Suspended) : State :=
  let s := x.savedRows.foldl (fun s r =>
    { s with mem := copyBytes s.mem (pool core (512 * r)) (psaveSlot s core j + 65536 + 512 * r) 512 }) s
  let s := x.savedTiles.foldl (fun s t =>
    let b := psaveTile s core j t.1
    { s with mem := copyBytes (copyBytes (copyBytes s.mem (latch core t.1 0) b 16384) (incoming core t.1 0) (b + 0x4000) 16384)
                      (scaleLatch core t.1 0) (b + 0x8000) 1024 }) s
  let c := coreAt s core
  setCore s core { c with tiles := x.savedTiles.foldl (fun m t =>
    mset m t.1 (tileOfBytes (readBytes s.mem (psaveTile s core j t.1 + 0x8400) 6))) c.tiles }

/-- The context of a slot is loaded: into a free frame, else into the context area of its new hardware context (R42, R200). -/
def restoreContext (s : State) (core j ctx : Nat) (x : Suspended) : State :=
  let a := { x.act with ctx := ctx }
  match freeFrame (coreAt s core) with
  | some k =>
    let s := setCore s core (setFrame (coreAt s core) k (some (ctxNum ctx)))
    let (s, a) := loadContext s a (psaveSlot s core j) x.act.mask k
    putAct s a
  | none => putAct { s with mem := copyBytes s.mem (areaOf s ctx) (psaveSlot s core j) 65536 } a

/-- SUSPEND_RESUME: the rows of the slot are restored, its context loaded and its cost added to SUM (R200). PARTW and CORE_ASID are
judged again. -/
def execSuspendResume (core slot ctx : Nat) (s : State) : Host.Outcome State Fault Refusal :=
  let c := coreAt s core
  match mfind c.susp slot with
  | none => .next s
  | some x =>
    if !c.res.getLsbD slot ∨ 8 ≤ slot ∨ ctx / 8 != core ∨ (actAt s ctx).isSome then .next s
    else if resumeRefused c x then .next (refuseResume s core slot)
    else if !rowsFree s core x then .next s
    else
      let s := restoreContext (restoreRows s core slot x) core slot ctx x
      let s := addCost s (clusOfCore core) x.act.task.cost
      let c := coreAt s core
      .next (setCore s core { c with susp := mdel c.susp slot, res := c.res &&& ~~~(BitVec.twoPow 8 slot) })

/-- The activation of a suspend slot is terminated without being restored (R192, R200). -/
def discardSlot (s : State) (core j : Nat) (x : Suspended) : State :=
  let a := x.act
  let dk := dkOfCore core
  let s := abortGroups s dk (a.group.toList ++ a.closing)
  let s := gangLost s a
  let c := freeSlots (coreAt s core) (if x.rows.isEmpty then none else a.alloc)
  let s := setCore s core { c with susp := mdel c.susp j, res := c.res &&& ~~~(BitVec.twoPow 8 j) }
  postEvent s dk (mkEvent s dk 0x13 (BitVec.ofNat 64 (pcOf a % 2 ^ 57)) 0)

/-- PRE_CTL_DISC: the activations of suspend slots are discarded (R200); the DISC bits clear at once, when this is done. -/
def execPreCtlDisc (core : Nat) (bits : BitVec 8) (s : State) : Host.Outcome State Fault Refusal :=
  unlessDown s (dkOfCore core) <|
  .next ((List.range 8).foldl (fun s j =>
    match mfind (coreAt s core).susp j with
    | some x => if bits.getLsbD j then discardSlot s core j x else s
    | none => s) s)

/-! ### Migration -/

/-- The core that a MIG_CMD value names. -/
def migTarget (core : Nat) (v : Word) : Nat := coreKey (pkgOfCore core) (wfld v 24 3) (wfld v 20 4 * 16 + wfld v 16 4)

/-- The wait that R201 admits: parked on a global reply or on a fault (DEDUCED, log 27). -/
def mayMove : Wait → Bool
  | .flights _ p => p
  | .fault .. => true
  | _ => false

/-- Does a core accept a move of an activation (R201)? -/
def moveOk (s : State) (a : Act) (toCore : Nat) : Bool :=
  let core := coreOf a
  let mode := (pkgAt s (pkgOfCore core)).partMode
  mayMove a.wait && isParkedNow s a && a.tiles.isEmpty && a.alloc.isNone && a.group.isNone && a.closing.isEmpty &&
    a.txn.isNone && partOf mode (dieOfCore core) == partOf mode (dieOfCore toCore) && (coreAt s core).asid == (coreAt s toCore).asid &&
    (freeCtx s toCore).isSome && regionsOk s toCore (tClass a.task) a.cls
where
  /-- Is its event still to come, or is it on a fault? -/
  isParkedNow (s : State) (a : Act) : Bool := onFault a || !waitOver s a

/-- MIG_CMD: a move is queued, or refused, counted and posted (R201). A context that holds no activation is refused too. -/
def execMigCmd (core : Nat) (v : Word) (s : State) : Host.Outcome State Fault Refusal :=
  unlessDown s (dkOfCore core) <|
  let toCore := migTarget core v
  let dk := dkOfCore core
  let refuse : State :=
    let c := coreAt s core
    postEvent (setCore s core { c with refused := c.refused + 1 }) dk
      (mkEvent s dk 0x12 (BitVec.ofNat 64 (numOfCore core * 8 + wfld v 0 3)) (v &&& 0x7FFFFFF))
  match actAt s (core * 8 + wfld v 0 3) with
  | none => .next refuse
  | some a => if moveOk s a toCore then .next (putAct s { a with move := some toCore }) else .next refuse

/-- Does an accepted move wait no longer (R202): only plain loads are outstanding, and, on a fault, its replay list? A release of the fault that
comes first does not stop the move. -/
def moveReady (s : State) (a : Act) : Bool :=
  (mayMove a.wait || onFault a) && (flightsOf s a.uid).all fun f => (onFault a && f.stage.unsent) || f.pay == .load || f.pay == .fetch || f.pay == .prf

/-- MIGRATION_SEND: the register-context message leaves, and the core keeps a forwarding entry for 4096 cycles (R202). The context
stays in the old core's context area until the message is installed. -/
def execMigrationSend (ctx : Nat) (s : State) : Host.Outcome State Fault Refusal :=
  match actAt s ctx with
  | none => .next s
  | some a => match a.move with
    | none => .next s
    | some toCore =>
      if !moveReady s a ∨ a.filling then .next s
      else
        let core := coreOf a
        let s := if a.frame.isSome then saveContext s a (areaOf s ctx) none else s
        let c := coreAt s core
        let c := { leaveFrame c a with forwards := c.forwards ++ [⟨a.uid, s.now + 4096⟩] }
        let mask := if a.frame.isSome then none else a.mask
        let s := putAct (setCore s core c) { a with frame := none, filling := true, mask := mask }
        .next (sendMsg s (dkOfCore core) (.migrate a.uid toCore))

/-- The unsent operations of an activation as requests of its new core. -/
def moveUnsent (s : State) (a : Act) : State :=
  { s with flights := s.flights.map fun f =>
      if f.uid = a.uid && f.stage.unsent then
        { f with req := { f.req with src := srcOf a }, gang := if f.isLocal then some (coreOf a) else f.gang }
      else f }

/-- MIGRATION_INSTALL: the target installs the activation as parked in a free hardware context; its cost moves to the new cluster
(R202). A pending pre-emption request of its old context ends with the move (DESIGN CHOICE, log 74). -/
def execMigrationInstall (id : Nat) (s : State) : Host.Outcome State Fault Refusal :=
  match flightById s id with
  | none => .next s
  | some f => match f.pay with
    | .migrate uid toCore =>
      match actByUid s uid, freeCtx s toCore with
      | none, _ => .next (dropFlight s id)
      | _, none => .next s
      | some a, some h =>
        let old := coreOf a
        let ctx := toCore * 8 + h
        let s := { dropFlight s id with mem := copyBytes s.mem (areaOf s ctx) (areaOf s a.ctx) 65536 }
        let co := coreAt s old
        let s := leaveCtx (setCore s old { co with moved := co.moved + 1 }) a
        let b : Act := { a with ctx := ctx, filling := false, move := none, preempt := none, stopped := false }
        let ct := coreAt s toCore
        let named := a.cls.regions.map fun r => (tClass a.task, r.1, r.2)
        let s := setCore s toCore { ct with claimed := ct.claimed ++ named.filter fun k => !ct.claimed.contains k }
        let s := addCost (subCost (putAct s b) (clusOfCore old) a.task.cost) (clusOfCore toCore) a.task.cost
        .next (settle (moveUnsent s b) b.uid)
    | _ => .next s

/-- FORWARD_EXPIRE: forwarding entries of a core expire after 4096 cycles (R202). -/
def execForwardExpire (core : Nat) (s : State) : Host.Outcome State Fault Refusal :=
  let c := coreAt s core
  .next (setCore s core { c with forwards := c.forwards.filter fun w => s.now ≤ w.till })

/-- A load of an activation whose reply was lost takes a fault of kind 0x18: a resumable one replays it at once, an idempotent one is
aborted and its task released at once (R202), or terminated after a commit point when its task has BIM set (R153). -/
def replyLost (s : State) (a : Act) (f : Flight) : State :=
  let dk := srcDie f
  let (r, s) := raiseFault s dk (curReq f) 0x18 0 f.req.va 0
  let s := postEvent s dk (withRec (mkEvent s dk 0x11 0 0) r)
  if a.cls.res || a.txn.isSome then
    let s := parkOnFault s a f f.req.va
    match actByUid s a.uid with
    | some b => (match b.wait with
      | .fault va _ => settle (putAct s { b with wait := .fault va true }) b.uid
      | _ => s)
    | none => s
  else if tBim a.task && a.committed then trapAt (replayRefused (dropFlight s f.id) a) a f.pc 0
  else abortAct (dropFlight s f.id) a none

/-- REPLY_DROPPED: a reply that reaches the old core after its forwarding entry expired is dropped and counted in DROP (R202). -/
def execReplyDropped (id : Nat) (s : State) : Host.Outcome State Fault Refusal :=
  match flightById s id with
  | none => .next s
  | some f => match f.stage with
    | .reply _ =>
      match actByUid s f.uid with
      | none => .next s
      | some a =>
        if f.pay == .fetch || reachesAct s a f then .next s
        else
          let core := flightCore f
          let c := coreAt s core
          .next (replyLost (setCore s core { c with dropped := c.dropped + 1 }) a f)
    | _ => .next s

end Sys2Proof.Machine
end

