-- ==== Sys2Proof/Machine/Demote.lean ====
section
/-! DEFINITION. Demotion engines (R60, R61) and the completion of invalidations (R34), which they wait for. An engine's key is
its die's, or package * 16 + 9 for the CXL engine of the I/O die. -/
namespace Sys2Proof.Machine

/-- Die of an engine, and a register of its block (R60, R404). -/
def demDie (eng : Nat) : Nat := if eng % 16 = 9 then eng - 1 else eng
def demOff (eng off : Nat) : Nat := (if eng % 16 = 9 then 0x021000 else demBlk) + off
def demReg (s : State) (eng off : Nat) : Word := rawReg s (demDie eng) (demOff eng off)

/-- Capacity of a free ring, and the place of its i-th position. -/
def ringSize (s : State) (eng : Nat) : Nat := wfld (demReg s eng 0x28) 0 24
def ringPlace (s : State) (eng i : Nat) : Nat :=
  local_ (demDie eng) (wfld (demReg s eng 0x20) 3 49 * 8 + 8 * (i % ringSize s eng))

/-- Pops a frame of a free ring, if it has one (R60): the one pushed first, from a head that no register shows (DESIGN CHOICE, log 56). -/
def takeFrame (s : State) (eng : Nat) : Option Word × State :=
  let d := demAt s eng
  if d.count = 0 ∨ ringSize s eng = 0 then (none, s)
  else
    let (bs, s) := portRead s (ringPlace s eng d.head) 8
    (some (BitVec.ofNat 64 (ofBytes bs)), setDem s eng { d with head := (d.head + 1) % ringSize s eng, count := d.count - 1 })

/-- One more push discarded: LOST holds 16 bits, and the count past them is a free value (DESIGN CHOICE, log 3). -/
def lostMore (s : State) (eng : Nat) : State :=
  let w := demReg s eng 0x48
  let n := wfld w 16 16
  let v := if n < 65535 then n + 1 else wfld (Config.freeWord (s.fresh + 1)) 0 16
  setRaw { s with fresh := if n < 65535 then s.fresh else s.fresh + 1 } (demDie eng) (demOff eng 0x48) (putFld w 16 16 v)

/-- Pushes a frame behind the others, or discards it when the ring is full (R60; DESIGN CHOICE, log 56). -/
def putFrame (s : State) (eng : Nat) (frame : Word) : State :=
  let d := demAt s eng
  if ringSize s eng ≤ d.count then lostMore s eng
  else setDem (portWrite s (ringPlace s eng (d.head + d.count)) (toBytes 8 frame.toNat)) eng { d with count := d.count + 1 }

/-- FR_TAKE: a service core's read pops one frame, or returns all ones (R60). -/
def execFrTake (eng : Nat) (s : State) : Host.Outcome State Fault Refusal :=
  unlessDown s (demDie eng) <|
  match takeFrame s eng with
  | (some f, s) => .next { s with hostRead := f }
  | (none, s) => .next { s with hostRead := BitVec.allOnes 64 }

/-- FR_PUT: a write pushes one frame (R60). -/
def execFrPut (eng : Nat) (frame : Word) (s : State) : Host.Outcome State Fault Refusal :=
  unlessDown s (demDie eng) <|
  .next (putFrame s eng frame)

/-! ### Candidates -/

/-- The place of candidate i, and its words 0 to 2 (R60). -/
def candPlace (s : State) (eng i : Nat) : Nat := local_ (demDie eng) (wfld (demReg s eng 0x10) 5 47 * 32 + 32 * i)

/-- A candidate as its engine reads it. -/
structure Cand where
  w0 : Word
  w1 : Word
  va : Nat
  unit : Nat               -- die key of the translation unit
  loc : Nat                -- location of the leaf

/-- Candidate i, its leaf in the HBM of the die that DIE names (R18). -/
def candAt (s : State) (eng i : Nat) : Cand × State :=
  let (bs, s) := portRead s (candPlace s eng i) 24
  let w := wordsOf 3 bs
  let unit := dieKey (eng / 16) (wfld (nth w 1) 16 3)
  (⟨nth w 0, nth w 1, wfld (nth w 2) 16 41 * 65536, unit, hbm unit (wfld (nth w 0) 0 52)⟩, s)

/-- Writes AGE of a candidate. -/
def putAge (s : State) (eng i : Nat) (c : Cand) (age : Nat) : State :=
  portWrite s (candPlace s eng i) (toBytes 8 (putFld c.w0 60 4 age).toNat)

def putW1 (s : State) (eng i : Nat) (w : Word) : State := portWrite s (candPlace s eng i + 8) (toBytes 8 w.toNat)
def readLeafAt (s : State) (loc : Nat) : Word × State :=
  let (bs, s) := portRead s loc 8
  (BitVec.ofNat 64 (ofBytes bs), s)
def writeLeafAt (s : State) (loc : Nat) (e : Word) : State := portWrite s loc (toBytes 8 e.toNat)

/-- Does a leaf of die `unit` map a page of the engine's own tier (R61)? HBM of a die is the tier of that die's engine. -/
def ownTier (eng unit : Nat) (e : Word) : Bool :=
  if eng % 16 < 8 then leafAPER e = 0 && unit = eng
  else if eng % 16 = 8 then leafAPER e = 2
  else leafAPER e = 3

/-- The engine of the next tier and its aperture: HBM, DDR, CXL memory (R61). -/
def nextTier (eng : Nat) : Option (Nat × Nat) :=
  if eng % 16 < 8 then some (eng / 16 * 16 + 8, 2) else if eng % 16 = 8 then some (eng + 1, 3) else none

/-- AGE0, AGE1, AGE2 (R60). -/
def ageLimit (s : State) (eng tier : Nat) : Nat := wfld (demReg s eng 0) (2 + 4 * tier) 4

/-- The engine's own PAGE command, with its own address (R61). -/
def demInvalidate (s : State) (eng : Nat) (c : Cand) : State := queueInv s c.unit ⟨1, wfld c.w1 0 16, c.va, none, some eng⟩

/-- An event of a candidate (R61): word 5 its VA with the ASID, word 6 the address of its leaf. -/
def candEvent (s : State) (eng kind : Nat) (c : Cand) : State :=
  postEvent s (demDie eng) (mkEvent s (demDie eng) kind (BitVec.ofNat 64 (c.va + wfld c.w1 0 16)) (BitVec.ofNat 64 (wfld c.w0 0 52)))

/-- The round goes on behind a candidate. -/
def demNext (s : State) (eng i : Nat) : State := setDem s eng { demAt s eng with next := i + 1, stage := 0 }

/-- DemoteStep of R61 for candidate i, up to its first wait (DEDUCED, log 28). -/
def demoteVisit (s : State) (eng i : Nat) : State :=
  let (c, s) := candAt s eng i
  if 16 ≤ (mtuAt s c.unit).queue.length then s
  else
    let (e, s) := readLeafAt s c.loc
    let age := min 15 (wfld c.w0 60 4 + 1)
    if !leafV e || !leafL e || leafSZ e != 0 || !ownTier eng c.unit e || wbit c.w1 26 then demNext s eng i
    else if leafAC e then
      let s := demInvalidate (writeLeafAt s c.loc (putBit e 8 false)) eng c
      setDem s eng { demAt s eng with stage := 1, cand := i }
    else if leafTIER e = 3 then demNext s eng i
    else
      let s := putAge s eng i c age
      if age < ageLimit s eng (leafTIER e) then demNext s eng i
      else match (nextTier eng).map fun n => takeFrame s n.1 with
        | some (some f, s) =>
          let s := demInvalidate (writeLeafAt s c.loc (e &&& ~~~(0x38 : Word))) eng c
          setDem s eng { demAt s eng with stage := 2, cand := i, frame := f, leaf := e }
        | _ =>
          let s := candEvent s eng 0x03 c
          setDem s eng { demAt s eng with running := false, next := i }

/-- DEMOTE_STEP: an enabled engine below its low watermark, and until HIGH is reached, visits one candidate (R61). It waits while
an invalidation or a copy of its own is outstanding, or while the unit's command queue is full. -/
def execDemoteStep (eng : Nat) (s : State) : Host.Outcome State Fault Refusal :=
  unlessDown s (demDie eng) <|
  let d := demAt s eng
  let low := wfld (demReg s eng 8) 0 32
  let high := wfld (demReg s eng 8) 32 32
  let n := wfld (demReg s eng 0x18) 0 24
  let run := (d.running || d.count < low) && d.count < high
  if !wbit (demReg s eng 0) 0 ∨ d.stage != 0 ∨ n = 0 then .next s
  else if !run then .next (setDem s eng { d with running := false })
  else .next (demoteVisit (setDem s eng { d with running := true }) eng (d.next % n))

/-- DEMOTE_COPY_DONE: the page copy completes; the leaf is rewritten to the lower tier and invalidated (R61). -/
def execDemoteCopyDone (eng : Nat) (s : State) : Host.Outcome State Fault Refusal :=
  unlessDown s (demDie eng) <|
  let d := demAt s eng
  let (c, s1) := candAt s eng d.cand
  match nextTier eng with
  | none => .next s
  | some (_, aper) =>
    if d.stage != 3 ∨ 16 ≤ (mtuAt s c.unit).queue.length then .next s
    else
      let n := putFld (putFld d.leaf 9 3 aper) 17 36 d.frame.toNat
      let (bs, s) := portRead s1 (leafLoc c.unit d.leaf 0) 65536
      let s := portWrite s (leafLoc c.unit n 0) bs
      let trap := wbit (demReg s eng 0) 1
      let savep := 16 * (leafRD d.leaf).toNat + 8 * (leafWR d.leaf).toNat + 4 * (leafAT d.leaf).toNat +
        2 * (leafRAP d.leaf).toNat + (leafXC d.leaf).toNat
      let s := if trap then putW1 s eng d.cand (putFld c.w1 21 5 savep) else s
      let n := if trap then n &&& ~~~(0x7C : Word) else n
      let s := demInvalidate (writeLeafAt s c.loc n) eng c
      .next (setDem s eng { demAt s eng with stage := 4 })

/-- The command that an engine waits for completes: after clearing AC, AGE is 0; before the copy, the copy is due; after the new
leaf, the old frame is freed, DEM set and the page's event posted (R61). -/
def demInvDone (s : State) (eng : Nat) : State :=
  let d := demAt s eng
  let (c, s) := candAt s eng d.cand
  if d.stage = 1 then demNext (putAge s eng d.cand c 0) eng d.cand
  else if d.stage = 2 then setDem s eng { d with stage := 3 }
  else if d.stage = 4 then
    let s := putFrame s eng (BitVec.ofNat 64 (leafFRAME d.leaf))
    let s := candEvent (putW1 s eng d.cand (putBit c.w1 26 true)) eng 0x02 c
    let d := demAt s eng
    setDem s eng { d with stage := 0, next := d.cand + 1, done := d.done + 1 }
  else s

/-- INV_COMMAND_COMPLETE: the oldest command completes once every request translated with an entry it removes is performed;
walks in progress are made afresh when they return (R34). A demotion engine that waits for it goes on (R61). -/
def execInvCommandComplete (dk : Nat) (s : State) : Host.Outcome State Fault Refusal :=
  unlessDown s dk <|
  let m := mtuAt s dk
  match m.queue with
  | [] => .next s
  | c :: rest =>
    if s.flights.any (invHolds c dk) then .next s
    else
      let s := setMtu s dk { invApply m c with queue := rest, done := m.done + 1 }
      let s := match c.bcast with
        | some n => bcastDone s (dk / 16) n
        | none => s
      .next (match c.dem with
        | some eng => demInvDone s eng
        | none => s)

end Sys2Proof.Machine
end

