-- ==== Sys2Proof/Machine/Shake.lean ====
section
/-! DEFINITION. SHAKE256 (FIPS 202) and the signatures of SLH-DSA-SHAKE-256s (FIPS 205), which R408 and R409 name. The two standards are
outside the spec (PRESUMED, log 20). -/
namespace Sys2Proof.Machine

/-! ### SHAKE256 -/

/-- Keccak's state: 25 lanes, row by row. -/
abbrev Lanes := List (BitVec 64)

/-- The five rows of a state. -/
def planes (a : Lanes) : List Lanes := (List.range 5).map fun y => (a.drop (5 * y)).take 5

/-- A row turned so that its lane n comes first. -/
def turned (n : Nat) (row : Lanes) : Lanes := row.drop n ++ row.take n

def xorRow (p q : Lanes) : Lanes := List.zipWith (· ^^^ ·) p q

/-- θ: each lane takes in the parities of the column before it and, turned by one bit, of the one after it. -/
def mixColumns (a : Lanes) : Lanes :=
  let parity := (planes a).foldl xorRow (List.replicate 5 0)
  let m := xorRow (turned 4 parity) ((turned 1 parity).map fun w => w.rotateLeft 1)
  (planes a).flatMap (xorRow m)

/-- ρ and π: 24 lanes move along one cycle, from (x, y) to (y, 2 x + 3 y), beginning at (1, 0); move number n turns its lane by the n-th triangular
number. The first argument counts the moves still to make. -/
def moveLanes (a : Lanes) : Nat → Nat → Nat → Lanes → Lanes
  | 0, _, _, b => b
  | left + 1, x, y, b =>
    let n := 24 - left
    let y' := (2 * x + 3 * y) % 5
    moveLanes a left y y' (b.set (y + 5 * y') ((a.getD (x + 5 * y) 0).rotateLeft (n * (n + 1) / 2)))

/-- χ: each lane of a row against its two followers. -/
def mixRows (a : Lanes) : Lanes :=
  (planes a).flatMap fun row => xorRow row (List.zipWith (fun p q => q &&& ~~~p) (turned 1 row) (turned 2 row))

/-- The shift register behind ι, of the polynomial x^8 + x^6 + x^5 + x^4 + 1. -/
def iotaShift (r : BitVec 9) : BitVec 9 := if r.getLsbD 7 then (r <<< 1) ^^^ 0x171 else r <<< 1

/-- Bits of a round's constant that are still to come, at places 2^j − 1: the constant and the register. -/
def iotaBits : Nat → Nat → BitVec 9 → BitVec 64 × BitVec 9
  | 0, _, r => (0, r)
  | n + 1, j, r =>
    let q := iotaBits n (j + 1) (iotaShift r)
    (if r.getLsbD 0 then q.1 ||| BitVec.twoPow 64 (2 ^ j - 1) else q.1, q.2)

/-- Rounds still to make. -/
def keccakFrom : Nat → BitVec 9 → Lanes → Lanes
  | 0, _, a => a
  | n + 1, r, a =>
    let t := mixColumns a
    let c := iotaBits 7 0 r
    keccakFrom n c.2 (match mixRows (moveLanes t 24 1 0 t) with
      | [] => []
      | w :: ws => (w ^^^ c.1) :: ws)

/-- The permutation of 24 rounds. -/
def keccak (a : Lanes) : Lanes := keccakFrom 24 1 a

/-- Bytes of a block of SHAKE256. -/
def shakeRate : Nat := 136

/-- A block taken into the state. -/
def absorbBlock (a : Lanes) (bs : List Byte) : Lanes :=
  keccak ((a.zip (wordsOf 17 bs ++ List.replicate 8 0)).map fun p => p.1 ^^^ p.2)

def absorb : Nat → List Byte → Lanes → Lanes
  | 0, _, a => a
  | n + 1, bs, a => absorb n (bs.drop shakeRate) (absorbBlock a (bs.take shakeRate))

/-- Output blocks, one permutation between two of them. -/
def squeeze : Nat → Lanes → List Byte
  | 0, _ => []
  | n + 1, a => bytesOf (a.take 17) ++ squeeze n (keccak a)

/-- The message with SHAKE's suffix and padding: whole blocks. -/
def shakePad (m : List Byte) : List Byte :=
  let z := shakeRate - 1 - m.length % shakeRate
  if z = 0 then m ++ [0x9F] else m ++ [0x1F] ++ List.replicate (z - 1) 0 ++ [0x80]

/-- SHAKE256 of a message: n bytes. -/
@[irreducible] def shake256 (m : List Byte) (n : Nat) : List Byte :=
  let p := shakePad m
  (squeeze (n / shakeRate + 1) (absorb (p.length / shakeRate) p (List.replicate 25 0))).take n

/-- The hash of R408: SHAKE256 with 512-bit output, as a number of the digest's bytes. -/
def shake512 (m : List Byte) : BitVec 512 := BitVec.ofNat 512 (ofBytes (shake256 m 64))

/-! ### SLH-DSA -/

/-- The sizes of a parameter set beside the hash of 32 bytes and the Winternitz parameter 16: layers, height of a tree, height and number of
the FORS trees. -/
structure SlhSizes where
  d : Nat
  hp : Nat
  a : Nat
  k : Nat
  deriving DecidableEq, Repr

/-- SLH-DSA-SHAKE-256s: signatures of 29 792 bytes. -/
def slh256s : SlhSizes := ⟨8, 8, 14, 22⟩

/-- An address: layer, tree, type, key pair, chain or tree height, hash or tree index. -/
structure SlhAdrs where
  layer : Nat
  tree : Nat
  type : Nat
  pair : Nat
  hi : Nat
  idx : Nat
  deriving DecidableEq, Repr

/-- n bytes of a number, the most significant first. -/
def toBytesBE (n v : Nat) : List Byte := (toBytes n v).reverse
def ofBytesBE (bs : List Byte) : Nat := ofBytes bs.reverse

def SlhAdrs.bytes (x : SlhAdrs) : List Byte :=
  toBytesBE 4 x.layer ++ toBytesBE 12 x.tree ++ toBytesBE 4 x.type ++ toBytesBE 4 x.pair ++ toBytesBE 4 x.hi ++ toBytesBE 4 x.idx

/-- F, H and T of the standard: the hash of public seed, address and message. -/
def slhHash (pk : List Byte) (x : SlhAdrs) (m : List Byte) : List Byte := shake256 (pk ++ x.bytes ++ m) 32

/-- Digits of 2^b of a byte string. -/
def digits (bs : List Byte) (b n : Nat) : List Nat :=
  (List.range n).map fun i => ofBytesBE bs / 2 ^ (8 * bs.length - b * (i + 1)) % 2 ^ b

/-- A chain of n hashes from position i. -/
def slhChain (pk : List Byte) (x : SlhAdrs) : Nat → Nat → List Byte → List Byte
  | 0, _, m => m
  | n + 1, i, m => slhChain pk x n (i + 1) (slhHash pk { x with idx := i } m)

/-- The secret value of chain i of a key pair. -/
def wotsSecret (sk pk : List Byte) (x : SlhAdrs) (i : Nat) : List Byte :=
  slhHash pk { x with type := 5, hi := i, idx := 0 } sk

/-- The public key of a key pair (WOTS+). -/
def wotsPk (sk pk : List Byte) (x : SlhAdrs) : List Byte :=
  slhHash pk { x with type := 1, hi := 0, idx := 0 }
    ((List.range 67).flatMap fun i => slhChain pk { x with type := 0, hi := i } 15 0 (wotsSecret sk pk x i))

/-- A message of 32 bytes signed by a key pair (WOTS+): 64 digits and three of their checksum. -/
def wotsSign (sk pk : List Byte) (x : SlhAdrs) (m : List Byte) : List Byte :=
  let ds := digits m 4 64
  let sum := ds.foldl (fun n d => n + (15 - d)) 0
  ((List.range 67).zip (ds ++ digits (toBytesBE 2 (16 * sum)) 4 3)).flatMap fun p =>
    slhChain pk { x with type := 0, hi := p.1 } p.2 0 (wotsSecret sk pk x p.1)

/-- Node i at a height of a tree of key pairs. -/
def xmssNode (sk pk : List Byte) (x : SlhAdrs) : Nat → Nat → List Byte
  | 0, i => wotsPk sk pk { x with pair := i }
  | z + 1, i => slhHash pk { x with type := 2, pair := 0, hi := z + 1, idx := i }
      (xmssNode sk pk x z (2 * i) ++ xmssNode sk pk x z (2 * i + 1))

/-- A message signed by leaf i of a tree, with its authentication path. -/
def xmssSign (p : SlhSizes) (sk pk : List Byte) (x : SlhAdrs) (i : Nat) (m : List Byte) : List Byte :=
  wotsSign sk pk { x with pair := i } m ++ (List.range p.hp).flatMap fun j => xmssNode sk pk x j ((i / 2 ^ j) ^^^ 1)

/-- The signatures of the layers from one upward: each layer signs the root below it. -/
def hyperSign (p : SlhSizes) (sk pk : List Byte) : Nat → Nat → Nat → Nat → List Byte → List Byte
  | 0, _, _, _, _ => []
  | n + 1, layer, tree, leaf, m =>
    let x : SlhAdrs := ⟨layer, tree, 0, 0, 0, 0⟩
    xmssSign p sk pk x leaf m ++
      hyperSign p sk pk n (layer + 1) (tree / 2 ^ p.hp) (tree % 2 ^ p.hp) (if n = 0 then [] else xmssNode sk pk x p.hp 0)

/-- The secret value of a FORS leaf, and a node of the FORS trees. -/
def forsSecret (sk pk : List Byte) (x : SlhAdrs) (i : Nat) : List Byte := slhHash pk { x with type := 6, hi := 0, idx := i } sk

def forsNode (sk pk : List Byte) (x : SlhAdrs) : Nat → Nat → List Byte
  | 0, i => slhHash pk { x with type := 3, hi := 0, idx := i } (forsSecret sk pk x i)
  | z + 1, i => slhHash pk { x with type := 3, hi := z + 1, idx := i } (forsNode sk pk x z (2 * i) ++ forsNode sk pk x z (2 * i + 1))

/-- A digest signed by the FORS trees. -/
def forsSign (p : SlhSizes) (sk pk : List Byte) (x : SlhAdrs) (md : List Byte) : List Byte :=
  ((List.range p.k).zip (digits md p.a p.k)).flatMap fun q =>
    forsSecret sk pk x (q.1 * 2 ^ p.a + q.2) ++
      (List.range p.a).flatMap fun j => forsNode sk pk x j (q.1 * 2 ^ (p.a - j) + ((q.2 / 2 ^ j) ^^^ 1))

def forsPk (p : SlhSizes) (sk pk : List Byte) (x : SlhAdrs) : List Byte :=
  slhHash pk { x with type := 4, hi := 0, idx := 0 } ((List.range p.k).flatMap fun i => forsNode sk pk x p.a i)

/-- A key pair: secret seed, secret for the message hash, public seed and root, 32 bytes each. -/
structure SlhKey where
  sk : List Byte
  prf : List Byte
  pk : List Byte
  root : List Byte
  deriving DecidableEq, Repr

/-- The key pair of three seeds. -/
def slhKeyOf (p : SlhSizes) (sk prf pk : List Byte) : SlhKey := ⟨sk, prf, pk, xmssNode sk pk ⟨p.d - 1, 0, 0, 0, 0, 0⟩ p.hp 0⟩

/-- The signature of a message, with an empty context and the 32 random bytes given. -/
def slhSign (p : SlhSizes) (key : SlhKey) (rand m : List Byte) : List Byte :=
  let m : List Byte := [0, 0] ++ m
  let r := shake256 (key.prf ++ rand ++ m) 32
  let n1 := (p.k * p.a + 7) / 8
  let n2 := (p.hp * p.d - p.hp + 7) / 8
  let n3 := (p.hp + 7) / 8
  let dg := shake256 (r ++ key.pk ++ key.root ++ m) (n1 + n2 + n3)
  let tree := ofBytesBE ((dg.drop n1).take n2) % 2 ^ (p.hp * p.d - p.hp)
  let leaf := ofBytesBE (dg.drop (n1 + n2)) % 2 ^ p.hp
  let x : SlhAdrs := ⟨0, tree, 3, leaf, 0, 0⟩
  r ++ forsSign p key.sk key.pk x (dg.take n1) ++ hyperSign p key.sk key.pk p.d 0 tree leaf (forsPk p key.sk key.pk x)

/-- The device identity key of a fused seed: the three seeds of the key pair are 96 bytes of SHAKE256 of the seed (R409; DEDUCED, log 20). -/
def identityKey (seed : BitVec 256) : SlhKey :=
  let b := shake256 (toBytes 32 seed.toNat) 96
  slhKeyOf slh256s (b.take 32) ((b.drop 32).take 32) (b.drop 64)

end Sys2Proof.Machine
end

