-- ==== Sys2Proof/Machine/System.lean ====
section
/-! DEFINITION. Device registers without behaviour of their own (R4, R5, R404), exception-statistics windows (R226), partitions
(R406, R407), boot and attestation (R408, R409), power (R410), health, Patina and errors (R411, R412), resets, and the training
of PCIe links (R419). -/
namespace Sys2Proof.Machine

/-! ### Registers -/

/-- Registers whose writes are steps of their own, by offset in the die's block; STR_CTL only when the write sets V (R165). -/
def ownStep (io : Bool) (off : Nat) (v : Word) : Bool :=
  if io then
    (strBlk ≤ off && off < strBlk + 0x2000 && (off - strBlk) % 0x20 == 0 && wbit v 63) || off == evqBlk + 0x10 ||
      off == sysBlk || off == sysBlk + 8 ||
      (0x0E0000 ≤ off && off < 0x100000 && 0x1000 ≤ off % 0x10000 && off % 0x10000 < 0x2800 && off % 0x20 == 0x10)
  else
    (0x030000 ≤ off && off < 0x033000 && 0x100 ≤ off % 0x1000) || off == osqBlk || off == osqBlk + 8 || off == rlfBlk + 8 ||
      off == tkBlk || off == collBlk 0 + 8 || off == collBlk 1 + 8 ||
      (0x100000 ≤ off && (off % 0x1000 < 0x10 || 0x100 ≤ off % 0x1000))

/-- PRE_STAT.ERR of a core, written 1, clears (R200). -/
def clearPreErr (s : State) (dk off : Nat) (v : Word) : State :=
  if dk % 16 < 8 ∧ 0x100000 ≤ off ∧ off < 0x200000 ∧ off % 0x1000 = 0x30 ∧ wbit v 24 then
    let core := coreKey (dk / 16) (dk % 16) ((off - 0x100000) / 0x1000)
    setCore s core { coreAt s core with preErr := false }
  else s

/-- OVF of the broadcast block, written 1, clears at the units that it reflects (R32; DEDUCED, log 26). -/
def clearBcastOvf (s : State) (dk off : Nat) (v : Word) : State :=
  if dk % 16 = 8 ∧ off = bcastBlk + 0x18 ∧ wbit v 0 then
    (computeDies (dk / 16)).foldl (fun s d => setRaw s d (mtuBlk + 0x18) (rawReg s d (mtuBlk + 0x18) &&& ~~~1)) s
  else s

/-! ### Exception statistics -/

/-- XS_WINDOW_END: the cycle count divided by WINDOW, rounded down, has changed; CNT is 0 (R226). -/
def execXsWindowEnd (core k : Nat) (s : State) : Host.Outcome State Fault Refusal :=
  let c := coreAt s core
  if xsWindow s core k = 0 ∨ mget c.xsWin k 0 = xsNow s core k then .next s
  else .next (setCore s core { c with
    xsCnt := mset c.xsCnt k 0, xsWin := mset c.xsWin k (xsNow s core k), xsDone := mset c.xsDone k false })

/-- XS_CFG_WRITE: a write to XS_CFGk also sets CNT to 0 (R226). One action at most is taken in a window: it stays taken when WINDOW
keeps its value (R227). -/
def execXsCfgWrite (core k : Nat) (v : Word) (s : State) : Host.Outcome State Fault Refusal :=
  unlessDown s (dkOfCore core) <|
  if 7 ≤ k then .next s
  else
    let kept := xsTaken s core k && xsWindow s core k == wfld v 32 32
    let s := storeReg s (dkOfCore core) (coreBlk (numOfCore core) + 0x100 + 8 * k) v
    let c := coreAt s core
    .next (setCore s core { c with
      xsCnt := mset c.xsCnt k 0, xsWin := mset c.xsWin k (xsNow s core k), xsDone := mset c.xsDone k kept })

/-! ### Partitions -/

/-- Bit d: the dies that share die d's partition differ between two modes (R406). -/
def affectedDies (old new : Nat) : Nat :=
  let peers (mode d : Nat) : List Nat := (List.range 8).filter fun e => partOf mode e == partOf mode d
  ((List.range 8).filter fun d => peers old d != peers new d).foldl (fun n d => n + 2 ^ d) 0

/-- PART_MODE_WRITE: DIE clears when written 1; a new mode sets PEND and AFF, fences the affected dies and raises the drain
interrupt; a write while PEND is set, or of the mode in force, asks nothing (R406, R407). -/
def execPartModeWrite (pkg : Nat) (v : Word) (s : State) : Host.Outcome State Fault Refusal :=
  let p := pkgAt s pkg
  let p := if wbit v 2 then { p with drain := false } else p
  if p.partReq.isSome ∨ wfld v 0 2 = p.partMode then .next (aplicUpdate (setPkg s pkg p) pkg)
  else .next (aplicUpdate (setPkg s pkg { p with
    partReq := some (wfld v 0 2), aff := affectedDies p.partMode (wfld v 0 2), drain := true }) pkg)

/-- Do the affected dies hold no activation, their order sequencers off and idle (R407)? -/
def partIdle (s : State) (pkg aff : Nat) : Bool :=
  (s.acts.all fun e => !(pkgOfCore (coreOfCtx e.1) == pkg && aff.testBit (dieOfCore (coreOfCtx e.1)))) &&
    (List.range 8).all fun d => !aff.testBit d || (!osqOn s (dieKey pkg d) && (osqAt s (dieKey pkg d)).inflight.isEmpty)

/-- PART_MODE_COMPLETE: the mode changes, and the fences that the change set are lifted (R407; DEDUCED, log 36). -/
def execPartModeComplete (pkg : Nat) (s : State) : Host.Outcome State Fault Refusal :=
  let p := pkgAt s pkg
  match p.partReq with
  | none => .next s
  | some m =>
    if partIdle s pkg p.aff then
      .next (aplicUpdate (setPkg s pkg { p with partMode := m, partReq := none, aff := 0, drain := false }) pkg)
    else .next s

/-! ### Boot and attestation -/

/-- The image that a read of the boot slot gives: one that has been put there from outside, else what it holds (R408; DESIGN CHOICE,
log 20). -/
def bootSlot (p : Pkg) (image : List Byte) : List Byte := if image.isEmpty then p.slot else image

/-- The cycles of a package's dies count from now (R316). -/
def startCycles (s : State) (pkg : Nat) : State :=
  (computeDies pkg).foldl (fun s d => if (dieAt s d).cycSum = 0 && (dieAt s d).cycMark = 0 then s
    else setDie s d { dieAt s d with cycSum := 0, cycMark := s.now }) s

/-- BOOT_RELEASE: the boot ROM reads the image from the boot region of PCIe port 0; the package's time starts (R316, R408). -/
def execBootRelease (pkg : Nat) (image : List Byte) (s : State) : Host.Outcome State Fault Refusal :=
  let p := pkgAt s pkg
  let x := bootSlot p image
  if p.boot = .reset then .next (setPkg (startCycles s pkg) pkg { p with boot := .verifyLocal, image := x, slot := x, upAt := s.now })
  else .next s

/-- The management core starts from a measured image (R408). -/
def startManagement (p : Pkg) (image : List Byte) : Pkg :=
  { p with boot := .running, image := image, measure := shake512 image }

/-- The request for an image over the management network: a frame on Ethernet port 0 with the fused VLAN in its tag (R408). -/
def fetchFrame (pkg : Nat) : List Byte :=
  let f := Config.fetchRequest pkg
  f.take 12 ++ [0x81, 0x00] ++ toBytesBE 2 (Config.fusedVlan pkg).toNat ++ f.drop 12

/-- BOOT_VERIFY: the local image's signature is judged (R408); the verdict comes from outside (DESIGN CHOICE, log 20). -/
def execBootVerify (pkg : Nat) (valid : Bool) (s : State) : Host.Outcome State Fault Refusal :=
  let p := pkgAt s pkg
  if p.boot = .verifyLocal then
    .next (setPkg s pkg (if valid then startManagement p p.image
      else { p with boot := .verifyFetched, out := p.out ++ [(0, fetchFrame pkg)] }))
  else .next s

/-- BOOT_FETCH_VERIFY: a fetched image is written back to the slot and started, or a Patina record of the boot stage is made (R408,
R411) (DEDUCED, log 36). -/
def execBootFetchVerify (pkg : Nat) (image : List Byte) (valid : Bool) (s : State) : Host.Outcome State Fault Refusal :=
  let p := pkgAt s pkg
  if p.boot != .verifyFetched then .next s
  else if valid then .next (setPkg s pkg { startManagement p image with slot := image })
  else .next (patinaRecord (setPkg s pkg { p with boot := .failed, bootAt := s.now }) (ioDie pkg) 3 0 0)

/-- BOOT_RETRY: 10 s after a failed boot the local image is read and judged again (R408). -/
def execBootRetry (pkg : Nat) (image : List Byte) (s : State) : Host.Outcome State Fault Refusal :=
  let p := pkgAt s pkg
  let x := bootSlot p image
  if p.boot = .failed ∧ p.bootAt + 40000000000 ≤ s.now then
    .next (setPkg s pkg { p with boot := .verifyLocal, image := x, slot := x })
  else .next s

/-- PART_MODE as it reads (R406). -/
def partModeReg (p : Pkg) : Word :=
  BitVec.ofNat 64 (p.aff % 256 * 16 + p.partReq.isSome.toNat * 8 + p.drain.toNat * 4 + p.partMode % 4)

/-- Every ASDT base and class-table base in force, by die and core (R409). -/
def basesInForce (s : State) (pkg : Nat) : List Byte :=
  bytesOf (((computeDies pkg ++ [ioDie pkg]).map fun d => rawReg s d mtuBlk) ++
    (computeDies pkg).flatMap fun d => (List.range 256).map fun n => rawReg s d (coreBlk n + 0x18))

/-- The body of a report (R409): measurement, nonce, PART_MODE and the digest of the bases. -/
def reportBody (s : State) (pkg : Nat) (nonce : BitVec 256) : List Byte :=
  let p := pkgAt s pkg
  toBytes 64 p.measure.toNat ++ toBytes 32 nonce.toNat ++ toBytes 8 (partModeReg p).toNat ++ shake256 (basesInForce s pkg) 64

/-- ATTESTATION: a report is signed with the identity key derived from the fused seed (R409); the random bytes of the signature are free
values (DESIGN CHOICE, log 20). -/
def execAttestation (pkg : Nat) (nonce : BitVec 256) (s : State) : Host.Outcome State Fault Refusal :=
  let p := pkgAt s pkg
  let body := reportBody s pkg nonce
  let rand := (List.range 32).map (Config.freeByte (s.fresh + 1))
  let sig := slhSign slh256s (identityKey (Config.fusedSeed pkg)) rand body
  .next (setPkg { s with fresh := s.fresh + 1 } pkg { p with reports := p.reports ++ [(nonce, body, sig)] })

/-! ### Power -/

/-- A die whose draw exceeds its units lowers its clock by one step of 1/16 (R410; DESIGN CHOICE, log 33). -/
def throttle (s : State) (dk draw : Nat) : State :=
  let d := dieAt s dk
  if d.units < draw ∧ 1 < d.clock then
    setDie s dk { d with clock := d.clock - 1, cycSum := dieSixteenths s dk, cycMark := s.now }
  else s

/-- POWER_UNIT_TRANSFER: a die lends units that it holds above its floor to one that stays within its ceiling; each die whose draw
exceeds its units lowers its clock (R410). -/
def execPowerUnitTransfer (pkg src dst units : Nat) (draws : List Nat) (s : State) : Host.Outcome State Fault Refusal :=
  let a := dieAt s (dieKey pkg src)
  let b := dieAt s (dieKey pkg dst)
  let s := if src < 8 && dst < 8 && src != dst && !a.failed && !b.failed && a.floor + units ≤ a.units && b.units + units ≤ b.ceil then
      setDie (setDie s (dieKey pkg src) { a with units := a.units - units }) (dieKey pkg dst) { b with units := b.units + units }
    else s
  .next (((List.range 8).zip draws).foldl (fun s x => throttle s (dieKey pkg x.1) x.2) s)

/-- Dies beside a die in the grid of two rows of four (R168), that answer. -/
def liveNeighbours (s : State) (die : Nat) : List Nat :=
  (computeDies (die / 16)).filter fun e => !(dieAt s e).failed &&
    ((e % 16 / 4 = die % 16 / 4 && (e % 16 + 1 = die % 16 || e % 16 = die % 16 + 1)) || (e % 16 + 4 = die % 16 || e % 16 = die % 16 + 4))

/-- One round of equal parts: each die takes what its ceiling lets it hold; what is left comes back. -/
def shareRound (s : State) (n : Nat) (ds : List Nat) : State × Nat :=
  ((List.range ds.length).zip ds).foldl (fun r x =>
    let d := dieAt r.1 x.2
    let part := min (n / ds.length + (if x.1 < n % ds.length then 1 else 0)) (d.ceil - d.units)
    (setDie r.1 x.2 { d with units := d.units + part }, r.2 - part)) (s, n)

/-- n units in equal parts to dies, none above its ceiling, what is left over one each to the first; what no die may hold is the answer's
number (DESIGN CHOICE, log 21). -/
def shareFrom : Nat → State → Nat → List Nat → State × Nat
  | 0, s, n, _ => (s, n)
  | fuel + 1, s, n, ds =>
    let open_ := ds.filter fun d => (dieAt s d).units < (dieAt s d).ceil
    if n = 0 ∨ open_.isEmpty then (s, n)
    else
      let r := shareRound s n open_
      shareFrom fuel r.1 r.2 ds

def shareUnits (s : State) (n : Nat) (ds : List Nat) : State × Nat := shareFrom (ds.length + 1) s n ds

/-- POWER_RECLAIM: 1 ms after a die stopped answering its units go to its neighbours in equal parts, up to their ceilings (R410). -/
def execPowerReclaim (die : Nat) (s : State) : Host.Outcome State Fault Refusal :=
  let d := dieAt s die
  let ns := liveNeighbours s die
  if !d.failed ∨ s.now < d.failedAt + 4000000 ∨ ns.isEmpty ∨ 8 ≤ die % 16 then .next s
  else
    let r := shareUnits s d.units ns
    .next (setDie r.1 die { dieAt r.1 die with units := r.2 })

/-- PWR_GUARD_WRITE: a GUARD above UNITS is ignored; another changes what the dies hold, so that they hold UNITS − GUARD again: equal
shares of the dies that answer beside what a die that stopped answering still holds (R410; DESIGN CHOICE, log 21). -/
def execPwrGuardWrite (pkg : Nat) (v : Word) (s : State) : Host.Outcome State Fault Refusal :=
  let g := wfld v 16 16
  let live := (computeDies pkg).filter fun d => !(dieAt s d).failed
  let held := (computeDies pkg).foldl (fun n d => if (dieAt s d).failed then n + (dieAt s d).units else n) 0
  if 2700 < g then .next s
  else
    let s := storeReg s (ioDie pkg) (sysBlk + 8) v
    .next (shareUnits (live.foldl (fun s d => setDie s d { dieAt s d with units := 0 }) s) (2700 - g - held) live).1

/-! ### Health and errors -/

/-- SENSOR_CROSSING: a thermal trip or a voltage droop of a cluster is recorded in Patina (R411). -/
def execSensorCrossing (clus : Nat) (droop : Bool) (detail : Word) (s : State) : Host.Outcome State Fault Refusal :=
  .next (patinaRecord s (dkOfClus clus) (if droop then 2 else 1) (BitVec.ofNat 64 (clus % 16)) detail)

/-- A fatal error: its record, then the flush (R411; DESIGN CHOICE, log 33). -/
def fatalError (s : State) (pkg : Nat) (w5 w6 : Word) : State := patinaFlush (patinaRecord s (ioDie pkg) 4 w5 w6) pkg

/-- WATCHDOG_EXPIRE: the management core's watchdog expires, a fatal error (R411). -/
def execWatchdogExpire (pkg : Nat) (s : State) : Host.Outcome State Fault Refusal := .next (fatalError s pkg 0 0)

/-- The event of an error (R412): word 5 the unit and whether it is uncorrectable, word 6 the place (DESIGN CHOICE, log 33). -/
def softError (s : State) (die unit : Nat) (unc : Bool) (place : Word) : State :=
  postEvent s die (mkEvent s die 0x0E (BitVec.ofNat 64 (unc.toNat * 256 + unit)) place)

/-- SCRUB: a Plinth die scrubs its stack; each error that it corrects is posted (R412). -/
def execScrub (die stack : Nat) (corrected : List Word) (s : State) : Host.Outcome State Fault Refusal :=
  if 8 ≤ die % 16 ∨ 3 ≤ stack then .next s
  else .next (corrected.foldl (fun s a => softError s die 0 false a) s)

/-- The group of a staging slot with an uncorrectable error is discarded, its commit too when that is numbered and still to be applied at the
Caliper (R115; DESIGN CHOICE, log 45). A commit that is applied there has freed its slot, and stands. -/
def discardGroup (s : State) (cal : Nat) (g : GroupId) : State :=
  match (calAt s cal).commits.find? fun x => x.g = g with
  | none => s
  | some m =>
    let hit (dom seq : Nat) : Bool := dom == m.dom && seq == m.seq
    (span (cal / 24 * 24) 24).foldl (fun s k =>
      let c := calAt s k
      if c.commits.any (fun x => hit x.dom x.seq) || c.logs.any fun x => hit x.dom x.seq then
        setCal s k { c with
          commits := c.commits.map fun x => if hit x.dom x.seq then { x with discard := true, factor := 0 } else x
          logs := c.logs.map fun x => if hit x.dom x.seq then { x with discard := true, clipped := false, factor := 0 } else x }
      else s) s

/-- What an uncorrectable error leaves: a line of HBM or DDR that a walk or a commit then meets (R22, R115); a staging slot whose
group will be discarded (R115), named by 4096 × stack + slot (DESIGN CHOICE, log 45); an I/O-die SRAM error is fatal (R411). -/
def uncorrectable (s : State) (die unit : Nat) (place : Word) : State :=
  if die % 16 = 8 && (1 ≤ unit && unit ≤ 3) then fatalError s (die / 16) (BitVec.ofNat 64 unit) place
  else if unit = 0 && die % 16 < 8 then { s with eccBad := s.eccBad ++ [hbm die place.toNat / 64] }
  else if unit = 5 then { s with eccBad := s.eccBad ++ [ddr (die / 16) place.toNat / 64] }
  else if unit = 3 && die % 16 < 8 && place.toNat / 4096 < 3 then
    let k := calKey die (place.toNat / 4096)
    let c := calAt s k
    match c.slots[place.toNat % 4096]? with
    | some x => discardGroup (setCal s k (putMSlot c { x with bad := true })) k x.g
    | none => s
  else s

/-- ECC_ERROR: an error of a unit is detected and posted; an uncorrectable one in data that an activation reads terminates that
activation (R412). -/
def execEccError (die : Nat) (kind : BitVec 3) (unc : Bool) (place : Word) (uid : Nat) (s : State) :
    Host.Outcome State Fault Refusal :=
  if 5 < kind.toNat then .next s
  else
    let s := softError s die kind.toNat unc place
    if !unc then .next s
    else
      let s := uncorrectable s die kind.toNat place
      match actByUid s uid with
      | some a => if kind.toNat = 3 then .next s else .next (trap s a 0)
      | none => .next s

/-! ### Resets -/

/-- Entries of a table whose key does not belong to a package, by the keys that one package spans. -/
def outside {α : Type} (m : SMap α) (n pkg : Nat) : SMap α := m.filter fun e => e.1 / n != pkg

/-- Package that owns a location (R24). -/
def pkgOfLoc (a : Nat) : Nat :=
  let k := regionKind a
  let i := regionIdx a
  if k = 1 then i / 16 else if k = 4 then i / 2048 else if k = 5 then i / 8 / 2048 else if 6 ≤ k ∧ k ≤ 8 then i / 4 / 2048 else i

/-- Every unit of a package as after reset; what the I/O die keeps is given. Requests of the package are gone; a request of another
package that was at one of its units and not yet performed has to be sent again (DEDUCED, log 47). -/
def resetPkg (s : State) (pkg : Nat) (p : Pkg) : State :=
  { s with
    regs := outside s.regs (2 ^ 28) pkg
    acts := outside s.acts 16384 pkg
    cores := outside s.cores 2048 pkg
    dies := outside s.dies 16 pkg
    mtus := outside s.mtus 16 pkg
    bcasts := outside s.bcasts 1 pkg
    wqs := outside s.wqs 64 pkg
    redHeld := outside s.redHeld 64 pkg
    demotes := outside s.demotes 16 pkg
    cals := outside s.cals 24 pkg
    osqs := outside s.osqs 16 pkg
    clus := outside s.clus 128 pkg
    gangs := s.gangs.filter fun g => g.die / 8 != pkg
    pkgs := mset s.pkgs pkg p
    pools := s.pools.filter fun e => pkgOfLoc e.1 != pkg
    bars := s.bars.filter fun b => pkgOfLoc b.1 != pkg
    barWaits := s.barWaits.filter fun w => pkgOfLoc w.2.1 != pkg
    barKids := s.barKids.filter fun k => pkgOfLoc k.1 != pkg
    barUps := s.barUps.filter fun u => u.2.1 / 16 != pkg
    ticks := mdel s.ticks pkg
    flights := (s.flights.filter fun f => f.req.src.pkg != pkg).map fun f =>
      if f.unit / 16 = pkg then (match f.stage with
        | .walking | .port .. | .waiting => { f with stage := .sent }
        | _ => f)
      else f }

/-- What a package keeps through a reset: its system package number (R8) and the image in its boot slot (R408). -/
def freshPkg (s : State) (pkg : Nat) : Pkg :=
  { Pkg.reset pkg with sys := (pkgAt s pkg).sys, slot := (pkgAt s pkg).slot, upAt := s.now }

/-- WARM_RESET: the package is in reset again; Patina's ring and PAT_HEAD survive (R411). Memory keeps its contents (DEDUCED, log 47). -/
def execWarmReset (pkg : Nat) (s : State) : Host.Outcome State Fault Refusal :=
  let p := pkgAt s pkg
  .next (resetPkg s pkg { freshPkg s pkg with patina := p.patina, patHead := p.patHead })

/-- POWER_CYCLE: supply is lost and returns; Patina's ring is discarded, and memory is as after power-on (R411; DESIGN CHOICE, log 2). -/
def execPowerCycle (pkg : Nat) (s : State) : Host.Outcome State Fault Refusal :=
  let s := resetPkg s pkg (freshPkg s pkg)
  .next { s with
    mem := { cells := s.mem.cells.filter fun c => pkgOfLoc c.1 != pkg
             undef := s.mem.undef.filter fun e => pkgOfLoc (512 * e.1) != pkg }
    eccBad := s.eccBad.filter fun l => pkgOfLoc (64 * l) != pkg }

/-! ### PCIe links -/

/-- Is there a root port at a device of bus 0 (R419): 1, 2 or 4 of a PCIe port by the split in force, one of each CXL port? -/
def rootPort (s : State) (pkg dev : Nat) : Bool :=
  let split (q : Nat) : Nat := mget (pkgAt s pkg).split q 0
  if dev < 4 then dev < 2 ^ split 0 else if dev < 8 then dev - 4 < 2 ^ split 1 else dev < 10

/-- Width of the lanes of a root port. -/
def rootWidth (s : State) (pkg dev : Nat) : Nat := if dev < 8 then 16 / 2 ^ mget (pkgAt s pkg).split (dev / 4) 0 else 16

/-- Root ports train to a rate and width. -/
def trainLinks (p : Pkg) (devs : List Nat) (rate width : Nat) : Pkg :=
  { p with link := devs.foldl (fun m d => mset m d (rate, width)) p.link }

/-- The split that RC_CFG asks of a PCIe port: 3 counts as 0 (R419). -/
def splitAsked (s : State) (pkg port : Nat) : Nat :=
  let v := wfld (rawReg s (ioDie pkg) rcBlk) (2 * port) 2
  if v = 3 then 0 else v

/-- PCIE_LINK_TRAINING: links train and settle at a rate of at most 64 GT/s and a width of at most their lanes (R419, R421). Ports 0 and 1 name all
links of a PCIe port, whose split in RC_CFG takes effect; 2 and 3 the CXL ports; 4 + d the one link of root port d under the split in force
(DESIGN CHOICE, log 67). -/
def execPcieLinkTraining (pkg port rate width : Nat) (s : State) : Host.Outcome State Fault Refusal :=
  let p := pkgAt s pkg
  let rate := min rate 64
  if port < 2 then
    let split := splitAsked s pkg port
    let p := { p with split := mset p.split port split, link := p.link.filter fun e => e.1 / 4 != port || 8 ≤ e.1 }
    .next (setPkg s pkg (trainLinks p ((List.range (2 ^ split)).map (4 * port + ·)) rate (min width (16 / 2 ^ split))))
  else
    let dev := if port < 4 then port + 6 else port - 4
    if rootPort s pkg dev then .next (setPkg s pkg (trainLinks p [dev] rate (min width (rootWidth s pkg dev)))) else .next s

end Sys2Proof.Machine
end

