-- ==== Sys2Proof/Machine/Pcie.lean ====
section
/-! DEFINITION. The root ports of the PCIe and CXL ports (R419 to R421): configuration space, Advanced Error Reporting, the device memory
window and the HDM decoders. Register layouts are those of PCI Express 6.0 and CXL 3.1 (PRESUMED, logs 23 and 67). -/
namespace Sys2Proof.Machine

/-! ### Configuration space of the root ports -/

/-- Writable and write-one-to-clear bits of a dword of a root port's configuration space: the header of a bridge, and the capabilities of PCI
Express at 0x40, of MSI at 0x80, of error reporting at 0x100 and, at a CXL port, of its flex bus at 0x168. -/
def cfgBits (off : Nat) : Nat × Nat :=
  match off with
  | 0x04 => (0x546, 0xF9000000)
  | 0x0C => (0xFF, 0)
  | 0x18 => (0xFFFFFF, 0)
  | 0x1C => (0, 0xF9000000)
  | 0x20 | 0x24 => (0xFFF0FFF0, 0)
  | 0x28 | 0x2C => (0xFFFFFFFF, 0)
  | 0x3C => (0x4300FF, 0)
  | 0x48 => (0x7FFF, 0xF0000)
  | 0x50 => (0xFFF, 0xC0000000)
  | 0x5C => (0x1F, 0)
  | 0x60 => (0, 0x10000)
  | 0x70 => (0xF, 0)
  | 0x80 => (0x710000, 0)
  | 0x84 => (0xFFFFFFFC, 0)
  | 0x88 => (0xFFFFFFFF, 0)
  | 0x8C => (0xFFFF, 0)
  | 0x104 => (0, 0x07FFF030)
  | 0x108 | 0x10C => (0x07FFF030, 0)
  | 0x110 => (0, 0xF1C1)
  | 0x114 => (0xF1C1, 0)
  | 0x118 => (0x140, 0)
  | 0x12C => (7, 0)
  | 0x130 => (0, 0x7F)
  | 0x174 => (4, 0)
  | _ => (0, 0)

/-- Code of a link rate in GT/s. -/
def rateCode (rate : Nat) : Nat :=
  if rate < 5 then 1 else if rate < 8 then 2 else if rate < 16 then 3 else if rate < 32 then 4 else if rate < 64 then 5 else 6

/-- The read-only bits of a dword: among them Flit Mode Supported (0x40), the rates up to 64 GT/s (0x4C, 0x6C), the link that is up (0x50, 0x70 with
Flit Mode Status), and at a CXL port the extended capabilities 0x140 (CXL port extensions) and 0x168 (flex bus: CXL.io and CXL.mem without
CXL.cache) (R419, R421; layouts PRESUMED, log 67). -/
def cfgFixed (s : State) (pkg dev off : Nat) : Nat :=
  let link := mget (pkgAt s pkg).link dev (0, 0)
  let up := link.2 != 0
  let cxl := 8 ≤ dev
  match off with
  | 0x00 => (Config.rootId dev).toNat
  | 0x04 => 0x100000
  | 0x08 => 0x06040000
  | 0x0C => 0x010000
  | 0x24 => 0x10001
  | 0x34 => 0x40
  | 0x40 => 0x80428010
  | 0x44 => 0x8000
  | 0x4C => dev * 2 ^ 24 + rootWidth s pkg dev * 16 + 6
  | 0x50 => if up then (link.2 * 16 + rateCode link.1) * 65536 else 0
  | 0x6C => 0x7E
  | 0x70 => if up then 0x4000000 else 0
  | 0x80 => 0x800005
  | 0x100 => if cxl then 0x14020001 else 0x00020001
  | 0x140 => if cxl then 0x16810023 else 0
  | 0x144 => if cxl then 0x02801E98 else 0
  | 0x148 => if cxl then 3 else 0
  | 0x168 => if cxl then 0x00010023 else 0
  | 0x16C => if cxl then 0x02021E98 else 0
  | 0x170 => if cxl then 0x60007 else 0
  | 0x174 => if cxl then 2 + (if up then 0x60000 else 0) else 0
  | _ => 0

/-- What a dword holds when nothing has been written: severities and masks of error reporting, and the target rate of the link. -/
def cfgReset (off : Nat) : BitVec 32 := if off = 0x10C then 0x462030 else if off = 0x114 then 0x2000 else if off = 0x70 then 6 else 0

def cfgRaw (s : State) (pkg dev off : Nat) : BitVec 32 := mget (pkgAt s pkg).cfg (dev * 1024 + off / 4) (cfgReset off)
def cfgSet (s : State) (pkg dev off : Nat) (v : BitVec 32) : State :=
  let p := pkgAt s pkg
  setPkg s pkg { p with cfg := mset p.cfg (dev * 1024 + off / 4) v }

/-- Bytes of memory space that a root port passes on to its devices. -/
def rootClaims (s : State) (pkg dev addr : Nat) : Bool :=
  let r (off : Nat) : Nat := (cfgRaw s pkg dev off).toNat
  let m := r 0x20
  let w := r 0x24
  let top (lo hi : Nat) : Nat := hi * 2 ^ 32 + lo / 16 * 2 ^ 20
  rootPort s pkg dev && (r 0x04).testBit 1 &&
    ((top (fld m 0 16) 0 ≤ addr && addr < top (fld m 16 16) 0 + 2 ^ 20) ||
      (top (fld w 0 16) (r 0x28) ≤ addr && addr < top (fld w 16 16) (r 0x2C) + 2 ^ 20))

/-- The root port below which a bus lies. -/
def rootOfBus (s : State) (pkg bus : Nat) : Option Nat :=
  (List.range 10).find? fun d => rootPort s pkg d &&
    (let b := (cfgRaw s pkg d 0x18).toNat
     fld b 8 8 ≤ bus && bus ≤ fld b 16 8 && bus != 0)

/-! ### Accesses of service cores -/

/-- Offsets from RB: configuration space, interrupt files, APLIC, device memory (R419, R422). -/
def inEcam (off : Nat) : Bool := 0x10000000 ≤ off && off < 0x20000000
def inFiles (off : Nat) : Bool := 0x20000000 ≤ off && off < 0x20400000
def inAplic (off : Nat) : Bool := 0x21000000 ≤ off && off < 0x21008000
def inDevices (off : Nat) : Bool := 0x010000000000 ≤ off && off < 0x020000000000

/-- Bus, device, function and register of an offset in configuration space. -/
def ecamBus (off : Nat) : Nat := (off - 0x10000000) / 2 ^ 20
def ecamDev (off : Nat) : Nat := off / 2 ^ 15 % 32
def ecamFn (off : Nat) : Nat := off / 2 ^ 12 % 8
def ecamReg (off : Nat) : Nat := off % 4096

/-- The physical address of an offset from RB. -/
def rbAddr (off : Nat) : Nat := 0xF00000000000 + off

/-- A write that goes to a device (R419). -/
def deviceWrite (s : State) (pkg off : Nat) (v : Word) : State :=
  let p := pkgAt s pkg
  setPkg s pkg { p with devOut := p.devOut ++ [(off, v)] }

/-- The bytes that an access of n bytes at an offset covers in its dword. -/
def laneMask (off n : Nat) : BitVec 32 := BitVec.ofNat 32 ((2 ^ (8 * n) - 1) * 2 ^ (8 * (off % 4)))

/-- A write of n bytes of configuration space, within one dword: a root port's bytes are stored, one below a root port goes to its device, another
has no effect. The bits of 0x174 exist at a CXL port only. -/
def ecamWrite (s : State) (pkg off n : Nat) (v : Word) : State :=
  if 4 < off % 4 + n then s
  else if ecamBus off = 0 then
    let dev := ecamDev off
    let o := ecamReg off / 4 * 4
    if ecamFn off = 0 && rootPort s pkg dev && (o != 0x174 || 8 ≤ dev) then
      let v := v.setWidth 32 <<< (8 * (off % 4))
      let rw : BitVec 32 := BitVec.ofNat 32 (cfgBits o).1 &&& laneMask off n
      let c : BitVec 32 := BitVec.ofNat 32 (cfgBits o).2 &&& laneMask off n
      cfgSet s pkg dev o ((cfgRaw s pkg dev o &&& ~~~rw &&& ~~~(v &&& c)) ||| (v &&& rw))
    else s
  else if (rootOfBus s pkg (ecamBus off)).isSome then deviceWrite s pkg off (BitVec.ofNat 64 (wfld v 0 (8 * n))) else s

/-- What a service core reads from a device: a free value (DESIGN CHOICE, log 67). -/
def deviceRead (s : State) : Word × State := (Config.freeWord (s.fresh + 1), { s with fresh := s.fresh + 1 })

/-- A read of configuration space, from its offset to the end of the dword; with no function there, all ones. -/
def ecamRead (s : State) (pkg off : Nat) : Word × State :=
  let dev := ecamDev off
  let o := ecamReg off / 4 * 4
  let part (n : Nat) : Word := BitVec.ofNat 64 (n / 2 ^ (8 * (off % 4)))
  if ecamBus off = 0 then
    (part (if ecamFn off = 0 && rootPort s pkg dev then (cfgRaw s pkg dev o).toNat ||| cfgFixed s pkg dev o else 0xFFFFFFFF), s)
  else if (rootOfBus s pkg (ecamBus off)).isSome then
    let (w, s) := deviceRead s
    (BitVec.ofNat 64 (wfld w 0 (32 - 8 * (off % 4))), s)
  else (part 0xFFFFFFFF, s)

/-- Does a root port pass on an address of the device memory window? -/
def devClaimed (s : State) (pkg off : Nat) : Bool := (List.range 10).any fun d => rootClaims s pkg d (rbAddr off)

/-- A service core's write of n bytes outside the die blocks (R419, R422): interrupt files and the APLIC take 4 bytes. -/
def ioWrite (s : State) (pkg off n : Nat) (v : Word) : State :=
  if inEcam off then ecamWrite s pkg off n v
  else if inFiles off then if n = 4 then interruptAt s pkg (rbAddr off) (wfld v 0 32) else s
  else if inAplic off then if n = 4 then aplicWrite s pkg (off - 0x21000000) (wfld v 0 32) else s
  else if inDevices off && devClaimed s pkg off then deviceWrite s pkg off (BitVec.ofNat 64 (wfld v 0 (8 * n)))
  else s

/-- The width of a write that REGISTER_WRITE makes outside the die blocks, which names none: 8 bytes to device memory, else as much of 4 bytes as its
offset is aligned to (DESIGN CHOICE, log 67). -/
def ioWidth (off : Nat) : Nat := if inDevices off then 8 else if off % 4 = 0 then 4 else if off % 2 = 0 then 2 else 1

/-- A service core's read outside the die blocks: an address that no root port passes on reads as all ones, an interrupt file as zero. -/
def ioRead (s : State) (pkg off : Nat) : Word × State :=
  if inEcam off then ecamRead s pkg off
  else if inAplic off then (BitVec.ofNat 64 (aplicRead s pkg (off - 0x21000000)), s)
  else if inDevices off then if devClaimed s pkg off then deviceRead s else (0xFFFFFFFFFFFFFFFF, s)
  else (0, s)

/-! ### Error reporting -/

/-- An uncorrectable error of a request is logged at the root port below which the requester lies, unless it is masked there: its status bit, the
root error status with the requester, and, where the port's commands ask for it, a message signalled interrupt (R419). -/
def logError (s : State) (pkg rid bit : Nat) : State :=
  match rootOfBus s pkg (fld rid 8 8) with
  | none => s
  | some d =>
    let r (s : State) (off : Nat) : BitVec 32 := cfgRaw s pkg d off
    let s := cfgSet s pkg d 0x104 (r s 0x104 ||| BitVec.twoPow 32 bit)
    if (r s 0x108).getLsbD bit then s
    else
      let fatal := (r s 0x10C).getLsbD bit
      let st := r s 0x130
      let s := if st.getLsbD 2 then s else cfgSet s pkg d 0x134 (BitVec.ofNat 32 (rid % 65536 * 65536 + fld (r s 0x134).toNat 0 16))
      let s := cfgSet s pkg d 0x130 (st ||| (if st.getLsbD 2 then 8 else 4) ||| (if fatal then 0x40 else 0x20))
      let asks := (r s 0x12C).getLsbD (if fatal then 2 else 1)
      if asks && (r s 0x80).getLsbD 16 then
        interruptAt s pkg ((r s 0x88).toNat * 2 ^ 32 + (r s 0x84).toNat) (r s 0x8C).toNat
      else s

/-! ### HDM decoders -/

/-- The range that decoder n of a CXL port would claim. -/
def hdmAsked (s : State) (pkg q n : Nat) : HdmRange :=
  let r (off : Nat) : Word := rawReg s (ioDie pkg) (cxlBlk q + hdmDec n + off)
  let c := r 0x10
  ⟨(r 0).toNat, (r 8).toNat, 8 + wfld c 0 4, wfld c 4 4 = 1, [wfld c 32 8, wfld c 40 8], wbit c 8⟩

/-- May a decoder be committed (R421): one or two ways, 256 bytes to 16 KiB, a range that is not empty and does not wrap, and behind the one
before it, which is committed? -/
def hdmLegal (s : State) (pkg q n : Nat) : Bool :=
  let d := hdmAsked s pkg q n
  let c := rawReg s (ioDie pkg) (cxlBlk q + hdmDec n + 0x10)
  wfld c 4 4 ≤ 1 && wfld c 0 4 ≤ 6 && d.size != 0 && d.base + d.size ≤ 2 ^ 64 &&
    (n = 0 || match mget (pkgAt s pkg).hdm (8 * q + n - 1) none with
      | some e => e.base + e.size ≤ d.base
      | none => false)

/-- Does a register of the I/O die belong to a decoder that is committed and locked? A write to it has no effect (R421; CXL 3.1, log 23). -/
def hdmLocked (s : State) (pkg off : Nat) : Bool :=
  (List.range 16).any fun i =>
    (match mget (pkgAt s pkg).hdm i none with
      | some d => d.lock
      | none => false) &&
      cxlBlk (i / 8) + hdmDec (i % 8) ≤ off && off < cxlBlk (i / 8) + hdmDec (i % 8) + 0x20

/-- What a write of a decoder's control asks: with COMMIT set the decoder is committed or fails, with it clear it is neither (R421). -/
def hdmCommit (s : State) (pkg q n : Nat) : State :=
  let p := pkgAt s pkg
  if wbit (rawReg s (ioDie pkg) (cxlBlk q + hdmDec n + 0x10)) 9 then
    setPkg s pkg { p with hdm := mset p.hdm (8 * q + n) (if hdmLegal s pkg q n then some (hdmAsked s pkg q n) else none) }
  else setPkg s pkg { p with hdm := mdel p.hdm (8 * q + n) }

/-- The decoder whose control a register of the I/O die is. -/
def hdmControl (off : Nat) : Option (Nat × Nat) :=
  (List.range 16).findSome? fun i => if off = cxlBlk (i / 8) + hdmDec (i % 8) + 0x10 then some (i / 8, i % 8) else none

/-- What a register of a CXL port's component block reads as: the capability header at 0x1000, the capability of 8 decoders with two targets
each and their interleave capabilities, and the decoders with COMMITTED and ERROR. -/
def readCxl (s : State) (pkg off : Nat) : Word :=
  let raw := rawReg s (ioDie pkg) off
  let o := (off - 0x120000) % 0x10000
  if o = 0x1000 then BitVec.ofNat 64 (0x20010005 * 2 ^ 32 + 0x01110001)
  else if o = hdmCap then raw ||| BitVec.ofNat 64 0x324
  else match hdmControl off with
    | some (q, n) => match mfind (pkgAt s pkg).hdm (8 * q + n) with
      | some d => raw ||| BitVec.ofNat 64 (if d.isSome then 0x400 else 0x800)
      | none => raw
    | none => raw

/-! ### Register writes -/

/-- REGISTER_WRITE: a write to a register without behaviour of its own stores its RW fields and clears its W1C bits; an offset of
the register space that holds none ignores it (R4, R404). The die blocks lie 2^24 apart; beyond them lie configuration space, the interrupt
window, the APLIC and device memory (R419, R422). The event interrupt follows IE (R194), a CXL decoder its control,
and a locked decoder stays as it is (R421). -/
def execRegisterWrite (pkg off : Nat) (v : Word) (s : State) : Host.Outcome State Fault Refusal :=
  unlessDown s (dieKey pkg (off / 2 ^ 24)) <|
  let d := off / 2 ^ 24
  let o := off % 2 ^ 24
  let dk := dieKey pkg d
  if 8 < d then .next (ioWrite s pkg off (ioWidth off) v)
  else if ownStep (d = 8) o v || (d == 8 && hdmLocked s pkg o) then .next s
  else
    let s := storeReg (clearBcastOvf (clearPreErr s dk o v) dk o v) dk o v
    if d != 8 then .next s
    else if o = evqBlk then .next (aplicUpdate s pkg)
    else match hdmControl o with
      | some (q, n) => .next (hdmCommit s pkg q n)
      | none => .next s

end Sys2Proof.Machine
end

