-- ==== Sys2Proof/Machine/Ether.lean ====
section
/-! DEFINITION. Interrupt files (R422), Ethernet ports (R413 to R415), the steering engine (R164 to R167) and requests of PCIe and CXL
devices (R420). A frame is its bytes from the destination address on, without the FCS, in the order in which they are sent. -/
namespace Sys2Proof.Machine

/-! ### Interrupts -/

/-- INTERRUPT_WRITE: a 4-byte write that holds an identity sets it pending in the page's file (R422). -/
def execInterruptWrite (pkg : Nat) (addr : Word) (v : BitVec 32) (s : State) : Host.Outcome State Fault Refusal :=
  .next (interruptAt s pkg addr.toNat v.toNat)

/-- The interrupt that a ring's or queue's configuration names (R414, R417): FILE in [41:32], ID in [10:0] from bit lo. -/
def sendInterrupt (s : State) (pkg : Nat) (w : Word) (lo : Nat) : State := setPending s pkg (wfld w 32 10) (wfld w lo 11)

/-! ### Frames -/

/-- A number of n bytes in network order at an offset. -/
def beAt (f : List Byte) (off n : Nat) : Nat := ofBytes ((f.drop off).take n).reverse
def beBytes (n v : Nat) : List Byte := (toBytes n v).reverse

/-- The IEEE 802.1Q tag of a frame, and the frame without it (R413). -/
def stripTag (f : List Byte) : Option Nat × List Byte :=
  if beAt f 12 2 = 0x8100 ∧ 18 ≤ f.length then (some (beAt f 14 2), f.take 12 ++ f.drop 16) else (none, f)

/-- What a frame without its tag says of IP (IPv4 of RFC 791, IPv6 of RFC 8200; PRESUMED, log 24): version, addresses, protocol, offset and length
of the transport header, none for a fragment. -/
structure IpInfo where
  v4 : Bool
  src : List Byte
  dst : List Byte
  proto : Nat
  l4 : Option (Nat × Nat)

/-- The transport header behind the extension headers of IPv6: hop-by-hop, routing and destination options, authentication, fragment. -/
def ip6Headers (f : List Byte) : Nat → Nat → Nat → Nat → Nat × Option (Nat × Nat)
  | 0, proto, _, _ => (proto, none)
  | fuel + 1, proto, off, left =>
    let n := if proto = 51 then 4 * (beAt f (off + 1) 1 + 2) else if proto = 44 then 8 else 8 * (beAt f (off + 1) 1 + 1)
    if proto = 0 ∨ proto = 43 ∨ proto = 60 ∨ proto = 51 ∨ proto = 44 then
      if left < n then (proto, none)
      else if proto = 44 ∧ beAt f (off + 2) 2 / 8 != 0 ∨ proto = 44 ∧ beAt f (off + 3) 1 % 2 = 1 then (beAt f off 1, none)
      else ip6Headers f fuel (beAt f off 1) (off + n) (left - n)
    else (proto, some (off, left))

def ipInfo (f : List Byte) : Option IpInfo :=
  if beAt f 12 2 = 0x0800 ∧ 34 ≤ f.length then
    let ihl := 4 * (beAt f 14 1 % 16)
    some ⟨true, (f.drop 26).take 4, (f.drop 30).take 4, beAt f 23 1,
      if beAt f 20 2 % 16384 = 0 then some (14 + ihl, beAt f 16 2 - ihl) else none⟩
  else if beAt f 12 2 = 0x86DD ∧ 54 ≤ f.length then
    let h := ip6Headers f 8 (beAt f 20 1) 54 (beAt f 18 2)
    some ⟨false, (f.drop 22).take 16, (f.drop 38).take 16, h.1, h.2⟩
  else none

/-- The transport header of TCP (6) or UDP (17). -/
def tcpUdp (i : IpInfo) : Option (Nat × Nat) := if i.proto = 6 ∨ i.proto = 17 then i.l4 else none

/-- Bits of bytes, most significant first. -/
def bitsBE (bs : List Byte) : List Bool := bs.flatMap fun b => (List.range 8).map fun i => b.getLsbD (7 - i)

/-- The Toeplitz hash (R414): the 32 key bits from bit i on are added for each set bit i of the input. -/
def toeplitzFrom (key : Nat) : Nat → List Bool → Nat
  | _, [] => 0
  | i, b :: r => (if b then key / 2 ^ (288 - i) % 2 ^ 32 else 0) ^^^ toeplitzFrom key (i + 1) r

/-- The receive hash of a frame (R414), none without an IP header: addresses, and ports when TCP or UDP carries them. -/
def frameHash (s : State) (pkg port : Nat) (f : List Byte) : Option Nat :=
  let key := ofBytes ((bytesOf ((List.range 5).map fun i => rawReg s (ioDie pkg) (ethBlk port + 0x40 + 8 * i))).reverse)
  (ipInfo f).map fun i =>
    let ports := match tcpUdp i with
      | some (o, _) => (f.drop o).take 4
      | none => []
    toeplitzFrom key 0 (bitsBE (i.src ++ i.dst ++ ports))

/-- Sum of 16-bit words in network order, and its ones' complement folding. -/
def sum16 : List Byte → Nat
  | a :: b :: r => a.toNat * 256 + b.toNat + sum16 r
  | [a] => a.toNat * 256
  | [] => 0
def fold16 (n : Nat) : Nat :=
  let f (n : Nat) : Nat := n / 65536 + n % 65536
  f (f (f n))

/-- The sum that a transport checksum covers, with its pseudo header (RFC 768, 9293, 8200). -/
def l4Sum (f : List Byte) (i : IpInfo) (o n : Nat) : Nat := sum16 i.src + sum16 i.dst + i.proto + n + sum16 ((f.drop o).take n)

/-- Offset of the checksum in a TCP or UDP header. -/
def csumOff (proto : Nat) : Nat := if proto = 6 then 16 else 6

/-- Are the IPv4 header's and the TCP or UDP checksum verified correct (R415 CSOK)? -/
def checksumOk (f : List Byte) : Bool := match ipInfo f with
  | none => false
  | some i => (!i.v4 || fold16 (sum16 ((f.drop 14).take (4 * (beAt f 14 1 % 16)))) == 65535) && (match tcpUdp i with
    | some (o, n) => fold16 (l4Sum f i o n) == 65535 && !(i.proto = 17 && beAt f (o + 6) 2 = 0)
    | none => false)

/-- Two bytes of a frame replaced. -/
def putBE16 (f : List Byte) (off v : Nat) : List Byte := f.take off ++ beBytes 2 v ++ f.drop (off + 2)

/-- A frame with its IPv4 header checksum and its TCP or UDP checksum inserted (R415 CSUM). -/
def insertChecksums (f : List Byte) : List Byte := match ipInfo f with
  | none => f
  | some i =>
    let f := if i.v4 then
        let z := putBE16 f 24 0
        putBE16 z 24 (65535 - fold16 (sum16 ((z.drop 14).take (4 * (beAt z 14 1 % 16)))))
      else f
    match tcpUdp i with
    | none => f
    | some (o, n) =>
      let at_ := o + csumOff i.proto
      let z := putBE16 f at_ 0
      let c := 65535 - fold16 (l4Sum z i o n)
      putBE16 z at_ (if i.proto = 17 ∧ c = 0 then 65535 else c)

/-! ### Rings -/

/-- A register of ring k of a port; its HEAD is held by the port (R414). -/
def ringReg (s : State) (pkg port : Nat) (tx : Bool) (k off : Nat) : Word :=
  rawReg s (ioDie pkg) (ethBlk port + (if tx then 0x2000 else 0x1000) + 0x20 * k + off)
def ringKey (port : Nat) (tx : Bool) (k : Nat) : Nat := port * 128 + tx.toNat * 64 + k
def ringHead (s : State) (pkg port : Nat) (tx : Bool) (k : Nat) : Nat := mget (pkgAt s pkg).heads (ringKey port tx k) 0
/-- Descriptors posted and not yet used, modulo 2^16. -/
def ringPosted (s : State) (pkg port : Nat) (tx : Bool) (k : Nat) : Nat :=
  (wfld (ringReg s pkg port tx k 0x10) 0 16 + 65536 - ringHead s pkg port tx k) % 65536
/-- The DDR place of descriptor i of a ring (R415). -/
def descPlace (s : State) (pkg port : Nat) (tx : Bool) (k i : Nat) : Nat :=
  ddr pkg (wfld (ringReg s pkg port tx k 0) 4 48 * 16 + 16 * (i % 2 ^ wfld (ringReg s pkg port tx k 8) 0 5))

/-- HEAD advances by n descriptors, with the ring's interrupt (R414, R415). -/
def advanceHead (s : State) (pkg port : Nat) (tx : Bool) (k n : Nat) : State :=
  let p := pkgAt s pkg
  let s := setPkg s pkg { p with heads := mset p.heads (ringKey port tx k) ((ringHead s pkg port tx k + n) % 65536) }
  let cfg := ringReg s pkg port tx k 8
  if wbit cfg 62 then sendInterrupt s pkg cfg 16 else s

/-- A saturating 32-bit count of ETH_STAT (R414): RXDROP above bit 32, BAD below. -/
def ethCount (s : State) (pkg port lo : Nat) : State :=
  let w := rawReg s (ioDie pkg) (ethBlk port + 8)
  setRaw s (ioDie pkg) (ethBlk port + 8) (putFld w lo 32 (min (2 ^ 32 - 1) (wfld w lo 32 + 1)))

/-- The posted buffers that hold n bytes, from descriptor i on: address, bytes used; none when they run out. -/
def takeBuffers (s : State) (pkg port k : Nat) : Nat → Nat → Nat → Option (List (Nat × Nat × Nat))
  | 0, _, _ => none
  | left + 1, i, n =>
    let d := descPlace s pkg port false k i
    let buf := readN s.mem d 8 % 2 ^ 52
    let size := readN s.mem (d + 8) 2
    if n ≤ size then some [(d, buf, n)]
    else (takeBuffers s pkg port k left (i + 1) (n - size)).map fun r => (d, buf, size) :: r

/-- Fills buffers with a frame and writes their descriptors back (R415); the reserved bits [59:48] of word 1 keep what software wrote (R5). -/
def fillBuffers (pkg : Nat) (flags : Nat) : List (Nat × Nat × Nat) → List Byte → State → State
  | [], _, s => s
  | (d, buf, n) :: r, f, s =>
    let s := portWrite s (ddr pkg buf) (f.take n)
    let (w1, s) := portRead s (d + 8) 8
    let kept := fld (ofBytes w1) 48 12 * 2 ^ 48
    let s := portWrite s (d + 8) (toBytes 8 (2 ^ 63 + (if r.isEmpty then 2 ^ 62 else 0) + flags + kept + n))
    fillBuffers pkg flags r (f.drop n) s

/-- Priority of a frame: that of its IEEE 802.1Q tag, 0 without one. -/
def framePrio (f : List Byte) : Nat := match stripTag f with
  | (some t, _) => t / 2 ^ 13
  | (none, _) => 0

/-- Does a port honour and send priority flow control for a priority (R414)? -/
def pfcOn (s : State) (pkg port prio : Nat) : Bool := wbit (rawReg s (ioDie pkg) (ethBlk port)) (48 + prio)

/-- Is a priority of a port paused by its link partner (R413)? -/
def paused (s : State) (pkg port prio : Nat) : Bool := s.now < mget (pkgAt s pkg).pauses (8 * port + prio) 0

/-- Pauses a priority for a number of quanta of 512 bit times at 800 Gb/s, 64/25 cycles each (R413; PRESUMED, log 68). -/
def pausePrio (port quanta : Nat) (s : State) (pkg prio : Nat) : State :=
  let p := pkgAt s pkg
  setPkg s pkg { p with pauses := mset p.pauses (8 * port + prio) (s.now + quanta * 64 / 25) }

/-- A MAC control frame (R413; PRESUMED, log 68): a pause stops every priority, priority flow control those of its vector that PFCEN honours. -/
def macControl (s : State) (pkg port : Nat) (f : List Byte) : State :=
  if beAt f 14 2 = 0x0001 then (List.range 8).foldl (fun s q => pausePrio port (beAt f 16 2) s pkg q) s
  else if beAt f 14 2 = 0x0101 then
    ((List.range 8).filter fun q => (beAt f 16 2).testBit q && pfcOn s pkg port q).foldl
      (fun s q => pausePrio port (beAt f (18 + 2 * q) 2) s pkg q) s
  else s

/-- Is a port enabled (R414)? One that is not neither receives nor sends. -/
def ethOn (s : State) (pkg port : Nat) : Bool := wbit (rawReg s (ioDie pkg) (ethBlk port)) 63

/-- A frame leaves by a port; one that is not enabled sends nothing, and the frame is lost (R414; DESIGN CHOICE, log 68). -/
def sendFrame (s : State) (pkg port : Nat) (f : List Byte) : State :=
  let p := pkgAt s pkg
  if ethOn s pkg port then setPkg s pkg { p with out := p.out ++ [(port, f)] } else s

/-- A frame of priority flow control leaves a port, for the priorities of a vector, with one time for all. -/
def sendPfc (s : State) (pkg port vec quanta : Nat) : State :=
  let f := [0x01, 0x80, 0xC2, 0x00, 0x00, 0x01] ++ beBytes 6 (wfld (rawReg s (ioDie pkg) (ethBlk port)) 0 48) ++
    beBytes 2 0x8808 ++ beBytes 2 0x0101 ++ beBytes 2 vec ++
    (List.range 8).flatMap (fun q => beBytes 2 (if vec.testBit q then quanta else 0)) ++ List.replicate 26 0
  sendFrame s pkg port f

/-- The priorities for which a port sends flow control. -/
def pfcVec (s : State) (pkg port : Nat) : Nat := wfld (rawReg s (ioDie pkg) (ethBlk port)) 48 8

/-- A frame goes to its receive ring, or is dropped for want of a posted buffer (R414, R415); one that takes the last posted buffer makes the port
pause its priority, where PFCEN has it (DESIGN CHOICE, log 68). -/
def toRing (s : State) (pkg port : Nat) (tag : Option Nat) (f : List Byte) : State :=
  let h := frameHash s pkg port f
  let k := match h with
    | some x => wfld (rawReg s (ioDie pkg) (ethBlk port + 0x80 + x % 128 / 8 * 8)) (x % 8 * 8) 6
    | none => 0
  if !wbit (ringReg s pkg port false k 8) 63 then ethCount s pkg port 32
  else match takeBuffers s pkg port k (ringPosted s pkg port false k) (ringHead s pkg port false k) f.length with
    | none => ethCount s pkg port 32
    | some bufs =>
      let flags := (checksumOk f).toNat * 2 ^ 61 + tag.isSome.toNat * 2 ^ 60 + tag.getD 0 * 2 ^ 32 + h.getD 0 % 65536 * 65536
      let s := advanceHead (fillBuffers pkg flags bufs f s) pkg port false k bufs.length
      let prio := tag.getD 0 / 2 ^ 13
      if ringPosted s pkg port false k = 0 && pfcOn s pkg port prio then sendPfc s pkg port (2 ^ prio) 65535 else s

/-! ### Receive -/

/-- RDMA engine register, queue-pair entry and its words (R417). -/
def rdmaReg (s : State) (pkg off : Nat) : Word := rawReg s (ioDie pkg) (rdmaBlk + off)
def qpcPlace (s : State) (pkg qpn : Nat) : Nat := ddr pkg (wfld (rdmaReg s pkg 8) 7 45 * 128 + 128 * qpn)
def qpcWord (s : State) (pkg qpn i : Nat) : Word := readW s.mem (qpcPlace s pkg qpn + 8 * i)
def qpValid (s : State) (pkg qpn : Nat) : Bool := qpn < wfld (rdmaReg s pkg 0x10) 0 17 && wbit (qpcWord s pkg qpn 0) 63

/-- The operation of a base transport header's opcode (InfiniBand; PRESUMED, log 48): SEND, WRITE and READ in one or several packets, the
atomics, acknowledgements (10: receiver not ready), responses, and 16 for a congestion notification (R416); 17: another. -/
def bthOp (opc synd : Nat) : Nat :=
  if opc ≤ 0x02 ∨ opc = 0x04 ∨ opc = 0x64 then 0 else if opc = 0x03 ∨ opc = 0x05 ∨ opc = 0x65 then 1
  else if 0x06 ≤ opc ∧ opc ≤ 0x08 ∨ opc = 0x0A then 2 else if opc = 0x09 ∨ opc = 0x0B then 3
  else if opc = 0x0C then 4 else if opc = 0x13 then 5 else if opc = 0x14 then 6
  else if 0x0D ≤ opc ∧ opc ≤ 0x10 ∨ opc = 0x12 then 8
  else if opc = 0x11 then (if synd / 32 = 0 then 7 else if synd / 32 = 1 then 10 else 9) else if opc = 0x81 then 16 else 17

/-- Is a packet the first, the last of its message? -/
def bthFirst (opc : Nat) : Bool := !([0x01, 0x02, 0x03, 0x07, 0x08, 0x09, 0x0E, 0x0F].contains opc)
def bthLast (opc : Nat) : Bool := !([0x00, 0x01, 0x06, 0x07, 0x0D, 0x0E].contains opc)

/-- Bytes of the headers behind the base transport header, by opcode. -/
def extLen (opc : Nat) : Nat :=
  if opc = 0x03 ∨ opc = 0x05 ∨ opc = 0x09 ∨ opc = 0x0D ∨ opc = 0x0F ∨ opc = 0x10 ∨ opc = 0x11 then 4 else if opc = 0x64 then 8
  else if opc = 0x65 ∨ opc = 0x12 then 12 else if opc = 0x06 ∨ opc = 0x0A ∨ opc = 0x0C then 16
  else if opc = 0x0B then 20 else if opc = 0x13 ∨ opc = 0x14 then 28 else 0

/-- A RoCE v2 packet from its base transport header on, the invariant CRC taken off (PRESUMED, log 48). -/
def parseRoce (b : List Byte) : RocePacket :=
  let opc := beAt b 0 1
  let x := b.drop 12
  let ud := opc = 0x64 ∨ opc = 0x65
  let n := extLen opc
  let pad := beAt b 1 1 / 16 % 4
  let data := (x.drop n).take (x.length - n - pad)
  let at_ := opc = 0x13 ∨ opc = 0x14
  { op := bthOp opc (beAt x 0 1), qpn := BitVec.ofNat 24 (beAt b 5 3), psn := BitVec.ofNat 24 (beAt b 9 3)
    srcQp := if ud then BitVec.ofNat 24 (beAt x 5 3) else 0
    qkey := if ud then BitVec.ofNat 32 (beAt x 0 4) else 0
    key := BitVec.ofNat 32 (beAt x 8 4), va := BitVec.ofNat 64 (if 0x0D ≤ opc ∧ opc ≤ 0x12 then beAt x 1 3 else beAt x 0 8)
    len := BitVec.ofNat 32 (if at_ then 8 else beAt x 12 4)
    cmp := BitVec.ofNat 64 (beAt x 20 8), swp := BitVec.ofNat 64 (beAt x 12 8)
    imm := BitVec.ofNat 32 (if opc = 0x03 ∨ opc = 0x05 ∨ opc = 0x09 then beAt x 0 4 else if opc = 0x65 then beAt x 8 4
      else if opc = 0x0B then beAt x 16 4 else if opc = 0x11 then beAt x 0 1 % 32 else 0)
    data := if opc = 0x12 then (x.drop 4).take 8 |>.reverse else data
    first := bthFirst opc, last := bthLast opc }

/-- One bit of a CRC of 32 bits, the least significant first. -/
def crcBit (c : BitVec 32) : BitVec 32 := if c.getLsbD 0 then (c >>> 1) ^^^ 0xEDB88320 else c >>> 1

/-- The CRC of IEEE 802.3 over bytes. -/
def crc32 (bs : List Byte) : BitVec 32 :=
  ~~~(bs.foldl (fun c b => (List.range 8).foldl (fun c _ => crcBit c) (c ^^^ b.setWidth 32)) (0xFFFFFFFF : BitVec 32))

/-- The invariant CRC of the bytes from the IP header up to it: the fields that a router changes count as ones (PRESUMED, log 48). -/
def invariantCrc (v4 : Bool) (b : List Byte) : BitVec 32 :=
  let ones (off n : Nat) (b : List Byte) : List Byte := b.take off ++ List.replicate n 0xFF ++ b.drop (off + n)
  let h := if v4 then 20 else 40
  let b := if v4 then ones 1 1 (ones 8 1 (ones 10 2 b))
    else [b.getD 0 0 ||| 0x0F, 0xFF, 0xFF, 0xFF] ++ ones 3 1 (b.drop 4)
  crc32 (List.replicate 8 0xFF ++ ones (h + 12) 1 (ones (h + 6) 2 b))

/-- The RoCE v2 packet of a UDP datagram to port 4791, from its base transport header on, and whether its invariant CRC is right (R413). -/
def roceOf (f : List Byte) : Option (List Byte × Bool) := match ipInfo f with
  | none => none
  | some i => if i.proto != 17 then none else match i.l4 with
    | none => none
    | some (o, _) =>
      let n := beAt f (o + 4) 2
      if beAt f (o + 2) 2 = 4791 then
        some ((f.drop (o + 8)).take (n - 12),
          invariantCrc i.v4 ((f.drop 14).take (o + n - 4 - 14)) == BitVec.ofNat 32 (ofBytes ((f.drop (o + n - 4)).take 4)))
      else none

/-- The IP header of a frame without its tag: 20 bytes of IPv4, 40 of IPv6. -/
def ipHeader (f : List Byte) : List Byte := (f.drop 14).take (if beAt f 12 2 = 0x0800 then 20 else 40)

/-- Does a port accept a destination address (R414): its own, a group address, any with PROM set? -/
def acceptsMac (s : State) (pkg port : Nat) (f : List Byte) : Bool :=
  let ctl := rawReg s (ioDie pkg) (ethBlk port)
  wbit ctl 62 || beAt f 0 6 == wfld ctl 0 48 || beAt f 0 1 % 2 == 1

/-- ETH_FRAME_RECEIVE: a received frame is dropped for its FCS or length, or dispatched to steering, RDMA or a receive ring (R413). A
port that is not enabled receives nothing; a MAC control frame acts on what the port sends, and an RDMA packet with a bad invariant CRC is dropped
(PRESUMED, logs 48 and 68). -/
def execEthFrameReceive (pkg port : Nat) (frame : List Byte) (fcsOk : Bool) (s : State) : Host.Outcome State Fault Refusal :=
  if 2 ≤ port ∨ !ethOn s pkg port then .next s
  else if !fcsOk ∨ 9212 < frame.length ∨ frame.length < 60 then .next (ethCount s pkg port 0)
  else if !acceptsMac s pkg port frame then .next s
  else
    let (tag, f) := stripTag frame
    let p := pkgAt s pkg
    if beAt f 12 2 = 0x8808 then .next (macControl s pkg port f)
    else if beAt f 12 2 = 0x88B5 then .next (setPkg s pkg { p with steerQ := p.steerQ ++ [f] })
    else match (if wbit (rdmaReg s pkg 0) 63 then roceOf f else none) with
      | some (b, ok) =>
        if qpValid s pkg (beAt b 5 3) then .next (if ok then setPkg s pkg { p with roceQ := p.roceQ ++ [{ parseRoce b with ip := ipHeader f }] } else s)
        else .next (toRing s pkg port tag f)
      | none => .next (toRing s pkg port tag f)

/-- ETH_RX_TAIL: receive buffers are posted (R414, R415); a port whose ring had none posted lets the priorities that it pauses go on (DESIGN CHOICE,
log 68). -/
def execEthRxTail (pkg port ring : Nat) (v : Word) (s : State) : Host.Outcome State Fault Refusal :=
  if 2 ≤ port ∨ 64 ≤ ring then .next s
  else
    let t := storeReg s (ioDie pkg) (ethBlk port + 0x1000 + 0x20 * ring + 0x10) v
    if wbit (ringReg s pkg port false ring 8) 63 && ringPosted s pkg port false ring == 0 && ringPosted t pkg port false ring != 0 &&
        pfcVec s pkg port != 0 then .next (sendPfc t pkg port (pfcVec s pkg port) 0)
    else .next t

/-- ETH_TX_TAIL: transmit descriptors are posted (R414, R415). -/
def execEthTxTail (pkg port ring : Nat) (v : Word) (s : State) : Host.Outcome State Fault Refusal :=
  if 2 ≤ port ∨ 64 ≤ ring then .next s else .next (storeReg s (ioDie pkg) (ethBlk port + 0x2000 + 0x20 * ring + 0x10) v)

/-- A frame as it is sent (R415): checksums and tag inserted as its first descriptor says, padded to the least length. -/
def outFrame (w1 : Word) (f : List Byte) : List Byte :=
  let f := if wbit w1 17 then insertChecksums f else f
  let f := if wbit w1 18 then f.take 12 ++ [0x81, 0x00] ++ beBytes 2 (wfld w1 32 16) ++ f.drop 12 else f
  f ++ List.replicate (60 - f.length) 0

/-- The oldest frame of the RDMA engine that waits at a port and whose priority is no longer paused, and the others. -/
def dueHeld (s : State) (pkg port : Nat) : List (Nat × Nat × List Byte) → Option ((Nat × Nat × List Byte) × List (Nat × Nat × List Byte))
  | [] => none
  | h :: r =>
    if h.1 = port && !paused s pkg port h.2.1 then some (h, r)
    else (dueHeld s pkg port r).map fun x => (x.1, h :: x.2)

/-- Sends the RDMA frame that has waited longest for its priority at an enabled port. -/
def sendHeld (s : State) (pkg port : Nat) : Option State :=
  let p := pkgAt s pkg
  if !ethOn s pkg port then none else (dueHeld s pkg port p.held).map fun x => setPkg s pkg { p with out := p.out ++ [(port, x.1.2.2)], held := x.2 }

/-- The fragment of the oldest posted descriptor of a transmit ring is read and the descriptor written back; with its last fragment the frame is
sent, unless it is too long or a fragment has length 0 (R415); a frame of a paused priority waits (R413). -/
def transmitNext (s : State) (pkg port ring : Nat) : State :=
  let key := ringKey port true ring
  let d := descPlace s pkg port true ring (ringHead s pkg port true ring)
  let (bs, t) := portRead s d 16
  let w1 := nth (wordsOf 2 bs) 1
  let len := wfld w1 0 16
  let (frag, t) := portRead t (ddr pkg (wfld (nth (wordsOf 2 bs) 0) 0 52)) len
  let p := pkgAt t pkg
  let (got, bad, first) := mget p.txBuf key ([], false, w1)
  let all := got ++ frag
  let f := outFrame first all
  let eop := wbit w1 16
  let bad := bad || len == 0 || (eop && 9212 < f.length)
  if eop && !bad && paused s pkg port (framePrio f) then s
  else
    let w1' := if len = 0 then putBit w1 62 true else putBit (if eop && bad then putBit w1 62 true else w1) 63 true
    let t := portWrite t (d + 8) (toBytes 8 w1'.toNat)
    let p := { p with txBuf := if eop then mdel p.txBuf key else mset p.txBuf key (all, bad, first)
                      out := if eop && !bad then p.out ++ [(port, f)] else p.out }
    advanceHead (setPkg t pkg p) pkg port true ring 1

/-- ETH_TRANSMIT: a port sends (R415): first a frame of the RDMA engine that has waited for its priority (R413), else from the ring. -/
def execEthTransmit (pkg port ring : Nat) (s : State) : Host.Outcome State Fault Refusal :=
  match sendHeld s pkg port with
  | some t => .next t
  | none =>
    if 2 ≤ port ∨ 64 ≤ ring ∨ !ethOn s pkg port ∨ !wbit (ringReg s pkg port true ring 8) 63 ∨
        ringPosted s pkg port true ring = 0 then .next s
    else .next (transmitNext s pkg port ring)

/-! ### Steering -/

/-- Registers of a steering rule (R165). -/
def strReg (s : State) (pkg rule off : Nat) : Word := rawReg s (ioDie pkg) (strBlk + 0x20 * rule + off)

/-- STR_CTL_WRITE: a write that sets V is ignored for bad geometry, else it sets W to 0 (R165), also where V was set already, and the cached
consumed count with it, as the consumed word is expected to be (DEDUCED, log 29). -/
def execStrCtlWrite (pkg rule : Nat) (v : Word) (s : State) : Host.Outcome State Fault Refusal :=
  let lg := wfld v 53 5
  if 256 ≤ rule ∨ !wbit v 63 ∨ lg < 6 ∨ 16 < lg ∨ wfld v 32 21 < 2 ∨ wfld (strReg s pkg rule 8) 0 57 % 2 ^ lg != 0 then .next s
  else
    let s := storeReg s (ioDie pkg) (strBlk + 0x20 * rule) v
    let p := pkgAt s pkg
    .next (setPkg s pkg { p with str := mset p.str rule (0, 0, (mget p.str rule (0, 0, 0)).2.2) })

/-- One packet dropped by a rule (R166). -/
def steerDrop (s : State) (pkg rule : Nat) : State :=
  let p := pkgAt s pkg
  let (w, c, d) := mget p.str rule (0, 0, 0)
  setPkg s pkg { p with str := mset p.str rule (w, c, (d + 1) % 2 ^ 32) }

/-- A rule fails (R166, R167): ERR, the drop, and a steering-fault event with the record. -/
def steerFail (s : State) (pkg rule : Nat) (r : FRec) : State :=
  let io := ioDie pkg
  let s := setRaw s io (strBlk + 0x20 * rule) (putBit (strReg s pkg rule 0) 62 true)
  postEvent (steerDrop s pkg rule) io (withRec (mkEvent s io 0x0B (BitVec.ofNat 64 rule) 0) r)

/-- Places left in a rule's inbox. -/
def steerRoom (nslot w c : Nat) : Nat := (nslot - 1 + 2 ^ 64 - (w + 2 ^ 64 - c) % 2 ^ 64) % 2 ^ 64

/-- Steer of R166, with the room known. -/
def steerWrite (s : State) (pkg rule arr len : Nat) (payload : List Byte) : State :=
  let ctl := strReg s pkg rule 0
  let (w0, c, d) := mget (pkgAt s pkg).str rule (0, 0, 0)
  let w := (w0 + 1) % 2 ^ 64
  let slot := 1 + w0 % (wfld ctl 32 21 - 1)
  let va := wfld (strReg s pkg rule 8) 0 57 + slot * 2 ^ wfld ctl 53 5
  let q := agentReq (ioDie pkg) 0 (wfld ctl 0 16) (wfld ctl 58 4) .ewr va (16 + len)
  match writeNow s q (toBytes 8 w ++ toBytes 8 len ++ payload) with
  | (.fault r, s) => steerFail s pkg rule r
  | (.ok _, s) =>
    let p := pkgAt s pkg
    let s := setPkg s pkg { p with str := mset p.str rule (w, c, d) }
    let join := strReg s pkg rule 0x10
    if arr = 1 && joinValid join then
      sendMsg s (ioDie pkg) (.arrival ⟨join &&& 0xFFFFFF, 1, wfld ctl 0 16, wfld ctl 58 4⟩)
    else s

/-- One launch packet (R166): the header's KEY, LEN, RULE and VER are judged, the consumed word is read when the inbox looks full.
Payload bytes that the frame does not hold are free values (DESIGN CHOICE, log 3). -/
def steer (s : State) (pkg : Nat) (f : List Byte) : State :=
  let b := f.drop 14
  let w0 := BitVec.ofNat 64 (ofBytes (b.take 8))
  let rule := wfld w0 8 8
  let len := wfld w0 16 16
  let ctl := strReg s pkg rule 0
  let arr := ofBytes ((b.drop 8).take 1) % 2
  let have_ := (b.drop 16).take len
  let payload := have_ ++ (List.range (len - have_.length)).map (Config.freeByte (s.fresh + 1))
  let s := { s with fresh := if have_.length < len then s.fresh + 1 else s.fresh }
  let nslot := wfld ctl 32 21
  let (w, c, d) := mget (pkgAt s pkg).str rule (0, 0, 0)
  if wfld w0 0 8 != 1 ∨ !wbit ctl 63 ∨ wbit ctl 62 ∨ wfld w0 32 32 != wfld (strReg s pkg rule 0x18) 0 32 ∨
      2 ^ wfld ctl 53 5 - 16 < len then steerDrop s pkg rule
  else if steerRoom nslot w c != 0 then steerWrite s pkg rule arr len payload
  else match readNow s (agentReq (ioDie pkg) 0 (wfld ctl 0 16) (wfld ctl 58 4) .erd (wfld (strReg s pkg rule 8) 0 57) 8) with
    | (.fault r, s) => steerFail s pkg rule r
    | (.ok bs, s) =>
      let c := ofBytes bs
      let p := pkgAt s pkg
      let s := setPkg s pkg { p with str := mset p.str rule (w, c, d) }
      if steerRoom nslot w c = 0 then steerDrop s pkg rule else steerWrite s pkg rule arr len payload

/-- STEER_PACKET: the steering engine handles the oldest packet handed to it (R166). -/
def execSteerPacket (pkg : Nat) (s : State) : Host.Outcome State Fault Refusal :=
  unlessHeld s <|
  let p := pkgAt s pkg
  match p.steerQ with
  | [] => .next s
  | f :: r => .next (steer (setPkg s pkg { p with steerQ := r }) pkg f)

/-! ### Device requests -/

/-- Completion statuses of a device read: success, Unsupported Request, Completer Abort (R420). -/
def devDone (s : State) (pkg rid status : Nat) (bs : List Byte) : State :=
  let p := pkgAt s pkg
  setPkg s pkg { p with devReads := p.devReads ++ [(rid, status, bs)] }

/-- Is a write of a device held (R47)? -/
def writeHeld (s : State) (pkg rid : Nat) : Bool := s.heldReqs.any fun h => match h with
  | .device p r w _ _ _ => p == pkg && r == rid && w
  | _ => false

/-- PCIE_DEVICE_REQUEST: a device's memory request is an interrupt, is unsupported, or is translated through the RID table (R420)
(PRESUMED, log 34); a request that is unsupported or aborted is logged at its root port (R419; PRESUMED, log 67). A request whose access is held waits (R47), and so does an interrupt while an earlier
write of its device does (R420). -/
def execPcieDeviceRequest (pkg rid : Nat) (write : Bool) (addr : Word) (n : Nat) (data : List Byte) (s : State) :
    Host.Outcome State Fault Refusal :=
  orHold s (.device pkg rid write addr n data) <|
  match (if write then interruptFile addr.toNat else none) with
  | some f =>
    if data.length != 4 then .next s
    else if writeHeld s pkg rid then .next { s with held := true }
    else .next (setPending s pkg f (ofBytes data))
  | none =>
    let base := wfld (rawReg s (ioDie pkg) (rcBlk + 8)) 19 33 * 2 ^ 19
    let (bs, s) := portRead s (ddr pkg (base + 8 * (rid % 65536))) 8
    let e := BitVec.ofNat 64 (ofBytes bs)
    let q := agentReq (ioDie pkg) 2 (wfld e 0 16) (wfld e 16 4) (if write then .ewr else .erd) addr.toNat n
    if !wbit e 63 ∨ wfld addr 57 7 != 0 then .next (logError (if write then s else devDone s pkg rid 1 []) pkg rid 20)
    else if write then .next (writeNow s q data).2
    else match readNow s q with
      | (.fault _, s) => .next (logError (devDone s pkg rid 4 []) pkg rid 15)
      | (.ok bs, s) => .next (devDone s pkg rid 0 bs)

end Sys2Proof.Machine
end

