-- ==== Sys2Proof/Machine/Rdma.lean ====
section
/-! DEFINITION. The RDMA engine (R416 to R418). What the InfiniBand specification adds (packet formats, segmentation, acknowledgement, negative
acknowledgement codes, duplicates) is PRESUMED, log 48. -/
namespace Sys2Proof.Machine

/-! ### Tables -/

/-- Is the engine enabled (R417)? -/
def rdmaOn (s : State) (pkg : Nat) : Bool := wbit (rdmaReg s pkg 0) 63

/-- Fields of a queue pair's entry (R417). -/
def qpState (s : State) (pkg n : Nat) : Nat := wfld (qpcWord s pkg n 0) 60 3
def qpUd (s : State) (pkg n : Nat) : Bool := wbit (qpcWord s pkg n 0) 59
def qpPort (s : State) (pkg n : Nat) : Nat := wfld (qpcWord s pkg n 0) 58 1
def qpAsid (s : State) (pkg n : Nat) : Nat := wfld (qpcWord s pkg n 0) 36 16
def qpGen (s : State) (pkg n : Nat) : Nat := wfld (qpcWord s pkg n 0) 52 4
def qpDqpn (s : State) (pkg n : Nat) : Nat := wfld (qpcWord s pkg n 0) 0 24

/-- A request of the engine for a queue pair (R31, R416). -/
def qpReq (s : State) (pkg n : Nat) (acc : Acc) (va len : Nat) : Req := agentReq (ioDie pkg) 1 (qpAsid s pkg n) (qpGen s pkg n) acc va len

/-- The engine's own state of a pair, from SPSN and RPSN when it has just become valid: word 10 of its entry is zero before V is set, and not zero
once the engine keeps a state for it (R417; DESIGN CHOICE, log 48). -/
def qpNow (s : State) (pkg n : Nat) : Qp :=
  if !qpValid s pkg n then Qp.reset
  else
    let q := mget (pkgAt s pkg).qps n Qp.reset
    if q.live && qpcWord s pkg n 10 != 0 then q
    else { Qp.reset with live := true, psn := wfld (qpcWord s pkg n 4) 0 24, epsn := wfld (qpcWord s pkg n 5) 0 24, rate := 800000 }

/-- The engine's words of an entry show that it keeps a state for the pair. -/
def markQp (s : State) (pkg n : Nat) : State :=
  if qpcWord s pkg n 10 = 0 then { s with mem := writeN s.mem (qpcPlace s pkg n + 80) 8 1 } else s

def putQp (s : State) (pkg n : Nat) (q : Qp) : State :=
  let p := pkgAt s pkg
  setPkg (markQp s pkg n) pkg { p with qps := mset p.qps n q }

/-- A pair whose V is clear has no engine state (R417). -/
def forgetQp (s : State) (pkg n : Nat) : State :=
  let p := pkgAt s pkg
  setPkg s pkg { p with qps := mdel p.qps n }

/-- Entries of a queue (R417), and the VA of entry i (R418). -/
def queueSize (s : State) (pkg n : Nat) (rq : Bool) : Nat := 2 ^ (wfld (qpcWord s pkg n 3) (if rq then 4 else 0) 4 + 4)
def wqeVa (s : State) (pkg n : Nat) (rq : Bool) (i : Nat) : Nat :=
  wfld (qpcWord s pkg n (if rq then 2 else 1)) 0 57 + 64 * (i % queueSize s pkg n rq)

/-- Reads a work request. -/
def readWqe (s : State) (pkg n : Nat) (rq : Bool) (i : Nat) : Option (List Word) × State :=
  match readNow s (qpReq s pkg n .erd (wqeVa s pkg n rq i) 64) with
  | (.ok bs, s) => (some (wordsOf 8 bs), s)
  | (.fault _, s) => (none, s)

/-- Is an access under a key permitted (R417)? `perm` is the operation's bit in word 2 of the region's entry. -/
def keyOk (s : State) (pkg n key va len : Nat) (perm : Option Nat) : Bool :=
  let i := key / 256
  let e := ddr pkg (wfld (rdmaReg s pkg 0x18) 5 47 * 32 + 32 * i)
  let w2 := readW s.mem (e + 16)
  let base := wfld (readW s.mem e) 0 57
  i < wfld (rdmaReg s pkg 0x20) 0 24 && wbit w2 63 && wfld w2 0 8 == key % 256 && wfld w2 36 16 == qpAsid s pkg n &&
    wfld w2 52 4 == qpGen s pkg n && base ≤ va && va + len ≤ base + (readW s.mem (e + 8)).toNat && (perm.all fun b => wbit w2 b)

/-! ### Frames -/

/-- An address handle (R417): destination address, UDP source port, destination station, traffic class and port. -/
structure AddrHandle where
  dip : List Byte
  sport : Nat
  dmac : Nat
  tc : Nat
  port : Nat
  deriving DecidableEq, Repr

/-- The address handle of an index, none beyond AHT_N (R417). -/
def ahAt (s : State) (pkg i : Nat) : Option AddrHandle :=
  let e := ddr pkg (wfld (rdmaReg s pkg 0x38) 5 47 * 32 + 32 * i)
  let w2 := readW s.mem (e + 16)
  let w3 := readW s.mem (e + 24)
  if i < wfld (rdmaReg s pkg 0x40) 0 16 then some ⟨readBytes s.mem e 16, wfld w2 48 16, wfld w2 0 48, wfld w3 8 8, wfld w3 0 1⟩ else none

/-- The address handle of a reliable pair's remote end, with the pair's own port and traffic class (R417). -/
def qpAh (s : State) (pkg n : Nat) : Option AddrHandle :=
  (ahAt s pkg (wfld (qpcWord s pkg n 3) 8 16)).map fun h => { h with port := qpPort s pkg n, tc := wfld (qpcWord s pkg n 3) 24 8 }

/-- The opcode of a packet's base transport header (InfiniBand; PRESUMED, log 48). -/
def opcodeOf (ud : Bool) (p : RocePacket) : Nat :=
  let pick (f m l o : Nat) : Nat := if p.first then (if p.last then o else f) else if p.last then l else m
  match p.op with
  | 0 => if ud then 0x64 else pick 0x00 0x01 0x02 0x04
  | 1 => if ud then 0x65 else pick 0x00 0x01 0x03 0x05
  | 2 => pick 0x06 0x07 0x08 0x0A
  | 3 => pick 0x06 0x07 0x09 0x0B
  | 4 => 0x0C
  | 5 => 0x13
  | 6 => 0x14
  | 8 => if p.key != 0 then 0x12 else pick 0x0D 0x0E 0x0F 0x10
  | 16 => 0x81
  | _ => 0x11

/-- The headers behind the base transport header. -/
def extBytes (opc : Nat) (p : RocePacket) : List Byte :=
  let reth := beBytes 8 p.va.toNat ++ beBytes 4 p.key.toNat ++ beBytes 4 p.len.toNat
  let deth := beBytes 4 p.qkey.toNat ++ beBytes 4 p.srcQp.toNat
  let imm := beBytes 4 p.imm.toNat
  let aeth := beBytes 1 (if p.op = 9 then 96 + p.imm.toNat % 32 else if p.op = 10 then 32 + p.imm.toNat % 32 else 31) ++ beBytes 3 p.va.toNat
  match opc with
  | 0x03 | 0x05 | 0x09 => imm
  | 0x64 => deth
  | 0x65 => deth ++ imm
  | 0x06 | 0x0A | 0x0C => reth
  | 0x0B => reth ++ imm
  | 0x13 | 0x14 => beBytes 8 p.va.toNat ++ beBytes 4 p.key.toNat ++ beBytes 8 p.swp.toNat ++ beBytes 8 p.cmp.toNat
  | 0x0D | 0x0F | 0x10 | 0x11 | 0x12 => aeth
  | _ => []

/-- A packet from its base transport header on, without the invariant CRC: it asks for an acknowledgement when it is a request's last. -/
def roceBytes (ud : Bool) (p : RocePacket) : List Byte :=
  let opc := opcodeOf ud p
  let data := if opc = 0x12 then p.data.reverse else p.data
  let pad := (4 - data.length % 4) % 4
  beBytes 1 opc ++ beBytes 1 (64 + 16 * pad) ++ [0xFF, 0xFF, 0] ++ beBytes 3 p.qpn.toNat ++
    beBytes 1 (if p.op ≤ 6 && p.last && !ud then 128 else 0) ++ beBytes 3 p.psn.toNat ++ extBytes opc p ++ data ++ List.replicate pad 0

/-- The port's own address for RDMA: its bytes 0 to 15, the lowest bits of a register first (R414; DEDUCED, log 48). -/
def portIp (s : State) (pkg port : Nat) : List Byte :=
  bytesOf [rawReg s (ioDie pkg) (ethBlk port + 0x18), rawReg s (ioDie pkg) (ethBlk port + 0x10)]

/-- Is an address an IPv4-mapped one? -/
def mappedV4 (a : List Byte) : Bool := a.take 12 == List.replicate 10 0 ++ [0xFF, 0xFF]

/-- The frame of a packet to the end that a handle names (R416, R417; PRESUMED, log 48): Ethernet, IPv4 or IPv6, UDP to port 4791, the packet and its
invariant CRC. -/
def roceFrame (s : State) (pkg : Nat) (ud : Bool) (h : AddrHandle) (p : RocePacket) : List Byte :=
  let b := roceBytes ud p
  let n := b.length + 12
  let udp := beBytes 2 h.sport ++ beBytes 2 4791 ++ beBytes 2 n ++ [0, 0]
  let src := portIp s pkg h.port
  let v4 := mappedV4 h.dip
  let ip := if v4 then
      let x := [0x45] ++ beBytes 1 h.tc ++ beBytes 2 (20 + n) ++ [0, 0, 0x40, 0, 64, 17, 0, 0] ++ src.drop 12 ++ h.dip.drop 12
      putBE16 x 10 (65535 - fold16 (sum16 x))
    else beBytes 4 (6 * 2 ^ 28 + h.tc * 2 ^ 20) ++ beBytes 2 n ++ [17, 64] ++ src ++ h.dip
  let body := ip ++ udp ++ b
  let f := beBytes 6 h.dmac ++ beBytes 6 (wfld (rawReg s (ioDie pkg) (ethBlk h.port)) 0 48) ++ (if v4 then [0x08, 0x00] else [0x86, 0xDD]) ++
    body ++ toBytes 4 (invariantCrc v4 body).toNat
  f ++ List.replicate (60 - f.length) 0

/-- A packet of a pair leaves by the port of a handle, if that is enabled; while its priority is paused there its frame waits (R413, R414, R417). -/
def sendRoce (s : State) (pkg n : Nat) (h : AddrHandle) (p : RocePacket) : State :=
  let k := pkgAt s pkg
  let f := roceFrame s pkg (qpUd s pkg n) h p
  if !ethOn s pkg h.port then s
  else
    let s := setPkg s pkg { k with outRoce := k.outRoce ++ [(h.port, p)]
                                   held := if paused s pkg h.port (h.tc / 32) then k.held ++ [(h.port, h.tc / 32, f)] else k.held }
    if paused s pkg h.port (h.tc / 32) then s else sendFrame s pkg h.port f

/-! ### Completions -/

/-- Sent requests that have ended leave in order: their completions are due when SIG is set or they failed (R418). -/
def emitSent : List RdmaSent → List RdmaSent × List RdmaDone
  | [] => ([], [])
  | x :: r => match x.fin with
    | none => (x :: r, [])
    | some (st, n) =>
      let (rest, ds) := emitSent r
      (rest, if x.sig || st != 0 then ⟨false, x.opc, st, 0, n, 0, x.idx⟩ :: ds else ds)

def emit (q : Qp) : Qp :=
  let (rest, ds) := emitSent q.sent
  { q with sent := rest, due := q.due ++ ds }

/-- The posted entries of a queue end with status 5; one that cannot be read shows a free operation code (DESIGN CHOICE, log 3). -/
def flushPosted (pkg n : Nat) (rq : Bool) : Nat → Nat → State → State
  | 0, _, s => s
  | left + 1, i, s =>
    let (w, s) := readWqe s pkg n rq i
    let opc := match w with
      | some ws => wfld (nth ws 0) 56 8
      | none => wfld (Config.freeWord (s.fresh + 1)) 0 8
    let s := { s with fresh := if w.isNone then s.fresh + 1 else s.fresh }
    let q := qpNow s pkg n
    let s := putQp s pkg n { q with due := q.due ++ [⟨rq, if rq then 7 else opc, 5, 0, 0, 0, i⟩] }
    flushPosted pkg n rq left ((i + 1) % 65536) s

/-- A pair enters the error state: every outstanding work request ends with status 5 (R416, R418). -/
def pairError (s : State) (pkg n : Nat) : State :=
  let s := portWrite s (qpcPlace s pkg n) (toBytes 8 (putFld (qpcWord s pkg n 0) 60 3 4).toNat)
  let q := qpNow s pkg n
  let q := emit { q with sent := q.sent.map fun x => if x.fin.isNone then { x with fin := some (5, 0) } else x }
  let s := putQp s pkg n { q with sqCi := q.sqPi, rqCi := q.rqPi }
  let s := flushPosted pkg n false ((q.sqPi + 65536 - q.sqCi) % 65536) q.sqCi s
  flushPosted pkg n true ((q.rqPi + 65536 - q.rqCi) % 65536) q.rqCi s

/-- A translation fault moves a reliable pair to the error state (R416). -/
def faultPair (s : State) (pkg n : Nat) : State := if qpUd s pkg n then s else pairError s pkg n

/-! ### Sending -/

/-- Bytes of a packet's payload at most: the greatest of InfiniBand (DESIGN CHOICE, log 48). -/
def roceMtu : Nat := 4096

/-- Packets of a message. -/
def packetsOf (len : Nat) : Nat := max 1 (ceilDiv len roceMtu)

/-- What a work request comes to: the packets and the handle of the end they go to, or the status that ends it. -/
inductive Built where
  | ok (h : AddrHandle) (ps : List RocePacket)
  | bad (status : Nat)

/-- The packets of a message's data: the operation with immediate data only at the last. -/
def segments (p : RocePacket) (data : List Byte) : List RocePacket :=
  let k := packetsOf data.length
  (List.range k).map fun i =>
    { p with
      op := if i + 1 < k ∧ (p.op = 1 ∨ p.op = 3) then p.op - 1 else p.op
      psn := p.psn + BitVec.ofNat 24 i
      data := (data.drop (roceMtu * i)).take roceMtu
      first := i = 0, last := i + 1 = k }

/-- The packets of a send request with a sequence number, of a READ from byte `got` on (R416 to R418). A handle beyond AHT_N ends the request with
status 1 (DESIGN CHOICE, log 34). -/
def buildSend (s : State) (pkg n : Nat) (ws : List Word) (psn got : Nat) : Built × State :=
  let opc := wfld (nth ws 0) 56 8
  let len := wfld (nth ws 0) 0 32
  let lva := wfld (nth ws 1) 0 57
  let lkey := wfld (nth ws 2) 0 32
  let ud := qpUd s pkg n
  if 7 ≤ opc ∨ (ud ∧ 2 ≤ opc) then (.bad 3, s)
  else if 5 ≤ opc ∧ len != 8 ∨ ud ∧ roceMtu < len then (.bad 7, s)
  else if len != 0 ∧ !keyOk s pkg n lkey lva len (if 4 ≤ opc then some 59 else none) then (.bad 1, s)
  else match (if ud then ahAt s pkg (wfld (nth ws 7) 0 16) else qpAh s pkg n) with
    | none => (.bad 1, s)
    | some h =>
      let p : RocePacket :=
        { op := opc, qpn := BitVec.ofNat 24 (if ud then wfld (nth ws 6) 0 24 else qpDqpn s pkg n), psn := BitVec.ofNat 24 psn
          srcQp := BitVec.ofNat 24 n, qkey := BitVec.ofNat 32 (wfld (qpcWord s pkg n 4) 32 32)
          key := BitVec.ofNat 32 (wfld (nth ws 2) 32 32), va := BitVec.ofNat 64 (wfld (nth ws 3) 0 57 + got), len := BitVec.ofNat 32 (len - got)
          cmp := nth ws 4, swp := if opc = 5 then nth ws 5 else nth ws 4
          imm := BitVec.ofNat 32 (wfld (nth ws 4) 0 32), data := [] }
      if 4 ≤ opc ∨ len = 0 then (.ok h [p], s)
      else match readNow s (qpReq s pkg n .erd lva len) with
        | (.ok bs, s) => (.ok h (segments p bs), s)
        | (.fault _, s) => (.bad 6, s)

/-- One posted send request is begun: it is sent, or it ends with a status (R416, R418). -/
def beginSend (s : State) (pkg n : Nat) (ws : List Word) : State :=
  let q := qpNow s pkg n
  let opc := wfld (nth ws 0) 56 8
  let len := wfld (nth ws 0) 0 32
  let np := if 5 ≤ opc then 1 else packetsOf len
  let x : RdmaSent := ⟨q.sqCi, q.psn, opc, wbit (nth ws 0) 55, len, wfld (nth ws 1) 0 57, wfld (nth ws 2) 0 32, none, np, 0⟩
  let next := (q.sqCi + 1) % 65536
  match buildSend s pkg n ws q.psn 0 with
  | (.ok h ps, s) =>
    let x := if qpUd s pkg n then { x with fin := some (0, len) } else x
    let q := { q with sqCi := next, psn := (q.psn + np) % 2 ^ 24, sent := q.sent ++ [x], sentAt := s.now }
    ps.foldl (fun s p => sendRoce s pkg n h p) (putQp s pkg n (emit q))
  | (.bad st, s) =>
    let s := putQp s pkg n (emit { q with sqCi := next, sent := q.sent ++ [{ x with fin := some (st, 0) }] })
    if st = 6 then faultPair s pkg n else s

/-- Posted send requests are begun in order; one with FENCE waits for earlier READs and atomics (R418), and all while the far receiver is not ready. -/
def runSend (pkg n : Nat) : Nat → State → State
  | 0, s => s
  | fuel + 1, s =>
    let q := qpNow s pkg n
    if qpState s pkg n != 3 ∨ q.sqCi = q.sqPi ∨ q.rnr.isSome then s
    else match readWqe s pkg n false q.sqCi with
      | (none, s) =>
        let opc := wfld (Config.freeWord (s.fresh + 1)) 0 8
        let x : RdmaSent := ⟨q.sqCi, q.psn, opc, true, 0, 0, 0, some (6, 0), 1, 0⟩
        let s := putQp { s with fresh := s.fresh + 1 } pkg n (emit { q with sqCi := (q.sqCi + 1) % 65536, sent := q.sent ++ [x] })
        runSend pkg n fuel (faultPair s pkg n)
      | (some ws, s) =>
        if wbit (nth ws 0) 54 && q.sent.any fun x => 4 ≤ x.opc && x.fin.isNone then s
        else runSend pkg n fuel (beginSend s pkg n ws)

/-- What the indices of a pair ask for: posted requests are begun, or ended when the pair is in the error state (R418). -/
def serveQp (s : State) (pkg n : Nat) : State :=
  let q := qpNow s pkg n
  if qpState s pkg n = 4 then pairError s pkg n
  else runSend pkg n ((q.sqPi + 65536 - q.sqCi) % 65536) s

/-- Is an earlier doorbell of a queue pair held (R47)? -/
def doorbellHeld (s : State) (pkg n : Nat) : Bool := s.heldReqs.any fun h => match h with
  | .doorbell p v => p == pkg && wfld v 16 16 == n
  | _ => false

/-- RDMA_DOORBELL: a write to RDMA_DB posts work requests (R417, R418); an engine that is not enabled takes none. One whose accesses are held waits,
and the pair's later ones behind it (R47). -/
def execRdmaDoorbell (pkg : Nat) (v : Word) (s : State) : Host.Outcome State Fault Refusal :=
  orHold s (.doorbell pkg v) <|
  let n := wfld v 16 16
  if doorbellHeld s pkg n then .next { s with held := true }
  else if !rdmaOn s pkg then .next s
  else if !qpValid s pkg n then .next (forgetQp s pkg n)
  else
    let q := qpNow s pkg n
    let pi := wfld v 0 16
    .next (serveQp (putQp s pkg n (if wbit v 63 then { q with rqPi := pi } else { q with sqPi := pi })) pkg n)

/-- RDMA_DBW_POLL: every POLLI × 1024 cycles the engine reads the doorbell word of a pair that polls (R418). -/
def execRdmaDbwPoll (pkg qpn : Nat) (s : State) : Host.Outcome State Fault Refusal :=
  unlessHeld s <|
  let q := qpNow s pkg qpn
  let every := 1024 * max 1 (wfld (qpcWord s pkg qpn 9) 0 16)
  if !rdmaOn s pkg then .next s
  else if !qpValid s pkg qpn then .next (forgetQp s pkg qpn)
  else if !wbit (qpcWord s pkg qpn 0) 57 ∨ s.now < q.pollAt + every then .next s
  else
    let s := putQp s pkg qpn { q with pollAt := s.now }
    match readNow s (qpReq s pkg qpn .erd (wfld (qpcWord s pkg qpn 8) 0 57) 8) with
    | (.fault _, s) => .next (faultPair s pkg qpn)
    | (.ok bs, s) =>
      let w := BitVec.ofNat 64 (ofBytes bs)
      .next (serveQp (putQp s pkg qpn { qpNow s pkg qpn with sqPi := wfld w 0 16, rqPi := wfld w 32 16 }) pkg qpn)

/-! ### Receiving -/

/-- A packet is dropped and counted in DROP (R417). -/
def roceDrop (s : State) (pkg : Nat) : State :=
  let k := pkgAt s pkg
  setPkg s pkg { k with rdDrop := k.rdDrop + 1 }

/-- An answer of a reliable pair: 7 acknowledgement, 8 response, 9 negative acknowledgement with its code, 10 receiver not ready
with its timer; a response to a READ in its packets, one to an ATOMIC marked by a key; each with the pair's message sequence number (InfiniBand;
PRESUMED, log 48). A pair whose handle lies beyond AHT_N sends none. -/
def answer (s : State) (pkg n op code psn : Nat) (data : List Byte) (atomic : Bool) : State :=
  let p : RocePacket :=
    { op := op, qpn := BitVec.ofNat 24 (qpDqpn s pkg n), psn := BitVec.ofNat 24 psn, srcQp := BitVec.ofNat 24 n, qkey := 0
      key := if atomic then 1 else 0, va := BitVec.ofNat 64 (qpNow s pkg n).msn, len := BitVec.ofNat 32 data.length, cmp := 0, swp := 0, imm := BitVec.ofNat 32 code, data := [] }
  match qpAh s pkg n with
  | none => s
  | some h => (segments p data).foldl (fun s p => sendRoce s pkg n h p) s

/-- The packet in order has been executed: the next sequence number is expected, and an answer goes back, which counts a message that is complete. -/
def accepted (s : State) (pkg n op psn np : Nat) (data : List Byte) (atomic complete : Bool) : State :=
  let q := qpNow s pkg n
  if qpUd s pkg n then s
  else
    let q := { q with epsn := (psn + np) % 2 ^ 24, msn := if complete then (q.msn + 1) % 2 ^ 24 else q.msn }
    answer (putQp s pkg n q) pkg n op 0 psn data atomic

/-- A request is refused with a code; a message that it was a part of ends. One refused for its key is a packet dropped (R417 DROP). -/
def refused (s : State) (pkg n code psn : Nat) : State :=
  let s := if code = 2 then roceDrop s pkg else s
  if qpUd s pkg n then s else answer (putQp s pkg n { qpNow s pkg n with cur := none }) pkg n 9 code psn [] false

/-- What a pair is receiving is replaced. -/
def putCur (s : State) (pkg n : Nat) (c : Option RdmaCur) : State := putQp s pkg n { qpNow s pkg n with cur := c }

/-- A receive request ends (R418). -/
def endRecv (s : State) (pkg n status bytes : Nat) (p : RocePacket) : State :=
  let q := qpNow s pkg n
  putQp s pkg n { q with
    rqCi := (q.rqCi + 1) % 65536
    cur := none
    due := q.due ++ [⟨true, 7, status, if p.op = 1 ∨ p.op = 3 then p.imm.toNat else 0, bytes, if qpUd s pkg n then p.srcQp.toNat else 0, q.rqCi⟩] }

/-- Does a packet continue what a pair receives: its first packet finds nothing begun, another a message of its kind? -/
def continues (q : Qp) (p : RocePacket) (write : Bool) : Bool := match q.cur with
  | none => p.first
  | some c => !p.first && c.write == write

/-- What stands before a datagram's data in its receive buffer: 40 bytes that end with its IP header, free where it gives none (InfiniBand and its
Annex A17; PRESUMED, log 48). -/
def gatherHeader (s : State) (p : RocePacket) : List Byte × State :=
  let n := 40 - p.ip.length
  if n = 0 then (p.ip.take 40, s)
  else ((List.range n).map (Config.freeByte (s.fresh + 1)) ++ p.ip, { s with fresh := s.fresh + 1 })

/-- A packet of a SEND goes to the next posted receive request, a datagram behind its header; with the last one the request ends (R416 to R418). -/
def recvSend (s : State) (pkg n : Nat) (p : RocePacket) : State :=
  let q := qpNow s pkg n
  let psn := p.psn.toNat
  let got := (q.cur.map fun c => c.got).getD 0
  if q.rqCi = q.rqPi then (if qpUd s pkg n then s else answer s pkg n 10 Config.rnrTimer.toNat psn [] false)
  else if !continues q p false then refused s pkg n 1 psn
  else match readWqe s pkg n true q.rqCi with
    | (none, s) => faultPair (refused (endRecv s pkg n 6 0 p) pkg n 3 psn) pkg n
    | (some ws, s) =>
      let (header, s) := if qpUd s pkg n then gatherHeader s p else ([], s)
      let data := header ++ p.data
      let len := data.length
      let va := wfld (nth ws 1) 0 57 + got
      if wfld (nth ws 0) 56 8 != 7 then refused (endRecv s pkg n 3 0 p) pkg n 3 psn
      else if wfld (nth ws 0) 0 32 < got + len then refused (endRecv s pkg n 7 0 p) pkg n 1 psn
      else if len != 0 ∧ !keyOk s pkg n (wfld (nth ws 2) 0 32) va len (some 59) then
        refused (endRecv s pkg n 1 0 p) pkg n 3 psn
      else match writeNow s (qpReq s pkg n .ewr va len) data with
        | (.fault _, s) => faultPair (refused (endRecv s pkg n 6 0 p) pkg n 3 psn) pkg n
        | (.ok _, s) =>
          let s := if p.last then endRecv s pkg n 0 (got + len) p else putCur s pkg n (some ⟨false, 0, 0, 0, got + len⟩)
          accepted s pkg n 7 psn 1 [] false p.last

/-- A packet of a WRITE; the last one with immediate data also ends a receive request (R416, R418). The first packet carries the region. -/
def recvWrite (s : State) (pkg n : Nat) (p : RocePacket) : State :=
  let q := qpNow s pkg n
  let psn := p.psn.toNat
  let len := p.data.length
  let c := if p.first then ⟨true, p.va.toNat, p.key.toNat, p.len.toNat, 0⟩ else q.cur.getD ⟨true, 0, 0, 0, 0⟩
  if !continues q p true ∨ c.len < c.got + len ∨ (p.last ∧ c.len != c.got + len) then refused s pkg n 1 psn
  else if c.len != 0 ∧ !keyOk s pkg n c.key c.va c.len (some 61) then refused s pkg n 2 psn
  else if p.op = 3 ∧ q.rqCi = q.rqPi then answer s pkg n 10 Config.rnrTimer.toNat psn [] false
  else match writeNow s (qpReq s pkg n .ewr (c.va + c.got) len) p.data with
    | (.fault _, s) => faultPair (refused s pkg n 3 psn) pkg n
    | (.ok _, s) =>
      let s := if p.op = 3 then endRecv s pkg n 0 c.len p
        else putCur s pkg n (if p.last then none else some { c with got := c.got + len })
      accepted s pkg n 7 psn 1 [] false p.last

/-- A READ is answered with its data, in as many packets as they take (R416). -/
def recvRead (s : State) (pkg n : Nat) (p : RocePacket) (again : Bool) : State :=
  let psn := p.psn.toNat
  let len := p.len.toNat
  if len != 0 ∧ !keyOk s pkg n p.key.toNat p.va.toNat len (some 62) then refused s pkg n 2 psn
  else match readNow s (qpReq s pkg n .erd p.va.toNat len) with
    | (.fault _, s) => faultPair (refused s pkg n 3 psn) pkg n
    | (.ok bs, s) => if again then answer s pkg n 8 0 psn bs false else accepted s pkg n 8 psn (packetsOf len) bs false true

/-- An ATOMIC is performed at the owner's port as cas.d or atom.add.d (R416); its result is kept for a repeated request. -/
def recvAtomic (s : State) (pkg n : Nat) (p : RocePacket) : State :=
  let psn := p.psn.toNat
  let va := p.va.toNat
  if va % 8 != 0 then refused s pkg n 1 psn
  else if !keyOk s pkg n p.key.toNat va 8 (some 60) then refused s pkg n 2 psn
  else
    let f (old : Nat) : Nat :=
      if p.op = 5 then (if old = p.cmp.toNat then p.swp.toNat else old) else (old + p.swp.toNat) % 2 ^ 64
    match rmwNow s (qpReq s pkg n (if p.op = 5 then .cas else .atom) va 8) f with
    | (.fault _, s) => faultPair (refused s pkg n 3 psn) pkg n
    | (.ok bs, s) =>
      let q := qpNow s pkg n
      accepted (putQp s pkg n { q with atoms := mset q.atoms psn (ofBytes bs) }) pkg n 8 psn 1 bs true true

/-- A request of a reliable pair by its sequence number: executed in order, answered again when it is a repeat, dropped when it is
ahead (R416, R417). -/
def recvRequest (s : State) (pkg n : Nat) (p : RocePacket) : State :=
  let q := qpNow s pkg n
  let psn := p.psn.toNat
  let d := (psn + 2 ^ 24 - q.epsn) % 2 ^ 24
  if d = 0 then
    if p.op ≤ 1 then recvSend s pkg n p else if p.op ≤ 3 then recvWrite s pkg n p
    else if q.cur.isSome then refused s pkg n 1 psn
    else if p.op = 4 then recvRead s pkg n p false else recvAtomic s pkg n p
  else if d < 2 ^ 23 then answer (roceDrop s pkg) pkg n 9 0 q.epsn [] false
  else if p.op ≤ 3 then answer (roceDrop s pkg) pkg n 7 0 psn [] false
  else if p.op = 4 then recvRead s pkg n p true
  else match mfind q.atoms psn with
    | some v => answer s pkg n 8 0 psn (toBytes 8 v) true
    | none => roceDrop s pkg

/-- Is a sequence number at or before another, in their circle of 2^24? -/
def psnLe (a b : Nat) : Bool := (b + 2 ^ 24 - a) % 2 ^ 24 < 2 ^ 23

/-- The last sequence number of a request. -/
def lastPsn (x : RdmaSent) : Nat := (x.psn + x.np - 1) % 2 ^ 24

/-- Sends and writes up to a sequence number are acknowledged. -/
def ackUpTo (q : Qp) (psn : Nat) : Qp :=
  { q with retries := 0, sent := q.sent.map fun x =>
      if x.fin.isNone && x.opc ≤ 3 && psnLe (lastPsn x) psn then { x with fin := some (0, x.len) } else x }

/-- The request that a sequence number belongs to ends (PRESUMED, log 34). -/
def endSent (q : Qp) (psn status bytes : Nat) : Qp :=
  { q with sent := q.sent.map fun x =>
      if x.fin.isNone && psnLe x.psn psn && psnLe psn (lastPsn x) then { x with fin := some (status, bytes) } else x }

/-- Outstanding requests of a reliable pair are sent again from a sequence number on (R417), a READ for what is still missing of it. -/
def resend (s : State) (pkg n from_ : Nat) : State :=
  let q := qpNow s pkg n
  let s := putQp s pkg n { q with sentAt := s.now }
  (q.sent.filter fun x => x.fin.isNone && psnLe from_ (lastPsn x)).foldl (fun s x =>
    match readWqe s pkg n false x.idx with
    | (none, s) => s
    | (some ws, s) =>
      let got := if x.opc = 4 then x.got else 0
      match buildSend s pkg n ws (x.psn + got / roceMtu) got with
      | (.ok h ps, s) => (ps.filter fun p => 4 ≤ x.opc || psnLe from_ p.psn.toNat).foldl (fun s p => sendRoce s pkg n h p) s
      | (.bad _, s) => s) s

/-- Outstanding requests are sent again from a sequence number on, or, with RETRY retransmissions made, the oldest ends with status 4 and the pair
enters the error state (R417, R418). -/
def retry (s : State) (pkg n from_ : Nat) : State :=
  let q := { qpNow s pkg n with rnr := none }
  if q.retries < wfld (qpcWord s pkg n 4) 24 3 then serveQp (resend (putQp s pkg n { q with retries := q.retries + 1 }) pkg n from_) pkg n
  else pairError (putQp s pkg n (emit (match q.sent.find? fun x => x.fin.isNone with
    | some x => endSent q x.psn 4 0
    | none => q))) pkg n

/-- Cycles that a timer code of a receiver that is not ready stands for, in steps of 10 µs (InfiniBand; PRESUMED, log 48): from code 1 on two codes to
each doubling, and code 0 behind the longest. -/
def rnrCycles (code : Nat) : Nat :=
  40000 * (if code = 0 then 65536 else if code < 4 then code else if code % 2 = 0 then 2 ^ (code / 2) else 3 * 2 ^ (code / 2 - 1))

/-- The requests before a sequence number are acknowledged by an answer that turns that one away; the count of retransmissions goes on where none
was. -/
def ackBefore (q : Qp) (psn : Nat) : Qp :=
  let t := ackUpTo q ((psn + 2 ^ 24 - 1) % 2 ^ 24)
  if t.sent = q.sent then { t with retries := q.retries } else t

/-- A packet of a response to a READ or an ATOMIC is written where its request says (R416, R417); one that is not the next is dropped. -/
def recvResponse (s : State) (pkg n : Nat) (p : RocePacket) : State :=
  let psn := p.psn.toNat
  let q := ackUpTo (qpNow s pkg n) ((psn + 2 ^ 24 - 1) % 2 ^ 24)
  match q.sent.find? fun x => x.fin.isNone && (x.psn + x.got / roceMtu) % 2 ^ 24 = psn && 4 ≤ x.opc with
  | none => roceDrop s pkg
  | some x =>
    let done (s : State) (st len : Nat) : State := putQp s pkg n (emit (endSent q psn st len))
    let data := p.data.take (x.len - x.got)
    if x.len != 0 ∧ !keyOk s pkg n x.lkey x.lva x.len (some 59) then done s 1 0
    else match writeNow s (qpReq s pkg n .ewr (x.lva + x.got) data.length) data with
      | (.fault _, s) => pairError (done s 6 0) pkg n
      | (.ok _, s) =>
        if x.len ≤ x.got + data.length then done s 0 x.len
        else putQp s pkg n { q with sent := q.sent.map fun y => if y.idx = x.idx then { y with got := x.got + data.length } else y }

/-- One received packet (R416, R417). -/
def handleRoce (s : State) (pkg : Nat) (p : RocePacket) : State :=
  let n := p.qpn.toNat
  let psn := p.psn.toNat
  if !qpValid s pkg n then roceDrop (forgetQp s pkg n) pkg
  else if (qpState s pkg n != 2 ∧ qpState s pkg n != 3) then roceDrop s pkg
  else if p.op ≤ 6 then
    if !qpUd s pkg n then recvRequest s pkg n p
    else if p.op ≤ 1 && p.first && p.last && p.qkey.toNat == wfld (qpcWord s pkg n 4) 32 32 then recvSend s pkg n p
    else roceDrop s pkg
  else if qpUd s pkg n ∨ 10 < p.op then roceDrop s pkg
  else
    let q := qpNow s pkg n
    let s := if p.op = 7 then putQp s pkg n (emit (ackUpTo q psn))
      else if p.op = 8 then recvResponse s pkg n p
      else if p.op = 10 then putQp s pkg n (emit { ackBefore q psn with rnr := some (psn, s.now + rnrCycles p.imm.toNat) })
      else if p.op = 9 then
        if p.imm.toNat = 0 then retry (putQp s pkg n (emit (ackBefore q psn))) pkg n psn
        else pairError (putQp s pkg n (emit (endSent (ackUpTo q ((psn + 2 ^ 24 - 1) % 2 ^ 24)) psn (if p.imm.toNat = 2 then 2 else 3) 0))) pkg n
      else s
    serveQp s pkg n

/-- A congestion notification for a pair (R416, R417): its rate falls by ALPHA/256. -/
def notify (s : State) (pkg n : Nat) : State :=
  let k := pkgAt s pkg
  let s := setPkg s pkg { k with rdCnp := k.rdCnp + 1 }
  if !qpValid s pkg n then s
  else
    let q := qpNow s pkg n
    putQp s pkg n { q with rate := q.rate - q.rate * wfld (rdmaReg s pkg 0x48) 24 8 / 256, cnpAt := s.now }

/-- ROCE_PACKET: the engine handles a packet; the oldest that the ports handed to it leaves when it is that one (R413, R416). One whose accesses are
held waits among those of the ports (R47). -/
def execRocePacket (pkg : Nat) (p : RocePacket) (s : State) : Host.Outcome State Fault Refusal :=
  let k := pkgAt s pkg
  let queued := decide (k.roceQ.head? = some p)
  let r := if queued then setPkg s pkg { k with roceQ := k.roceQ.drop 1 } else s
  if !rdmaOn s pkg then .next r
  else
    let t := if p.op = 16 then notify r pkg p.qpn.toNat else handleRoce r pkg p
    if !t.held || s.held then .next t
    else .next (if queued then s else setPkg s pkg { k with roceQ := k.roceQ ++ [p] })

/-- RDMA_CNP: a congestion notification lowers the pair's send rate (R416), while the engine is enabled (R417). -/
def execRdmaCnp (pkg qpn : Nat) (s : State) : Host.Outcome State Fault Refusal :=
  .next (if rdmaOn s pkg then notify s pkg qpn else s)

/-- RDMA_RATE_RECOVER: after 50 µs without a notification the rate rises by STEP Mb/s, up to the port rate (R413, R416). -/
def execRdmaRateRecover (pkg qpn : Nat) (s : State) : Host.Outcome State Fault Refusal :=
  let q := qpNow s pkg qpn
  if !rdmaOn s pkg ∨ !qpValid s pkg qpn ∨ s.now < q.cnpAt + 200000 then .next s
  else .next (putQp s pkg qpn { q with rate := min 800000 (q.rate + wfld (rdmaReg s pkg 0x48) 0 24), cnpAt := s.now })

/-- RDMA_RETRANSMIT_TIMEOUT: a reliable pair sends its outstanding requests again (R417, R418), after TMO, or after the time that a receiver which
was not ready asked for. -/
def execRdmaRetransmitTimeout (pkg qpn : Nat) (s : State) : Host.Outcome State Fault Refusal :=
  unlessHeld s <|
  let q := qpNow s pkg qpn
  let due := match q.rnr with
    | some r => r.2
    | none => q.sentAt + 4000 * wfld (qpcWord s pkg qpn 5) 24 16
  if !rdmaOn s pkg ∨ !qpValid s pkg qpn ∨ qpUd s pkg qpn ∨ s.now < due then .next s
  else match q.rnr, q.sent.find? fun x => x.fin.isNone with
    | some r, _ => .next (retry s pkg qpn r.1)
    | none, some x => .next (retry s pkg qpn x.psn)
    | none, none => .next s

/-! ### Writing completions -/

/-- The four words of a completion (R418). -/
def cqeWords (d : RdmaDone) (n count lg : Nat) : List Word :=
  [BitVec.ofNat 64 (d.opc % 256 * 2 ^ 56 + d.status % 256 * 2 ^ 48 + n % 2 ^ 24),
   BitVec.ofNat 64 (d.imm % 2 ^ 32 * 2 ^ 32 + d.bytes % 2 ^ 32),
   BitVec.ofNat 64 (d.sqpn % 2 ^ 24 * 2 ^ 40 + d.idx % 2 ^ 32),
   BitVec.ofNat 64 (if count / 2 ^ lg % 2 = 0 then 2 ^ 63 else 0)]

/-- The entry of a completion queue (R417). -/
def cqEntry (s : State) (pkg cq : Nat) : Nat := ddr pkg (wfld (rdmaReg s pkg 0x28) 5 47 * 32 + 32 * cq)
def cqValid (s : State) (pkg cq : Nat) : Bool := cq < wfld (rdmaReg s pkg 0x30) 0 16 && wbit (readW s.mem (cqEntry s pkg cq + 8)) 63

/-- A completion queue whose V is clear has no place: one that is made again starts at the ring's first entry (R417, R418). System software writes
the tables from the service cores, so their writes to memory are where V clears. -/
def dropCqs (s : State) : State :=
  s.pkgs.foldl (fun s e =>
    let p := pkgAt s e.1
    if p.cqs.all fun c => cqValid s e.1 c.1 then s else setPkg s e.1 { p with cqs := p.cqs.filter fun c => cqValid s e.1 c.1 }) s

/-- RDMA_COMPLETION: the engine writes the oldest completion due of a pair, then sends its arrival and its interrupt (R418). One for a
queue that is not valid is lost. -/
def execRdmaCompletion (pkg qpn : Nat) (s : State) : Host.Outcome State Fault Refusal :=
  unlessHeld s <|
  let q := mget (pkgAt s pkg).qps qpn Qp.reset
  match q.due with
  | [] => .next s
  | d :: r =>
    let s := putQp s pkg qpn { q with due := r }
    let cq := wfld (qpcWord s pkg qpn 3) (if d.rq then 32 else 48) 16
    let w (i : Nat) : Word := readW s.mem (cqEntry s pkg cq + 8 * i)
    if !cqValid s pkg cq then
      let k := pkgAt s pkg
      .next (setPkg s pkg { k with cqs := mdel k.cqs cq })
    else
      let count := mget (pkgAt s pkg).cqs cq 0
      let lg := wfld (w 1) 0 5
      let req := agentReq (ioDie pkg) 1 (wfld (w 1) 36 16) (wfld (w 1) 52 4) .ewr (wfld (w 0) 0 57 + 32 * (count % 2 ^ lg)) 32
      let join := w 2
      let int := w 3
      let asid := wfld (w 1) 36 16
      let gen := wfld (w 1) 52 4
      match writeNow s req (bytesOf (cqeWords d qpn count lg)) with
      | (.fault _, s) => .next (faultPair s pkg qpn)
      | (.ok _, s) =>
        let k := pkgAt s pkg
        let s := setPkg s pkg { k with cqs := mset k.cqs cq (count + 1) }
        let s := if joinValid join then sendMsg s (ioDie pkg) (.arrival ⟨join &&& 0xFFFFFF, 1, asid, gen⟩) else s
        .next (if wbit int 63 then sendInterrupt s pkg int 0 else s)

end Sys2Proof.Machine
end

