-- ==== Sys2Proof/Machine/Auto.lean ====
section
/-! DEFINITION. What happens when nothing is asked from outside: one core issues an instruction (R183, R203, R256), and the machine's own
order of its units' steps (DESIGN CHOICE, log 4). -/
namespace Sys2Proof.Machine

/-! ### Issue -/

/-- Is an activation held by an interlock or a stall that is no parking (R183, R185)? Its unit has then not issued. -/
def Wait.stalls : Wait → Bool
  | .flights _ parks => !parks
  | .poolSlot _ parks => !parks
  | .opSlots | .matrixRoom | .copyRoom | .chain _ | .ring .. | .collRoom _ | .topkRoom .. | .wttFiring _ | .line _ => true
  | _ => false

/-- Is the activation at a yield point with a request pending (R135, R197)? -/
def stopsHere (s : State) (a : Act) : Bool × State :=
  if a.preempt.isNone ∨ a.txn.isSome then (false, s)
  else
    let (m, s) := yieldMask s a
    (m.isSome, s)

/-- The unit at an activation's program counter is fetched, decoded and executed (R203, R204, R206, R256); `run` is what a decoded
instruction does. -/
def runUnit (run : Instr → State → Host.Outcome State Fault Refusal) (s : State) (a : Act) : Host.Outcome State Fault Refusal :=
  withCode s a (pcOf a) 2 fun h =>
    withCode s a (pcOf a) (lengthOf (leNat h)) fun w =>
      match decode w with
      | .ok (i, _) => run i s
      | .error _ => .next (trap s a cIllegal)

/-- What issuing came to for a context: a unit that an interlock holds did not issue, and its core chooses again (R183). -/
def unlessStalled (core h : Nat) (a : Act) (last : List Nat) (at_ : Nat) (o : Host.Outcome State Fault Refusal) :
    Host.Outcome State Fault Refusal :=
  match o with
  | .next t =>
    match actAt t (core * 8 + h) with
    | some b =>
      if b.uid = a.uid && b.wait.stalls then
        .next (putAct (setCore t core { coreAt t core with lastCtx := last, issuedAt := at_ }) { b with issuedAt := a.issuedAt })
      else .next t
    | none => .next t
  | o => o

/-- One core issues (R183): at most one instruction in a cycle, for the context that SelectContext chooses; a context that is not
resident begins its fill (R43); one that a request stops executes nothing (R197). The cores of a die that stopped answering issue
nothing (R178; DEDUCED, log 49). -/
def issueOn (run : Instr → State → Host.Outcome State Fault Refusal) (core : Nat) (s : State) : Host.Outcome State Fault Refusal :=
  if (dieAt s (dkOfCore core)).failed then .next s
  else
    let s := { s with now := max s.now ((coreAt s core).issuedAt + 1) }
    match selectContext s core with
    | none => .next s
    | some (h, cls) =>
      match actAt s (core * 8 + h) with
      | none => .next s
      | some a =>
        if a.frame.isNone then unlessHeld s (.next (startFill s a))
        else
          let c := coreAt s core
          match stopsHere s a with
          | (stop, t) =>
            if t.held && !s.held then .next s
            else if stop then .next (putAct t { a with stopped := true })
            else
              let b := { a with wait := .run, issuedAt := s.now }
              let t := setCore t core { coreAt t core with lastCtx := lset c.lastCtx cls h, issuedAt := s.now }
              unlessStalled core h a c.lastCtx c.issuedAt (runUnit run { putAct t b with cur := core * 8 + h } b)

/-! ### Held requests -/

/-- A request that was held is made again. -/
def HeldReq.run : HeldReq → State → Host.Outcome State Fault Refusal
  | .device pkg rid write addr n data => execPcieDeviceRequest pkg rid write addr n data
  | .doorbell pkg v => execRdmaDoorbell pkg v
  | .preempt core bits => execPreCtlReq core bits

/-- Held request k is tried again as the youngest of those before it (R47); while it is still held nothing changes. -/
def tryAgain (k : Nat) (s : State) : Host.Outcome State Fault Refusal :=
  match s.heldReqs[k]? with
  | none => .next s
  | some h => match h.run { s with heldReqs := s.heldReqs.take k } with
    | .next t => if k < t.heldReqs.length then .next s else .next { t with heldReqs := t.heldReqs ++ s.heldReqs.drop (k + 1) }
    | o => o

/-! ### The machine's own order -/

/-- Steps that act on one operation or message. -/
def flightSteps (id : Nat) : List (State → Host.Outcome State Fault Refusal) :=
  [execTranslate id false false false, execPageWalkReturn id false, execForwardedRequest id, execWindowAccess id, execGangCoreAccess id,
   execPortAccess id, execPortAtomic id, execRangeNextPerform id, execReductionMerge id, execBarrierArrive id, execBarrierWaitRequest id,
   execSlotClaimPerform id, execSlotRetPerform id, execCaliperPush id, execPlinthCommand id, execPlinthPartComplete id 0,
   execPlinthPartComplete id 1, execPlinthPartComplete id 2, execRoutineLineFill id, execFaultNack id, execReplyArrive id,
   execReplyDropped id, execAcknowledge id, execReleaseReady id, execArrival id, execSignalApply id, execBarrierFlipReceive id,
   execBarrierWake id, execMergeOpenEntry id, execMergeOpenLeader id, execCaliperOpen id, execMergeOpenAck id, execCloseMarkerSend id,
   execCaliperClose id, execLeaderPartial id, execLeaderCommitAck id, execAbortMarkerEntry id, execAbortMarkerLeader id,
   execCaliperAbort id, execOsqSubmit id, execBatchReceive id, execHomeGrant id, execTxnReleaseSend id, execSliceRelease id,
   execMigrationInstall id, execTopkList id, execCtrSnapTable id]

/-- Steps that act on one context. -/
def ctxSteps (x : Nat) : List (State → Host.Outcome State Fault Refusal) :=
  [execDrainComplete x, execFenceComplete x, execOwnerFlip x, execDoneComplete x, execContextFillDone x, execContextFill x,
   execSuspend x, execMigrationSend x, execBarrierPoll x, execBimWaitPoll x, execTxnTimeLimit x, execPreemptBound x]

/-- Steps that act on one core. -/
def coreSteps (core : Nat) : List (State → Host.Outcome State Fault Refusal) :=
  [execCopyCommandStart core, execCopyCommandComplete core, execMatrixCommandStart core, execMatrixCommandComplete core,
   execLatchMoveIn core 0, execLatchMoveIn core 1, execLatchMoveIn core 2, execPartwApply core] ++
    (List.range 64).map (execWttFireRead core)

/-- Steps that act on one die. -/
def dieSteps (dk : Nat) : List (State → Host.Outcome State Fault Refusal) :=
  [execInvCommandComplete dk, execLaunchDescriptorRead dk, execEventBufferSend dk, execClsInvComplete dk, execBatchMerge dk, execOsqStall dk,
   execBeatEnd dk] ++ (List.range 4).map fun i => execWriteQueueApply (4 * dk + i)

/-- Steps that act on one ring sequencer. -/
def seqSteps (q : Nat) : List (State → Host.Outcome State Fault Refusal) :=
  [execCollProgramStart q, execCollChunkReceive q, execCollProgramEnd q, execCollStepTimeout q]

/-- Steps that act on one package. -/
def pkgSteps (p : Nat) : List (State → Host.Outcome State Fault Refusal) :=
  [execReliefTick p, execPartModeComplete p, execSteerPacket p]

/-- The first step of a list that changes something; with none, a cycle passes. -/
def firstMove : List (State → Host.Outcome State Fault Refusal) → State → Host.Outcome State Fault Refusal
  | [], s => .next { s with now := s.now + 1 }
  | f :: r, s => match f s with
    | .next t => if t = s then firstMove r s else .next t
    | o => o

/-- Packages whose clusters hold or pass on tasks. -/
def busyPkgs (s : State) : List Nat :=
  ((s.clus.filter fun e => !e.2.queue.isEmpty || !e.2.present.isEmpty || !e.2.fwd.isEmpty).map fun e => e.1 / 128).eraseDups

/-- The order in which the machine's units are asked (DESIGN CHOICE, log 4): operations by age, contexts, cores, gangs, clusters, dies, sequencers,
Calipers, packages, requests that were held. -/
def ownSteps (s : State) : List (State → Host.Outcome State Fault Refusal) :=
  (s.flights.flatMap fun f => flightSteps f.id) ++ (s.acts.flatMap fun e => ctxSteps e.1) ++ (s.cores.flatMap fun e => coreSteps e.1) ++
    (s.gangs.flatMap fun g => [execSplitDescriptorRead g.id, execGangLaunch g.id, execGangJoin g.id]) ++
    (s.clus.map fun e => execTaskTake e.1) ++ (s.dies.flatMap fun e => dieSteps e.1) ++ (s.mtus.map fun e => execInvCommandComplete e.1) ++
    (s.osqs.flatMap fun e => dieSteps e.1) ++
    (s.dies.flatMap fun e => seqSteps (e.1 / 16 * 16 + e.1 % 16 * 2) ++ seqSteps (e.1 / 16 * 16 + e.1 % 16 * 2 + 1)) ++
    (s.dies.flatMap fun e => (e.2.merges.filter fun m => m.root).map fun m => execTopkRootMerge e.1 m.group (BitVec.ofNat 32 m.token)) ++
    (s.pools.flatMap fun e => e.2.buf.map fun b => execBufferSeal e.1 b.1) ++
    (s.cals.flatMap fun e => (List.range 16).map (execCaliperApply e.1)) ++ (busyPkgs s).map execReliefTick ++
    (s.pkgs.flatMap fun e => pkgSteps e.1 ++ e.2.roceQ.map (execRocePacket e.1) ++ (e.2.held.map fun h => execEthTransmit e.1 h.1 0) ++
      e.2.qps.map fun q => execRdmaCompletion e.1 q.1) ++ (List.range s.heldReqs.length).map tryAgain

/-- What the machine does when nothing is asked of it: the core in focus issues while one of its contexts is ready, else a unit acts, else
a cycle passes. -/
def ownTurn (run : Instr → State → Host.Outcome State Fault Refusal) (s : State) : Host.Outcome State Fault Refusal :=
  if (selectContext s s.focus).isSome && !(dieAt s (dkOfCore s.focus)).failed then firstMove (issueOn run s.focus :: ownSteps s) s
  else firstMove (ownSteps s) s

end Sys2Proof.Machine
end

