-- ==== Sys2Proof/Machine/Dispatch.lean ====
section
/-! DEFINITION. One arm for each instruction: a direct call of its meaning. -/
namespace Sys2Proof.Machine

def exec (i : Instr) (s : State) : Host.Outcome State Fault Refusal :=
  match i with
  | .add16 d a => Sys2Proof.Machine.execAdd16 d a s
  | .mov d a => Sys2Proof.Machine.execMov d a s
  | .sub16 d a => Sys2Proof.Machine.execSub16 d a s
  | .addi6 d imm => Sys2Proof.Machine.execAddi6 d imm s
  | .li6 d imm => Sys2Proof.Machine.execLi6 d imm s
  | .and16 d a => Sys2Proof.Machine.execAnd16 d a s
  | .or16 d a => Sys2Proof.Machine.execOr16 d a s
  | .ldDShort d imm => Sys2Proof.Machine.execLdDShort d imm s
  | .stDShort d imm => Sys2Proof.Machine.execStDShort d imm s
  | .bz d imm => Sys2Proof.Machine.execBz d imm s
  | .bnz d imm => Sys2Proof.Machine.execBnz d imm s
  | .b16 o => Sys2Proof.Machine.execB16 o s
  | .shli16 d imm => Sys2Proof.Machine.execShli16 d imm s
  | .shri16 d imm => Sys2Proof.Machine.execShri16 d imm s
  | .add d a b => Sys2Proof.Machine.execAdd d a b s
  | .sub d a b => Sys2Proof.Machine.execSub d a b s
  | .mul d a b => Sys2Proof.Machine.execMul d a b s
  | .mulh d a b => Sys2Proof.Machine.execMulh d a b s
  | .mulhz d a b => Sys2Proof.Machine.execMulhz d a b s
  | .div d a b => Sys2Proof.Machine.execDiv d a b s
  | .divz d a b => Sys2Proof.Machine.execDivz d a b s
  | .rem d a b => Sys2Proof.Machine.execRem d a b s
  | .remz d a b => Sys2Proof.Machine.execRemz d a b s
  | .and d a b => Sys2Proof.Machine.execAnd d a b s
  | .andn d a b => Sys2Proof.Machine.execAndn d a b s
  | .or d a b => Sys2Proof.Machine.execOr d a b s
  | .xor d a b => Sys2Proof.Machine.execXor d a b s
  | .shl d a b => Sys2Proof.Machine.execShl d a b s
  | .shr d a b => Sys2Proof.Machine.execShr d a b s
  | .sra d a b => Sys2Proof.Machine.execSra d a b s
  | .rol d a b => Sys2Proof.Machine.execRol d a b s
  | .clz d a => Sys2Proof.Machine.execClz d a s
  | .ctz d a => Sys2Proof.Machine.execCtz d a s
  | .popc d a => Sys2Proof.Machine.execPopc d a s
  | .min d a b => Sys2Proof.Machine.execMin d a b s
  | .max d a b => Sys2Proof.Machine.execMax d a b s
  | .minz d a b => Sys2Proof.Machine.execMinz d a b s
  | .maxz d a b => Sys2Proof.Machine.execMaxz d a b s
  | .seq d a b => Sys2Proof.Machine.execSeq d a b s
  | .sne d a b => Sys2Proof.Machine.execSne d a b s
  | .slt d a b => Sys2Proof.Machine.execSlt d a b s
  | .sltz d a b => Sys2Proof.Machine.execSltz d a b s
  | .sel d a b => Sys2Proof.Machine.execSel d a b s
  | .bswap d a => Sys2Proof.Machine.execBswap d a s
  | .clmul d a b => Sys2Proof.Machine.execClmul d a b s
  | .clmulh d a b => Sys2Proof.Machine.execClmulh d a b s
  | .crc d a b => Sys2Proof.Machine.execCrc d a b s
  | .hdrPack d a b => Sys2Proof.Machine.execHdrPack d a b s
  | .hdrUnpk d a b => Sys2Proof.Machine.execHdrUnpk d a b s
  | .addi d a imm => Sys2Proof.Machine.execAddi d a imm s
  | .andi d a imm => Sys2Proof.Machine.execAndi d a imm s
  | .ori d a imm => Sys2Proof.Machine.execOri d a imm s
  | .xori d a imm => Sys2Proof.Machine.execXori d a imm s
  | .slti d a imm => Sys2Proof.Machine.execSlti d a imm s
  | .li d imm => Sys2Proof.Machine.execLi d imm s
  | .shli d a n => Sys2Proof.Machine.execShli d a n s
  | .shri d a n => Sys2Proof.Machine.execShri d a n s
  | .srai d a n => Sys2Proof.Machine.execSrai d a n s
  | .rori d a n => Sys2Proof.Machine.execRori d a n s
  | .ext d a p l => Sys2Proof.Machine.execExt d a p l s
  | .extS d a p l => Sys2Proof.Machine.execExtS d a p l s
  | .ins d a p l => Sys2Proof.Machine.execIns d a p l s
  | .lih d imm => Sys2Proof.Machine.execLih d imm s
  | .fadd d a b m p => Sys2Proof.Machine.execFadd d a b m p s
  | .fsub d a b m p => Sys2Proof.Machine.execFsub d a b m p s
  | .fmul d a b m p => Sys2Proof.Machine.execFmul d a b m p s
  | .fma d a b m p => Sys2Proof.Machine.execFma d a b m p s
  | .fdiv d a b m p => Sys2Proof.Machine.execFdiv d a b m p s
  | .fsqrt d a m p => Sys2Proof.Machine.execFsqrt d a m p s
  | .fmin d a b p => Sys2Proof.Machine.execFmin d a b p s
  | .fmax d a b p => Sys2Proof.Machine.execFmax d a b p s
  | .fcmp d a b m p => Sys2Proof.Machine.execFcmp d a b m p s
  | .fcvt d a t r m p => Sys2Proof.Machine.execFcvt d a t r m p s
  | .fmvS d a p => Sys2Proof.Machine.execFmvS d a p s
  | .fmvF d a p => Sys2Proof.Machine.execFmvF d a p s
  | .fclass d a p => Sys2Proof.Machine.execFclass d a p s
  | .bEq a b o => Sys2Proof.Machine.execBEq a b o s
  | .bNe a b o => Sys2Proof.Machine.execBNe a b o s
  | .bLt a b o => Sys2Proof.Machine.execBLt a b o s
  | .bGe a b o => Sys2Proof.Machine.execBGe a b o s
  | .bLtz a o => Sys2Proof.Machine.execBLtz a o s
  | .bGez a o => Sys2Proof.Machine.execBGez a o s
  | .jal d o => Sys2Proof.Machine.execJal d o s
  | .jalr d a imm => Sys2Proof.Machine.execJalr d a imm s
  | .loop a imm => Sys2Proof.Machine.execLoop a imm s
  | .loopi d n => Sys2Proof.Machine.execLoopi d n s
  | .csrr d c => Sys2Proof.Machine.execCsrr d c s
  | .csrw d a c => Sys2Proof.Machine.execCsrw d a c s
  | .csrs d a c => Sys2Proof.Machine.execCsrs d a c s
  | .csrc d a c => Sys2Proof.Machine.execCsrc d a c s
  | .idr d n => Sys2Proof.Machine.execIdr d n s
  | .trap a c => Sys2Proof.Machine.execTrap a c s
  | .brk c => Sys2Proof.Machine.execBrk c s
  | .yield n => Sys2Proof.Machine.execYield n s
  | .ld d b z qs o => Sys2Proof.Machine.execLd d b z qs o s
  | .st d b z qs o => Sys2Proof.Machine.execSt d b z qs o s
  | .vld d b qs o => Sys2Proof.Machine.execVld d b qs o s
  | .vst d b qs o => Sys2Proof.Machine.execVst d b qs o s
  | .ldx d a b y z qs => Sys2Proof.Machine.execLdx d a b y z qs s
  | .prf a b => Sys2Proof.Machine.execPrf a b s
  | .vldx d a b t qs => Sys2Proof.Machine.execVldx d a b t qs s
  | .vstx d a b t qs => Sys2Proof.Machine.execVstx d a b t qs s
  | .dld d a => Sys2Proof.Machine.execDld d a s
  | .tld d a o => Sys2Proof.Machine.execTld d a o s
  | .tst d a o => Sys2Proof.Machine.execTst d a o s
  | .rangeNext d a b => Sys2Proof.Machine.execRangeNext d a b s
  | .atomAdd d a b z q => Sys2Proof.Machine.execAtomAdd d a b z q s
  | .atomFaddF32 d a b q => Sys2Proof.Machine.execAtomFaddF32 d a b q s
  | .atomFaddF64 d a b q => Sys2Proof.Machine.execAtomFaddF64 d a b q s
  | .atomFaddBf16 d a b q => Sys2Proof.Machine.execAtomFaddBf16 d a b q s
  | .atomMin d a b z q => Sys2Proof.Machine.execAtomMin d a b z q s
  | .atomMax d a b z q => Sys2Proof.Machine.execAtomMax d a b z q s
  | .atomMinz d a b z q => Sys2Proof.Machine.execAtomMinz d a b z q s
  | .atomMaxz d a b z q => Sys2Proof.Machine.execAtomMaxz d a b z q s
  | .atomAnd d a b z q => Sys2Proof.Machine.execAtomAnd d a b z q s
  | .atomOr d a b z q => Sys2Proof.Machine.execAtomOr d a b z q s
  | .atomXor d a b z q => Sys2Proof.Machine.execAtomXor d a b z q s
  | .atomSwap d a b z q => Sys2Proof.Machine.execAtomSwap d a b z q s
  | .redAdd a b z => Sys2Proof.Machine.execRedAdd a b z s
  | .redFaddF32 a b => Sys2Proof.Machine.execRedFaddF32 a b s
  | .redFaddF64 a b => Sys2Proof.Machine.execRedFaddF64 a b s
  | .redFaddBf16 a b => Sys2Proof.Machine.execRedFaddBf16 a b s
  | .redMin a b z => Sys2Proof.Machine.execRedMin a b z s
  | .redMax a b z => Sys2Proof.Machine.execRedMax a b z s
  | .redMinz a b z => Sys2Proof.Machine.execRedMinz a b z s
  | .redMaxz a b z => Sys2Proof.Machine.execRedMaxz a b z s
  | .redAnd a b z => Sys2Proof.Machine.execRedAnd a b z s
  | .redOr a b z => Sys2Proof.Machine.execRedOr a b z s
  | .redXor a b z => Sys2Proof.Machine.execRedXor a b z s
  | .cas d a b z q => Sys2Proof.Machine.execCas d a b z q s
  | .fence qs => Sys2Proof.Machine.execFence qs s
  | .drain p => Sys2Proof.Machine.execDrain p s
  | .arrive a qs m r => Sys2Proof.Machine.execArrive a qs m r s
  | .barArrive d a => Sys2Proof.Machine.execBarArrive d a s
  | .barWait d a => Sys2Proof.Machine.execBarWait d a s
  | .semWait d k => Sys2Proof.Machine.execSemWait d k s
  | .semAdd d a qs k e => Sys2Proof.Machine.execSemAdd d a qs k e s
  | .ownGive a n => Sys2Proof.Machine.execOwnGive a n s
  | .ownTake a n => Sys2Proof.Machine.execOwnTake a n s
  | .ownWait a n => Sys2Proof.Machine.execOwnWait a n s
  | .cbWait h n => Sys2Proof.Machine.execCbWait h n s
  | .cbRoom h n => Sys2Proof.Machine.execCbRoom h n s
  | .cbPush h n => Sys2Proof.Machine.execCbPush h n s
  | .cbPop h n => Sys2Proof.Machine.execCbPop h n s
  | .spawn a b h => Sys2Proof.Machine.execSpawn a b h s
  | .spawng a b h => Sys2Proof.Machine.execSpawng a b h s
  | .wttArm a b => Sys2Proof.Machine.execWttArm a b s
  | .wttDisarm d b => Sys2Proof.Machine.execWttDisarm d b s
  | .send d a b w r qs y => Sys2Proof.Machine.execSend d a b w r qs y s
  | .vadd d a b t => Sys2Proof.Machine.execVadd d a b t s
  | .vsub d a b t => Sys2Proof.Machine.execVsub d a b t s
  | .vmul d a b t => Sys2Proof.Machine.execVmul d a b t s
  | .vfma d a b t => Sys2Proof.Machine.execVfma d a b t s
  | .vfms d a b t => Sys2Proof.Machine.execVfms d a b t s
  | .vfnma d a b t => Sys2Proof.Machine.execVfnma d a b t s
  | .vdiv d a b t => Sys2Proof.Machine.execVdiv d a b t s
  | .vsqrt d a t => Sys2Proof.Machine.execVsqrt d a t s
  | .vrcp d a t => Sys2Proof.Machine.execVrcp d a t s
  | .vrsqrt d a t => Sys2Proof.Machine.execVrsqrt d a t s
  | .vexp2 d a t => Sys2Proof.Machine.execVexp2 d a t s
  | .vlog2 d a t => Sys2Proof.Machine.execVlog2 d a t s
  | .vtanh d a t => Sys2Proof.Machine.execVtanh d a t s
  | .vsigm d a t => Sys2Proof.Machine.execVsigm d a t s
  | .vsin d a t => Sys2Proof.Machine.execVsin d a t s
  | .vcos d a t => Sys2Proof.Machine.execVcos d a t s
  | .vmin d a b t => Sys2Proof.Machine.execVmin d a b t s
  | .vmax d a b t => Sys2Proof.Machine.execVmax d a b t s
  | .vabs d a t => Sys2Proof.Machine.execVabs d a t s
  | .vneg d a t => Sys2Proof.Machine.execVneg d a t s
  | .vand d a b t => Sys2Proof.Machine.execVand d a b t s
  | .vor d a b t => Sys2Proof.Machine.execVor d a b t s
  | .vxor d a b t => Sys2Proof.Machine.execVxor d a b t s
  | .vnot d a t => Sys2Proof.Machine.execVnot d a t s
  | .vshl d a b t => Sys2Proof.Machine.execVshl d a b t s
  | .vshr d a b t => Sys2Proof.Machine.execVshr d a b t s
  | .vsra d a b t => Sys2Proof.Machine.execVsra d a b t s
  | .vcmp d a b t => Sys2Proof.Machine.execVcmp d a b t s
  | .vsel d a b t => Sys2Proof.Machine.execVsel d a b t s
  | .vmov d a t => Sys2Proof.Machine.execVmov d a t s
  | .vbcast d a t => Sys2Proof.Machine.execVbcast d a t s
  | .vins d a b t => Sys2Proof.Machine.execVins d a b t s
  | .vext d a b t => Sys2Proof.Machine.execVext d a b t s
  | .vcvt d a qs t => Sys2Proof.Machine.execVcvt d a qs t s
  | .vquant d a b t => Sys2Proof.Machine.execVquant d a b t s
  | .vdequant d a b t => Sys2Proof.Machine.execVdequant d a b t s
  | .vredsum d a t => Sys2Proof.Machine.execVredsum d a t s
  | .vredmax d a t => Sys2Proof.Machine.execVredmax d a t s
  | .vredmin d a t => Sys2Proof.Machine.execVredmin d a t s
  | .vredmaxi d a b t => Sys2Proof.Machine.execVredmaxi d a b t s
  | .vredmini d a b t => Sys2Proof.Machine.execVredmini d a b t s
  | .vscanAdd d a t => Sys2Proof.Machine.execVscanAdd d a t s
  | .vscanXor d a t => Sys2Proof.Machine.execVscanXor d a t s
  | .vclmul d a b t => Sys2Proof.Machine.execVclmul d a b t s
  | .vpopc d a t => Sys2Proof.Machine.execVpopc d a t s
  | .vclz d a t => Sys2Proof.Machine.execVclz d a t s
  | .vperm d a b t => Sys2Proof.Machine.execVperm d a b t s
  | .vslide d a b t => Sys2Proof.Machine.execVslide d a b t s
  | .vzip d a b t => Sys2Proof.Machine.execVzip d a b t s
  | .vunzip d a b t => Sys2Proof.Machine.execVunzip d a b t s
  | .vtrw a b t => Sys2Proof.Machine.execVtrw a b t s
  | .vtrc d a t => Sys2Proof.Machine.execVtrc d a t s
  | .mand d a b => Sys2Proof.Machine.execMand d a b s
  | .mor d a b => Sys2Proof.Machine.execMor d a b s
  | .mxor d a b => Sys2Proof.Machine.execMxor d a b s
  | .mnot d a => Sys2Proof.Machine.execMnot d a s
  | .mpop d a => Sys2Proof.Machine.execMpop d a s
  | .mfirst d a => Sys2Proof.Machine.execMfirst d a s
  | .mset d a => Sys2Proof.Machine.execMset d a s
  | .mmaF64 c a b qs j k f r z l n => Sys2Proof.Machine.execMmaF64 c a b qs j k f r z l n s
  | .mmaF32 c a b qs j k f r z l n => Sys2Proof.Machine.execMmaF32 c a b qs j k f r z l n s
  | .mmaBf16 c a b qs j k f r z l n => Sys2Proof.Machine.execMmaBf16 c a b qs j k f r z l n s
  | .mmaF16 c a b qs j k f r z l n => Sys2Proof.Machine.execMmaF16 c a b qs j k f r z l n s
  | .mmaE4e4 c a b qs j k f r z l n => Sys2Proof.Machine.execMmaE4e4 c a b qs j k f r z l n s
  | .mmaE4e5 c a b qs j k f r z l n => Sys2Proof.Machine.execMmaE4e5 c a b qs j k f r z l n s
  | .mmaE5e4 c a b qs j k f r z l n => Sys2Proof.Machine.execMmaE5e4 c a b qs j k f r z l n s
  | .mmaE5e5 c a b qs j k f r z l n => Sys2Proof.Machine.execMmaE5e5 c a b qs j k f r z l n s
  | .mmaE3m2 c a b qs j k f r z l n => Sys2Proof.Machine.execMmaE3m2 c a b qs j k f r z l n s
  | .mmaE2m3 c a b qs j k f r z l n => Sys2Proof.Machine.execMmaE2m3 c a b qs j k f r z l n s
  | .mmaE2m1 c a b qs j k f r z l n => Sys2Proof.Machine.execMmaE2m1 c a b qs j k f r z l n s
  | .mmaI8 c a b qs j k f r z l n => Sys2Proof.Machine.execMmaI8 c a b qs j k f r z l n s
  | .mmaI4 c a b qs j k f r z l n => Sys2Proof.Machine.execMmaI4 c a b qs j k f r z l n s
  | .mzero c => Sys2Proof.Machine.execMzero c s
  | .mld c a b => Sys2Proof.Machine.execMld c a b s
  | .mldT c a b => Sys2Proof.Machine.execMldT c a b s
  | .mst c a b f z l t => Sys2Proof.Machine.execMst c a b f z l t s
  | .msc c a => Sys2Proof.Machine.execMsc c a s
  | .mscE8m0 c a => Sys2Proof.Machine.execMscE8m0 c a s
  | .eset a n => Sys2Proof.Machine.execEset a n s
  | .cpy d a b t qs => Sys2Proof.Machine.execCpy d a b t qs s
  | .cpyChain a => Sys2Proof.Machine.execCpyChain a s
  | .bgath a => Sys2Proof.Machine.execBgath a s
  | .bimOpen a b m => Sys2Proof.Machine.execBimOpen a b m s
  | .bimPush a b => Sys2Proof.Machine.execBimPush a b s
  | .bimWait d a b => Sys2Proof.Machine.execBimWait d a b s
  | .oftDecl a w => Sys2Proof.Machine.execOftDecl a w s
  | .oftSub d a => Sys2Proof.Machine.execOftSub d a s
  | .collGo a p => Sys2Proof.Machine.execCollGo a p s
  | .topkSend a b => Sys2Proof.Machine.execTopkSend a b s
  | .slotClaim d a b => Sys2Proof.Machine.execSlotClaim d a b s
  | .slotRet a b => Sys2Proof.Machine.execSlotRet a b s
  | .ctrSnap a b => Sys2Proof.Machine.execCtrSnap a b s
  | .vxPrefix m z r c v qs => Sys2Proof.Machine.execVxPrefix m z r c v qs s
  | .translate id dropTlb dropPtr dropAsdt => Sys2Proof.Machine.execTranslate id dropTlb dropPtr dropAsdt s
  | .pageWalkReturn id dropPtr => Sys2Proof.Machine.execPageWalkReturn id dropPtr s
  | .peerUnreachable id => Sys2Proof.Machine.execPeerUnreachable id s
  | .forwardedRequest id => Sys2Proof.Machine.execForwardedRequest id s
  | .portAccess id => Sys2Proof.Machine.execPortAccess id s
  | .faultNack id => Sys2Proof.Machine.execFaultNack id s
  | .replyArrive id => Sys2Proof.Machine.execReplyArrive id s
  | .acknowledge id => Sys2Proof.Machine.execAcknowledge id s
  | .invPage unit asid => Sys2Proof.Machine.execInvPage unit asid s
  | .invAsid unit asid => Sys2Proof.Machine.execInvAsid unit asid s
  | .invAll unit asid => Sys2Proof.Machine.execInvAll unit asid s
  | .invRefresh unit asid => Sys2Proof.Machine.execInvRefresh unit asid s
  | .invNop unit asid op => Sys2Proof.Machine.execInvNop unit asid op s
  | .invCommandComplete die => Sys2Proof.Machine.execInvCommandComplete die s
  | .partwWrite core v => Sys2Proof.Machine.execPartwWrite core v s
  | .partwApply core => Sys2Proof.Machine.execPartwApply core s
  | .coreAsidWrite core v => Sys2Proof.Machine.execCoreAsidWrite core v s
  | .contextFill ctx => Sys2Proof.Machine.execContextFill ctx s
  | .contextFillDone ctx => Sys2Proof.Machine.execContextFillDone ctx s
  | .ownerFlip ctx => Sys2Proof.Machine.execOwnerFlip ctx s
  | .copyCommandStart core => Sys2Proof.Machine.execCopyCommandStart core s
  | .copyCommandComplete core => Sys2Proof.Machine.execCopyCommandComplete core s
  | .gangCoreAccess id => Sys2Proof.Machine.execGangCoreAccess id s
  | .windowAccess id => Sys2Proof.Machine.execWindowAccess id s
  | .drainComplete ctx => Sys2Proof.Machine.execDrainComplete ctx s
  | .fenceComplete ctx => Sys2Proof.Machine.execFenceComplete ctx s
  | .releaseReady id => Sys2Proof.Machine.execReleaseReady id s
  | .reductionMerge id => Sys2Proof.Machine.execReductionMerge id s
  | .writeQueueApply port => Sys2Proof.Machine.execWriteQueueApply port s
  | .plinthCommand id => Sys2Proof.Machine.execPlinthCommand id s
  | .plinthPartComplete id stack => Sys2Proof.Machine.execPlinthPartComplete id stack s
  | .frTake eng => Sys2Proof.Machine.execFrTake eng s
  | .frPut eng frame => Sys2Proof.Machine.execFrPut eng frame s
  | .demoteStep eng => Sys2Proof.Machine.execDemoteStep eng s
  | .demoteCopyDone eng => Sys2Proof.Machine.execDemoteCopyDone eng s
  | .portAtomic id => Sys2Proof.Machine.execPortAtomic id s
  | .rangeNextPerform id => Sys2Proof.Machine.execRangeNextPerform id s
  | .mergeOpenEntry id => Sys2Proof.Machine.execMergeOpenEntry id s
  | .mergeOpenLeader id => Sys2Proof.Machine.execMergeOpenLeader id s
  | .caliperOpen id => Sys2Proof.Machine.execCaliperOpen id s
  | .mergeOpenAck id => Sys2Proof.Machine.execMergeOpenAck id s
  | .caliperPush id => Sys2Proof.Machine.execCaliperPush id s
  | .closeMarkerSend id => Sys2Proof.Machine.execCloseMarkerSend id s
  | .caliperClose id => Sys2Proof.Machine.execCaliperClose id s
  | .leaderPartial id => Sys2Proof.Machine.execLeaderPartial id s
  | .caliperApply cal dom => Sys2Proof.Machine.execCaliperApply cal dom s
  | .leaderCommitAck id => Sys2Proof.Machine.execLeaderCommitAck id s
  | .abortMarkerEntry id => Sys2Proof.Machine.execAbortMarkerEntry id s
  | .abortMarkerLeader id => Sys2Proof.Machine.execAbortMarkerLeader id s
  | .caliperAbort id => Sys2Proof.Machine.execCaliperAbort id s
  | .bimDisc cal v => Sys2Proof.Machine.execBimDisc cal v s
  | .bimCtlWrite cal dom off v => Sys2Proof.Machine.execBimCtlWrite cal dom off v s
  | .bimLimWrite cal dom v => Sys2Proof.Machine.execBimLimWrite cal dom v s
  | .osqSubmit id => Sys2Proof.Machine.execOsqSubmit id s
  | .beatEnd die => Sys2Proof.Machine.execBeatEnd die s
  | .batchReceive id => Sys2Proof.Machine.execBatchReceive id s
  | .batchMerge die => Sys2Proof.Machine.execBatchMerge die s
  | .homeGrant id => Sys2Proof.Machine.execHomeGrant id s
  | .txnReleaseSend id => Sys2Proof.Machine.execTxnReleaseSend id s
  | .sliceRelease id => Sys2Proof.Machine.execSliceRelease id s
  | .txnTimeLimit ctx => Sys2Proof.Machine.execTxnTimeLimit ctx s
  | .osqStall die => Sys2Proof.Machine.execOsqStall die s
  | .osqCtlWrite die off v => Sys2Proof.Machine.execOsqCtlWrite die off v s
  | .taskTake clus => Sys2Proof.Machine.execTaskTake clus s
  | .gangLaunch gid => Sys2Proof.Machine.execGangLaunch gid s
  | .splitDescriptorRead gid => Sys2Proof.Machine.execSplitDescriptorRead gid s
  | .doneComplete ctx => Sys2Proof.Machine.execDoneComplete ctx s
  | .gangJoin gid => Sys2Proof.Machine.execGangJoin gid s
  | .clsInv die v => Sys2Proof.Machine.execClsInv die v s
  | .clsInvComplete die => Sys2Proof.Machine.execClsInvComplete die s
  | .arrival id => Sys2Proof.Machine.execArrival id s
  | .wttFireRead core ent => Sys2Proof.Machine.execWttFireRead core ent s
  | .wttRetry core v => Sys2Proof.Machine.execWttRetry core v s
  | .ethFrameReceive pkg port frame fcsOk => Sys2Proof.Machine.execEthFrameReceive pkg port frame fcsOk s
  | .steerPacket pkg => Sys2Proof.Machine.execSteerPacket pkg s
  | .strCtlWrite pkg rule v => Sys2Proof.Machine.execStrCtlWrite pkg rule v s
  | .reliefTick pkg => Sys2Proof.Machine.execReliefTick pkg s
  | .linkSilence clus port => Sys2Proof.Machine.execLinkSilence clus port s
  | .rlfFenceWrite die v => Sys2Proof.Machine.execRlfFenceWrite die v s
  | .dieFailure die => Sys2Proof.Machine.execDieFailure die s
  | .fltPage die v => Sys2Proof.Machine.execFltPage die v s
  | .fltCtxResume die v => Sys2Proof.Machine.execFltCtxResume die v s
  | .fltCtxTerminate die v => Sys2Proof.Machine.execFltCtxTerminate die v s
  | .fltCtxNop die v => Sys2Proof.Machine.execFltCtxNop die v s
  | .eventBufferSend die => Sys2Proof.Machine.execEventBufferSend die s
  | .evqHeadWrite pkg v => Sys2Proof.Machine.execEvqHeadWrite pkg v s
  | .evoStatClr die => Sys2Proof.Machine.execEvoStatClr die s
  | .preCtlReq core bits => Sys2Proof.Machine.execPreCtlReq core bits s
  | .suspend ctx => Sys2Proof.Machine.execSuspend ctx s
  | .preemptBound ctx => Sys2Proof.Machine.execPreemptBound ctx s
  | .preCtlRes core bits => Sys2Proof.Machine.execPreCtlRes core bits s
  | .suspendResume core slot ctx => Sys2Proof.Machine.execSuspendResume core slot ctx s
  | .preCtlDisc core bits => Sys2Proof.Machine.execPreCtlDisc core bits s
  | .migCmd core v => Sys2Proof.Machine.execMigCmd core v s
  | .migrationSend ctx => Sys2Proof.Machine.execMigrationSend ctx s
  | .migrationInstall id => Sys2Proof.Machine.execMigrationInstall id s
  | .forwardExpire core => Sys2Proof.Machine.execForwardExpire core s
  | .replyDropped id => Sys2Proof.Machine.execReplyDropped id s
  | .routineLineFill id => Sys2Proof.Machine.execRoutineLineFill id s
  | .xsWindowEnd core k => Sys2Proof.Machine.execXsWindowEnd core k s
  | .xsCfgWrite core k v => Sys2Proof.Machine.execXsCfgWrite core k v s
  | .signalApply id => Sys2Proof.Machine.execSignalApply id s
  | .barrierArrive id => Sys2Proof.Machine.execBarrierArrive id s
  | .barrierWaitRequest id => Sys2Proof.Machine.execBarrierWaitRequest id s
  | .barrierFlipReceive id => Sys2Proof.Machine.execBarrierFlipReceive id s
  | .barrierWake id => Sys2Proof.Machine.execBarrierWake id s
  | .barrierPoll ctx => Sys2Proof.Machine.execBarrierPoll ctx s
  | .bimWaitPoll ctx => Sys2Proof.Machine.execBimWaitPoll ctx s
  | .collProgramStart seq => Sys2Proof.Machine.execCollProgramStart seq s
  | .collChunkReceive seq => Sys2Proof.Machine.execCollChunkReceive seq s
  | .collProgramEnd seq => Sys2Proof.Machine.execCollProgramEnd seq s
  | .collStepTimeout seq => Sys2Proof.Machine.execCollStepTimeout seq s
  | .collStatErrClear seq => Sys2Proof.Machine.execCollStatErrClear seq s
  | .bulkDropNotice id => Sys2Proof.Machine.execBulkDropNotice id s
  | .topkList id => Sys2Proof.Machine.execTopkList id s
  | .topkRootMerge die group token => Sys2Proof.Machine.execTopkRootMerge die group token s
  | .tkCtlWrite die v => Sys2Proof.Machine.execTkCtlWrite die v s
  | .ctrSnapTable id => Sys2Proof.Machine.execCtrSnapTable id s
  | .slotClaimPerform id => Sys2Proof.Machine.execSlotClaimPerform id s
  | .slotRetPerform id => Sys2Proof.Machine.execSlotRetPerform id s
  | .bufferSeal hdr expert => Sys2Proof.Machine.execBufferSeal hdr expert s
  | .matrixCommandStart core => Sys2Proof.Machine.execMatrixCommandStart core s
  | .matrixCommandComplete core => Sys2Proof.Machine.execMatrixCommandComplete core s
  | .latchMoveIn core tile => Sys2Proof.Machine.execLatchMoveIn core tile s
  | .luLaunch die v => Sys2Proof.Machine.execLuLaunch die v s
  | .partModeWrite pkg v => Sys2Proof.Machine.execPartModeWrite pkg v s
  | .partModeComplete pkg => Sys2Proof.Machine.execPartModeComplete pkg s
  | .bootRelease pkg image => Sys2Proof.Machine.execBootRelease pkg image s
  | .bootVerify pkg valid => Sys2Proof.Machine.execBootVerify pkg valid s
  | .bootFetchVerify pkg image valid => Sys2Proof.Machine.execBootFetchVerify pkg image valid s
  | .bootRetry pkg image => Sys2Proof.Machine.execBootRetry pkg image s
  | .attestation pkg nonce => Sys2Proof.Machine.execAttestation pkg nonce s
  | .powerUnitTransfer pkg src dst units draws => Sys2Proof.Machine.execPowerUnitTransfer pkg src dst units draws s
  | .powerReclaim die => Sys2Proof.Machine.execPowerReclaim die s
  | .pwrGuardWrite pkg v => Sys2Proof.Machine.execPwrGuardWrite pkg v s
  | .sensorCrossing clus droop detail => Sys2Proof.Machine.execSensorCrossing clus droop detail s
  | .watchdogExpire pkg => Sys2Proof.Machine.execWatchdogExpire pkg s
  | .scrub die stack corrected => Sys2Proof.Machine.execScrub die stack corrected s
  | .eccError die kind unc place uid => Sys2Proof.Machine.execEccError die kind unc place uid s
  | .ethTxTail pkg port ring v => Sys2Proof.Machine.execEthTxTail pkg port ring v s
  | .ethTransmit pkg port ring => Sys2Proof.Machine.execEthTransmit pkg port ring s
  | .ethRxTail pkg port ring v => Sys2Proof.Machine.execEthRxTail pkg port ring v s
  | .rocePacket pkg p => Sys2Proof.Machine.execRocePacket pkg p s
  | .rdmaCnp pkg qpn => Sys2Proof.Machine.execRdmaCnp pkg qpn s
  | .rdmaRateRecover pkg qpn => Sys2Proof.Machine.execRdmaRateRecover pkg qpn s
  | .rdmaRetransmitTimeout pkg qpn => Sys2Proof.Machine.execRdmaRetransmitTimeout pkg qpn s
  | .rdmaDoorbell pkg v => Sys2Proof.Machine.execRdmaDoorbell pkg v s
  | .rdmaDbwPoll pkg qpn => Sys2Proof.Machine.execRdmaDbwPoll pkg qpn s
  | .rdmaCompletion pkg qpn => Sys2Proof.Machine.execRdmaCompletion pkg qpn s
  | .pcieDeviceRequest pkg rid write addr n data => Sys2Proof.Machine.execPcieDeviceRequest pkg rid write addr n data s
  | .interruptWrite pkg addr v => Sys2Proof.Machine.execInterruptWrite pkg addr v s
  | .registerWrite pkg off v => Sys2Proof.Machine.execRegisterWrite pkg off v s
  | .launchDescriptorRead die => Sys2Proof.Machine.execLaunchDescriptorRead die s
  | .warmReset pkg => Sys2Proof.Machine.execWarmReset pkg s
  | .powerCycle pkg => Sys2Proof.Machine.execPowerCycle pkg s
  | .pcieLinkTraining pkg port rate width => Sys2Proof.Machine.execPcieLinkTraining pkg port rate width s
  | .nop => Sys2Proof.Machine.execNop s
  | .done => Sys2Proof.Machine.execDone s
  | .brk16 => Sys2Proof.Machine.execBrk16 s
  | .ret => Sys2Proof.Machine.execRet s
  | .ego => Sys2Proof.Machine.execEgo s
  | .bcvt => Sys2Proof.Machine.execBcvt s
  | .bimClose => Sys2Proof.Machine.execBimClose s
  | .oftRel => Sys2Proof.Machine.execOftRel s

end Sys2Proof.Machine
end

