-- ==== Sys2Proof/Machine/Readout.lean ====
section
/-! DEFINITION. What software reads from each device register (R4, R404): the stored fields with the fields that a unit's state shows. A
write-only register, and an offset that names none, reads as zero. FR_TAKE, whose read has an effect, is a step of its own (R60). -/
namespace Sys2Proof.Machine

/-- A word of fields: (lowest bit, length, value). -/
def fieldsW (l : List (Nat × Nat × Nat)) : Word := BitVec.ofNat 64 (l.foldl (fun n f => n + f.2.2 % 2 ^ f.2.1 * 2 ^ f.1) 0)

/-- Bits of a table's keys. -/
def keyBits {α : Type} (m : SMap α) : Nat := m.foldl (fun n e => n + 2 ^ e.1) 0

/-- Translation unit and broadcast block (R32): the broadcast block's DEPTH and OVF are those of the fullest unit. -/
def readMtu (s : State) (dk off : Nat) : Word :=
  let m := mtuAt s dk
  if off = 0x18 then fieldsW [(32, 32, m.done.toNat), (3, 5, m.queue.length), (0, 1, wfld (rawReg s dk (mtuBlk + 0x18)) 0 1)]
  else if off = 0x20 then fieldsW [(0, 32, m.faults.toNat)]
  else if off = 0 ∨ off = 8 then rawReg s dk (mtuBlk + off) else 0

def readBcast (s : State) (dk off : Nat) : Word :=
  let depth := ((computeDies (dk / 16)).map fun d => (mtuAt s d).queue.length).foldl max 0
  let ovf := (computeDies (dk / 16)).any fun d => (mtuAt s d).queue.length = depth && wbit (rawReg s d (mtuBlk + 0x18)) 0
  if off = 0x18 then fieldsW [(32, 32, (mget s.bcasts (dk / 16) Bcast.reset).done.toNat), (3, 5, depth), (0, 1, ovf.toNat)]
  else if off = 8 then rawReg s dk (bcastBlk + off) else 0

/-- Demotion engine (R60). -/
def readDem (s : State) (eng off : Nat) : Word :=
  let d := demAt s eng
  if off = 0x40 then fieldsW [(0, 24, d.count)]
  else if off = 0x48 then fieldsW [(32, 32, d.done.toNat), (16, 16, wfld (demReg s eng 0x48) 16 16), (0, 1, (2 ≤ d.stage : Bool).toNat)]
  else if off ≤ 0x28 then demReg s eng off else 0

/-- A slot, held open or unacknowledged commit of a domain exists at a Caliper (R119 BUSY); an open that has not been handled there is no held one. -/
def bimBusy (s : State) (cal dom : Nat) : Bool :=
  let c := calAt s cal
  (c.slots.any fun x => x.g.dom = dom) || (c.commits.any fun k => k.dom = dom) || (c.logs.any fun l => l.dom = dom) ||
    s.flights.any fun f => match f.pay, f.stage with
      | .mopenMem g _ c _, .waiting => c == cal && g.dom == dom
      | _, _ => false

/-- Caliper (R118, R119). -/
def readCal (s : State) (dk st off : Nat) : Word :=
  let cal := calKey dk st
  let c := calAt s cal
  let raw := rawReg s dk (calBlk st + off)
  if off = 0 then raw ||| fieldsW [(8, 5, 3 * (dk % 16) + st)]
  else if off = 8 then fieldsW [(21, 11, 1024 - c.slots.length), (0, 15, freeRows c)]
  else if 0x100 ≤ off ∧ off < 0x500 then
    let dom := (off - 0x100) / 0x40
    let o := off % 0x40
    if o = 0 then raw ||| fieldsW [(62, 1, (bimBusy s cal dom).toNat)]
    else if o = 0x38 then BitVec.ofNat 64 (mget c.seqs dom 0)
    else raw
  else 0

/-- Order sequencer (R141). -/
def readOsq (s : State) (dk off : Nat) : Word :=
  let o := osqAt s dk
  if off = 0x10 then fieldsW [(0, 32, o.beat)]
  else if off = 0x18 then fieldsW [(48, 16, wfld (rawReg s dk (osqBlk + 0x18)) 48 16), (32, 13, o.inflight.length), (0, 9, min 511 o.pend.length)]
  else if off = 0x20 then fieldsW [(0, 1, o.stall.toNat)]
  else if off = 0x28 then fieldsW [(32, 32, o.term.toNat), (0, 32, o.ordered.toNat)]
  else if off ≤ 8 then rawReg s dk (osqBlk + off) else 0

/-- Relief (R182). -/
def readRlf (s : State) (dk off : Nat) : Word :=
  if 0x100 ≤ off ∧ off < 0x180 then
    let c := clusAt s ((dk / 16 * 8 + dk % 16) * 16 + (off - 0x100) / 8)
    fieldsW [(32, 32, c.queue.length), (14, 16, min 65535 c.sum), (8, 6, c.dist), (0, 8, c.press)]
  else if off ≤ 0x10 then rawReg s dk (rlfBlk + off) else 0

/-- Ring sequencer (R243). -/
def readColl (s : State) (dk p off : Nat) : Word :=
  let d := dieAt s dk
  let q := mget d.ringQ p []
  if off = 0 then rawReg s dk (collBlk p)
  else if off = 8 then fieldsW [(23, 1, wfld (rawReg s dk (collBlk p + 8)) 23 1), (20, 3, mget d.cause p 0),
    (19, 1, (q.any fun c => c.started).toNat), (16, 3, (q.filter fun c => !c.started).length),
    (0, 8, match q.find? fun c => c.started with
      | some c => c.pc
      | none => mget d.estep p 0)]
  else 0

/-- Compute core (R38 to R42, R163, R197 to R202, R226, R387, R404). -/
def readCore (s : State) (core off : Nat) : Word :=
  let c := coreAt s core
  let dk := dkOfCore core
  let raw := rawReg s dk (coreBlk (numOfCore core) + off)
  if off = 0 then c.partw
  else if off = 8 then c.asid
  else if off = 0x28 then fieldsW [(16, 8, c.disc.toNat), (8, 8, c.res.toNat), (0, 8, c.req.toNat)]
  else if off = 0x30 then fieldsW [(24, 1, c.preErr.toNat), (16, 8, keyBits c.susp), (8, 8, c.req.toNat)]
  else if off = 0x40 then fieldsW [(32, 32, c.dropped.toNat), (16, 16, c.moved.toNat), (0, 16, c.refused.toNat)]
  else if off = 0x48 then fieldsW [(0, 32, c.ovf.toNat)]
  else if off = 0x58 then fieldsW [(32, 32, c.errs.toNat), (0, 5, c.copyQ.length)]
  else if 0x140 ≤ off ∧ off < 0x178 then fieldsW [(0, 32, xsCount s core ((off - 0x140) / 8))]
  else if off ≤ 0x20 ∨ (0x100 ≤ off ∧ off < 0x138) then raw else 0

/-- Blocks of the I/O die alone (R165, R194, R406, R410, R411, R414, R417, R419, R421). -/
def readIo (s : State) (pkg off : Nat) : Word :=
  let io := ioDie pkg
  let p := pkgAt s pkg
  let raw := rawReg s io off
  if strBlk ≤ off ∧ off < strBlk + 0x2000 then
    if (off - strBlk) % 0x20 = 0x18 then raw ||| fieldsW [(32, 32, (mget p.str ((off - strBlk) / 0x20) (0, 0, 0)).2.2)] else raw
  else if off = evqBlk + 0x18 then fieldsW [(0, 32, p.evqTail.toNat)]
  else if off = sysBlk then partModeReg p
  else if off = patBlk + 8 then fieldsW [(0, 32, p.patHead.toNat)]
  else if 0x0E0000 ≤ off ∧ off < 0x100000 then
    let port := (off - 0x0E0000) / 0x10000
    let o := off % 0x10000
    if 0x1000 ≤ o ∧ o < 0x2800 ∧ o % 0x20 = 0x18 then fieldsW [(0, 16, ringHead s pkg port (0x2000 ≤ o) (o % 0x1000 / 0x20))] else raw
  else if 0x120000 ≤ off ∧ off < 0x140000 then readCxl s pkg off
  else if off = rdmaBlk + 0x58 then fieldsW [(32, 32, p.rdDrop.toNat), (0, 32, p.rdCnp.toNat)]
  else raw

/-- The value of a register by its offset in its die's block (R404). -/
def readReg (s : State) (dk off : Nat) : Word :=
  let io := dk % 16 = 8
  if off % 8 != 0 then 0
  else if off < 0x010000 then if off = 0x200 then fieldsW [(0, 12, sysPkg s (dk / 16))] else rawReg s dk off
  else if off < 0x018000 then readMtu s dk (off - 0x010000)
  else if off < 0x020000 then if io then readBcast s dk (off - 0x018000) else 0
  else if off < 0x021000 then readDem s dk (off - 0x020000)
  else if off < 0x022000 then if io then readDem s (dk + 1) (off - 0x021000) else 0
  else if 0x070000 ≤ off ∧ off < 0x080000 then
    if off = fltBlk + 0x10 then fieldsW [(32, 32, (dieAt s dk).lost.toNat), (0, 7, (dieAt s dk).buf.length)] else 0
  else if io then readIo s (dk / 16) off
  else if 0x030000 ≤ off ∧ off < 0x033000 then readCal s dk ((off - 0x030000) / 0x1000) (off % 0x1000)
  else if 0x040000 ≤ off ∧ off < 0x041000 then readOsq s dk (off - 0x040000)
  else if off = luBlk + 8 then fieldsW [(32, 32, (dieAt s dk).clsDone.toNat)]
  else if off = luBlk + 0x10 then rawReg s dk off
  else if 0x060000 ≤ off ∧ off < 0x061000 then readRlf s dk (off - 0x060000)
  else if off = tkBlk then rawReg s dk off
  else if off = tkBlk + 8 then fieldsW [(32, 32, (dieAt s dk).dup.toNat), (0, 10, openMerges (dieAt s dk))]
  else if 0x090000 ≤ off ∧ off < 0x092000 then readColl s dk ((off - 0x090000) / 0x1000) (off % 0x1000)
  else if 0x100000 ≤ off ∧ off < 0x200000 then
    readCore s (coreKey (dk / 16) (dk % 16) ((off - 0x100000) / 0x1000)) (off % 0x1000)
  else 0

/-! ### Accesses of service cores -/

/-- Does an access of a service core lie in device memory that answers, within one aligned 8-byte word? -/
def hostReach (s : State) (loc n : Nat) : Bool :=
  0 < n && loc % 8 + n ≤ 8 &&
    (if regionKind loc = 1 then !(dieAt s (regionIdx loc)).failed && regionOff loc + n ≤ localSize (regionIdx loc)
     else if regionKind loc = 2 then regionOff loc + n ≤ localSize (ioDie (regionIdx loc))
     else regionKind loc == 3)

/-- An access of a service core, performed at its port at one instant (R69, R91): a load or AMO leaves the value it returns in `hostRead`. The
location is named directly, since the spec gives no address map of device memory for service cores (DESIGN CHOICE, log 59). -/
def hostAccess (op : HostOp) (s : State) : State :=
  match op with
  | .load loc n =>
    if !hostReach s loc n then s
    else
      let (bs, s) := portRead s loc n
      { s with hostRead := BitVec.ofNat 64 (ofBytes bs) }
  | .store loc bs => if hostReach s loc bs.length then dropCqs (portWrite s loc bs) else s
  | .amo op size loc v =>
    if !hostReach s loc size ∨ loc % size != 0 then s
    else
      let (bs, s) := portRead s loc size
      let old := ofBytes bs
      dropCqs { s with hostRead := BitVec.ofNat 64 old, mem := writeN s.mem loc size (memOp op size old v.toNat) }
  | .io pkg off =>
    let (w, s) := ioRead s pkg off
    { s with hostRead := w }
  | .ioStore pkg off n v => if off % n = 0 && [1, 2, 4, 8].contains n then ioWrite s pkg off n v else s
  | .file pkg file reg none => { s with hostRead := fileRead s pkg file reg }
  | .file pkg file reg (some v) => fileWrite s pkg file reg v
  | .claim pkg file =>
    let (w, s) := fileClaim s pkg file
    { s with hostRead := w }
  | .reg die off => if (dieAt s die).failed then s else { s with hostRead := readReg s die off }

end Sys2Proof.Machine
end

