-- ==== Sys2Proof/Machine/Step.lean ====
section
/-! DEFINITION. The step of the machine, and the state in which a given instruction is the next one fetched. -/
namespace Sys2Proof.Machine

/-- One step. A turn of the agenda, given from outside, lets cycles pass and then a core issue, or a unit of the device or an event from
outside act; an instruction of a routine is no step of a unit. With no turn given, the machine follows its own order (DESIGN CHOICE, log 4). -/
def step (s : State) : Host.Outcome State Fault Refusal :=
  match s.agenda with
  | [] => ownTurn exec s
  | t :: r =>
    let s := { s with agenda := r, now := s.now + t.wait }
    match t.act with
    | .issue core => issueOn exec core s
    | .device i => if isEncoded i then .next s else exec i s
    | .idle => .next s
    | .paths gone => .next { s with noPath := gone }
    | .word id => .next (performWord id s)
    | .host op => .next (hostAccess op s)
    | .again k => tryAgain k s

/-- The context that the core in focus issues for, or would take for a new activation. -/
def fetchCtx (s : State) : Nat :=
  s.focus * 8 + match selectContext s s.focus with
    | some (h, _) => h
    | none => (freeCtx s s.focus).getD 0

/-- The class of an activation that stands for a loaded routine: 64 bytes at image address 0, of a resumable class that asks for the
tiles and slots given. -/
def placedClass (nacc sslots : Nat) : ClassEntry :=
  { noClass with len := 64, valid := true, res := true, cost := 1, nacc := nacc, sslots := sslots }

/-- The activation that fetches a placed instruction (DEDUCED, log 5): in the address space of its core, resident in a frame, with a tile where
the core has one and the last slot of the pool, whose address is in s9 (R145). -/
def placedAct (s : State) (ctx : Nat) : Act where
  uid := s.nextId
  ctx := ctx
  task := { words := [0, 0, 0, 0, 0, 0, 0, 0], asid := wfld (coreAt s (coreOfCtx ctx)).asid 0 16
            gen := wfld (coreAt s (coreOfCtx ctx)).asid 16 4, rc := 0, txn := none, cost := 1, pkg := pkgOfCore (coreOfCtx ctx)
            home := clusOfCore (coreOfCtx ctx), w := 0 }
  cls := placedClass (min 1 (wfld (coreAt s (coreOfCtx ctx)).partw 0 2)) 1
  taskId := 1
  gx := 0
  gy := 0
  gw := 1
  gh := 1
  tx := 0xFFFFFFFF
  ty := 0xFFFFFFFF
  gang := none
  tiles := List.range (min 1 (wfld (coreAt s (coreOfCtx ctx)).partw 0 2))
  alloc := some (63, 1)
  regs := { Regs.reset with s := Regs.reset.s.setIfInBounds 9 (BitVec.ofNat 64 (4096 * 63)) }
  frame := some 0
  filling := false
  mask := none
  wait := .run
  parkedAt := 0
  issuedAt := 0
  group := none
  closing := []
  committed := false
  decl := []
  txn := none
  txnCycles := 0
  txnMark := 0
  preempt := none
  stopped := false
  move := none
  seq := 0
  doneRel := false

/-- The core with a frame for a context, an address space, and a routine line that holds the bytes. PARTW with 1 tile and 8 units of
context where it holds no frame. -/
def placedCore (c : Core) (ctx : Nat) (bytes : List Byte) : Core :=
  let c := if frameCount c = 0 then { c with partw := 33 } else c
  let c := if wbit c.asid 20 then c else { c with asid := c.asid ||| 0x100000 }
  { setFrame c 0 (some (ctxNum ctx)) with
    lines := (wfld c.asid 0 16, wfld c.asid 16 4, 0, 0, bytes) :: c.lines.filter fun l => !(l.2.2.1 = 0 && l.2.2.2.1 = 0) }

/-- The state with an instruction placed where the next step fetches it: an activation of the core in focus whose program counter
stands at the start of a routine line that holds the instruction's bytes, zeros behind them; nothing is asked from outside. -/
def State.withFetchWord (s : State) (nbits w : Nat) : State :=
  let ctx := fetchCtx s
  let s := setCore s s.focus (placedCore (coreAt s s.focus) ctx (leBytes 64 (w % 2 ^ nbits)))
  { s with agenda := [], nextId := s.nextId + 1, acts := mset s.acts ctx (placedAct s ctx) }

end Sys2Proof.Machine
end

