-- ==== Sys2Proof/Safety.lean ====
section
/-! DEFINITION. The terms in which claims are stated: a safe run, an instruction that issues with nothing to wait for, and
what a unit that completes changes. -/
namespace Sys2Proof.Safety
open Sys2Proof.Machine

/-- The outcome of a step. -/
abbrev Out := Host.Outcome State Fault Refusal

/-- Does an outcome go on? -/
def goesOn {σ φ ρ : Type} : Host.Outcome σ φ ρ → Bool
  | .next _ => true
  | _ => false

/-- A run of k steps from a state is safe when every one of them goes on. -/
def SafeFor (k : Nat) (s : State) : Prop := goesOn (Sys2Proof.core.run k s) = true

/-- A state is safe when every run from it is. -/
def Safe (s : State) : Prop := ∀ k, SafeFor k s

/-- The activation at `cur` may execute a unit that names these registers: no reply is awaited for any of them (R185,
R282) and no earlier operation holds one that lies in an accumulator window, which a write of it would await (R350). -/
def Issues (s : State) (a : Act) (names : List RegName) : Prop :=
  actAt s s.cur = some a ∧ pending s a names = [] ∧ windowHolds s a true names = []

/-- Only the record of one activation differs; in particular every byte of memory reads as before. -/
def OnlyAct (s t : State) (a b : Act) : Prop :=
  t = { s with acts := mset s.acts a.ctx b } ∧ ∀ x, readByte t.mem x = readByte s.mem x

/-- The program counter and the loop count after a unit of n bytes that goes on in sequence (R308, R311): at the end of a
loop's body the loop goes round or ends. -/
def Advances (a b : Act) (n : Nat) : Prop :=
  let next := a.regs.pc + BitVec.ofNat 64 n
  let img := BitVec.ofNat 64 a.cls.img
  if a.regs.lcnt ≠ 0 ∧ next = img + a.regs.lend.setWidth 64 then
    if a.regs.lcnt = 1 then b.regs.pc = next ∧ b.regs.lcnt = 0
    else b.regs.pc = img + a.regs.lstart.setWidth 64 ∧ b.regs.lcnt = a.regs.lcnt - 1
  else b.regs.pc = next ∧ b.regs.lcnt = a.regs.lcnt

/-- Of an activation only the register block changes, and it is ready to execute its next unit. -/
def OnlyRegs (a b : Act) : Prop := b = { a with wait := .run, regs := b.regs }

/-- The unit completes: the outcome is a next state in which only the activation's register block has changed, the loop's
bounds stand, and the activation goes on in sequence. -/
def Retires (s : State) (a : Act) (n : Nat) (o : Out) (P : Act → Prop) : Prop :=
  ∃ t b, o = .next t ∧ OnlyAct s t a b ∧ OnlyRegs a b ∧ Advances a b n ∧ b.regs.lstart = a.regs.lstart ∧
    b.regs.lend = a.regs.lend ∧ P b

/-- Every register file but the scalar one is as before, and so are the window and the status register. -/
def KeepsAllButS (a b : Act) : Prop :=
  b.regs.f = a.regs.f ∧ b.regs.m = a.regs.m ∧ b.regs.d = a.regs.d ∧ b.regs.c = a.regs.c ∧ b.regs.vwb = a.regs.vwb ∧
    b.regs.fcr = a.regs.fcr

/-- The unit of n bytes completes: it writes v into scalar register d, or nothing when d is 0 (R254), and changes no other
register but the program counter and the loop count. -/
def SetsS (s : State) (a : Act) (d : Nat) (v : Word) (n : Nat) (o : Out) : Prop :=
  Retires s a n o fun b => KeepsAllButS a b ∧ ∀ k, sreg b k = if k = d ∧ d ≠ 0 then v else sreg a k

/-- Every register file but the mask one is as before. -/
def KeepsAllButM (a b : Act) : Prop :=
  b.regs.s = a.regs.s ∧ b.regs.f = a.regs.f ∧ b.regs.d = a.regs.d ∧ b.regs.c = a.regs.c ∧ b.regs.vwb = a.regs.vwb ∧
    b.regs.fcr = a.regs.fcr

/-- The unit completes with v in mask register d, or with nothing written when d is 0 (R254). -/
def SetsM (s : State) (a : Act) (d : Nat) (v : MReg) (n : Nat) (o : Out) : Prop :=
  Retires s a n o fun b => KeepsAllButM a b ∧ ∀ k, mreg b k = if k = d ∧ d ≠ 0 then v else mreg a k

/-- A taken branch or jump (R306 to R308, R311): the program counter is the target, and a target outside the body of a
running loop ends the loop. -/
def Jumps (a b : Act) (target : Word) : Prop :=
  let off := (target - BitVec.ofNat 64 a.cls.img).toNat
  b.regs.pc = target ∧
    b.regs.lcnt = (if a.regs.lstart.toNat ≤ off ∧ off < a.regs.lend.toNat then a.regs.lcnt else 0)

/-- The unit completes with a jump to the target, and with v in scalar register d unless d is 0. -/
def JumpsTo (s : State) (a : Act) (target : Word) (d : Nat) (v : Word) (o : Out) : Prop :=
  ∃ t b, o = .next t ∧ OnlyAct s t a b ∧ OnlyRegs a b ∧ Jumps a b target ∧ b.regs.lstart = a.regs.lstart ∧
    b.regs.lend = a.regs.lend ∧ KeepsAllButS a b ∧ ∀ k, sreg b k = if k = d ∧ d ≠ 0 then v else sreg a k

/-- No event class is counted on the activation's core (R226: WINDOW 0). -/
def Uncounted (s : State) (a : Act) : Prop := ∀ k, k < 7 → xsWindow s (coreOf a) k = 0

/-- The core's own record is as before but for the number of stochastic draws made (R213). -/
def OnlyDraws (s t : State) (a : Act) : Prop :=
  (∀ q, q ≠ coreOf a → coreAt t q = coreAt s q) ∧
    coreAt t (coreOf a) = { coreAt s (coreOf a) with draws := (coreAt t (coreOf a)).draws }

/-- An arithmetic unit completes: only the register block of the activation, by P, and the core's number of draws have
changed; the events of ev are sticky in fcr (R214). -/
def RetiresEv (s : State) (a : Act) (ev n : Nat) (o : Out) (P : Act → Prop) : Prop :=
  ∃ t b, o = .next t ∧ t = { s with acts := mset s.acts a.ctx b, cores := t.cores } ∧ OnlyDraws s t a ∧
    (∀ x, readByte t.mem x = readByte s.mem x) ∧ OnlyRegs a b ∧ Advances a b n ∧ b.regs.lstart = a.regs.lstart ∧
    b.regs.lend = a.regs.lend ∧ b.regs.fcr = a.regs.fcr ||| BitVec.ofNat 64 (ev % 128 * 256) ∧ P b

/-- Every register file but the scalar and the floating-point one is as before, and so is the window. -/
def KeepsMDC (a b : Act) : Prop :=
  b.regs.m = a.regs.m ∧ b.regs.d = a.regs.d ∧ b.regs.c = a.regs.c ∧ b.regs.vwb = a.regs.vwb

/-- The unit completes with bits in floating-point register d and events ev. -/
def SetsF (s : State) (a : Act) (d bits ev n : Nat) (o : Out) : Prop :=
  RetiresEv s a ev n o fun b => KeepsMDC a b ∧ b.regs.s = a.regs.s ∧
    ∀ k, freg b k = if k = d then BitVec.ofNat 64 bits else freg a k

/-- The unit completes with v in scalar register d, unless d is 0, and events ev. -/
def SetsSEv (s : State) (a : Act) (d : Nat) (v : Word) (ev n : Nat) (o : Out) : Prop :=
  RetiresEv s a ev n o fun b => KeepsMDC a b ∧ b.regs.f = a.regs.f ∧
    ∀ k, sreg b k = if k = d ∧ d ≠ 0 then v else sreg a k

/-- The activation goes on in sequence with no register written. -/
def Goes (a b : Act) (n : Nat) : Prop :=
  b = { a with wait := .run, regs := { a.regs with pc := b.regs.pc, lcnt := b.regs.lcnt } } ∧ Advances a b n

/-- No operation of the activation is in flight, and its id is its own. -/
def Alone (s : State) (a : Act) : Prop :=
  (∀ e ∈ s.acts, e.2.uid = a.uid → e = (a.ctx, a)) ∧ ∀ f ∈ s.flights, f.uid ≠ a.uid

/-- The next operation of an activation as it leaves the core (R9, R87, R186): its number, the address of its instruction, its access
path, its operation slot, and its request under the activation's address space, generation and transaction. -/
def request (s : State) (a : Act) (path : Option Nat) (acc : Acc) (va n : Nat) (pay : Pay) (dst : Dst) : Flight where
  id := s.nextId
  uid := a.uid
  pc := a.regs.pc.toNat
  path := path
  slot := true
  stage := .sent
  req := {
    acc := acc
    va := va % 2 ^ 57
    n := n
    asid := a.task.asid
    gen := a.task.gen
    src := ⟨pkgOfCore (coreOf a), dieOfCore (coreOf a), numOfCore (coreOf a), ctxNum a.ctx, none⟩
    txn := a.txn }
  pay := pay
  dst := dst
  unit := dieOf a
  gang := none
  done := 0
  got := []
  wire := none
  after := none
  cls := classOf a
  sentNo := s.nextId + 1

/-- An operation that has not been sent. -/
def unsent (f : Flight) (st : Stage) : Flight := { f with stage := st, sentNo := 0 }

/-- A request to the pool of another core (R52). -/
def gangRequest (s : State) (a : Act) (path : Option Nat) (acc : Acc) (addr n : Nat) (pay : Pay) (dst : Dst) : Flight :=
  { request s a path acc (addr % 262144) n pay dst with gang := some (gangCore a addr), stage := .port 0 0 0 0 }

/-- The unit completes by sending f: nothing else changes but the program counter and the loop count. -/
def Sends (s : State) (a : Act) (n : Nat) (f : Flight) (o : Out) : Prop :=
  ∃ t b, o = .next t ∧ Goes a b n ∧
    t = { s with acts := mset s.acts a.ctx b, flights := s.flights ++ [f], nextId := s.nextId + 1 }

/-- The unit completes by storing bytes at a location: every other byte of memory reads as before, and nothing else changes
but the program counter and the loop count. -/
def Stores (s : State) (a : Act) (loc : Nat) (bs : List Byte) (n : Nat) (o : Out) : Prop :=
  ∃ t b, o = .next t ∧ Goes a b n ∧ t = { s with acts := mset s.acts a.ctx b, mem := t.mem } ∧
    ∀ x, readByte t.mem x = if loc ≤ x ∧ x < loc + bs.length then bs.getD (x - loc) 0 else readByte s.mem x

/-- The activation reaches n bytes of its core's pool (R45), their slots are thread-owned (R46), and no earlier operation of it holds the bytes
(R328). -/
def OwnFree (s : State) (a : Act) (p n : Nat) : Prop :=
  ownReach s a p n = true ∧ ownedSlot s (coreOf a) p n = none ∧ poolHolds s a p n true = []

/-- The unit completes and writes nothing: only the program counter and the loop count change. -/
def Continues (s : State) (a : Act) (n : Nat) (o : Out) : Prop := ∃ t b, o = .next t ∧ OnlyAct s t a b ∧ Goes a b n

/-- The activation waits at the unit: nothing changes but what it waits for and, where it parks, the cycle of its parking
(R185). -/
def Waits (s : State) (a : Act) (w : Wait) (o : Out) : Prop :=
  ∃ t b, o = .next t ∧ OnlyAct s t a b ∧ b = { a with wait := w, parkedAt := if w.parks then s.now else a.parkedAt }

/-- The activation sends f and waits at the unit. -/
def SendsAndWaits (s : State) (a : Act) (w : Wait) (f : Flight) (o : Out) : Prop :=
  ∃ t b, o = .next t ∧ b = { a with wait := w, parkedAt := if w.parks then s.now else a.parkedAt } ∧
    t = { s with acts := mset s.acts a.ctx b, flights := s.flights ++ [f], nextId := s.nextId + 1 }

/-- The unit completes; besides its program counter and loop count and the registers of P, only the record of its core has
changed, to c. -/
def ChangesCore (s : State) (a : Act) (n : Nat) (c : Core) (o : Out) (P : Act → Prop) : Prop :=
  ∃ t b, o = .next t ∧ t = { s with acts := mset s.acts a.ctx b, cores := mset s.cores (coreOf a) c } ∧ OnlyRegs a b ∧
    Advances a b n ∧ P b

/-- A vector unit completes: row d of the window becomes the number `row`, every other byte of memory reads as before; of the
activation only the program counter, the loop count and the sticky bits of fcr change, and of its core only the number of
draws. -/
def SetsRow (s : State) (a : Act) (d row ev n : Nat) (o : Out) : Prop :=
  ∃ t b, o = .next t ∧ t = { s with acts := mset s.acts a.ctx b, cores := t.cores, mem := t.mem } ∧ OnlyDraws s t a ∧
    b = { a with
      wait := .run
      regs := { a.regs with
        pc := b.regs.pc
        lcnt := b.regs.lcnt
        fcr := a.regs.fcr ||| BitVec.ofNat 64 (ev % 128 * 256) } } ∧ Advances a b n ∧
    (∀ x, (x < vloc s a d ∨ vloc s a d + 512 ≤ x) → readByte t.mem x = readByte s.mem x) ∧
    readN t.mem (vloc s a d) 512 = row

/-- Lane i of row v of the window, as type t. -/
def laneAt (s : State) (a : Act) (t v i : Nat) : Nat := lane (tWidth t) (readN s.mem (vloc s a v) 512) i

/-- A lane-wise unit of type t without a prefix completes: lane i of row d becomes the value of f i, whose events are
sticky. -/
def SetsLanes (s : State) (a : Act) (t d : Nat) (f : Nat → Nat × Nat) (o : Out) : Prop :=
  ∃ row ev, SetsRow s a d row ev 4 o ∧ (∀ i, i < tLanes t → lane (tWidth t) row i = (f i).1 % 2 ^ tWidth t) ∧
    ∀ k, k < 7 → (ev.testBit k = true ↔ ∃ i, i < tLanes t ∧ (f i).2.testBit k = true)

/-- The rounding mode of a unit without a prefix (R212, R262). -/
def modeOf (a : Act) : Nat := wfld a.regs.fcr 0 3

/-- An integer brought into the range of its type, and the saturation event (R217, R225). -/
def clamped (t : Nat) (x : Int) : Nat × Nat :=
  if x < tMin t then (intBits (tWidth t) (tMin t), 32)
  else if tMax t < x then (intBits (tWidth t) (tMax t), 32)
  else (intBits (tWidth t) x, 0)

/-- The outcome is a next state of which P holds. -/
def Now (o : Out) (P : State → Prop) : Prop := ∃ t, o = .next t ∧ P t

/-- An operation or message stands at a stage. -/
def StageIs (t : State) (id : Nat) (g : Stage) : Prop := ∃ f, flightById t id = some f ∧ f.stage = g

/-- An operation or message has left. -/
def Gone (t : State) (id : Nat) : Prop := flightById t id = none

/-- No access of an engine or agent is held: no slot of a pool is engine-owned (R46, R47), and every die answers (R178). -/
def NothingHeld (s : State) : Prop := (∀ e ∈ s.cores, ∀ x ∈ e.2.slots, x.2.1 = false) ∧ ∀ e ∈ s.dies, e.2.failed = false

/-- An operation is no lane of an indexed vector instruction, which would be performed again whole (R325). -/
def Unlaned (s : State) (id : Nat) : Prop := ∀ e ∈ s.lanes, ∀ g ∈ e.2, g.id ≠ id

/-- An activation is the one with its id, resident in a frame, and not parked on a fault or sending a replay list. -/
def Settled (s : State) (a : Act) : Prop :=
  actByUid s a.uid = some a ∧ actAt s a.ctx = some a ∧ (∀ e ∈ s.acts, e.2.uid = a.uid → e = (a.ctx, a)) ∧
    resident a = true ∧ onFault a = false

/-- The load or store f is performed whole at a location (R69): a load is answered with the bytes there, a store writes its bytes
and is acknowledged. The write-queue entries of the lines are applied first (R59). -/
def Performs (s : State) (f : Flight) (loc n : Nat) (o : Out) : Prop :=
  f.done = 0 → f.req.n = n →
    (f.pay = .load → f.got = [] → Now o fun t => StageIs t f.id (.reply (readBytes (closeRange s loc n).mem loc n))) ∧
    (∀ bs, f.pay = .store bs → bs.length = n → f.after = none → f.wire = none → metObjects s f loc n = [] →
      Now o fun t => StageIs t f.id .ack ∧ ∀ x, readByte t.mem x =
        if loc ≤ x ∧ x < loc + n then bs.getD (x - loc) 0 else readByte (closeRange s loc n).mem x)

/-- A message with this payload is on its way. -/
def Sent (t : State) (p : Pay) : Prop := ∃ f ∈ t.flights, f.pay = p ∧ f.stage = .sent

/-- An operation or message of this id is in flight, and ids not yet given out are not. -/
def InFlight (s : State) (id : Nat) (f : Flight) : Prop := flightById s id = some f ∧ id < s.nextId

/-- The activation at a context is b. -/
def Has (t : State) (ctx : Nat) (P : Act → Prop) : Prop := ∃ b, actAt t ctx = some b ∧ P b

/-- An activation is the only one of its id and of its hardware context. -/
def Sole (s : State) (a : Act) : Prop :=
  actAt s a.ctx = some a ∧ ∀ e ∈ s.acts, e.2.uid = a.uid ∨ e.2.ctx = a.ctx → e = (a.ctx, a)

/-- A released activation: its replay list waits for sent operations to settle, or is being sent (R189). -/
def Released (va : Nat) (b : Act) : Prop := b.wait = .fault va true ∨ ∃ ids, b.wait = .sending ids

/-- The unit at an activation's program counter lies in its image, its lines are in the routine store, and its bytes decode to i
(R203, R206, R256). -/
def Fetches (s : State) (a : Act) (i : Instr) : Prop :=
  let n := lengthOf (leNat (codeBytes s a (pcOf a) 2))
  inImage a (pcOf a) 2 = true ∧ missingLine s a (pcOf a) 2 = none ∧ inImage a (pcOf a) n = true ∧
    missingLine s a (pcOf a) n = none ∧ ∃ rest, decode (codeBytes s a (pcOf a) n) = .ok (i, rest)

/-- The state in which a core that issues for context h of class cls executes the unit of activation a (R183): the cycle is later than
the core's last issue, the context is the class's last one, and the activation is ready. -/
def issued (s : State) (core h cls : Nat) (a : Act) : State :=
  let n := max s.now ((coreAt s core).issuedAt + 1)
  let c := coreAt s core
  { s with
    now := n
    cur := core * 8 + h
    cores := mset s.cores core { c with lastCtx := lset c.lastCtx cls h, issuedAt := n }
    acts := mset s.acts a.ctx { a with wait := .run, issuedAt := n } }

/-- A core that may issue runs i: it chooses context h, whose activation a is in a frame and asked for by no request at a yield point,
and the unit at its program counter decodes to i (R183, R197). -/
def IssuesNext (s : State) (core h cls : Nat) (a : Act) (i : Instr) : Prop :=
  let n := max s.now ((coreAt s core).issuedAt + 1)
  (dieAt s (dkOfCore core)).failed = false ∧ selectContext { s with now := n } core = some (h, cls) ∧
    actAt s (core * 8 + h) = some a ∧ a.frame ≠ none ∧ (a.preempt = none ∨ a.txn ≠ none) ∧
    Fetches (issued s core h cls a) { a with wait := .run, issuedAt := n } i

end Sys2Proof.Safety
end

