-- ==== Sys2Proof/Certificates/Slice0/Obligations.lean ====
section
/-! DEFINITION. The statements for the provers. Each docstring names the rules of spec/ that it formalises. -/
open Sys2Proof Sys2Proof.Machine Sys2Proof.Safety

/-- R258, R284, R285, R294 to R296: sums, differences and products modulo 2^64, the high halves of the exact products, and constants.
Nothing else changes but the program counter and the loop count. -/
def Obligations.ScalarArithmeticResults : Prop :=
  ∀ (s : State) (a : Act) (d x y : BitVec 5) (i : BitVec 15) (k : BitVec 6) (h : BitVec 20),
    Issues s a (sNames [d.toNat, x.toNat, y.toNat]) →
    let D := sreg a d.toNat
    let X := sreg a x.toNat
    let Y := sreg a y.toNat
    SetsS s a d.toNat (X + Y) 4 (exec (.add d x y) s) ∧
    SetsS s a d.toNat (X - Y) 4 (exec (.sub d x y) s) ∧
    SetsS s a d.toNat (BitVec.ofInt 64 (X.toInt * Y.toInt)) 4 (exec (.mul d x y) s) ∧
    SetsS s a d.toNat (BitVec.ofInt 64 (X.toInt * Y.toInt / 2 ^ 64)) 4 (exec (.mulh d x y) s) ∧
    SetsS s a d.toNat (BitVec.ofNat 64 (X.toNat * Y.toNat / 2 ^ 64)) 4 (exec (.mulhz d x y) s) ∧
    SetsS s a d.toNat (BitVec.ofInt 64 (X.toInt + i.toInt)) 4 (exec (.addi d x i) s) ∧
    SetsS s a d.toNat (D + X) 2 (exec (.add16 d x) s) ∧
    SetsS s a d.toNat (D - X) 2 (exec (.sub16 d x) s) ∧
    SetsS s a d.toNat (BitVec.ofInt 64 (D.toInt + k.toInt)) 2 (exec (.addi6 d k) s) ∧
    SetsS s a d.toNat (BitVec.ofInt 64 i.toInt) 4 (exec (.li d i) s) ∧
    SetsS s a d.toNat (BitVec.ofInt 64 k.toInt) 2 (exec (.li6 d k) s) ∧
    SetsS s a d.toNat (BitVec.ofNat 64 (D.toNat * 2 ^ 20 + h.toNat)) 4 (exec (.lih d h) s) ∧
    SetsS s a d.toNat X 2 (exec (.mov d x) s) ∧
    SetsS s a 0 0 2 (exec .nop s)

/-- R286: quotients truncate toward zero and remainders take the sign of the dividend; division by zero and the signed overflow give
the defined results. -/
def Obligations.DivisionResults : Prop :=
  ∀ (s : State) (a : Act) (d x y : BitVec 5),
    Issues s a (sNames [d.toNat, x.toNat, y.toNat]) →
    let X := sreg a x.toNat
    let Y := sreg a y.toNat
    SetsS s a d.toNat (if Y = 0 then BitVec.allOnes 64
      else if X.toInt = -2 ^ 63 ∧ Y.toInt = -1 then BitVec.ofInt 64 (-2 ^ 63)
      else BitVec.ofInt 64 (X.toInt.tdiv Y.toInt)) 4 (exec (.div d x y) s) ∧
    SetsS s a d.toNat (if Y = 0 then X
      else if X.toInt = -2 ^ 63 ∧ Y.toInt = -1 then 0
      else BitVec.ofInt 64 (X.toInt - Y.toInt * X.toInt.tdiv Y.toInt)) 4 (exec (.rem d x y) s) ∧
    SetsS s a d.toNat (if Y = 0 then BitVec.allOnes 64 else BitVec.ofNat 64 (X.toNat / Y.toNat)) 4
      (exec (.divz d x y) s) ∧
    SetsS s a d.toNat (if Y = 0 then X else BitVec.ofNat 64 (X.toNat % Y.toNat)) 4 (exec (.remz d x y) s)

/-- R258, R284, R287, R294, R297: each bit of a logical result, and shifts and rotations by the low six bits of the amount. R298, R292,
R293: bit fields. ext and ext.s give the field, zero- or sign-extended, ins replaces it; a field that runs past bit 63 traps. hdr.unpk
and hdr.pack do the same with the field of a HDRF entry, whose bytes BE reverses; a malformed entry traps. -/
def Obligations.LogicAndBitFieldResults : Prop :=
  (∀ (s : State) (a : Act) (d x y : BitVec 5) (i : BitVec 15) (n : BitVec 6),
    Issues s a (sNames [d.toNat, x.toNat, y.toNat]) →
    let D := sreg a d.toNat
    let X := sreg a x.toNat
    let Y := sreg a y.toNat
    let I := BitVec.ofInt 64 i.toInt
    let m := Y.toNat % 64
    SetsS s a d.toNat (X &&& Y) 4 (exec (.and d x y) s) ∧
    SetsS s a d.toNat (X &&& ~~~Y) 4 (exec (.andn d x y) s) ∧
    SetsS s a d.toNat (X ||| Y) 4 (exec (.or d x y) s) ∧
    SetsS s a d.toNat (X ^^^ Y) 4 (exec (.xor d x y) s) ∧
    SetsS s a d.toNat (X &&& I) 4 (exec (.andi d x i) s) ∧
    SetsS s a d.toNat (X ||| I) 4 (exec (.ori d x i) s) ∧
    SetsS s a d.toNat (X ^^^ I) 4 (exec (.xori d x i) s) ∧
    SetsS s a d.toNat (D &&& X) 2 (exec (.and16 d x) s) ∧
    SetsS s a d.toNat (D ||| X) 2 (exec (.or16 d x) s) ∧
    SetsS s a d.toNat (BitVec.ofNat 64 (X.toNat * 2 ^ m)) 4 (exec (.shl d x y) s) ∧
    SetsS s a d.toNat (BitVec.ofNat 64 (X.toNat / 2 ^ m)) 4 (exec (.shr d x y) s) ∧
    SetsS s a d.toNat (BitVec.ofInt 64 (X.toInt / 2 ^ m)) 4 (exec (.sra d x y) s) ∧
    SetsS s a d.toNat (X <<< m ||| X >>> (64 - m)) 4 (exec (.rol d x y) s) ∧
    SetsS s a d.toNat (BitVec.ofNat 64 (X.toNat * 2 ^ n.toNat)) 4 (exec (.shli d x n) s) ∧
    SetsS s a d.toNat (BitVec.ofNat 64 (X.toNat / 2 ^ n.toNat)) 4 (exec (.shri d x n) s) ∧
    SetsS s a d.toNat (BitVec.ofInt 64 (X.toInt / 2 ^ n.toNat)) 4 (exec (.srai d x n) s) ∧
    SetsS s a d.toNat (X >>> n.toNat ||| X <<< (64 - n.toNat)) 4 (exec (.rori d x n) s) ∧
    SetsS s a d.toNat (BitVec.ofNat 64 (D.toNat * 2 ^ n.toNat)) 2 (exec (.shli16 d n) s) ∧
    SetsS s a d.toNat (BitVec.ofNat 64 (D.toNat / 2 ^ n.toNat)) 2 (exec (.shri16 d n) s)) ∧
  (∀ (s : State) (a : Act) (d x y : BitVec 5) (p l : BitVec 6),
    Issues s a (sNames [d.toNat, x.toNat, y.toNat]) →
    let D := sreg a d.toNat
    let X := sreg a x.toNat
    let e := mget (coreAt s (coreOf a)).hdrf ((sreg a y.toNat).toNat % 64) 0
    let pos := wfld e 0 6
    let len := wfld e 6 7
    let be := e.getLsbD 13
    let at_ (j : Nat) : Nat := if be then 8 * (len / 8 - 1 - j / 8) + j % 8 else j
    let ok := e.getLsbD 15 = true ∧ 1 ≤ len ∧ len ≤ 64 ∧ pos + len ≤ 64 ∧ (be = true → len % 8 = 0 ∧ pos % 8 = 0)
    (p.toNat + l.toNat ≤ 63 →
      (∃ v : Word, (∀ k, k < 64 → v.getLsbD k = (decide (k ≤ l.toNat) && X.getLsbD (p.toNat + k))) ∧
        SetsS s a d.toNat v 4 (exec (.ext d x p l) s)) ∧
      (∃ v : Word, (∀ k, k < 64 → v.getLsbD k = X.getLsbD (p.toNat + min k l.toNat)) ∧
        SetsS s a d.toNat v 4 (exec (.extS d x p l) s)) ∧
      (∃ v : Word, (∀ k, k < 64 → v.getLsbD k =
          if p.toNat ≤ k ∧ k ≤ p.toNat + l.toNat then X.getLsbD (k - p.toNat) else D.getLsbD k) ∧
        SetsS s a d.toNat v 4 (exec (.ins d x p l) s))) ∧
    (64 ≤ p.toNat + l.toNat →
      exec (.ext d x p l) s = .next (trap s a 1) ∧ exec (.extS d x p l) s = .next (trap s a 1) ∧
      exec (.ins d x p l) s = .next (trap s a 1)) ∧
    (ok →
      (∃ v : Word, SetsS s a d.toNat v 4 (exec (.hdrUnpk d x y) s) ∧
        (∀ j, j < len → v.getLsbD j = X.getLsbD (pos + at_ j)) ∧
        (∀ k, len ≤ k → k < 64 → v.getLsbD k = (e.getLsbD 14 && v.getLsbD (len - 1)))) ∧
      (∃ v : Word, SetsS s a d.toNat v 4 (exec (.hdrPack d x y) s) ∧
        (∀ j, j < len → v.getLsbD (pos + j) = X.getLsbD (at_ j)) ∧
        (∀ k, k < 64 → (k < pos ∨ pos + len ≤ k) → v.getLsbD k = D.getLsbD k))) ∧
    (¬ ok → exec (.hdrUnpk d x y) s = .next (trap s a 1) ∧ exec (.hdrPack d x y) s = .next (trap s a 1)))

/-- R288: leading zeros, trailing zeros, one bits and the reversal of the bytes. R290, R291: the carry-less product and the CRC-32C
step, as the spec's loops compute them. -/
def Obligations.BitCountAndPolynomialResults : Prop :=
  (∀ (s : State) (a : Act) (d x : BitVec 5), Issues s a (sNames [d.toNat, x.toNat]) →
    let X := sreg a x.toNat
    (∃ n : Nat, n ≤ 64 ∧ (∀ k, 64 - n ≤ k → X.getLsbD k = false) ∧ (n < 64 → X.getLsbD (63 - n) = true) ∧
      SetsS s a d.toNat (BitVec.ofNat 64 n) 4 (exec (.clz d x) s)) ∧
    (∃ n : Nat, n ≤ 64 ∧ (∀ k, k < n → X.getLsbD k = false) ∧ (n < 64 → X.getLsbD n = true) ∧
      SetsS s a d.toNat (BitVec.ofNat 64 n) 4 (exec (.ctz d x) s)) ∧
    SetsS s a d.toNat (BitVec.ofNat 64 ((List.range 64).countP fun k => X.getLsbD k)) 4 (exec (.popc d x) s) ∧
    (∃ v : Word, (∀ j, j < 8 → wfld v (8 * j) 8 = wfld X (8 * (7 - j)) 8) ∧
      SetsS s a d.toNat v 4 (exec (.bswap d x) s))) ∧
  (∀ (s : State) (a : Act) (d x y : BitVec 5),
    Issues s a (sNames [d.toNat, x.toNat, y.toNat]) →
    let X := sreg a x.toNat
    let Y := sreg a y.toNat
    let p : BitVec 128 := (List.range 64).foldl
      (fun p i => if Y.getLsbD i then p ^^^ (X.setWidth 128 <<< i) else p) 0
    let c : BitVec 32 := (List.range 64).foldl
      (fun c i => if c.getLsbD 0 != Y.getLsbD i then (c >>> 1) ^^^ 0x82F63B78 else c >>> 1) (X.setWidth 32)
    SetsS s a d.toNat (p.setWidth 64) 4 (exec (.clmul d x y) s) ∧
    SetsS s a d.toNat ((p >>> 64).setWidth 64) 4 (exec (.clmulh d x y) s) ∧
    SetsS s a d.toNat (c.setWidth 64) 4 (exec (.crc d x y) s))

/-- R289, R294: minima, maxima, comparisons and the selection, which reads rd before it writes it. -/
def Obligations.ComparisonResults : Prop :=
  ∀ (s : State) (a : Act) (d x y : BitVec 5) (i : BitVec 15),
    Issues s a (sNames [d.toNat, x.toNat, y.toNat]) →
    let D := sreg a d.toNat
    let X := sreg a x.toNat
    let Y := sreg a y.toNat
    SetsS s a d.toNat (BitVec.ofInt 64 (min X.toInt Y.toInt)) 4 (exec (.min d x y) s) ∧
    SetsS s a d.toNat (BitVec.ofInt 64 (max X.toInt Y.toInt)) 4 (exec (.max d x y) s) ∧
    SetsS s a d.toNat (BitVec.ofNat 64 (min X.toNat Y.toNat)) 4 (exec (.minz d x y) s) ∧
    SetsS s a d.toNat (BitVec.ofNat 64 (max X.toNat Y.toNat)) 4 (exec (.maxz d x y) s) ∧
    SetsS s a d.toNat (if X = Y then 1 else 0) 4 (exec (.seq d x y) s) ∧
    SetsS s a d.toNat (if X = Y then 0 else 1) 4 (exec (.sne d x y) s) ∧
    SetsS s a d.toNat (if X.toInt < Y.toInt then 1 else 0) 4 (exec (.slt d x y) s) ∧
    SetsS s a d.toNat (if X.toNat < Y.toNat then 1 else 0) 4 (exec (.sltz d x y) s) ∧
    SetsS s a d.toNat (if X.toInt < i.toInt then 1 else 0) 4 (exec (.slti d x i) s) ∧
    SetsS s a d.toNat (if D = 0 then Y else X) 4 (exec (.sel d x y) s)

/-- R305, R258, R260, R308, R311: a conditional branch goes to its target, counted in halfwords from the branch, when its condition
holds, and goes on in sequence when it does not. A target outside the body of the loop ends the loop. R306, R307, R256, R311: a jump
computes its target before it writes the link, the address behind the jump; jalr and ret clear bit 0 of the target. R309 to R311: a
loop of zero iterations is skipped; otherwise the body's bounds, as offsets in the image, and the count are set and the activation goes
on behind the instruction. A loop inside a loop traps, and so does a distance below three halfwords. -/
def Obligations.ControlFlowResults : Prop :=
  (∀ (s : State) (a : Act) (x y : BitVec 5) (o : BitVec 12) (i : BitVec 6),
    Issues s a (sNames [x.toNat, y.toNat]) →
    let X := sreg a x.toNat
    let Y := sreg a y.toNat
    let far : Word := a.regs.pc + BitVec.ofInt 64 (2 * o.toInt)
    let near : Word := a.regs.pc + BitVec.ofInt 64 (2 * i.toInt)
    let does (c : Bool) (target : Word) (n : Nat) (r : Out) : Prop :=
      if c then JumpsTo s a target 0 0 r else SetsS s a 0 0 n r
    does (decide (X = Y)) far 4 (exec (.bEq x y o) s) ∧
    does (decide (X ≠ Y)) far 4 (exec (.bNe x y o) s) ∧
    does (decide (X.toInt < Y.toInt)) far 4 (exec (.bLt x y o) s) ∧
    does (decide (Y.toInt ≤ X.toInt)) far 4 (exec (.bGe x y o) s) ∧
    does (decide (X.toInt < 0)) far 4 (exec (.bLtz x o) s) ∧
    does (decide (0 ≤ X.toInt)) far 4 (exec (.bGez x o) s) ∧
    does (decide (X = 0)) near 2 (exec (.bz x i) s) ∧
    does (decide (X ≠ 0)) near 2 (exec (.bnz x i) s)) ∧
  (∀ (s : State) (a : Act) (d x : BitVec 5) (i : BitVec 15) (o : BitVec 20) (h : BitVec 11),
    Issues s a (sNames [d.toNat, x.toNat, 31]) →
    let t := sreg a x.toNat + BitVec.ofInt 64 i.toInt
    JumpsTo s a (a.regs.pc + BitVec.ofInt 64 (2 * o.toInt)) d.toNat (a.regs.pc + 4) (exec (.jal d o) s) ∧
    JumpsTo s a (a.regs.pc + BitVec.ofInt 64 (2 * h.toInt)) 0 0 (exec (.b16 h) s) ∧
    JumpsTo s a (t &&& ~~~1) d.toNat (a.regs.pc + 4) (exec (.jalr d x i) s) ∧
    JumpsTo s a (sreg a 31 &&& ~~~1) 0 0 (exec .ret s)) ∧
  (∀ (s : State) (a : Act) (x : BitVec 5) (i : BitVec 15) (d n : BitVec 10), Issues s a (sNames [x.toNat]) →
    let starts (dist : Nat) (count : Word) (o : Out) : Prop :=
      (3 ≤ dist → a.regs.lcnt = 0 → ∃ t b, o = .next t ∧ OnlyAct s t a b ∧
        b = { a with wait := .run, regs := { a.regs with
                pc := if count = 0 then a.regs.pc + BitVec.ofNat 64 (2 * dist) else a.regs.pc + 4
                lcnt := count
                lstart := if count = 0 then a.regs.lstart
                  else (a.regs.pc + 4 - BitVec.ofNat 64 a.cls.img).setWidth 32
                lend := if count = 0 then a.regs.lend
                  else (a.regs.pc + BitVec.ofNat 64 (2 * dist) - BitVec.ofNat 64 a.cls.img).setWidth 32 } }) ∧
      ((dist < 3 ∨ a.regs.lcnt ≠ 0) → o = .next (trap s a 1))
    starts i.toNat (sreg a x.toNat) (exec (.loop x i) s) ∧
    starts d.toNat (BitVec.ofNat 64 n.toNat) (exec (.loopi d n) s))

/-- R315, R316, R314, R49, R44, R226: what csrr reads from each control register of the map, and csrs and csrc with ra 0, which write
nothing; a number outside the map traps. That one cycle of the model is one count of TIME and one cycle of a core at full clock, so
that CYCLE counts sixteenths of it by the clock of the die, is the model's choice (log 7). R314, R315, R214, R44, R49, R292: csrw
writes S[ra], csrs and csrc the old value with those bits set or cleared, and each reads the old value into rd. fcr keeps RM when 6 or
7 is written; a value of VWB or CBk that breaks its rule traps; the registers from 0x10 to 0xFF are read only. R156, R317: the identity
registers, by number; a number above 11 traps. -/
def Obligations.ControlRegisterResults : Prop :=
  (∀ (s : State) (a : Act) (d : BitVec 5) (c : BitVec 12), Issues s a (sNames [d.toNat]) →
    let core := coreAt s (coreOf a)
    let n := c.toNat
    let v : Option Word :=
      if n = 0 then some a.regs.fcr
      else if n = 1 then some a.regs.vwb
      else if 8 ≤ n ∧ n ≤ 15 then some (creg a (n - 8))
      else if n = 0x10 then
        let die := dieAt s (dkOfCore (coreOf a))
        some (BitVec.ofNat 64
          ((die.cycSum + (s.now - max die.cycMark (pkgAt s (pkgOfCore (coreOf a))).upAt) * die.clock) / 16))
      else if n = 0x11 then some (BitVec.ofNat 64 (s.now - (pkgAt s (pkgOfCore (coreOf a))).upAt))
      else if n = 0x12 then some (BitVec.ofNat 64 (a.task.rc % 256))
      else if n = 0x20 then some core.partw
      else if n = 0x21 then some core.asid
      else if 0x40 ≤ n ∧ n ≤ 0x46 then some (xsCfg s (coreOf a) (n - 0x40))
      else if 0x48 ≤ n ∧ n ≤ 0x4E then some (BitVec.ofNat 64 (xsCount s (coreOf a) (n - 0x48)))
      else if 0x100 ≤ n ∧ n ≤ 0x13F then some (mget core.hdrf (n - 0x100) 0)
      else none
    match v with
    | some v => SetsS s a d.toNat v 4 (exec (.csrr d c) s) ∧ SetsS s a d.toNat v 4 (exec (.csrs d 0 c) s) ∧
        SetsS s a d.toNat v 4 (exec (.csrc d 0 c) s)
    | none => exec (.csrr d c) s = .next (trap s a 1) ∧ exec (.csrs d 0 c) s = .next (trap s a 1) ∧
        exec (.csrc d 0 c) s = .next (trap s a 1)) ∧
  (∀ (s : State) (a : Act) (d x : BitVec 5) (c : BitVec 12), Issues s a (sNames [d.toNat, x.toNat]) →
    let n := c.toNat
    let X := sreg a x.toNat
    let rest (r : Regs) : Prop := r = { a.regs with s := r.s, pc := r.pc, lcnt := r.lcnt }
    let writes (old v : Word) (o : Out) : Prop :=
      (n = 0 → Retires s a 4 o fun b => b.regs.fcr =
          (v &&& 0x7F00) ||| (if 6 ≤ wfld v 0 3 then old &&& 7 else v &&& 7) ∧ rest { b.regs with fcr := a.regs.fcr } ∧
          ∀ k, sreg b k = if k = d.toNat ∧ d ≠ 0 then old else sreg a k) ∧
      (n = 1 → (v.getLsbD 12 = false ∨ (wfld v 10 2 < a.tiles.length ∧ wfld v 0 4 ≤ 12)) →
        Retires s a 4 o fun b => b.regs.vwb = v &&& 0x1C0F ∧ rest { b.regs with vwb := a.regs.vwb } ∧
          ∀ k, sreg b k = if k = d.toNat ∧ d ≠ 0 then old else sreg a k) ∧
      (n = 1 → v.getLsbD 12 = true → (a.tiles.length ≤ wfld v 10 2 ∨ 12 < wfld v 0 4) → o = .next (trap s a 1)) ∧
      (8 ≤ n → n ≤ 15 → (v.getLsbD 24 = false ∨ (1 ≤ wfld v 6 5 ∧ wfld v 6 5 ≤ 16 ∧ wfld v 0 6 + wfld v 6 5 ≤ 64)) →
        Retires s a 4 o fun b => (∀ k, creg b k = if k = n - 8 then v &&& 0x1FFFFFF else creg a k) ∧
          rest { b.regs with c := a.regs.c } ∧
          ∀ k, sreg b k = if k = d.toNat ∧ d ≠ 0 then old else sreg a k) ∧
      (8 ≤ n → n ≤ 15 → v.getLsbD 24 = true → (wfld v 6 5 = 0 ∨ 16 < wfld v 6 5 ∨ 64 < wfld v 0 6 + wfld v 6 5) →
        o = .next (trap s a 1)) ∧
      (0x100 ≤ n → n ≤ 0x13F → ∃ t b, o = .next t ∧
        t = { s with acts := mset s.acts a.ctx b, cores := t.cores } ∧ OnlyRegs a b ∧ Advances a b 4 ∧ rest b.regs ∧
        (∀ q, q ≠ coreOf a → coreAt t q = coreAt s q) ∧
        coreAt t (coreOf a) = { coreAt s (coreOf a) with hdrf := (coreAt t (coreOf a)).hdrf } ∧
        (∀ k, mget (coreAt t (coreOf a)).hdrf k 0 =
          if k = n - 0x100 then v &&& 0xFFFF else mget (coreAt s (coreOf a)).hdrf k 0) ∧
        ∀ k, sreg b k = if k = d.toNat ∧ d ≠ 0 then old else sreg a k) ∧
      ((2 ≤ n ∧ n ≤ 7 ∨ 0x10 ≤ n ∧ n ≤ 0xFF ∨ 0x140 ≤ n) → o = .next (trap s a 1))
    let old := readCsr s a n
    writes old X (exec (.csrw d x c) s) ∧
    (x ≠ 0 → writes old (old ||| X) (exec (.csrs d x c) s) ∧ writes old (old &&& ~~~X) (exec (.csrc d x c) s))) ∧
  (∀ (s : State) (a : Act) (d : BitVec 5), Issues s a (sNames [d.toNat]) →
    let c := coreOf a
    let reads (n : Nat) (v : Word) : Prop := SetsS s a d.toNat v 4 (exec (.idr d (BitVec.ofNat 12 n)) s)
    reads 0 (BitVec.ofNat 64 (dieOfCore c)) ∧ reads 1 (BitVec.ofNat 64 (rowOfCore c)) ∧
    reads 2 (BitVec.ofNat 64 (colOfCore c)) ∧ reads 3 (BitVec.ofNat 64 a.gx) ∧ reads 4 (BitVec.ofNat 64 a.gy) ∧
    reads 5 (BitVec.ofNat 64 a.gw) ∧ reads 6 (BitVec.ofNat 64 a.gh) ∧ reads 7 a.tx ∧ reads 8 a.ty ∧
    reads 9 (BitVec.ofNat 64 (wfld (nth a.task.words 0) 0 10)) ∧ reads 10 a.taskId ∧
    reads 11 (BitVec.ofNat 64 (a.gy * a.gw + a.gx)) ∧
    ∀ n : BitVec 12, 12 ≤ n.toNat → exec (.idr d n) s = .next (trap s a 1))

/-- R318, R319, R192: trap and brk terminate the activation. The event of kind 0x13 carries the code in word 1, the value in word 2,
the instruction's address in word 5 and the cause in word 6. R192, R110, R151, R188: what the end of an activation does: its context is
free and no frame holds it, its cost leaves the cluster's sum, none of its operations is left unsent but the end of its transaction,
and memory is as before. -/
def Obligations.TrapAndBreakTerminate : Prop :=
  (∀ (s : State) (a : Act) (x : BitVec 5) (c : BitVec 12), Issues s a (sNames [x.toNat]) →
    let ends (o : Out) (cause : Nat) (code v : Word) : Prop := ∃ e, o = .next (postEvent (endAct s a) (dieOf a) e) ∧
      e.kind = 0x13 ∧ e.frec = false ∧ e.w1 = code ∧ e.w2 = v ∧ e.w5 = BitVec.ofNat 64 (a.regs.pc.toNat % 2 ^ 57) ∧
      e.w6 = BitVec.ofNat 64 cause
    ends (exec (.trap x c) s) 0x10 (BitVec.ofNat 64 c.toNat) (sreg a x.toNat) ∧
    ends (exec (.brk c) s) 0x11 (BitVec.ofNat 64 c.toNat) 0 ∧
    ends (exec .brk16 s) 0x11 0 0) ∧
  (∀ (s : State) (a : Act),
    actAt (endAct s a) a.ctx = none ∧
    (∀ x, x ≠ a.ctx → actAt (endAct s a) x = actAt s x) ∧
    some (ctxNum a.ctx) ∉ (coreAt (endAct s a) (coreOf a)).frames ∧
    (clusAt (endAct s a) (clusOfCore (coreOf a))).sum = (clusAt s (clusOfCore (coreOf a))).sum - a.task.cost ∧
    (∀ f ∈ (endAct s a).flights, f.uid = a.uid → f.stage.unsent = true → ∃ tid dies home, f.pay = .txnEnd tid dies home) ∧
    (endAct s a).mem = s.mem ∧ (endAct s a).regs = s.regs)

/-- R320: yield goes on in sequence and writes no register; its context is not ready for the n cycles that follow, or, with n 0, until
each context of its class that is ready now has issued after it or is ready no longer. -/
def Obligations.YieldWaits : Prop :=
  ∀ (s : State) (a : Act) (n : BitVec 12), Issues s a [] →
    ∃ t b, exec (.yield n) s = .next t ∧ OnlyAct s t a b ∧ Advances a b 4 ∧
      b = { a with
        wait := if n = 0 then .yield 0 (peers s a) else .yield (s.now + 1 + n.toNat) []
        issuedAt := s.now
        regs := { a.regs with pc := b.regs.pc, lcnt := b.regs.lcnt } } ∧
      (n ≠ 0 → ∀ u : State, waitOver u b = true ↔ s.now + n.toNat < u.now) ∧
      (n = 0 → ∀ u : State, waitOver u b = true ↔
        ∀ x ∈ peers s a, ∀ c, actAt u x = some c → c.wait ≠ .run ∨ s.now < c.issuedAt) ∧
      ∀ x, x ∈ peers s a ↔ x / 8 = coreOf a ∧ x ≠ a.ctx ∧
        ∃ c, actAt s x = some c ∧ ready s c = true ∧ effClass s c = effClass s a

/-- R299, R212, R214, R209, R215: on a core that counts no event, the scalar floating-point arithmetic converts its exact result once,
under the rounding mode of the instruction or of fcr, and writes it, the upper half clear for f32; a register number above 15 or mode 7
traps. -/
def Obligations.FloatArithmeticResults : Prop :=
  ∀ (s : State) (a : Act) (d x y : BitVec 5) (m : BitVec 3) (p : BitVec 1), Issues s a [] → Uncounted s a →
    let t := if p = 0 then 9 else 10
    let mode := if m.toNat = 6 then wfld a.regs.fcr 0 3 else m.toNat
    let ok := d.toNat < 16 ∧ x.toNat < 16 ∧ y.toNat < 16 ∧ m.toNat ≠ 7
    (ok → ∃ (k : Fmt) (u : Nat), fmtOf t = some k ∧ k.w = (if p = 0 then 32 else 64) ∧
      let val (r : Nat) : FVal := k.val ((freg a r).toNat % 2 ^ k.w)
      let X := val x.toNat
      let Y := val y.toNat
      let D := val d.toNat
      let sets (r : FVal × Nat) (ops : List FVal) (o : Out) : Prop :=
        let v := fResult k r ops mode true u
        SetsF s a d.toNat v.1 v.2 4 o
      sets (fAdd X Y mode) [X, Y] (exec (.fadd d x y m p) s) ∧
      sets (fAdd X Y.neg mode) [X, Y] (exec (.fsub d x y m p) s) ∧
      sets (fMul X Y) [X, Y] (exec (.fmul d x y m p) s) ∧
      sets (fDiv X Y) [X, Y] (exec (.fdiv d x y m p) s) ∧
      sets (fSqrt X) [X] (exec (.fsqrt d x m p) s) ∧
      sets (fFma X Y D mode) [X, Y, D] (exec (.fma d x y m p) s)) ∧
    (¬ ok → exec (.fadd d x y m p) s = .next (trap s a 1) ∧ exec (.fsub d x y m p) s = .next (trap s a 1) ∧
      exec (.fmul d x y m p) s = .next (trap s a 1) ∧ exec (.fdiv d x y m p) s = .next (trap s a 1) ∧
      exec (.fma d x y m p) s = .next (trap s a 1))

/-- R300 to R304, R211, R215 to R217, R224: minima and maxima in which a NaN wins and −0 lies below +0, comparisons, moves of unchanged
bits and the one-hot class of each kind of value. fcvt converts the value once, in the mode of the instruction or of fcr, saturating:
to the other precision, to a code of a narrower format with zeros above it, or to an integer, extended by its sign or with zeros. A
floating-point register above 15, mode 7 and a comparison above 3 trap. -/
def Obligations.FloatMoveAndCompareResults : Prop :=
  ∀ (s : State) (a : Act) (d x y : BitVec 5) (p : BitVec 1), Issues s a (sNames [d.toNat, x.toNat]) → Uncounted s a →
    let t := if p = 0 then 9 else 10
    let w := if p = 0 then 32 else 64
    let canon := if p = 0 then 0x7FC00000 else 0x7FF8000000000000
    let X := (freg a x.toNat).toNat % 2 ^ w
    let Y := (freg a y.toNat).toNat % 2 ^ w
    let nan := isNanBits t X = true ∨ isNanBits t Y = true
    let sig := sigEv [valOf t X, valOf t Y]
    let mb := if p = 0 then 23 else 52
    let top := if p = 0 then 255 else 2047
    let e := X / 2 ^ mb % (top + 1)
    let frac := X % 2 ^ mb
    let neg := X.testBit (w - 1)
    let bit := if e = top then (if frac = 0 then (if neg then 0 else 7) else if frac < 2 ^ (mb - 1) then 8 else 9)
      else if e = 0 then (if frac = 0 then (if neg then 3 else 4) else if neg then 2 else 5) else if neg then 1 else 6
    (x.toNat < 16 → y.toNat < 16 →
      (d.toNat < 16 →
        SetsF s a d.toNat (if nan then canon else if rankOf t X ≤ rankOf t Y then X else Y) (if nan then 64 + sig else 0) 4
          (exec (.fmin d x y p) s) ∧
        SetsF s a d.toNat (if nan then canon else if rankOf t Y ≤ rankOf t X then X else Y) (if nan then 64 + sig else 0) 4
          (exec (.fmax d x y p) s)) ∧
      SetsSEv s a d.toNat (if ¬ nan ∧ fEq t X Y = true then 1 else 0) sig 4 (exec (.fcmp d x y 0 p) s) ∧
      SetsSEv s a d.toNat (if ¬ nan ∧ fLt t X Y = true then 1 else 0) (if nan then 1 else 0) 4 (exec (.fcmp d x y 1 p) s) ∧
      SetsSEv s a d.toNat (if ¬ nan ∧ (fLt t X Y = true ∨ fEq t X Y = true) then 1 else 0) (if nan then 1 else 0) 4
        (exec (.fcmp d x y 2 p) s) ∧
      SetsSEv s a d.toNat (if nan then 1 else 0) sig 4 (exec (.fcmp d x y 3 p) s)) ∧
    (x.toNat < 16 → SetsS s a d.toNat (BitVec.ofNat 64 X) 4 (exec (.fmvS d x p) s) ∧
      SetsS s a d.toNat (BitVec.ofNat 64 (2 ^ bit)) 4 (exec (.fclass d x p) s)) ∧
    (d.toNat < 16 → SetsF s a d.toNat ((sreg a x.toNat).toNat % 2 ^ w) 0 4 (exec (.fmvF d x p) s)) ∧
    (∀ (q : BitVec 4) (m : BitVec 3),
      let mode := if m.toNat = 6 then wfld a.regs.fcr 0 3 else m.toNat
      let fp := q = 9 ∨ q = 10
      let src := (if fp then (freg a x.toNat).toNat else (sreg a x.toNat).toNat) % 2 ^ tWidth q.toNat
      (m ≠ 7 → ∃ u : Nat,
        (x.toNat < 16 → (fp → d.toNat < 16) →
          match fmtOf q.toNat with
          | none =>
            let r := intConvert q.toNat true (valOf t X) mode true u
            SetsSEv s a d.toNat (BitVec.ofInt 64 (intVal q.toNat r.1)) r.2 4 (exec (.fcvt d x q 1 m p) s)
          | some k =>
            let r := k.convert (valOf t X) mode true u
            if fp then SetsF s a d.toNat r.1 r.2 4 (exec (.fcvt d x q 1 m p) s)
            else SetsSEv s a d.toNat (BitVec.ofNat 64 r.1) r.2 4 (exec (.fcvt d x q 1 m p) s)) ∧
        (d.toNat < 16 → (fp → x.toNat < 16) →
          ∀ k, fmtOf t = some k →
            let r := k.convert (valOf q.toNat src) mode true u
            SetsF s a d.toNat r.1 r.2 4 (exec (.fcvt d x q 0 m p) s))) ∧
      (m = 7 ∨ 16 ≤ x.toNat ∨ fp ∧ 16 ≤ d.toNat → exec (.fcvt d x q 1 m p) s = .next (trap s a 1)) ∧
      (m = 7 ∨ 16 ≤ d.toNat ∨ fp ∧ 16 ≤ x.toNat → exec (.fcvt d x q 0 m p) s = .next (trap s a 1)) ∧
      (16 ≤ x.toNat ∨ 16 ≤ y.toNat ∨ 4 ≤ m.toNat → exec (.fcmp d x y m p) s = .next (trap s a 1))) ∧
    (16 ≤ d.toNat ∨ 16 ≤ x.toNat ∨ 16 ≤ y.toNat →
      exec (.fmin d x y p) s = .next (trap s a 1) ∧ exec (.fmax d x y p) s = .next (trap s a 1)) ∧
    (16 ≤ x.toNat → exec (.fmvS d x p) s = .next (trap s a 1) ∧ exec (.fclass d x p) s = .next (trap s a 1)) ∧
    (16 ≤ d.toNat → exec (.fmvF d x p) s = .next (trap s a 1))

/-- R210, R215: in every floating-point format, a code that stands for a finite value is converted to itself, whatever the rounding
mode, and raises no event. -/
def Obligations.ConversionKeepsRepresentableValues : Prop :=
  ∀ (t : Nat) (k : Fmt) (bits mode : Nat) (sat : Bool) (u : Nat), fmtOf t = some k → bits < 2 ^ k.w →
    (∃ neg x, k.val bits = .num neg x) → k.convert (k.val bits) mode sat u = (bits, 0)

/-- R322, R323, R324, R326, R327, R330, R258: with nothing of the activation in flight, a load from the global space sends one request
for its bytes, whose reply will write the destination, and a prefetch one that writes nothing. A row, a descriptor or a range object
out of alignment traps. R322, R323, R51: a store to the global space sends one request on path 1 with the low bytes of the register, or
the row. R52, R322, R323: an access in the gang-core space to another core is a request to that core's pool, at the low 18 bits of the
address. -/
def Obligations.GlobalAndGangAccessesAreSent : Prop :=
  (∀ (s : State) (a : Act) (d x y : BitVec 5) (k : BitVec 3) (z : BitVec 3) (o : BitVec 10) (q : BitVec 2) (zx : BitVec 1),
    Issues s a (sNames [d.toNat, x.toNat, y.toNat] ++ vNames a [d.toNat] ++ [.d k.toNat]) → Alone s a →
    let X := sreg a x.toNat
    let Y := sreg a y.toNat
    let unit := 2 ^ (z.toNat % 4)
    let at_ (unit : Nat) : Nat := (X + BitVec.ofInt 64 (o.toInt * unit)).toNat
    (z ≠ 7 → Sends s a 4 (request s a none .load (at_ unit) unit .load (.sreg d.toNat unit (z.toNat < 3)))
      (exec (.ld d x z 0 o) s)) ∧
    (¬ (zx = 1 ∧ q = 3) → Sends s a 4 (request s a none .load (X + Y * BitVec.ofNat 64 (2 ^ q.toNat)).toNat (2 ^ q.toNat) .load
      (.sreg d.toNat (2 ^ q.toNat) (zx = 0 ∧ q ≠ 3))) (exec (.ldx d x y q zx 0) s)) ∧
    (if at_ 512 % 512 = 0 then Sends s a 4 (request s a none .load (at_ 512) 512 .load (.vrow d.toNat a.regs.vwb))
        (exec (.vld d x 0 o) s)
      else exec (.vld d x 0 o) s = .next (trap s a 5)) ∧
    (if X.toNat % 8 = 0 then Sends s a 4 (request s a none .load X.toNat 64 .load (.dreg k.toNat)) (exec (.dld k x) s)
      else exec (.dld k x) s = .next (trap s a 5)) ∧
    Sends s a 4 { request s a none .load (X + Y).toNat 1 .prf .none with slot := false } (exec (.prf x y) s) ∧
    (d ≠ y ∨ d = 0 → if X.toNat % 32 = 0 then
        Sends s a 4 (request s a none .mobj X.toNat 32 .range (.sreg2 d.toNat y.toNat)) (exec (.rangeNext d x y) s)
      else exec (.rangeNext d x y) s = .next (trap s a 5))) ∧
  (∀ (s : State) (a : Act) (d x : BitVec 5) (z : BitVec 3) (o : BitVec 10),
    Issues s a (sNames [d.toNat, x.toNat] ++ vNames a [d.toNat]) → Alone s a →
    let unit := 2 ^ z.toNat
    let at_ (unit : Nat) : Nat := (sreg a x.toNat + BitVec.ofInt 64 (o.toInt * unit)).toNat
    (z.toNat < 4 → Sends s a 4 (request s a (some 1) .store (at_ unit) unit
      (.store (toBytes unit (sreg a d.toNat).toNat)) .none) (exec (.st d x z 0 o) s)) ∧
    (4 ≤ z.toNat → exec (.st d x z 0 o) s = .next (trap s a 1)) ∧
    (if at_ 512 % 512 = 0 then Sends s a 4 (request s a (some 1) .store (at_ 512) 512
        (.store (readBytes s.mem (vloc s a d.toNat) 512)) .none) (exec (.vst d x 0 o) s)
      else exec (.vst d x 0 o) s = .next (trap s a 5))) ∧
  (∀ (s : State) (a : Act) (d x : BitVec 5) (z : BitVec 3) (o : BitVec 10),
    Issues s a (sNames [d.toNat, x.toNat] ++ vNames a [d.toNat]) → Alone s a → (coreAt s (coreOf a)).copyQ = [] →
    z.toNat < 4 →
    let unit := 2 ^ z.toNat
    let at_ (unit : Nat) : Nat := (sreg a x.toNat + BitVec.ofInt 64 (o.toInt * unit)).toNat
    (gangCore a (at_ unit) ≠ coreOf a →
      Sends s a 4 (gangRequest s a none .load (at_ unit) unit .load (.sreg d.toNat unit (z.toNat < 3))) (exec (.ld d x z 2 o) s) ∧
      Sends s a 4 (gangRequest s a (some 1) .store (at_ unit) unit (.store (toBytes unit (sreg a d.toNat).toNat)) .none)
        (exec (.st d x z 2 o) s)) ∧
    (gangCore a (at_ 512) ≠ coreOf a → at_ 512 % 512 = 0 →
      Sends s a 4 (gangRequest s a none .load (at_ 512) 512 .load (.vrow d.toNat a.regs.vwb)) (exec (.vld d x 2 o) s) ∧
      Sends s a 4 (gangRequest s a (some 1) .store (at_ 512) 512 (.store (readBytes s.mem (vloc s a d.toNat) 512)) .none)
        (exec (.vst d x 2 o) s)))

/-- R322 to R324, R36, R45, R47, R258: a load from the own pool writes its destination at once, and a store its bytes; outside the rows
that the activation reaches the access traps, and a store into an engine-owned slot traps. -/
def Obligations.OwnPoolAccesses : Prop :=
  ∀ (s : State) (a : Act) (d x y : BitVec 5) (z : BitVec 3) (o : BitVec 10) (i : BitVec 6) (q : BitVec 2),
    Issues s a (sNames [d.toNat, x.toNat, y.toNat, 9] ++ vNames a [d.toNat]) → Alone s a → z.toNat < 4 →
    let X := sreg a x.toNat
    let n : Nat := 2 ^ z.toNat
    let p := (X + BitVec.ofInt 64 (o.toInt * n)).toNat % 262144
    let r := (X + BitVec.ofInt 64 (o.toInt * 512)).toNat % 262144
    let h := (sreg a 9 + BitVec.ofNat 64 (8 * i.toNat)).toNat % 262144
    let e := (X + sreg a y.toNat * BitVec.ofNat 64 (2 ^ q.toNat)).toNat % 262144
    let here (p n : Nat) : Nat := readN s.mem (pool (coreOf a) p) n
    let sx (n v : Nat) : Word := (BitVec.ofNat (8 * n) v).signExtend 64
    (OwnFree s a p n →
      SetsS s a d.toNat (if z = 3 then BitVec.ofNat 64 (here p n) else sx n (here p n)) 4 (exec (.ld d x z 1 o) s) ∧
      Stores s a (pool (coreOf a) p) (toBytes n (sreg a d.toNat).toNat) 4 (exec (.st d x z 1 o) s)) ∧
    (OwnFree s a e (2 ^ q.toNat) →
      SetsS s a d.toNat (sx (2 ^ q.toNat) (here e (2 ^ q.toNat))) 4 (exec (.ldx d x y q 0 1) s)) ∧
    (OwnFree s a h 8 →
      SetsS s a d.toNat (BitVec.ofNat 64 (here h 8)) 2 (exec (.ldDShort d i) s) ∧
      Stores s a (pool (coreOf a) h) (toBytes 8 (sreg a d.toNat).toNat) 2 (exec (.stDShort d i) s)) ∧
    (OwnFree s a r 512 → r % 512 = 0 →
      Stores s a (vloc s a d.toNat) (readBytes s.mem (pool (coreOf a) r) 512) 4 (exec (.vld d x 1 o) s) ∧
      Stores s a (pool (coreOf a) r) (readBytes s.mem (vloc s a d.toNat) 512) 4 (exec (.vst d x 1 o) s)) ∧
    (ownReach s a p n = false →
      exec (.ld d x z 1 o) s = .next (trap s a 2) ∧ exec (.st d x z 1 o) s = .next (trap s a 2)) ∧
    (ownReach s a p n = true → poolHolds s a p n true = [] → ownedSlot s (coreOf a) p n ≠ none →
      exec (.st d x z 1 o) s = .next (trap s a 3))

/-- R325: a gather from the own pool brings each lane's bytes, a scatter stores each lane's, and the highest lane that names an address
remains; in the global space each lane is an operation of its own. A lane out of alignment traps before any access. That own-pool lanes
are performed in lane order is the model's choice (log 25), and so are the later operations that wait for all of an instruction's lanes
(log 65). -/
def Obligations.GatherAndScatter : Prop :=
  ∀ (s : State) (a : Act) (d x y : BitVec 5) (t : BitVec 4),
    Issues s a (sNames [x.toNat] ++ vNames a [d.toNat, y.toNat]) → Alone s a → 1 ≤ t.toNat → t.toNat ≤ 12 →
    let w := tWidth t.toNat
    let n := w / 8
    let L := 4096 / w
    let ix := readN s.mem (vloc s a y.toNat) 512
    let row := readN s.mem (vloc s a d.toNat) 512
    let ad (i : Nat) : Nat := (sreg a x.toNat + BitVec.ofNat 64 (fld ix (w * i) w * n)).toNat
    let loc (i : Nat) : Nat := pool (coreOf a) (ad i % 262144)
    ((∃ i, i < L ∧ ad i % n ≠ 0) → exec (.vldx d x y t 0) s = .next (trap s a 5) ∧
      exec (.vldx d x y t 1) s = .next (trap s a 5) ∧ exec (.vstx d x y t 0) s = .next (trap s a 5) ∧
      exec (.vstx d x y t 1) s = .next (trap s a 5)) ∧
    ((∀ i, i < L → ad i % n = 0) →
      ((∀ i, i < L → OwnFree s a (ad i % 262144) n) →
        (∃ u b, exec (.vldx d x y t 1) s = .next u ∧ Goes a b 4 ∧
          u = { s with acts := mset s.acts a.ctx b, mem := u.mem } ∧
          (∀ z, (z < vloc s a d.toNat ∨ vloc s a d.toNat + 512 ≤ z) → readByte u.mem z = readByte s.mem z) ∧
          ((∀ i, i < L → loc i + n ≤ vloc s a d.toNat ∨ vloc s a d.toNat + 512 ≤ loc i) →
            ∀ i, i < L → readN u.mem (vloc s a d.toNat + i * n) n = readN s.mem (loc i) n)) ∧
        (∃ u b, exec (.vstx d x y t 1) s = .next u ∧ Goes a b 4 ∧
          u = { s with acts := mset s.acts a.ctx b, mem := u.mem } ∧
          (∀ z, (∀ i, i < L → z < loc i ∨ loc i + n ≤ z) → readByte u.mem z = readByte s.mem z) ∧
          ∀ i, i < L → (∀ j, i < j → j < L → loc j ≠ loc i) → readN u.mem (loc i) n = fld row (w * i) w)) ∧
      (∃ u b, exec (.vldx d x y t 0) s = .next u ∧ Goes a b 4 ∧ u.mem = s.mem ∧ actAt u a.ctx = some b ∧
        (u.flights.drop s.flights.length).map (fun f => (f.req.va, f.req.n, f.pay, f.dst)) =
          (List.range L).map fun i => (ad i % 2 ^ 57, n, Pay.load, Dst.vlane d.toNat i w a.regs.vwb)) ∧
      (∃ u b, exec (.vstx d x y t 0) s = .next u ∧ Goes a b 4 ∧ u.mem = s.mem ∧ actAt u a.ctx = some b ∧
        (u.flights.drop s.flights.length).map (fun f => (f.req.va, f.req.n, f.pay, f.dst)) =
          (List.range L).map fun i => (ad i % 2 ^ 57, n, Pay.store (toBytes n (fld row (w * i) w)), Dst.none)))

/-- R329, R94, R270: an atomic of 4 or 8 bytes, or of the floating-point operations' own sizes, sends its operation and the low bytes
of its operand and awaits the old value; the qualifier acquire makes the activation wait for the reply, and release makes the operation
wait at the core until the earlier accesses are performed. An address out of alignment traps. R329, R51: a reduction sends its
operation on path 2 and awaits nothing; an address out of alignment traps. R94, R95: the new value of a location under each memory-side
operation: sums, minima, maxima and bit operations modulo the width, and an exchange. -/
def Obligations.AtomicsAndReductions : Prop :=
  (∀ (s : State) (a : Act) (d x y : BitVec 5) (z q : BitVec 2),
    Issues s a (sNames [d.toNat, x.toNat, y.toNat]) → Alone s a → (z = 1 ∨ z = 2) →
    let ad := (sreg a x.toNat).toNat
    let low (n r : Nat) : Word := BitVec.ofNat 64 ((sreg a r).toNat % 2 ^ (8 * n))
    let sends (n : Nat) (acc : Acc) (pay : Pay) (o : Out) : Prop :=
      if ad % n = 0 then ∃ t b, o = .next t ∧
          t = { s with
            acts := mset s.acts a.ctx b
            flights := s.flights ++ [{ request s a none acc ad n pay (.sreg d.toNat n false) with
              stage := if q = 2 ∨ q = 3 then .relWait 4 else .sent
              sentNo := if q = 2 ∨ q = 3 then 0 else s.nextId + 1
              acq := decide (q = 1 ∨ q = 3) }]
            nextId := s.nextId + 1 } ∧
          b = { a with
            wait := if q = 1 ∨ q = 3 then .flights [s.nextId] false else .run
            regs := { a.regs with pc := b.regs.pc, lcnt := b.regs.lcnt } } ∧ Advances a b 4
      else o = .next (trap s a 5)
    let n := 2 ^ (z.toNat + 1)
    let at_ (op n : Nat) (o : Out) : Prop := sends n .atom (.atom op n (low n y.toNat)) o
    at_ 0 n (exec (.atomAdd d x y z q) s) ∧ at_ 1 4 (exec (.atomFaddF32 d x y q) s) ∧
    at_ 2 8 (exec (.atomFaddF64 d x y q) s) ∧ at_ 3 2 (exec (.atomFaddBf16 d x y q) s) ∧
    at_ 4 n (exec (.atomMin d x y z q) s) ∧ at_ 5 n (exec (.atomMax d x y z q) s) ∧
    at_ 6 n (exec (.atomMinz d x y z q) s) ∧ at_ 7 n (exec (.atomMaxz d x y z q) s) ∧
    at_ 8 n (exec (.atomAnd d x y z q) s) ∧ at_ 9 n (exec (.atomOr d x y z q) s) ∧
    at_ 10 n (exec (.atomXor d x y z q) s) ∧ at_ 11 n (exec (.atomSwap d x y z q) s) ∧
    sends n .cas (.cas n (low n d.toNat) (low n y.toNat)) (exec (.cas d x y z q) s)) ∧
  (∀ (s : State) (a : Act) (x y : BitVec 5) (z : BitVec 2),
    Issues s a (sNames [x.toNat, y.toNat]) → Alone s a → (z = 1 ∨ z = 2) →
    let ad := (sreg a x.toNat).toNat
    let at_ (op n : Nat) (o : Out) : Prop :=
      if ad % n = 0 then Sends s a 4 (request s a (some 2) .red ad n
        (.red op n (BitVec.ofNat 64 ((sreg a y.toNat).toNat % 2 ^ (8 * n)))) .none) o
      else o = .next (trap s a 5)
    let n := 2 ^ (z.toNat + 1)
    at_ 0 n (exec (.redAdd x y z) s) ∧ at_ 1 4 (exec (.redFaddF32 x y) s) ∧
    at_ 2 8 (exec (.redFaddF64 x y) s) ∧ at_ 3 2 (exec (.redFaddBf16 x y) s) ∧
    at_ 4 n (exec (.redMin x y z) s) ∧ at_ 5 n (exec (.redMax x y z) s) ∧
    at_ 6 n (exec (.redMinz x y z) s) ∧ at_ 7 n (exec (.redMaxz x y z) s) ∧
    at_ 8 n (exec (.redAnd x y z) s) ∧ at_ 9 n (exec (.redOr x y z) s) ∧ at_ 10 n (exec (.redXor x y z) s)) ∧
  (∀ (n old v : Nat), (n = 4 ∨ n = 8) → old < 2 ^ (8 * n) → v < 2 ^ (8 * n) →
    let sg (x : Nat) : Int := (BitVec.ofNat (8 * n) x).toInt
    memOp 0 n old v = (old + v) % 2 ^ (8 * n) ∧
    sg (memOp 4 n old v) = min (sg old) (sg v) ∧ sg (memOp 5 n old v) = max (sg old) (sg v) ∧
    memOp 6 n old v = min old v ∧ memOp 7 n old v = max old v ∧
    (∀ i, (memOp 8 n old v).testBit i = (old.testBit i && v.testBit i)) ∧
    (∀ i, (memOp 9 n old v).testBit i = (old.testBit i || v.testBit i)) ∧
    (∀ i, (memOp 10 n old v).testBit i = (old.testBit i != v.testBit i)) ∧
    memOp 11 n old v = v)

/-- R76, R88, R332, R51, R333, R337: a fence completes when every earlier access within its scope is complete, a drain when its path is
clear, and neither while an earlier operation is refused and not yet performed; sem.wait completes when the semaphore is not positive,
with its value; otherwise the activation waits at the instruction. That sem.wait also waits for the signals that the activation itself
has sent to the semaphore is the model's choice (log 51). R46, R48, R339: own.give makes a thread-owned scratchpad slot engine-owned,
own.take takes back a slot whose count is 0, and own.wait completes on a thread-owned slot; a slot outside the scratchpad traps, and so
does own.give on an engine-owned slot. R49, R50, R340: cb.push and cb.pop move the tail and the head of a ring round its length and
count its filled slots; cb.wait and cb.room complete when the ring holds, or has room for, n slots that the threads own. A handle that
is not valid, a ring outside the scratchpad, a count above its length, and a push or pop past its fill trap. -/
def Obligations.SlotsAndFences : Prop :=
  (∀ (s : State) (a : Act) (d : BitVec 5) (sc p : BitVec 3) (k : BitVec 4), Issues s a (sNames [d.toNat]) →
    let early (f : Flight) : Prop := f.uid = a.uid ∧ f.pay.touches = true ∧ f.pay ≠ .prf ∧ scopeOfFlight s f ≤ sc.toNat
    let refused (f : Flight) : Prop := f.uid = a.uid ∧ f.id < s.nextId ∧ isRefused f = true
    let v : Int := mget (coreAt s (coreOf a)).sems k.toNat 0
    (sc.toNat < 5 → (∀ f ∈ s.flights, ¬ early f ∧ ¬ refused f) → Continues s a 4 (exec (.fence sc) s)) ∧
    (sc.toNat < 5 → (∃ f ∈ s.flights, early f ∨ refused f) → Waits s a (.fence sc.toNat) (exec (.fence sc) s)) ∧
    (5 ≤ sc.toNat → exec (.fence sc) s = .next (trap s a 1)) ∧
    (p.toNat < 4 → (∀ f ∈ s.flights, (f.uid = a.uid → f.path ≠ some p.toNat) ∧ ¬ refused f) → Continues s a 4 (exec (.drain p) s)) ∧
    (p.toNat < 4 → (∃ f ∈ s.flights, f.uid = a.uid ∧ f.path = some p.toNat ∨ refused f) →
      Waits s a (.drain p.toNat) (exec (.drain p) s)) ∧
    (4 ≤ p.toNat → exec (.drain p) s = .next (trap s a 1)) ∧
    (v ≤ 0 → ownSignal s a k.toNat = false → SetsS s a d.toNat (BitVec.ofInt 64 v) 4 (exec (.semWait d k) s)) ∧
    (0 < v ∨ ownSignal s a k.toNat = true → Waits s a (.sem k.toNat) (exec (.semWait d k) s))) ∧
  (∀ (s : State) (a : Act) (x : BitVec 5) (n : BitVec 6), Issues s a (sNames [x.toNat]) →
    let slot := ((sreg a x.toNat).toNat + n.toNat) % 64
    let c := coreAt s (coreOf a)
    let own := mget c.slots slot (false, 0)
    (8 * slot < scratchRow c → exec (.ownGive x n) s = .next (trap s a 2) ∧ exec (.ownTake x n) s = .next (trap s a 2) ∧
      exec (.ownWait x n) s = .next (trap s a 2)) ∧
    (scratchRow c ≤ 8 * slot →
      (own.1 = true → exec (.ownGive x n) s = .next (trap s a 3) ∧ Waits s a (.poolSlot slot true) (exec (.ownWait x n) s)) ∧
      (own.1 = false → Continues s a 4 (exec (.ownTake x n) s) ∧ Continues s a 4 (exec (.ownWait x n) s)) ∧
      (own.1 = false → poolHolds s a (4096 * slot) 4096 true ≠ [] → Waits s a (.ownGive slot) (exec (.ownGive x n) s)) ∧
      (own.1 = false → poolHolds s a (4096 * slot) 4096 true = [] →
        ChangesCore s a 4 { c with slots := mset c.slots slot (true, own.2) } (exec (.ownGive x n) s) fun b => Goes a b 4) ∧
      (own = (true, 0) →
        ChangesCore s a 4 { c with slots := mset c.slots slot (false, 0) } (exec (.ownTake x n) s) fun b => Goes a b 4) ∧
      (own.1 = true → own.2 ≠ 0 → Waits s a (.ownTake slot) (exec (.ownTake x n) s)))) ∧
  (∀ (s : State) (a : Act) (h : BitVec 3) (n : BitVec 4), Issues s a [] →
    let w := creg a h.toNat
    let c := coreAt s (coreOf a)
    let m := n.toNat + 1
    let base := wfld w 0 6
    let len := wfld w 6 5
    let head := wfld w 11 4
    let tail := wfld w 15 4
    let fill := wfld w 19 5
    let all (o : Nat) : Prop := exec (.cbWait h n) s = .next (trap s a o) ∧ exec (.cbRoom h n) s = .next (trap s a o) ∧
      exec (.cbPush h n) s = .next (trap s a o) ∧ exec (.cbPop h n) s = .next (trap s a o)
    let sets (v : Word → Prop) (o : Out) : Prop := Retires s a 4 o fun b => v (creg b h.toNat) ∧
      (∀ k, k ≠ h.toNat → creg b k = creg a k) ∧ b.regs.s = a.regs.s ∧ b.regs.f = a.regs.f ∧ b.regs.m = a.regs.m ∧
      b.regs.d = a.regs.d ∧ b.regs.vwb = a.regs.vwb ∧ b.regs.fcr = a.regs.fcr
    let mine (first : Nat) : Prop := ∀ i, i < m → engineOwned c (base + (first + i) % len) = false
    (w.getLsbD 24 = false → all 1) ∧
    (w.getLsbD 24 = true → 8 * base < scratchRow c → all 2) ∧
    (w.getLsbD 24 = true → scratchRow c ≤ 8 * base → len < m → all 4) ∧
    (w.getLsbD 24 = true → scratchRow c ≤ 8 * base → m ≤ len → len ≤ 16 →
      (m ≤ fill → mine head → Continues s a 4 (exec (.cbWait h n) s)) ∧
      (¬ (m ≤ fill ∧ mine head) → Waits s a (.cb false h.toNat m) (exec (.cbWait h n) s)) ∧
      (m ≤ len - fill → mine tail → Continues s a 4 (exec (.cbRoom h n) s)) ∧
      (¬ (m ≤ len - fill ∧ mine tail) → Waits s a (.cb true h.toNat m) (exec (.cbRoom h n) s)) ∧
      (m ≤ len - fill → sets (fun v => wfld v 19 5 = fill + m ∧ wfld v 15 4 = (tail + m) % len ∧ wfld v 0 15 = wfld w 0 15 ∧
        wfld v 24 40 = wfld w 24 40) (exec (.cbPush h n) s)) ∧
      (m ≤ fill → fill ≤ len → sets (fun v => wfld v 19 5 = fill - m ∧ wfld v 11 4 = (head + m) % len ∧
        wfld v 0 11 = wfld w 0 11 ∧ wfld v 15 4 = tail ∧ wfld v 24 40 = wfld w 24 40) (exec (.cbPop h n) s)) ∧
      (len - fill < m → exec (.cbPush h n) s = .next (trap s a 4)) ∧
      (fill < m → exec (.cbPop h n) s = .next (trap s a 4))))

/-- R334, R335, R338, R143, R72, R73: arrivals, barrier arrivals and semaphore signals are messages; with a release, as bar.arrive and
sem.add always carry, a message waits at the core until the release takes effect. An arrive without a join target only goes on; amount
0 and a scope above 4 trap. -/
def Obligations.ArrivalsAndSignals : Prop :=
  ∀ (s : State) (a : Act) (d x : BitVec 5) (sc : BitVec 3) (m : BitVec 7) (k : BitVec 4),
    Issues s a (sNames [d.toNat, x.toNat]) → Alone s a →
    let X := sreg a x.toNat
    let D := sreg a d.toNat
    let msg (pay : Pay) (st : Stage) : Flight := unsent (request s a none .mobj 0 0 pay .none) st
    let join : Arrive := ⟨X &&& 0xFFFFFF, m.toNat, a.task.asid, a.task.gen⟩
    let pkg := pkgOfCore (coreOf a)
    let sig (core : Nat) : Pay := .signal core k.toNat (X.setWidth 32).toInt a.task.asid a.task.gen
    (m = 0 ∨ 5 ≤ sc.toNat → exec (.arrive x sc m 0) s = .next (trap s a 1) ∧ exec (.arrive x sc m 1) s = .next (trap s a 1)) ∧
    (5 ≤ sc.toNat ∨ d ≠ 0 → exec (.semAdd d x sc k 1) s = .next (trap s a 1)) ∧
    (5 ≤ sc.toNat → exec (.semAdd d x sc k 0) s = .next (trap s a 1)) ∧
    (sc.toNat < 5 →
      (m ≠ 0 → X.getLsbD 23 = false →
        Continues s a 4 (exec (.arrive x sc m 0) s) ∧ Continues s a 4 (exec (.arrive x sc m 1) s)) ∧
      (m ≠ 0 → X.getLsbD 23 = true → Sends s a 4 (request s a none .mobj 0 0 (.arrival join) .none) (exec (.arrive x sc m 0) s) ∧
        Sends s a 4 (msg (.arrival join) (.relWait sc.toNat)) (exec (.arrive x sc m 1) s)) ∧
      Sends s a 4 (msg (sig (coreKey pkg (wfld D 8 3) (wfld D 0 8))) (.relWait sc.toNat)) (exec (.semAdd d x sc k 0) s) ∧
      (d = 0 → Sends s a 4 (msg (sig (coreOf a)) (.relWait sc.toNat)) (exec (.semAdd d x sc k 1) s))) ∧
    (X.toNat % 32 = 0 → Sends s a 4 (unsent (request s a none .mobj X.toNat 32 (.barArrive none 0) (.phase d.toNat)) (.relWait 4)) (exec (.barArrive d x) s)) ∧
    (X.toNat % 32 ≠ 0 → exec (.barArrive d x) s = .next (trap s a 5))

/-- R336, R341, R342: bar.wait, spawn, spawng and wtt.arm send one request or read and wait at the instruction for its answer; an
address out of alignment traps. R162, R343: wtt.disarm gives the remaining count of an armed entry and 0 of a disarmed or faulted one,
leaves the entry disarmed, and waits for a firing one. -/
def Obligations.WaitingReadsAndDisarm : Prop :=
  (∀ (s : State) (a : Act) (d x y : BitVec 5) (h : BitVec 1), Issues s a (sNames [d.toNat, x.toNat, y.toNat]) → Alone s a →
    let ad := (sreg a x.toNat).toNat
    let P := sreg a d.toNat
    let Y := sreg a y.toNat
    let reads (n : Nat) (dst : Dst) (o : Out) : Prop :=
      SendsAndWaits s a (.read s.nextId) (request s a none .load ad n .load dst) o
    (ad % 32 = 0 → SendsAndWaits s a (.barrier s.nextId 0 P 4 false s.now d.toNat ad)
        (request s a none .mobj ad 32 (.barWait P) (.phase d.toNat)) (exec (.barWait d x) s) ∧
      reads 32 (.wttArm (Y.toNat % 64)) (exec (.wttArm x y) s)) ∧
    (ad % 32 ≠ 0 → exec (.barWait d x) s = .next (trap s a 5) ∧ exec (.wttArm x y) s = .next (trap s a 5)) ∧
    (ad % 64 = 0 → reads 64 (.spawn false (h = 1) Y) (exec (.spawn x y h) s) ∧
      reads 64 (.spawn true (h = 1) Y) (exec (.spawng x y h) s)) ∧
    (ad % 64 ≠ 0 → exec (.spawn x y h) s = .next (trap s a 5) ∧ exec (.spawng x y h) s = .next (trap s a 5))) ∧
  (∀ (s : State) (a : Act) (d y : BitVec 5), Issues s a (sNames [d.toNat, y.toNat]) →
    let ent := (sreg a y.toNat).toNat % 64
    let c := coreAt s (coreOf a)
    let e := mget c.wtt ent WttEntry.reset
    let o := exec (.wttDisarm d y) s
    let gives (v : Nat) : Prop := ∃ t b, o = .next t ∧
      t = { s with acts := mset s.acts a.ctx b, cores := t.cores } ∧ OnlyRegs a b ∧ Advances a b 4 ∧ KeepsAllButS a b ∧
      (mget (coreAt t (coreOf a)).wtt ent WttEntry.reset).st = .disarmed ∧
      (∀ k, k ≠ ent → mget (coreAt t (coreOf a)).wtt k WttEntry.reset = mget c.wtt k WttEntry.reset) ∧
      ∀ k, sreg b k = if k = d.toNat ∧ d ≠ 0 then BitVec.ofNat 64 v else sreg a k
    (e.st = .armed → gives e.count) ∧ (e.st = .fault → gives 0) ∧ (e.st = .disarmed → gives 0) ∧
    (e.st = .firing → Waits s a (.wttFiring ent) o))

/-- R151, R312: done of an activation with nothing outstanding frees its context, takes its cost from the cluster's sum and sends the
join arrival of its task at once, since a release at its class's scope takes effect. An activation with an open merge group is
terminated. That the matrix commands and closing groups of the activation hold its done back is the model's reading (log 13). -/
def Obligations.DoneEnds : Prop :=
  ∀ (s : State) (a : Act), Issues s a [] → Alone s a → a.gang = none → a.txn = none → a.closing = [] →
    (∀ m ∈ (coreAt s (coreOf a)).matQ, m.uid ≠ a.uid) →
    let join := nth a.task.words 1
    (a.group ≠ none → exec .done s = .next (trap s a 0)) ∧
    (a.group = none → ∃ t, exec .done s = .next t ∧ actAt t a.ctx = none ∧ (∀ x, x ≠ a.ctx → actAt t x = actAt s x) ∧
      t.mem = s.mem ∧ (clusAt t (clusOfCore (coreOf a))).sum = (clusAt s (clusOfCore (coreOf a))).sum - a.task.cost ∧
      (join.getLsbD 23 = false → t.flights = s.flights) ∧
      (join.getLsbD 23 = true → ∃ f, t.flights = s.flights ++ [f] ∧ f.stage = .sent ∧
        f.pay = .arrival ⟨join, 1, a.task.asid, a.task.gen⟩))

/-- R344, R228, R83: send reads its payload from the scratchpad at issue and sends it as stores of path 3, followed by the arrival of
its control word; a typed payload is converted to the wire type. Length 0 or above 2^20 traps, and so does a source outside the
scratchpad. R328: a payload that an earlier operation of the activation holds is read later, and the activation goes on. That the
payload is read at issue is the model's choice (log 11), and so is how a held one waits (log 69). -/
def Obligations.SendResults : Prop :=
  ∀ (s : State) (a : Act) (d x y : BitVec 5) (w : BitVec 4) (r : BitVec 1) (sc : BitVec 3),
    Issues s a (sNames [d.toNat, x.toNat, y.toNat]) → Alone s a → sc.toNat < 5 →
    let ctl := sreg a d.toNat
    let src := wfld (sreg a x.toNat) 0 18
    let dst := (sreg a y.toNat).toNat
    let len := wfld ctl 24 24
    let core := coreOf a
    let c := coreAt s core
    let bytes := readBytes s.mem (pool core src) len
    let join : Option (Arrive × Nat) := if r = 1 ∧ ctl.getLsbD 23 = true
      then some (⟨ctl &&& 0xFFFFFF, 1, a.task.asid, a.task.gen⟩, sc.toNat) else none
    let plain := exec (.send d x y 0 r (if r = 1 then sc else 0) 0) s
    ((len = 0 ∨ 2 ^ 20 < len) → plain = .next (trap s a 1)) ∧
    (1 ≤ len → len ≤ 2 ^ 20 → (262144 < src + len ∨ src < 512 * scratchRow c) → plain = .next (trap s a 2)) ∧
    (1 ≤ len → len ≤ 2 ^ 20 → src + len ≤ 262144 → 512 * scratchRow c ≤ src → poolHolds s a src len false ≠ [] →
      Sends s a 4 { unsent (request s a (some 3) .store dst len (.store []) .none) .held with
        after := join, holds := poolHolds s a src len false, late := some (.send src len false (wfld ctl 48 4) 0) } plain) ∧
    (1 ≤ len → len ≤ 2 ^ 20 → src + len ≤ 262144 → 512 * scratchRow c ≤ src → poolHolds s a src len false = [] →
      (∀ k ∈ slotsOf src len, engineOwned c k = false) →
      Sends s a 4 { request s a (some 3) .store dst len (.store bytes) .none with
          after := join } plain ∧
      (∀ lt : Nat, lt = wfld ctl 48 4 → wireLocal lt = true → wirePairing lt w.toNat = true → Uncounted s a →
        len % (tWidth lt / 8) = 0 → src % (tWidth lt / 8) = 0 → dst % (tWidth lt / 8) = 0 →
        okSend w r sc 1 = true →
        ∃ t f, exec (.send d x y w r sc 1) s = .next t ∧ t.flights = s.flights ++ [f] ∧ t.mem = s.mem ∧ f.id = s.nextId ∧
          f.path = some 3 ∧ f.stage = .sent ∧ f.req.va = dst % 2 ^ 57 ∧ f.req.n = len ∧
          f.pay = .store (sendPayload true lt w.toNat bytes).1))

/-- R347, R354, R355, R357, R358, R365 to R367: lane-wise bit operations, shifts, counts, moves and permutations, by the lane. -/
def Obligations.VectorBitAndMoveResults : Prop :=
  ∀ (s : State) (a : Act) (d x y : BitVec 5) (t : BitVec 4),
    Issues s a (sNames [x.toNat, y.toNat] ++ vNames a [d.toNat, x.toNat, y.toNat]) → Uncounted s a →
    let ty := t.toNat
    let w := tWidth ty
    let L := tLanes ty
    let X (i : Nat) : Nat := laneAt s a ty x.toNat i
    let Y (i : Nat) : Nat := laneAt s a ty y.toNat i
    let lanes_ (f : Nat → Nat) (o : Out) : Prop := SetsLanes s a ty d.toNat (fun i => (f i, 0)) o
    lanes_ (fun i => X i &&& Y i) (exec (.vand d x y t) s) ∧ lanes_ (fun i => X i ||| Y i) (exec (.vor d x y t) s) ∧
    lanes_ (fun i => X i ^^^ Y i) (exec (.vxor d x y t) s) ∧ lanes_ (fun i => 2 ^ w - 1 - X i) (exec (.vnot d x t) s) ∧
    lanes_ X (exec (.vmov d x t) s) ∧ lanes_ X (exec (.vsel d x y t) s) ∧
    lanes_ (fun _ => (sreg a x.toNat).toNat) (exec (.vbcast d x t) s) ∧
    lanes_ (fun i => if Y i < L then X (Y i) else 0) (exec (.vperm d x y t) s) ∧
    lanes_ (fun i => let j := (i : Int) + (sreg a y.toNat).toInt; if 0 ≤ j ∧ j < L then X j.toNat else 0)
      (exec (.vslide d x y t) s) ∧
    lanes_ (fun i => if i % 2 = 0 then X (i / 2) else Y (i / 2)) (exec (.vzip d x y t) s) ∧
    lanes_ (fun i => if i < L / 2 then X (2 * i) else Y (2 * (i - L / 2))) (exec (.vunzip d x y t) s) ∧
    (1 ≤ ty → ty ≤ 6 →
      lanes_ (fun i => X i * 2 ^ (Y i % w)) (exec (.vshl d x y t) s) ∧
      lanes_ (fun i => X i / 2 ^ (Y i % w)) (exec (.vshr d x y t) s) ∧
      lanes_ (fun i => intBits w ((BitVec.ofNat w (X i)).toInt / 2 ^ (Y i % w))) (exec (.vsra d x y t) s) ∧
      lanes_ (fun i => (List.range w).countP fun k => (X i).testBit k) (exec (.vpopc d x t) s) ∧
      lanes_ (fun i => if X i = 0 then w else w - 1 - Nat.log2 (X i)) (exec (.vclz d x t) s) ∧
      (∃ q : Nat → Nat, (∀ j k, (q j).testBit k = decide
          (((List.range w).countP fun i => decide (i ≤ k) && (Y (2 * j)).testBit i && (X (2 * j)).testBit (k - i)) % 2 = 1)) ∧
        lanes_ (fun i => if i % 2 = 0 then q (i / 2) else q (i / 2) / 2 ^ w) (exec (.vclmul d x y t) s))) ∧
    ((ty = 0 ∨ 7 ≤ ty) → exec (.vshl d x y t) s = .next (trap s a 1) ∧ exec (.vshr d x y t) s = .next (trap s a 1) ∧
      exec (.vsra d x y t) s = .next (trap s a 1) ∧ exec (.vpopc d x t) s = .next (trap s a 1) ∧
      exec (.vclz d x t) s = .next (trap s a 1) ∧ exec (.vclmul d x y t) s = .next (trap s a 1))

/-- R351, R352, R224, R362 to R364: integer lanes are computed exactly and brought into the range of their type, with the saturation
event; sums wrap, extremes give the lowest lane that holds them, and scans pass the accumulator on. -/
def Obligations.VectorIntegerResults : Prop :=
  ∀ (s : State) (a : Act) (d x y : BitVec 5) (t : BitVec 4),
    Issues s a (sNames [y.toNat] ++ vNames a [d.toNat, x.toNat, y.toNat]) → Uncounted s a → 1 ≤ t.toNat → t.toNat ≤ 6 →
    let ty := t.toNat
    let w := tWidth ty
    let L := tLanes ty
    let X (i : Nat) : Int := intVal ty (laneAt s a ty x.toNat i)
    let Y (i : Nat) : Int := intVal ty (laneAt s a ty y.toNat i)
    let D (i : Nat) : Int := intVal ty (laneAt s a ty d.toNat i)
    let lanes_ (f : Nat → Int) (o : Out) : Prop := SetsLanes s a ty d.toNat (fun i => clamped ty (f i)) o
    let best (up : Bool) (k : Nat) : Prop := k < L ∧ ∀ j, j < L →
      (if up then X j ≤ X k else X k ≤ X j) ∧ (j < k → X j ≠ X k)
    lanes_ (fun i => X i + Y i) (exec (.vadd d x y t) s) ∧ lanes_ (fun i => X i - Y i) (exec (.vsub d x y t) s) ∧
    lanes_ (fun i => X i * Y i) (exec (.vmul d x y t) s) ∧ lanes_ (fun i => X i * Y i + D i) (exec (.vfma d x y t) s) ∧
    lanes_ (fun i => X i * Y i - D i) (exec (.vfms d x y t) s) ∧
    lanes_ (fun i => D i - X i * Y i) (exec (.vfnma d x y t) s) ∧
    lanes_ (fun i => min (X i) (Y i)) (exec (.vmin d x y t) s) ∧ lanes_ (fun i => max (X i) (Y i)) (exec (.vmax d x y t) s) ∧
    lanes_ (fun i => if X i < 0 then -X i else X i) (exec (.vabs d x t) s) ∧
    lanes_ (fun i => -X i) (exec (.vneg d x t) s) ∧
    SetsRow s a d.toNat (intBits w ((List.range L).map X).sum) 0 4 (exec (.vredsum d x t) s) ∧
    (∃ k, best true k ∧ SetsRow s a d.toNat (intBits w (X k)) 0 4 (exec (.vredmax d x t) s)) ∧
    (∃ k, best false k ∧ SetsRow s a d.toNat (intBits w (X k)) 0 4 (exec (.vredmin d x t) s)) ∧
    (∃ g : Nat → Int, (∀ i, g i = min (tMax ty) (max (tMin ty) ((if i = 0 then 0 else g (i - 1)) + X i))) ∧
      ∃ ev : Nat → Nat, SetsLanes s a ty d.toNat (fun i => (intBits w (g i), ev i)) (exec (.vscanAdd d x t) s)) ∧
    (∃ g : Nat → Nat, (∀ i, g i = (if i = 0 then 0 else g (i - 1)) ^^^ laneAt s a ty x.toNat i) ∧
      SetsLanes s a ty d.toNat (fun i => (g i, 0)) (exec (.vscanXor d x t) s))

/-- R211, R223, R224, R351, R353, R356, R359, R362 to R364: floating-point lanes hold the exact result converted once; vabs and vneg
change the sign alone and copy NaNs. A sum is the tree of rounded sums of neighbours, an extreme the lane of highest or lowest rank
unless a NaN wins, a scan the chain of rounded sums from −0. The approximate functions have the results of their table at zeros,
infinities and NaNs, their exact cases and their symmetry; vcmp without a prefix tells unordered lanes. -/
def Obligations.VectorFloatResults : Prop :=
  ∀ (s : State) (a : Act) (d x y : BitVec 5) (t : BitVec 4) (q : BitVec 3),
    Issues s a (vNames a [d.toNat, x.toNat, y.toNat]) → Uncounted s a → 7 ≤ t.toNat → t.toNat ≤ 10 →
    ∃ (k : Fmt) (u : Nat → Nat), fmtOf t.toNat = some k ∧
    let ty := t.toNat
    let m := modeOf a
    let b (v i : Nat) : Nat := laneAt s a ty v i
    let X (i : Nat) : FVal := k.val (b x.toNat i)
    let Y (i : Nat) : FVal := k.val (b y.toNat i)
    let D (i : Nat) : FVal := k.val (b d.toNat i)
    let lanes_ (f : Nat → FVal × Nat) (ops : Nat → List FVal) (o : Out) : Prop :=
      SetsLanes s a ty d.toNat (fun i => fResult k (f i) (ops i) m true (u i)) o
    let L := tLanes ty
    let sgn := 2 ^ (k.w - 1)
    let one := k.bias * 2 ^ k.mb
    let half := (k.bias - 1) * 2 ^ k.mb
    let inf := k.infc
    let bad : Nat × Nat := (k.nanc, 65)
    let int (j : Int) : Nat × Nat := k.convert (.num (decide (j < 0)) (.dy j.natAbs 0)) 0 true 0
    let approx (zero negZero top negTop : Nat × Nat) (P : (Nat → Nat × Nat) → Prop) (o : Out) : Prop :=
      ∃ f : Nat → Nat × Nat, SetsLanes s a ty d.toNat f o ∧ P f ∧ ∀ i, i < L →
        ((X i).isNan = true → f i = (k.nanc, 64 + sigEv [X i])) ∧ (b x.toNat i = 0 → f i = zero) ∧
        (b x.toNat i = sgn → f i = negZero) ∧ (b x.toNat i = inf → f i = top) ∧ (b x.toNat i = sgn + inf → f i = negTop)
    let free (_ : Nat → Nat × Nat) : Prop := True
    let negBad (f : Nat → Nat × Nat) : Prop := ∀ i, i < L → sgn < b x.toNat i → b x.toNat i < sgn + inf → f i = bad
    let inexact (f : Nat → Nat × Nat) : Prop := ∀ i, i < L → 0 < b x.toNat i % sgn → b x.toNat i % sgn < inf → (f i).2 = 16
    let mirror (flip : Nat) (f : Nat → Nat × Nat) : Prop := ∀ i j, i < L → j < L → b x.toNat i < inf →
      b x.toNat j = b x.toNat i + sgn → f j = ((f i).1 ^^^ flip, (f i).2)
    let best (up : Bool) (o : Out) : Prop :=
      ((∃ i, i < L ∧ (X i).isNan = true) → SetsRow s a d.toNat k.nanc (64 + sigEv ((List.range L).map X)) 4 o) ∧
      ((∀ i, i < L → (X i).isNan = false) → ∃ j, j < L ∧ SetsRow s a d.toNat (b x.toNat j) 0 4 o ∧
        ∀ i, i < L → if up then k.rank (b x.toNat i) ≤ k.rank (b x.toNat j) else k.rank (b x.toNat j) ≤ k.rank (b x.toNat i))
    lanes_ (fun i => fAdd (X i) (Y i) m) (fun i => [X i, Y i]) (exec (.vadd d x y t) s) ∧
    lanes_ (fun i => fAdd (X i) (Y i).neg m) (fun i => [X i, Y i]) (exec (.vsub d x y t) s) ∧
    lanes_ (fun i => fMul (X i) (Y i)) (fun i => [X i, Y i]) (exec (.vmul d x y t) s) ∧
    lanes_ (fun i => fDiv (X i) (Y i)) (fun i => [X i, Y i]) (exec (.vdiv d x y t) s) ∧
    lanes_ (fun i => fSqrt (X i)) (fun i => [X i]) (exec (.vsqrt d x t) s) ∧
    lanes_ (fun i => fFma (X i) (Y i) (D i) m) (fun i => [X i, Y i, D i]) (exec (.vfma d x y t) s) ∧
    lanes_ (fun i => fFma (X i) (Y i) (D i).neg m) (fun i => [X i, Y i, D i]) (exec (.vfms d x y t) s) ∧
    lanes_ (fun i => fFma (X i).neg (Y i) (D i) m) (fun i => [X i, Y i, D i]) (exec (.vfnma d x y t) s) ∧
    SetsLanes s a ty d.toNat (fun i => minMax ty false (b x.toNat i) (b y.toNat i)) (exec (.vmin d x y t) s) ∧
    SetsLanes s a ty d.toNat (fun i => minMax ty true (b x.toNat i) (b y.toNat i)) (exec (.vmax d x y t) s) ∧
    SetsLanes s a ty d.toNat (fun i => (if (X i).isNan then b x.toNat i else b x.toNat i % sgn, 0)) (exec (.vabs d x t) s) ∧
    SetsLanes s a ty d.toNat (fun i => (if (X i).isNan then b x.toNat i else b x.toNat i ^^^ sgn, 0)) (exec (.vneg d x t) s) ∧
    approx (inf, 2) (sgn + inf, 2) (0, 0) (sgn, 0) free (exec (.vrcp d x t) s) ∧
    approx (inf, 2) (sgn + inf, 2) (0, 0) bad negBad (exec (.vrsqrt d x t) s) ∧
    (ty ≤ 9 →
      approx (one, 0) (one, 0) (inf, 0) (0, 0) (fun f => ∀ i (j : Int), i < L → 1 - (k.bias : Int) ≤ j → j ≤ k.bias →
        int j = (b x.toNat i, 0) → f i = ((j + k.bias).toNat * 2 ^ k.mb, 0)) (exec (.vexp2 d x t) s) ∧
      approx (sgn + inf, 2) (sgn + inf, 2) (inf, 0) bad (fun f => negBad f ∧ ∀ i (j : Int), i < L → 1 - (k.bias : Int) ≤ j →
        j ≤ k.bias → b x.toNat i = (j + k.bias).toNat * 2 ^ k.mb → f i = int j) (exec (.vlog2 d x t) s) ∧
      approx (0, 0) (sgn, 0) (one, 0) (sgn + one, 0) (fun f => inexact f ∧ mirror sgn f) (exec (.vtanh d x t) s) ∧
      approx (half, 0) (half, 0) (one, 0) (0, 0) inexact (exec (.vsigm d x t) s) ∧
      approx (0, 0) (sgn, 0) bad bad (fun f => inexact f ∧ mirror sgn f) (exec (.vsin d x t) s) ∧
      approx (one, 0) (one, 0) bad bad (fun f => inexact f ∧ mirror 0 f) (exec (.vcos d x t) s)) ∧
    (ty = 10 → exec (.vexp2 d x t) s = .next (trap s a 1) ∧ exec (.vlog2 d x t) s = .next (trap s a 1) ∧
      exec (.vtanh d x t) s = .next (trap s a 1) ∧ exec (.vsigm d x t) s = .next (trap s a 1) ∧
      exec (.vsin d x t) s = .next (trap s a 1) ∧ exec (.vcos d x t) s = .next (trap s a 1)) ∧
    (∃ (n : Nat) (T : Nat → Nat → Nat) (ev : Nat), 2 ^ n = L ∧ (∀ i, T 0 i = b x.toNat i) ∧
      let sum (l i : Nat) := fResult k (fAdd (k.val (T l (2 * i))) (k.val (T l (2 * i + 1))) 0)
        [k.val (T l (2 * i)), k.val (T l (2 * i + 1))] 0 true 0
      (∀ l i, T (l + 1) i = (sum l i).1) ∧
      (∀ e, e < 7 → (ev.testBit e = true ↔ ∃ l i, l < n ∧ i < 2 ^ (n - l - 1) ∧ (sum l i).2.testBit e = true)) ∧
      SetsRow s a d.toNat (T n 0) ev 4 (exec (.vredsum d x t) s)) ∧
    best true (exec (.vredmax d x t) s) ∧ best false (exec (.vredmin d x t) s) ∧
    (∃ g : Nat → Nat × Nat, (∀ i, g i =
        let acc := k.val (if i = 0 then sgn else (g (i - 1)).1)
        fResult k (fAdd acc (X i) m) [acc, X i] m true (u i)) ∧
      SetsLanes s a ty d.toNat g (exec (.vscanAdd d x t) s)) ∧
    (∃ (v : MReg) (ev : Nat), (∀ i, v.getLsbD i = (decide (i < tLanes ty) && ((X i).isNan || (Y i).isNan))) ∧
      RetiresEv s a ev 4 (exec (.vcmp q x y t) s) fun c => c.regs.s = a.regs.s ∧ c.regs.f = a.regs.f ∧ c.regs.d = a.regs.d ∧
        c.regs.c = a.regs.c ∧ c.regs.vwb = a.regs.vwb ∧ ∀ j, mreg c j = if j = q.toNat ∧ q ≠ 0 then v else mreg a j)

/-- R358 to R361, R363: single lanes in and out of scalar registers, conversion, quantisation with its scales and dequantisation, and
the indexed extremes. -/
def Obligations.VectorScalarResults : Prop :=
  ∀ (s : State) (a : Act) (d x y : BitVec 5) (st t : BitVec 4),
    Issues s a (sNames [d.toNat, x.toNat, y.toNat] ++ vNames a [d.toNat, x.toNat, y.toNat]) → Uncounted s a →
    let ty := t.toNat
    let w := tWidth ty
    let k := (sreg a y.toNat).toNat
    let old := readN s.mem (vloc s a d.toNat) 512
    (∃ row, SetsRow s a d.toNat row 0 4 (exec (.vins d x y t) s) ∧
      (∀ i, i < tLanes ty → lane w row i = if i = k then (sreg a x.toNat).toNat % 2 ^ w else lane w old i)) ∧
    SetsS s a d.toNat (if tLanes ty ≤ k then 0
      else if ty = 2 ∨ 5 = ty ∨ 7 ≤ ty then BitVec.ofNat 64 (laneAt s a ty x.toNat k)
      else (BitVec.ofNat w (laneAt s a ty x.toNat k)).signExtend 64) 4 (exec (.vext d x y t) s) ∧
    (∃ u : Nat → Nat, SetsLanes s a ty d.toNat (fun i =>
      if i < tLanes st.toNat then convertBits ty st.toNat (laneAt s a st.toNat x.toNat i) (modeOf a) true (u i)
      else (lane w old i, 0)) (exec (.vcvt d x st t) s)) ∧
    (11 ≤ ty → ∃ (q : State) (b : Act) (draw : Nat → Nat → Nat), exec (.vquant d x y t) s = .next q ∧ actAt q a.ctx = some b ∧
      Advances a b 4 ∧
      (∀ z, (z < vloc s a d.toNat ∨ vloc s a d.toNat + 512 ≤ z) → readByte q.mem z = readByte s.mem z) ∧
      let n := if w = 8 then 128 else 32
      let block (j : Nat) := quantise ty ((span (n * j) n).map fun i => (true, laneAt s a 9 x.toNat i)) (modeOf a) true (draw j)
      (∀ i, i < 128 → laneAt q a ty d.toNat i = (((block (i / n)).2.map fun e => e.1).getD (i % n) 0) % 2 ^ w) ∧
      (∀ i, 128 ≤ i → i < tLanes ty → laneAt q a ty d.toNat i = 0) ∧
      (∀ j, j < 128 / n → (y ≠ 0 → fld (sreg b y.toNat).toNat ((if n = 128 then 32 else 8) * j) (if n = 128 then 32 else 8) =
        (block j).1 % 2 ^ (if n = 128 then 32 else 8))) ∧
      ∀ j, j ≠ y.toNat → sreg b j = sreg a j) ∧
    (11 ≤ ty → ∃ u : Nat → Nat, SetsLanes s a 9 d.toNat (fun i =>
      let n := if w = 8 then 128 else 32
      dequant ty (n != 128) (if n = 128 then k % 2 ^ 32 else fld k (8 * (i / n)) 8) (laneAt s a ty x.toNat i) (modeOf a) true (u i))
      (exec (.vdequant d x y t) s)) ∧
    (1 ≤ ty → ty ≤ 6 →
      let X (i : Nat) : Int := intVal ty (laneAt s a ty x.toNat i)
      let found (up : Bool) (o : Out) : Prop := ∃ (q : State) (b : Act) (j : Nat), o = .next q ∧ actAt q a.ctx = some b ∧
        Advances a b 4 ∧ j < tLanes ty ∧
        (∀ i, i < tLanes ty → (if up then X i ≤ X j else X j ≤ X i) ∧ (i < j → X i ≠ X j)) ∧
        readN q.mem (vloc s a d.toNat) 512 = laneAt s a ty x.toNat j ∧
        (∀ z, (z < vloc s a d.toNat ∨ vloc s a d.toNat + 512 ≤ z) → readByte q.mem z = readByte s.mem z) ∧
        ∀ i, sreg b i = if i = y.toNat ∧ y ≠ 0 then BitVec.ofNat 64 j else sreg a i
      found true (exec (.vredmaxi d x y t) s) ∧ found false (exec (.vredmini d x y t) s))

/-- R369, R370: mask registers combined bit by bit, counted, searched and set; R368: four rows into the transpose tile of the context
and four columns out of it. -/
def Obligations.MaskAndTransposeResults : Prop :=
  ∀ (s : State) (a : Act) (p q r : BitVec 3) (d x y : BitVec 5) (t : BitVec 4),
    Issues s a (sNames [d.toNat, x.toNat] ++ vNames a [d.toNat, y.toNat]) →
    let Q := mreg a q.toNat
    let R := mreg a r.toNat
    let w := tWidth t.toNat
    let n := 1024 / w
    let g := (sreg a x.toNat).toNat % (n / 4)
    let el (i j : Nat) : Nat := ttile a.ctx (128 * i + w / 8 * j)
    SetsM s a p.toNat (Q &&& R) 4 (exec (.mand p q r) s) ∧ SetsM s a p.toNat (Q ||| R) 4 (exec (.mor p q r) s) ∧
    SetsM s a p.toNat (Q ^^^ R) 4 (exec (.mxor p q r) s) ∧ SetsM s a p.toNat (~~~Q) 4 (exec (.mnot p q) s) ∧
    SetsS s a d.toNat (BitVec.ofNat 64 ((List.range 1024).countP fun k => Q.getLsbD k)) 4 (exec (.mpop d q) s) ∧
    (Q = 0 → SetsS s a d.toNat (BitVec.allOnes 64) 4 (exec (.mfirst d q) s)) ∧
    (∀ k, Q.getLsbD k = true → (∀ j, j < k → Q.getLsbD j = false) →
      SetsS s a d.toNat (BitVec.ofNat 64 k) 4 (exec (.mfirst d q) s)) ∧
    (∃ v : MReg, (∀ k, k < 1024 → v.getLsbD k = decide (k < (sreg a x.toNat).toNat)) ∧
      SetsM s a p.toNat v 4 (exec (.mset p x) s)) ∧
    (t.toNat ∈ [1, 2, 3, 4, 5, 7, 8, 9, 11, 12] →
      (∃ u b, exec (.vtrw x y t) s = .next u ∧ Goes a b 4 ∧ u = { s with acts := mset s.acts a.ctx b, mem := u.mem } ∧
        (∀ k i, k < 4 → i < n → readN u.mem (el (4 * g + k) i) (w / 8) = laneAt s a t.toNat y.toNat (k * n + i)) ∧
        (∀ z, (z < el (4 * g) 0 ∨ el (4 * g) 0 + 512 ≤ z) → readByte u.mem z = readByte s.mem z)) ∧
      (∃ row, SetsRow s a d.toNat row 0 4 (exec (.vtrc d x t) s) ∧
        ∀ k i, k < 4 → i < n → lane w row (k * n + i) = readN s.mem (el i (4 * g + k)) (w / 8))) ∧
    (t.toNat ∉ [1, 2, 3, 4, 5, 7, 8, 9, 11, 12] → exec (.vtrw x y t) s = .next (trap s a 1) ∧
      exec (.vtrc d x t) s = .next (trap s a 1))

/-- R262 to R265, R347, R352, R356 to R358, R362, R365, R366, R377, R383: a VX prefix and the instruction behind it are one unit of 8
bytes. Under mask and Z an inactive lane keeps its value or becomes zero, and an inactive lane of a sum counts as −0 or 0; mode and
saturation are the prefix's, for the lanes, for mst and for every mma; vc is the fourth operand of vfma, vperm and vslide; the rnd
field is the predicate of vcmp. A field that the instruction does not take traps, and so do mode 7 and an instruction that takes no
prefix. -/
def Obligations.PrefixGoverns : Prop :=
  ∀ (s : State) (a : Act) (m : BitVec 3) (z : BitVec 1) (r : BitVec 3) (c : BitVec 5) (v qs : BitVec 1) (d x y : BitVec 5)
      (t : BitVec 4),
    let ad := a.regs.pc.toNat + 4
    let run := exec (.vxPrefix m z r c v qs) s
    let traps : Prop := run = .next (trap s a 1)
    let isNext (i : Instr) : Prop := decode32 (leNat (codeBytes s a ad 4)) = some i ∧ leNat (codeBytes s a ad 2) % 2 = 1
    inImage a ad 4 = true → missingLine s a ad 4 = none → missingLine s a ad 2 = none → Uncounted s a →
    let ty := t.toNat
    let w := tWidth ty
    let L := tLanes ty
    let K := mreg a m.toNat
    let mode := if r.toNat = 6 then wfld a.regs.fcr 0 3 else r.toNat
    let sat := decide (qs = 1)
    let X (i : Nat) : Nat := laneAt s a ty x.toNat i
    let Y (i : Nat) : Nat := laneAt s a ty y.toNat i
    let C (i : Nat) : Nat := laneAt s a ty c.toNat i
    let D (i : Nat) : Nat := laneAt s a ty d.toNat i
    let under (f : Nat → Nat × Nat) : Prop := ∃ row ev, SetsRow s a d.toNat row ev 8 run ∧
      (∀ i, i < L → lane w row i = if K.getLsbD i then (f i).1 % 2 ^ w else if z = 1 then 0 else D i) ∧
      ∀ e, e < 7 → (ev.testBit e = true ↔ ∃ i, i < L ∧ K.getLsbD i = true ∧ (f i).2.testBit e = true)
    let whole (n : Int) : Nat × Nat := if sat then clamped ty n else (intBits w n, 0)
    let table (j : Int) : Nat := if j < 0 then 0 else if j < L then X j.toNat else if j < 2 * L then C (j.toNat - L) else 0
    (r = 7 ∨ leNat (codeBytes s a ad 2) % 2 = 0 → actAt s s.cur = some a → traps) ∧
    (actAt s s.cur = some a →
      (∀ e f, isNext (.add d e f) → traps) ∧ (∀ m' z' r' c' v' q', isNext (.vxPrefix m' z' r' c' v' q') → traps) ∧
      (v = 1 → isNext (.vand d x y t) ∨ isNext (.vadd d x y t) ∨ isNext (.vsel d x y t) ∨ isNext (.vredsum d x t) → traps) ∧
      (z = 1 → isNext (.vsel d x y t) ∨ isNext (.vredsum d x t) → traps) ∧
      (m ≠ 0 ∨ z = 1 → isNext (.vins d x y t) ∨ isNext (.vext d x y t) → traps) ∧
      (∀ p, r = 6 → ty < 7 → isNext (.vcmp p x y t) → traps)) ∧
    (r ≠ 7 → Issues s a (sNames [y.toNat] ++ vNames a [d.toNat, x.toNat, y.toNat, c.toNat]) →
      (v = 0 → isNext (.vand d x y t) → under fun i => (X i &&& Y i, 0)) ∧
      (v = 0 → isNext (.vmov d x t) → under fun i => (X i, 0)) ∧
      (v = 0 → 1 ≤ ty → ty ≤ 6 →
        (isNext (.vadd d x y t) → under fun i => whole (intVal ty (X i) + intVal ty (Y i))) ∧
        (isNext (.vmul d x y t) → under fun i => whole (intVal ty (X i) * intVal ty (Y i)))) ∧
      (7 ≤ ty → ty ≤ 10 → ∃ (k : Fmt) (u : Nat → Nat), fmtOf ty = some k ∧
        let lanes_ (f : Nat → FVal × Nat) (ops : Nat → List FVal) : Prop := under fun i => fResult k (f i) (ops i) mode sat (u i)
        (v = 0 → isNext (.vadd d x y t) →
          lanes_ (fun i => fAdd (k.val (X i)) (k.val (Y i)) mode) fun i => [k.val (X i), k.val (Y i)]) ∧
        (v = 0 → isNext (.vdiv d x y t) →
          lanes_ (fun i => fDiv (k.val (X i)) (k.val (Y i))) fun i => [k.val (X i), k.val (Y i)]) ∧
        (isNext (.vfma d x y t) →
          let A (i : Nat) : FVal := k.val (if v = 1 then C i else D i)
          lanes_ (fun i => fFma (k.val (X i)) (k.val (Y i)) (A i) mode) fun i => [k.val (X i), k.val (Y i), A i])) ∧
      (v = 1 → isNext (.vperm d x y t) → under fun i => (table (Y i), 0)) ∧
      (v = 1 → isNext (.vslide d x y t) → under fun i => (table ((i : Int) + (sreg a y.toNat).toInt), 0)) ∧
      (v = 0 → z = 0 → isNext (.vsel d x y t) → ∃ row, SetsRow s a d.toNat row 0 8 run ∧
        ∀ i, i < L → lane w row i = if K.getLsbD i then X i else Y i) ∧
      (v = 0 → z = 0 → 1 ≤ ty → ty ≤ 6 → isNext (.vredsum d x t) →
        SetsRow s a d.toNat (intBits w ((List.range L).map fun i => if K.getLsbD i then intVal ty (X i) else 0).sum) 0 8 run) ∧
      (v = 0 → 1 ≤ ty → ty ≤ 10 → (ty < 7 → r ≠ 6) → ∀ p : BitVec 3, isNext (.vcmp p x y t) →
        let nan (i : Nat) : Bool := isNanBits ty (X i) || isNanBits ty (Y i)
        let holds (i : Nat) : Bool :=
          if r = 0 then !nan i && fEq ty (X i) (Y i) else if r = 1 then nan i || !fEq ty (X i) (Y i)
          else if r = 2 then !nan i && fLt ty (X i) (Y i)
          else if r = 3 then !nan i && (fLt ty (X i) (Y i) || fEq ty (X i) (Y i))
          else if r = 4 then !nan i && fLt ty (Y i) (X i)
          else if r = 5 then !nan i && (fLt ty (Y i) (X i) || fEq ty (X i) (Y i)) else nan i
        let invalid (i : Nat) : Bool :=
          if r = 0 ∨ r = 1 ∨ r = 6 then 7 ≤ ty && sigEv [valOf ty (X i), valOf ty (Y i)] = 1 else nan i
        ∃ (M : MReg) (ev : Nat), (∀ i, M.getLsbD i = (decide (i < L) &&
            if K.getLsbD i then holds i else z = 0 && (mreg a p.toNat).getLsbD i)) ∧
          (ev = 1 ↔ ∃ i, i < L ∧ K.getLsbD i = true ∧ invalid i = true) ∧ ev ≤ 1 ∧
          RetiresEv s a ev 8 run fun b => b.regs.s = a.regs.s ∧ b.regs.f = a.regs.f ∧ b.regs.d = a.regs.d ∧
            b.regs.c = a.regs.c ∧ b.regs.vwb = a.regs.vwb ∧
            ∀ j, mreg b j = if j = p.toNat ∧ p ≠ 0 then M else mreg a j)) ∧
    ∀ (n : BitVec 2) (A : BitVec 3) (B : BitVec 5) (F : BitVec 4) (o R Z l N : BitVec 1) (J : BitVec 2) (k : BitVec 1),
      let core := coreAt s (coreOf a)
      let mmas : List (Instr × Nat) := [(.mmaF64 n A B o J k F R Z l N, 31), (.mmaF32 n A B o J k F R Z l N, 32),
        (.mmaBf16 n A B o J k F R Z l N, 33), (.mmaF16 n A B o J k F R Z l N, 34), (.mmaE4e4 n A B o J k F R Z l N, 35),
        (.mmaE4e5 n A B o J k F R Z l N, 36), (.mmaE5e4 n A B o J k F R Z l N, 37), (.mmaE5e5 n A B o J k F R Z l N, 38),
        (.mmaE3m2 n A B o J k F R Z l N, 39), (.mmaE2m3 n A B o J k F R Z l N, 40), (.mmaE2m1 n A B o J k F R Z l N, 41),
        (.mmaI8 n A B o J k F R Z l N, 42), (.mmaI4 n A B o J k F R Z l N, 43)]
      let queues (P : MatrixCmd → Prop) : Prop := ∃ t b cmd, run = .next t ∧ actAt t a.ctx = some b ∧ Advances a b 8 ∧
        (coreAt t (coreOf a)).matQ = [cmd] ∧ cmd.rnd = mode ∧ cmd.sat = sat ∧ P cmd ∧ t.mem = s.mem
      (m ≠ 0 ∨ z = 1 ∨ v = 1 → actAt s s.cur = some a →
        ((∃ e ∈ mmas, isNext e.1) ∨ isNext (.mst n A B F Z l o) → traps)) ∧
      (m = 0 → z = 0 → v = 0 → r ≠ 7 → Alone s a → core.matQ = [] → core.copyQ = [] →
        (∀ e ∈ mmas, isNext e.1 → Issues s a [.d A.toNat, .d B.toNat] →
          let word := mmaWord e.2 n A B o J k F R Z l N
          mmaFields word = true → N = 0 → mmaTrap s a word = none → mmaWait s a word [] = none → queues fun q => q.word = word) ∧
        (isNext (.mst n A B F Z l o) → Issues s a (.d A.toNat :: sNames [B.toNat]) → n.toNat < a.tiles.length →
          dreg a A.toNat ≠ 0 → dSpace (dreg a A.toNat) = 0 →
          originBad (dEtype (dreg a A.toNat)) (wfld (sreg a B.toNat) 0 32) = false →
          queues fun q => xSub q.word = 3 ∧ q.scale = freg a F.toNat))

/-- R371, R373, R374, R377, R378: a legal mma whose operands are ready enters the matrix unit's queue with the elements of A and B read
in program order, whatever its opcode; a field that R377 forbids, the chain flag and an operand that breaks a rule trap. That own-pool
operands are read at issue is the model's choice (log 11). -/
def Obligations.MatrixStepsAreQueued : Prop :=
  ∀ (s : State) (a : Act) (c : BitVec 2) (x : BitVec 3) (y : BitVec 5) (q k r z l n : BitVec 1) (j : BitVec 2) (f : BitVec 4),
    let word (major : Nat) : Nat := 1 + 2 * major + 2 ^ 7 * c.toNat + 2 ^ 9 * x.toNat + 2 ^ 14 * y.toNat + 2 ^ 19 * q.toNat +
      2 ^ 20 * j.toNat + 2 ^ 22 * k.toNat + 2 ^ 23 * f.toNat + 2 ^ 27 * r.toNat + 2 ^ 28 * z.toNat + 2 ^ 29 * l.toNat +
      2 ^ 30 * n.toNat
    Issues s a [.d x.toNat, .d y.toNat] → Alone s a →
    let core := coreAt s (coreOf a)
    let does (major : Nat) (o : Out) : Prop :=
      let w := word major
      let sh := shapeOf major
      let legal := mmaFields w = true ∧ n = 0
      (¬ legal → o = .next (trap s a 1)) ∧
      (∀ cause, legal → mmaTrap s a w = some cause → o = .next (trap s a cause)) ∧
      (legal → mmaTrap s a w = none → core.matQ = [] → core.copyQ = [] → mmaWait s a w [] = none →
        ∃ t b g m, o = .next t ∧
          t = { s with
            acts := mset s.acts a.ctx b
            cores := mset s.cores (coreOf a) { core with matQ := [m] }
            flights := s.flights ++ [g]
            nextId := s.nextId + 1 } ∧
          m.id = s.nextId ∧ m.uid = a.uid ∧ m.word = w ∧ some m.tile = a.tiles[c.toNat]? ∧ m.started = false ∧
          m.a = srcElems s.mem (coreOf a) (mmaSrcA a w) sh.ta 128 sh.k sh.sa ∧
          m.b = srcElems s.mem (coreOf a) (mmaSrcB a w) sh.tb sh.k sh.n sh.sb ∧ m.scale = freg a f.toNat ∧
          g.id = s.nextId ∧ g.uid = a.uid ∧ g.pay = .command ∧ g.path = none ∧ g.slot = true ∧
          OnlyRegs a b ∧ Advances a b 4 ∧ b.regs.s = a.regs.s ∧ b.regs.f = a.regs.f ∧ b.regs.d = a.regs.d)
    does 31 (exec (.mmaF64 c x y q j k f r z l n) s) ∧ does 32 (exec (.mmaF32 c x y q j k f r z l n) s) ∧
    does 33 (exec (.mmaBf16 c x y q j k f r z l n) s) ∧ does 34 (exec (.mmaF16 c x y q j k f r z l n) s) ∧
    does 35 (exec (.mmaE4e4 c x y q j k f r z l n) s) ∧ does 36 (exec (.mmaE4e5 c x y q j k f r z l n) s) ∧
    does 37 (exec (.mmaE5e4 c x y q j k f r z l n) s) ∧ does 38 (exec (.mmaE5e5 c x y q j k f r z l n) s) ∧
    does 39 (exec (.mmaE3m2 c x y q j k f r z l n) s) ∧ does 40 (exec (.mmaE2m3 c x y q j k f r z l n) s) ∧
    does 41 (exec (.mmaE2m1 c x y q j k f r z l n) s) ∧ does 42 (exec (.mmaI8 c x y q j k f r z l n) s) ∧
    does 43 (exec (.mmaI4 c x y q j k f r z l n) s)

/-- R380 to R384: mzero, mld, mld.t, mst, msc and msc.e8m0 enter the matrix unit's queue as operations of the activation; a name of a
tile that the activation does not hold traps, and so does a null descriptor. That msc and msc.e8m0 read their scales at issue is the
model's choice (log 11). R385 to R390, R48, R328: eset writes a field of the core's shadow set; ego queues the command that the set
holds, cpy a command of one row, cpy.chain the set's command with its follow-on step, and tld and tst a tile copy. The scratchpad slots
that a command names are counted. A malformed command, or one whose own-pool bytes leave the scratchpad, traps. That a malformed
command traps so whatever its bytes, and that the registers of a follow-on are read at issue, is the model's choice (log 15); that its
traps stand beside the engine's own list is its reading (log 61). -/
def Obligations.TileAndCopyCommandsAreQueued : Prop :=
  (∀ (s : State) (a : Act) (c : BitVec 2) (x : BitVec 3) (y : BitVec 5) (f : BitVec 4) (z l t : BitVec 1),
    Issues s a (.d x.toNat :: sNames [y.toNat]) → Alone s a →
    let core := coreAt s (coreOf a)
    let D := dreg a x.toNat
    let org := sreg a y.toNat
    let p := wfld (sreg a y.toNat) 0 18
    let queues (path : Option Nat) (P : MatrixCmd → Prop) (o : Out) : Prop :=
      ∃ u b g m, o = .next u ∧
        u = { s with
          acts := mset s.acts a.ctx b
          cores := mset s.cores (coreOf a) { core with matQ := [m] }
          flights := s.flights ++ [g]
          nextId := s.nextId + 1 } ∧
        m.id = s.nextId ∧ m.uid = a.uid ∧ some m.tile = a.tiles[c.toNat]? ∧ xMajor m.word = 44 ∧ xAcc m.word = c.toNat ∧ P m ∧
        g.id = s.nextId ∧ g.uid = a.uid ∧ g.pay = .command ∧ g.path = path ∧ g.slot = true ∧ Goes a b 4
    (a.tiles.length ≤ c.toNat → exec (.mzero c) s = .next (trap s a 1) ∧ exec (.mld c x y) s = .next (trap s a 1) ∧
      exec (.mldT c x y) s = .next (trap s a 1) ∧ exec (.mst c x y f z l t) s = .next (trap s a 1) ∧
      exec (.msc c y) s = .next (trap s a 1) ∧ exec (.mscE8m0 c y) s = .next (trap s a 1)) ∧
    (c.toNat < a.tiles.length →
      (D = 0 → exec (.mld c x y) s = .next (trap s a 13) ∧ exec (.mldT c x y) s = .next (trap s a 13) ∧
        exec (.mst c x y f z l t) s = .next (trap s a 13)) ∧
      (p % 512 ≠ 0 → exec (.msc c y) s = .next (trap s a 5) ∧ exec (.mscE8m0 c y) s = .next (trap s a 5)) ∧
      (core.matQ = [] → core.copyQ = [] →
        queues none (fun m => xSub m.word = 0) (exec (.mzero c) s) ∧
        (p % 512 = 0 → OwnFree s a p 512 → queues none
          (fun m => xSub m.word = 4 ∧ xB m.word = 0 ∧ m.a = (readBytes s.mem (pool (coreOf a) p) 512).map fun b => b.toNat)
          (exec (.msc c y) s)) ∧
        (p % 512 = 0 → OwnFree s a p 1024 → queues none
          (fun m => xSub m.word = 4 ∧ xB m.word = 1 ∧ m.a = (readBytes s.mem (pool (coreOf a) p) 1024).map fun b => b.toNat)
          (exec (.mscE8m0 c y) s)) ∧
        (∀ k n, D ≠ 0 → dSpace D = 0 → latchShape (dEtype D) = some (k, n) → originBad (dEtype D) (wfld org 0 32) = false →
          queues none (fun m => xSub m.word = 1 ∧ m.desc = D ∧ m.org = org ∧ m.etype = dEtype D) (exec (.mld c x y) s) ∧
          queues none (fun m => xSub m.word = 2 ∧ m.desc = D ∧ m.org = org ∧ m.etype = dEtype D)
            (exec (.mldT c x y) s)) ∧
        (D ≠ 0 → dSpace D = 0 → originBad (dEtype D) (wfld org 0 32) = false →
          queues (some 1) (fun m => xSub m.word = 3 ∧ m.desc = D ∧ m.org = org ∧ m.scale = freg a f.toNat ∧
            xZf m.word = decide (z = 1) ∧ xClip m.word = decide (l = 1) ∧ xTr m.word = decide (t = 1))
            (exec (.mst c x y f z l t) s))))) ∧
  (∀ (s : State) (a : Act) (d x y : BitVec 5) (n : BitVec 6) (ds ss : BitVec 2) (p q : BitVec 3),
    Issues s a (sNames [d.toNat, x.toNat, y.toNat] ++ [.d p.toNat, .d q.toNat] ++ mmaReads (wfld (sreg a x.toNat) 0 32)) →
    Alone s a →
    let core := coreAt s (coreOf a)
    let sh := core.shadow
    let one : List Word := [putFld (sreg a x.toNat) 57 7 ss.toNat, putFld (sreg a y.toNat) 57 7 ds.toNat,
      BitVec.ofNat 64 (2 ^ 24 + (sreg a d.toNat).toNat), 0, 0, 0, 0]
    let W := wfld (sreg a x.toNat) 0 32
    let queues (path kind : Nat) (slots : List Nat) (P : CopyCmd → Prop) (o : Out) : Prop :=
      ∃ t b f cmd, o = .next t ∧ actAt t a.ctx = some b ∧ OnlyRegs a b ∧ Advances a b 4 ∧ t.mem = s.mem ∧
        (coreAt t (coreOf a)).copyQ = [cmd] ∧ cmd.id = s.nextId ∧ cmd.uid = a.uid ∧ cmd.kind = kind ∧ cmd.slots = slots ∧
        cmd.active = false ∧ P cmd ∧ t.flights = s.flights ++ [f] ∧ f.id = s.nextId ∧ f.uid = a.uid ∧ f.pay = .command ∧
        f.path = some path ∧ f.slot = true ∧ f.stage = .sent ∧
        (∀ k, mget (coreAt t (coreOf a)).slots k (false, 0) =
          let o := mget core.slots k (false, 0)
          if k ∈ slots then (o.1, o.2 + 1) else o)
    let path (sh : List Word) : Nat := if wfld (nth sh 1) 57 2 = 1 then 0 else 1
    (n.toNat < 7 → ChangesCore s a 4 { core with shadow := core.shadow.set n.toNat (sreg a x.toNat) } (exec (.eset x n) s)
      fun b => Goes a b 4) ∧
    (7 ≤ n.toNat → exec (.eset x n) s = .next (trap s a 1)) ∧
    (copyMalformed sh = true → exec .ego s = .next (trap s a 1)) ∧
    (copyMalformed sh = false → namedSlots s (coreOf a) sh false = none → exec .ego s = .next (trap s a 2)) ∧
    (core.copyQ = [] → core.matQ = [] →
      (∀ slots, copyMalformed sh = false → namedSlots s (coreOf a) sh false = some slots →
        queues (path sh) 0 slots (fun m => m.shadow = sh) (exec .ego s) ∧
        (W % 2 = 1 → isMma W = true → xChain W = true → mmaFields W = true → mmaTrap s a W = none →
          mmaWait s a W slots = none →
          queues (path sh) 1 slots (fun m => m.shadow = sh ∧ ∃ g, m.follow = some g ∧ g.word = W ∧ g.scale = freg a (xFs W))
            (exec (.cpyChain x) s))) ∧
      (∀ slots, (sreg a d.toNat).toNat ≠ 0 → (sreg a d.toNat).toNat < 2 ^ 24 → ds ≠ 3 → ss ≠ 3 →
        namedSlots s (coreOf a) one false = some slots →
        queues (path one) 0 slots (fun m => m.shadow = one) (exec (.cpy d x y ds ss) s)) ∧
      (∀ P F, P = dreg a p.toNat → F = dreg a q.toNat → P ≠ 0 → F ≠ 0 → dSpace P = 1 → dSpace F = 0 → dEtype P = dEtype F →
        originBad (dEtype P) (wfld (sreg a x.toNat) 0 32) = false → (∀ r ∈ descPlaces a P, OwnFree s a r.2.1 r.2.2) →
        queues 0 2 [] (fun m => m.far = F ∧ m.pool = P ∧ m.org = sreg a x.toNat) (exec (.tld p q x) s) ∧
        queues 1 3 [] (fun m => m.far = F ∧ m.pool = P ∧ m.org = sreg a x.toNat) (exec (.tst q p x) s))))

/-- R391, R58, R387: bgath and bcvt send the shadow set's command to the owner of its source, with the slots that it names counted; a
source outside the global space traps, and so does an index list out of alignment, a convert without types and one in place to a wider
type. -/
def Obligations.GatherAndConvertAreSent : Prop :=
  ∀ (s : State) (a : Act) (x : BitVec 5), Issues s a (sNames [x.toNat]) → Alone s a →
    let core := coreAt s (coreOf a)
    let sh := core.shadow
    let list := (sreg a x.toNat).toNat
    let sends (gather : Bool) (list : Nat) (o : Out) : Prop := ∀ slots, copyMalformed sh = false → wfld (nth sh 0) 57 2 = 0 →
      namedSlots s (coreOf a) sh gather = some slots → core.copyQ = [] → core.matQ = [] →
      ∃ t b f, o = .next t ∧ actAt t a.ctx = some b ∧ Goes a b 4 ∧ t.mem = s.mem ∧ t.flights = s.flights ++ [f] ∧
        f.id = s.nextId ∧ f.uid = a.uid ∧ f.stage = .sent ∧ f.pay = .plinth gather sh list [] ∧
        f.path = some (if wfld (nth sh 1) 57 2 = 1 then 0 else 1) ∧ f.req.va = wfld (nth sh 0) 0 57 ∧
        ∀ k, mget (coreAt t (coreOf a)).slots k (false, 0) =
          let o := mget core.slots k (false, 0)
          if k ∈ slots then (o.1, o.2 + 1) else o
    (list % 4 = 0 → sends true list (exec (.bgath x) s)) ∧
    ((nth sh 5).getLsbD 8 = true → (inPlace sh = true → tBytes (shDt sh) ≤ tBytes (shSt sh)) → sends false 0 (exec .bcvt s)) ∧
    ((nth sh 5).getLsbD 8 = false ∨ inPlace sh = true ∧ tBytes (shSt sh) < tBytes (shDt sh) → exec .bcvt s = .next (trap s a 1)) ∧
    (inPlace sh = true ↔ wfld (nth sh 0) 0 59 = wfld (nth sh 1) 0 59 ∧ nth sh 3 = nth sh 4) ∧
    (wfld (nth sh 0) 57 2 ≠ 0 → exec (.bgath x) s = .next (trap s a 1) ∧ exec .bcvt s = .next (trap s a 1)) ∧
    (copyMalformed sh = false → wfld (nth sh 0) 57 2 = 0 → list % 4 ≠ 0 → exec (.bgath x) s = .next (trap s a 5))

/-- R103 to R107, R392 to R396: bim.open opens a group and sends its marker; bim.push reads its pool row at issue and sends it as a
reduction of path 2, once the open is complete; bim.close makes the group closing; bim.wait reads its word and waits. Each has its
merge or alignment trap. That the pool row of a push is read at issue is the model's choice (log 11), and so is how a push waits whose
row an earlier operation holds (R328, log 69). -/
def Obligations.MergeInstructions : Prop :=
  ∀ (s : State) (a : Act) (d x y : BitVec 5) (m : BitVec 4), Issues s a (sNames [d.toNat, x.toNat, y.toNat]) → Alone s a →
    let X := sreg a x.toNat
    let Y := sreg a y.toNat
    let g : GroupId := ⟨m.toNat, wfld X 0 16, wfld X 16 24, (wfld X 40 8 + a.task.rc) % 256⟩
    let p := wfld Y 0 18
    let ad := X.toNat
    (a.group ≠ none → exec (.bimOpen x y m) s = .next (trap s a 6)) ∧
    (a.group = none → (Y.toNat = 0 ∨ 4096 < Y.toNat) → exec (.bimOpen x y m) s = .next (trap s a 1)) ∧
    (a.group = none → 1 ≤ Y.toNat → Y.toNat ≤ 4096 → a.closing = [] → ∃ t b, exec (.bimOpen x y m) s = .next t ∧
      b = { a with
        wait := .run
        group := some ⟨g, [], [], false⟩
        regs := { a.regs with pc := b.regs.pc, lcnt := b.regs.lcnt } } ∧ Advances a b 4 ∧
      t = { s with
        acts := mset s.acts a.ctx b
        flights := s.flights ++ [request s a none .mobj 0 0 (.mopen g Y.toNat (dieOfCore (coreOf a))) .none]
        nextId := s.nextId + 1 }) ∧
    (a.group = none → exec (.bimPush x y) s = .next (trap s a 6) ∧ exec .bimClose s = .next (trap s a 6)) ∧
    (∀ o, a.group = some o → a.closing = [] →
      ((p % 512 ≠ 0 ∨ ad % 512 ≠ 0) → exec (.bimPush x y) s = .next (trap s a 5)) ∧
      (p % 512 = 0 → ad % 512 = 0 → OwnFree s a p 512 →
        let f := request s a (some 2) .red ad 512 (.push (readBytes s.mem (pool (coreOf a) p) 512) o.g) .none
        Sends s a 4 (if o.opened then f else unsent f .held) (exec (.bimPush x y) s)) ∧
      (p % 512 = 0 → ad % 512 = 0 → ownReach s a p 512 = true → poolHolds s a p 512 false ≠ [] →
        Sends s a 4 { unsent (request s a (some 2) .red ad 512 (.push [] o.g) .none) .held with
          holds := poolHolds s a p 512 false, late := some (.push p) } (exec (.bimPush x y) s)) ∧
      (∃ t b, exec .bimClose s = .next t ∧ b = { a with
          wait := .run
          group := none
          closing := [o]
          regs := { a.regs with pc := b.regs.pc, lcnt := b.regs.lcnt } } ∧ Advances a b 4 ∧
        t = { s with
          acts := mset s.acts a.ctx b
          flights := s.flights ++ [unsent (request s a (some 2) .mobj 0 0 (.mclose o.g) .none) .held]
          nextId := s.nextId + 1 })) ∧
    (ad % 8 = 0 → SendsAndWaits s a (.bimWait s.nextId s.now ad d.toNat Y)
      (request s a none .load ad 8 .load (.bimWait d.toNat Y)) (exec (.bimWait d x y) s)) ∧
    (ad % 8 ≠ 0 → exec (.bimWait d x y) s = .next (trap s a 5))

/-- R121 to R124, R137, R397: oft.decl declares the tile of an address, once, with W when any declaration of it has W and never back to
R, and a 17th tile traps; oft.sub of a filled buffer reads its descriptor; oft.rel ends the transaction of a body whose paths are
clear. That the alignment trap of oft.sub comes before the one of an empty buffer is the model's choice (log 58). -/
def Obligations.TransactionInstructions : Prop :=
  ∀ (s : State) (a : Act) (d x : BitVec 5) (w : BitVec 1), Issues s a (sNames [d.toNat, x.toNat]) → Alone s a →
    let ad := (sreg a x.toNat).toNat
    let tile := ad % 2 ^ 57 / 4096 * 4096
    let known := ∃ e ∈ a.decl, e.1 = tile
    (known ∨ a.decl.length < 16 → ∃ t b, exec (.oftDecl x w) s = .next t ∧ t = { s with acts := mset s.acts a.ctx b } ∧
      b = { a with
        wait := .run
        decl := b.decl
        regs := { a.regs with pc := b.regs.pc, lcnt := b.regs.lcnt } } ∧ Advances a b 4 ∧
      (∃ v, (tile, v) ∈ b.decl ∧ (w = 1 → v = true) ∧ ((tile, true) ∈ a.decl → v = true) ∧
        (v = true → w = 1 ∨ (tile, true) ∈ a.decl)) ∧ (∀ e ∈ a.decl, e.1 ≠ tile → e ∈ b.decl) ∧
      b.decl.length = if a.decl.any (fun e => e.1 == tile) then a.decl.length else a.decl.length + 1) ∧
    (¬ known → 16 ≤ a.decl.length → exec (.oftDecl x w) s = .next (trap s a 7)) ∧
    (ad % 64 ≠ 0 → exec (.oftSub d x) s = .next (trap s a 5)) ∧
    (ad % 64 = 0 → a.decl = [] → exec (.oftSub d x) s = .next (trap s a 8)) ∧
    (ad % 64 = 0 → a.decl ≠ [] → SendsAndWaits s a (.read s.nextId) (request s a none .load ad 64 .load (.oftSub d.toNat))
      (exec (.oftSub d x) s)) ∧
    (a.txn = none → exec .oftRel s = .next (trap s a 11)) ∧
    (∀ tid, a.txn = some tid → ∃ t b f, exec .oftRel s = .next t ∧ actAt t a.ctx = some b ∧ b.txn = none ∧ Advances a b 4 ∧
      t.flights = s.flights ++ [f] ∧ f.uid = a.uid ∧ f.stage = .relWait 4 ∧ t.mem = s.mem ∧
      ∃ dies, f.pay = .txnEnd tid dies (dkOfClus a.task.home))

/-- R238, R245, R248, R249, R399 to R402: coll.go, topk.send, slot.claim, slot.ret and ctr.snap send their commands; coll.go and a
slot.ret with rows wait for their release. An address out of alignment traps. That topk.send reads its entries from the pool at issue
is the model's choice (log 11). -/
def Obligations.NetworkCommandsAreSent : Prop :=
  ∀ (s : State) (a : Act) (d x y : BitVec 5) (e : BitVec 1), Issues s a (sNames [d.toNat, x.toNat, y.toNat]) → Alone s a →
    let X := sreg a x.toNat
    let Y := sreg a y.toNat
    let ad := X.toNat
    let core := coreOf a
    let p := wfld X 0 18
    let seq := core / 256 * 2 + e.toNat
    let die := dieAt s (dkOfSeq seq)
    (((mget die.ringQ (seq % 2) []).filter fun c => !c.started).length < 4 →
      Sends s a 4 (unsent (request s a none .mobj 0 0 (.coll seq (ad % 2 ^ 57) a.task.asid a.task.gen) .none) (.relWait 4))
        (exec (.collGo x e) s)) ∧
    (4 ≤ ((mget die.ringQ (seq % 2) []).filter fun c => !c.started).length →
      Waits s a (.collRoom seq) (exec (.collGo x e) s)) ∧
    (p % 8 ≠ 0 → exec (.topkSend x y) s = .next (trap s a 5)) ∧
    (p % 8 = 0 → OwnFree s a p 64 → mergeRoom (dieAt s (dieOf a)) (wfld Y 32 4) (wfld Y 0 32) = true →
      Sends s a 4 (request s a (some 3) .mobj 0 0 (.topk (dieOf a) (wfld Y 32 4) (wfld Y 0 32) (numOfCore core)
        ((List.range 8).map fun i => readW s.mem (pool core p + 8 * i))) .none) (exec (.topkSend x y) s)) ∧
    (ad % 64 ≠ 0 → exec (.slotClaim d x y) s = .next (trap s a 5) ∧ exec (.slotRet x y) s = .next (trap s a 5) ∧
      exec (.ctrSnap x y) s = .next (trap s a 5)) ∧
    (ad % 64 = 0 →
      Sends s a 4 (request s a none .mobj ad 64 (.claim (wfld Y 0 8) (16 * dieOfCore core + clusOfNum (numOfCore core)))
        (.sreg d.toNat 8 false)) (exec (.slotClaim d x y) s) ∧
      (let f := request s a (some 1) .mobj ad 64 (.slotRet (wfld Y 12 45 * 4096) (wfld Y 0 12)) .none
       Sends s a 4 (if wfld Y 0 12 = 0 then f else unsent f (.relWait 4)) (exec (.slotRet x y) s)) ∧
      Sends s a 4 (request s a (some 1) .store ad 1024 (.snap (dieKey (pkgOfCore core) (wfld Y 4 3)) (wfld Y 0 2)) .none)
        (exec (.ctrSnap x y) s))

/-- The units that serve requests: a translation unit answers from a cached leaf or from a walk, which marks the leaf accessed (R14,
R26, R29); a port, a window, a peer and another core's pool perform a load or store (R25, R47, R53, R69); a write queue merges, and
applies its oldest closed entry (R59); an atomic and range.next are performed indivisibly at the port (R96, R99). A load of data with
an uncorrectable error ends its activation with cause 0 (R412). -/
def Obligations.OwnersServeRequests : Prop :=
  (∀ (s : State) (port : Nat) (e : WqEntry), (wqAt s port).find? (fun x => x.closed) = some e → mget s.redHeld port [] = [] →
    (dieAt s (port / 4)).failed = false →
    Now (exec (.writeQueueApply port) s) fun t => t.mem = applyEntry s.mem e ∧
      wqAt t port = (wqAt s port).filter fun x => x.line != e.line) ∧
  ∀ (s : State) (id : Nat) (f : Flight), flightById s id = some f →
    let q := curReq f
    let up := fun (dk : Nat) => (dieAt s dk).failed = false
    let part := fun (e : Word) => min q.n (pageLeft e (vaOff q.va))
    (∀ dk c, f.stage = .sent → f.pay.isAccess = true → f.pay ≠ .prf → f.gang = none → route s (srcDie f) q.va = some dk →
      pathTo s (srcDie f) dk = true → asdtFault s dk q = 0 → tlbLookup s dk q = some c →
      checkLeaf s dk c.leaf q = 0 → apertureFault s dk c.leaf q = 0 → (q.acc.writes = true → leafDI c.leaf = true) →
      undeclared s dk q (part c.leaf) = false → leafAPER c.leaf ≠ 1 →
      Now (exec (.translate id false false false) s) fun t => t.mem = s.mem ∧
        StageIs t id (.port (leafLoc dk c.leaf (vaOff q.va)) (part c.leaf) (leafAPER c.leaf) c.leaf)) ∧
    (∀ e loc lvl ps, s.flights.filter (fun g => g.stage == .walking) = [f] → f.stage = .walking → f.pay ≠ .prf → f.gang = none →
      up f.unit → asdtJudge s f.unit q = 0 → walk s f.unit q (wfld (asdtEntry s f.unit q.asid).1 12 40 * 4096) = .leaf e loc lvl ps → checkLeaf s f.unit e q = 0 →
      apertureFault s f.unit e q = 0 → q.acc.writes = false → undeclared s f.unit q (part e) = false → leafAPER e ≠ 1 →
      Now (exec (.pageWalkReturn id false) s) fun t => readW t.mem loc = readW s.mem loc ||| 0x100 ∧
        StageIs t id (.port (leafLoc f.unit e (vaOff q.va)) (part e) (leafAPER e) e)) ∧
    (∀ dk, f.stage = .sent → f.pay.isAccess = true → f.pay ≠ .prf → f.gang = none → route s (srcDie f) q.va = some dk →
      dk / 16 ≠ f.req.src.pkg →
      Now (exec (.peerUnreachable id) s) fun t => ∃ r, StageIs t id (.nack r) ∧ r.kind = 0x0E ∧ r.va = q.va % 2 ^ 57) ∧
    (∀ g sh l parts dk, f.stage = .sent → f.pay = .plinth g sh l parts → route s (srcDie f) (shAddr (nth sh 0)) = some dk →
      pathTo s (srcDie f) dk = false → Now (exec (.plinthCommand id) s) fun t => ∃ r, StageIs t id (.nack r) ∧ r.kind = 0x0E) ∧
    (∀ p pa n leaf, f.stage = .fwd p pa n leaf → pathTo s f.unit p = true → admits s p (sysPkg s (f.unit / 16)) pa n f.req.acc = true →
      pa + n ≤ localSize p → readsBad s f (hbm p pa) n = false → Performs s f (hbm p pa) n (exec (.forwardedRequest id) s)) ∧
    (∀ loc n ap leaf, f.stage = .port loc n ap leaf → f.gang = none → ap ≠ 5 → up (locDie loc) → readsBad s f loc n = false →
      Performs s f loc n (exec (.portAccess id) s)) ∧
    (∀ loc n leaf, f.stage = .port loc n 5 leaf → f.gang = none → windowVerdict s loc n f.req.acc.writes = 0 →
      up (locDie loc) → readsBad s f loc n = false → Performs s f loc n (exec (.windowAccess id) s)) ∧
    (∀ loc n ap leaf a, f.stage = .port loc n ap leaf → f.gang = none → ap ≠ 5 → up (locDie loc) → f.pay = .load →
      readsBad s f loc n = true → actByUid s f.uid = some a →
      exec (.portAccess id) s = .next (trapAt (dropFlight s f.id) a f.pc 0)) ∧
    (∀ c loc k ap leaf, f.gang = some c → f.late = none → f.stage = .port loc k ap leaf → up (dkOfCore c) → gangAdmits s c f.req.asid f.req.gen f.req.va f.req.n = true →
      ownedSlot s c f.req.va f.req.n = none →
      (f.pay = .load → f.got = [] → Now (exec (.gangCoreAccess id) s) fun t => t.mem = s.mem ∧
        StageIs t id (.reply (readBytes s.mem (pool c f.req.va) f.req.n))) ∧
      (∀ bs, f.pay = .store bs → Now (exec (.gangCoreAccess id) s) fun t => StageIs t id .ack ∧ ∀ x, readByte t.mem x =
        if pool c f.req.va ≤ x ∧ x < pool c f.req.va + bs.length then bs.getD (x - pool c f.req.va) 0 else readByte s.mem x)) ∧
    (∀ loc n ap leaf op size v, f.stage = .port loc n ap leaf → f.pay = .red op size v → up (actingDie f) →
      mget s.redHeld (wqKey loc) [] = [] →
      (∀ e ∈ wqAt s (wqKey loc), e.line ≠ loc / 64) → (wqAt s (wqKey loc)).length < wqCap (wqKey loc) →
      Now (exec (.reductionMerge id) s) fun t => StageIs t id .ack ∧ t.mem = s.mem ∧
        wqAt t (wqKey loc) = wqAt s (wqKey loc) ++ [⟨loc / 64, op, size, [(loc % 64, v)], false⟩]) ∧
    (∀ loc n ap leaf, f.stage = .port loc n ap leaf → up (actingDie f) →
      let m := (closeLine s loc).mem
      (∀ op k v, f.pay = .atom op k v → readsBad s f loc k = false → Now (exec (.portAtomic id) s) fun t => StageIs t id (.reply (toBytes k (readN m loc k))) ∧
        readN t.mem loc k = memOp op k (readN m loc k) v.toNat % 256 ^ k) ∧
      (∀ k e v, f.pay = .cas k e v → readsBad s f loc k = false → Now (exec (.portAtomic id) s) fun t => StageIs t id (.reply (toBytes k (readN m loc k))) ∧
        if readN m loc k = e.toNat then readN t.mem loc k = v.toNat % 256 ^ k else t.mem = m) ∧
      (f.pay = .range → readsBad s f loc 32 = false →
        let next := readN m loc 8
        let limit := readN m (loc + 8) 8
        let div := readN m (loc + 20) 4
        let minc := readN m (loc + 16) 4
        let n := min (limit - next) (max (max minc 1) ((limit - next + max div 1 - 1) / max div 1))
        Now (exec (.rangeNextPerform id) s) fun t =>
          if limit ≤ next then t.mem = m ∧ StageIs t id (.reply (toBytes 8 next ++ toBytes 8 0))
          else StageIs t id (.reply (toBytes 8 next ++ toBytes 8 n)) ∧ readN t.mem loc 8 = (next + n) % 2 ^ 64 ∧
            readN t.mem (loc + 24) 8 = (readN m (loc + 24) 8 + 1) % 2 ^ 64))

/-- What comes back to a core: a recoverable fault parks a resumable activation and its operation goes to the replay list (R187, R189);
a reply writes its register (R185), or is dropped and counted when no forwarding entry stands (R202); an acknowledgement ends its
operation (R186); a release sends what it carries (R73); a fetched line enters the routine store (R203); a signal changes its semaphore
(R232). -/
def Obligations.AnswersReachTheCore : Prop :=
  ∀ (s : State) (id : Nat) (f : Flight), flightById s id = some f →
    (∀ r a, f.stage = .nack r → f.pay ≠ .fetch → f.uid ≠ 0 → actByUid s f.uid = some a → recoverable r.kind = true →
      a.cls.res = true → onFault a = false →
      Now (exec (.faultNack id) s) fun t => StageIs t id .replay ∧ ∃ b, actAt t a.ctx = some b ∧ b.wait = .fault r.va false ∧
        b.parkedAt = s.now ∧ b.regs = a.regs) ∧
    (∀ bs a d k sx, f.stage = .reply bs → f.pay ≠ .fetch → f.uid = a.uid → Settled s a → reachesAct s a f = true →
      f.dst = .sreg d k sx → d ≠ 0 → d < 32 →
      Now (exec (.replyArrive id) s) fun t => Gone t id ∧ t.mem = s.mem ∧ ∃ b, actAt t a.ctx = some b ∧
        b.regs.pc = a.regs.pc ∧ ∀ i, sreg b i = if i = d then loadValue k sx (ofBytes bs) else sreg a i) ∧
    (∀ bs a, f.stage = .reply bs → f.pay ≠ .fetch → actByUid s f.uid = some a → reachesAct s a f = false → a.cls.res = true →
      onFault a = false → Now (exec (.replyDropped id) s) fun t =>
        (coreAt t (flightCore f)).dropped = (coreAt s (flightCore f)).dropped + 1) ∧
    (f.stage = .ack → Unlaned s id → Now (exec (.acknowledge id) s) fun t => Gone t id ∧ t.mem = s.mem ∧ t.cores = s.cores) ∧
    (∀ sc w, f.stage = .relWait sc → f.pay = .arrival w → f.uid = 0 ∨ releaseHeld s f sc = false →
      Now (exec (.releaseReady id) s) fun t => StageIs t id .sent ∧ t.mem = s.mem ∧ t.acts = s.acts) ∧
    (∀ cls off bs, f.dst = .line cls off → f.stage = .reply bs → Unlaned s id →
      Now (exec (.routineLineFill id) s) fun t => Gone t id ∧ t.mem = s.mem ∧
        (f.req.asid, f.req.gen, cls, off, bs) ∈ (coreAt t (flightCore f)).lines) ∧
    (∀ core k amount asid gen, f.stage = .sent → f.pay = .signal core k amount asid gen →
      overtakes s f core = false → coreNames (coreAt s core) asid gen = true → Unlaned s id →
      Now (exec (.signalApply id) s) fun t => Gone t id ∧ t.mem = s.mem ∧
        mget (coreAt t core).sems k 0 = max (-2147483648) (min 2147483647 (mget (coreAt s core).sems k 0 + amount)))

/-- Commands to a translation unit queue there, those of the broadcast block at all eight units, and the oldest completes once no
request that was translated with an entry it removes is outstanding (R32 to R34). PARTW and CORE_ASID (R38, R39, R46, R232, R292), and
the contexts of a core: one that is selected to issue and is not resident is filled from its context area into a free frame (R43,
R183); a drain, a fence and own.give complete once the accesses they wait for are complete (R48, R51, R76). Which free frame is taken
(log 41), and that a PARTW that does not fit is ignored before it is held (log 32), are the model's choices. -/
def Obligations.CoreAndContextSteps : Prop :=
  ((∀ (s : State) (unit o : Nat) (asid : BitVec 16) (nop : BitVec 4) (i : Instr), 4 < nop.toNat ∨ nop = 0 →
    (o, i) ∈ [(1, Instr.invPage unit asid), (2, .invAsid unit asid), (3, .invAll unit asid), (4, .invRefresh unit asid),
      (0, .invNop unit asid nop)] →
    (dieAt s unit).failed = false →
    (unit % 16 ≠ 9 → (mtuAt s unit).queue.length < 16 → Now (exec i s) fun t => t.mem = s.mem ∧
      (mtuAt t unit).queue = (mtuAt s unit).queue ++ [⟨o, asid.toNat, wfld (rawReg s unit (mtuBlk + 8)) 0 57, none, none⟩] ∧
      ∀ u, u ≠ unit → mtuAt t u = mtuAt s u) ∧
    (unit % 16 = 9 → (∀ d ∈ computeDies (unit / 16), (mtuAt s d).queue.length < 16) → Now (exec i s) fun t => t.mem = s.mem ∧
      ∀ d ∈ computeDies (unit / 16), (mtuAt t d).queue = (mtuAt s d).queue ++
        [⟨o, asid.toNat, wfld (rawReg s (ioDie (unit / 16)) (bcastBlk + 8)) 0 57, some s.nextId, none⟩])) ∧
  ∀ (s : State) (die : Nat) (c : InvCmd) (rest : List InvCmd), (mtuAt s die).queue = c :: rest → c.dem = none → (dieAt s die).failed = false →
    (∀ f ∈ s.flights, invHolds c die f = false) → Now (exec (.invCommandComplete die) s) fun t =>
      (mtuAt t die).queue = rest ∧ (mtuAt t die).done = (mtuAt s die).done + 1 ∧ t.mem = s.mem ∧
      (mtuAt t die).tlb = (mtuAt s die).tlb.filter fun e => !invHits c e.asid e.base e.size) ∧
  ((∀ (s : State) (core : Nat) (v : Word),
    (512 < 128 * wfld v 0 2 + 16 * wfld v 2 6 → exec (.partwWrite core v) s = .next s) ∧
    (128 * wfld v 0 2 + 16 * wfld v 2 6 ≤ 512 → (dieAt s (dkOfCore core)).failed = false →
      (actsOn s core = [] → Now (exec (.partwWrite core v) s) fun t => (coreAt t core).partw = v &&& 0xFF ∧
        (coreAt t core).frames = [] ∧ (coreAt t core).slots = [] ∧ (coreAt t core).claimed = []) ∧
      (actsOn s core ≠ [] → Now (exec (.partwWrite core v) s) fun t => (coreAt t core).partw = (coreAt s core).partw ∧
        (coreAt t core).partwHeld = some (v &&& 0xFF) ∧ t.acts = s.acts)) ∧
    ((coreAt s core).partwHeld = some v → actsOn s core = [] → Now (exec (.partwApply core) s) fun t =>
      ((coreAt s core).frameRegs = [] → t.mem = s.mem) ∧ (coreAt t core).frameRegs = [] ∧ (coreAt t core).partw = v ∧ (coreAt t core).partwHeld = none ∧ (coreAt t core).frames = [] ∧ (coreAt t core).slots = []) ∧
    ((dieAt s (dkOfCore core)).failed = false → Now (exec (.coreAsidWrite core v) s) fun t => (coreAt t core).asid = v &&& 0x1FFFFF ∧ (coreAt t core).sems = [] ∧
      (coreAt t core).hdrf = [] ∧ (coreAt t core).wtt = [] ∧ (coreAt t core).partw = (coreAt s core).partw ∧
      (coreAt t core).ovf = (coreAt s core).ovf + BitVec.ofNat 32 (heldArrivals (coreAt s core)))) ∧
  ∀ (s : State) (ctx : Nat) (a : Act), actAt s ctx = some a → a.ctx = ctx →
    (∀ k cls, a.frame = none → selectContext s (coreOf a) = some (ctxNum ctx, cls) → freeFrame (coreAt s (coreOf a)) = some k →
      Now (exec (.contextFill ctx) s) fun t => t.mem = s.mem ∧ frameAt (coreAt t (coreOf a)) k = some (ctxNum ctx) ∧
        actAt t ctx = some { a with frame := some k, filling := true }) ∧
    (∀ k, a.frame = some k → a.filling = true → a.mask = none → Now (exec (.contextFillDone ctx) s) fun t =>
      ∃ b, actAt t ctx = some b ∧ resident b = true ∧ b.regs.pc = readW s.mem (areaOf s ctx + 0x7C0) &&& ~~~1 ∧
        b.regs.fcr = readW s.mem (areaOf s ctx + 0x7D0) &&& 0x7F07 ∧
        (∀ i, i < 32 → b.regs.s.toList.getD i 0 = readW s.mem (areaOf s ctx + 8 * i)) ∧
        ∀ i, i < 16 → freg b i = readW s.mem (areaOf s ctx + 0x100 + 8 * i)) ∧
    (resident a = true →
      (∀ p, a.wait = .drain p → drainReady s a.uid p = true → Continues s a 4 (exec (.drainComplete ctx) s)) ∧
      (∀ sc, a.wait = .fence sc → fenceReady s a.uid sc = true → Continues s a 4 (exec (.fenceComplete ctx) s)) ∧
      (∀ slot, a.wait = .ownGive slot → poolHolds s a (4096 * slot) 4096 true = [] → engineOwned (coreAt s (coreOf a)) slot = false →
        let c := coreAt s (coreOf a)
        ChangesCore s a 4 { c with slots := mset c.slots slot (true, (mget c.slots slot (false, 0)).2) }
          (exec (.ownerFlip ctx) s) fun b => Goes a b 4)))

/-- The engines of a core and of a Plinth die: the copy engine and the matrix unit take the first command of their queues and end it
(R48, R371, R386), an operand moves from the incoming buffer into an empty latch (R375), a gather or convert is divided into three
parts (R58, R391). Where a latch and an incoming buffer lie in the address map is the model's choice (log 30). -/
def Obligations.EngineSteps : Prop :=
  (∀ (s : State) (core : Nat) (c : CopyCmd) (q : List CopyCmd) (f : Flight), (coreAt s core).copyQ = c :: q →
    flightById s c.id = some f → Unlaned s c.id →
    (c.active = false → f.stage = .sent → (∀ k ∈ c.slots, engineOwned (coreAt s core) k = true) →
      Now (exec (.copyCommandStart core) s) fun t => t.mem = s.mem ∧ (coreAt t core).copyQ = { c with active := true } :: q) ∧
    (∀ s', c.active = true → c.follow = none → 2 ≤ c.kind → performCommand f c s = .ok [] s' → (coreAt s' core).copyQ = c :: q →
      s'.lanes = s.lanes →
      Now (exec (.copyCommandComplete core) s) fun t => (coreAt t core).copyQ = q ∧ Gone t c.id)) ∧
  (∀ (s : State) (core : Nat) (m : MatrixCmd) (q : List MatrixCmd) (f : Flight) (a : Act), (coreAt s core).matQ = m :: q →
    flightById s m.id = some f → f.uid = m.uid → actByUid s m.uid = some a → Unlaned s m.id →
    (m.started = false → f.stage = .sent → Now (exec (.matrixCommandStart core) s) fun t => t.mem = s.mem ∧
      (coreAt t core).matQ = { m with started := true } :: q) ∧
    (m.started = true → isMma m.word = false → xSub m.word = 0 → m.chain = none → resident a = true →
      Now (exec (.matrixCommandComplete core) s) fun t => (coreAt t core).matQ = q ∧ Gone t m.id ∧ ∀ x, readByte t.mem x =
        if pool core (65536 * m.tile) ≤ x ∧ x < pool core (65536 * m.tile) + 65536 then 0 else readByte s.mem x)) ∧
  (∀ (s : State) (core k : Nat), (tileAt s core k).st = 1 → (tileAt s core k).inFull = true →
    Now (exec (.latchMoveIn core k) s) fun t =>
      tileAt t core k = { tileAt s core k with st := 2, ty := (tileAt s core k).inTy, inFull := false } ∧
      readBytes t.mem (latch core k 0) 16384 = readBytes s.mem (incoming core k 0) 16384) ∧
  ∀ (s : State) (id : Nat) (f : Flight) (g : Bool) (sh : List Word) (l : Nat) (parts : List Nat), flightById s id = some f →
    f.pay = .plinth g sh l parts →
    (∀ dk, f.stage = .sent → route s (dieKey f.req.src.pkg f.req.src.die) (shAddr (nth sh 0)) = some dk → pathTo s (srcDie f) dk = true →
      (dieAt s dk).failed = false → plinthLoad s dk g < 32 → plinthOvertakes s f dk = false → (∀ k ∈ plinthSlots s f sh g, engineOwned (coreAt s (flightCore f)) k = true) →
      Now (exec (.plinthCommand id) s) fun t => t.mem = s.mem ∧ ∃ h, flightById t id = some h ∧ h.stage = .waiting ∧ h.unit = dk ∧
        h.pay = .plinth g sh l [0, 1, 2]) ∧
    (∀ stack evs s', f.stage = .waiting → (dieAt s (actingDie f)).failed = false → stack ∈ parts → (∃ k ∈ parts, k ≠ stack) → plinthWaits s f stack = false → plinthPart f g sh l parts stack s = .ok evs s' →
      s'.flights = s.flights → Now (exec (.plinthPartComplete id stack) s) fun t => t.mem = s'.mem ∧
        ∃ h, flightById t id = some h ∧ h.stage = .waiting ∧ h.pay = .plinth g sh l (parts.filter fun k => k != stack))

/-- Free rings and demotion (R60, R61): a take pops the oldest frame or reads as all ones, a put pushes behind the newest; a step
clears AC of an accessed candidate and invalidates its page; once a page is copied, its leaf names the frame of the next tier. How the
engine steps and when it waits is the model's reading (log 28), and that a ring gives its frames in the order of their pushes from a
head that no register shows is its choice (log 56). -/
def Obligations.DemotionSteps : Prop :=
  ∀ (s : State) (eng : Nat), s.wqs = [] → (dieAt s (demDie eng)).failed = false →
    let d := demAt s eng
    let size := ringSize s eng
    ((d.count = 0 → Now (exec (.frTake eng) s) fun t => t = { s with hostRead := BitVec.allOnes 64 }) ∧
      (0 < d.count → 0 < size → Now (exec (.frTake eng) s) fun t => t.mem = s.mem ∧
        t.hostRead = readW s.mem (ringPlace s eng d.head) ∧
        demAt t eng = { d with head := (d.head + 1) % size, count := d.count - 1 })) ∧
    (∀ v : Word, d.count < size → Now (exec (.frPut eng v) s) fun t => demAt t eng = { d with count := d.count + 1 } ∧
      readW t.mem (ringPlace s eng (d.head + d.count)) = v) ∧
    (let n := wfld (demReg s eng 0x18) 0 24
      let c := (candAt s eng (d.next % n)).1
      let e := readW s.mem c.loc
      wbit (demReg s eng 0) 0 = true → d.stage = 0 → 0 < n → d.running = true ∨ d.count < wfld (demReg s eng 8) 0 32 →
      d.count < wfld (demReg s eng 8) 32 32 → (mtuAt s c.unit).queue.length < 16 → leafV e = true → leafL e = true →
      leafSZ e = 0 → ownTier eng c.unit e = true → wbit c.w1 26 = false → leafAC e = true →
      Now (exec (.demoteStep eng) s) fun t => readW t.mem c.loc = putBit e 8 false ∧ (demAt t eng).stage = 1 ∧
        (demAt t eng).cand = d.next % n ∧
        (mtuAt t c.unit).queue = (mtuAt s c.unit).queue ++ [⟨1, wfld c.w1 0 16, c.va, none, some eng⟩]) ∧
    (let c := (candAt s eng d.cand).1
      ∀ up aper, d.stage = 3 → nextTier eng = some (up, aper) → (mtuAt s c.unit).queue.length < 16 →
      wbit (demReg s eng 0) 1 = false → Now (exec (.demoteCopyDone eng) s) fun t =>
        readW t.mem c.loc = putFld (putFld d.leaf 9 3 aper) 17 36 d.frame.toNat ∧ (demAt t eng).stage = 4 ∧
        (mtuAt t c.unit).queue = (mtuAt s c.unit).queue ++ [⟨1, wfld c.w1 0 16, c.va, none, some eng⟩])

/-- Merge domains (R105 to R118): an open goes to the leader and from it to every member, each reserves a slot and answers, pushes are
added into staged rows, close markers seal the slots, the leader numbers and measures the group, the members apply it in order, the
commit is published, and an abort frees what was staged. The group's norm is the FP32 root of its sum of squares; a NaN or an infinity
discards it, a norm above the limit clips it by the factor limit / norm (R112), and so does an error in a staged row (R115). Which
outcome work in a domain has whose entries differ, of those that leave every other domain alone (log 39), that the leader's commits
reach its members' queues at once (log 38), and that an error in a staged row counts until the leader measures (log 45), are the
model's choices. -/
def Obligations.MergeSteps : Prop :=
  ∀ (s : State) (id : Nat) (f : Flight), InFlight s id f →
    (∀ g rows d, f.stage = .sent → f.pay = .mopen g rows d →
      let cal := calKey (srcDie f) 0
      (domainAgrees s (cal / 24) g.dom = false → Now (exec (.mergeOpenEntry id) s) fun t => t.mem = s.mem ∧
        ∀ c x, x.g.dom ≠ g.dom → (x ∈ (calAt t c).slots ↔ x ∈ (calAt s c).slots)) ∧
      (domainAgrees s (cal / 24) g.dom = true →
        (bimOn s cal = true → bimV s cal g.dom = true → bimAsid s cal g.dom = f.req.asid → Now (exec (.mergeOpenEntry id) s)
          fun t => StageIs t id .waiting ∧ Sent t (.mopenLead g rows (bimLeader s cal g.dom) id) ∧ t.mem = s.mem) ∧
        (bimOn s cal = false ∨ bimV s cal g.dom = false ∨ bimAsid s cal g.dom ≠ f.req.asid → Now (exec (.mergeOpenEntry id) s)
          fun t => ∃ r, StageIs t id (.nack r) ∧ r.kind = 0x15 ∧ r.acc = 8))) ∧
    (∀ g rows leader op, f.pay = .mopenLead g rows leader op → domainAgrees s (leader / 24) g.dom = true → calUp s leader = true →
      bimOn s leader = true → bimV s leader g.dom = true → Now (exec (.mergeOpenLeader id) s) fun t => Gone t id ∧
        ∀ c ∈ bimMembers s leader g.dom, Sent t (.mopenMem g rows c op)) ∧
    (∀ g rows cal op, f.pay = .mopenMem g rows cal op → domainAgrees s (cal / 24) g.dom = true → calUp s cal = true →
      earlierAt s cal g.dom id = false → openHeldAt s cal id = false → bimOn s cal = true → bimV s cal g.dom = true →
      let c := calAt s cal
      let n := min rows (rowsHomed s cal g.dom)
      (slotLike c g = none → c.slots.length < 1024 → n ≤ freeRows c → Now (exec (.caliperOpen id) s) fun t =>
        (calAt t cal).slots = c.slots ++ [⟨g, 1, n, [], false, false⟩] ∧ Sent t (.mopenAck g cal op)) ∧
      (∀ x, slotLike c g = some x → x.st = 1 → newerGen g.gen x.g.gen = true → n ≤ freeRows c + x.resv →
        Now (exec (.caliperOpen id) s) fun t => Sent t (.mopenAck g cal op) ∧
          (calAt t cal).slots = (c.slots.filter fun y => y.g != x.g) ++ [⟨g, 1, n, [], true, false⟩])) ∧
    (∀ g cal op o a x, f.pay = .mopenAck g cal op → op ≠ id → flightById s op = some o → o.uid = a.uid → Settled s a →
      a.group = some x → x.g = g → a.closing = [] → o.stage = .waiting → (∀ m ∈ x.members, m ∈ x.acks ++ [cal]) →
      Now (exec (.mergeOpenAck id) s) fun t => Gone t op ∧ Has t a.ctx fun b =>
        b.group = some { x with acks := x.acks ++ [cal], opened := true }) ∧
    (∀ loc bs g, portLoc f = some loc → f.pay = .push bs g → domainAgrees s (homeCal loc / 24) g.dom = true →
      calUp s (homeCal loc) = true → pushKind s f loc g = 0 → Now (exec (.caliperPush id) s) fun t => StageIs t id .ack ∧
        ∃ x, slotOf (calAt s (homeCal loc)) g = some x ∧ slotOf (calAt t (homeCal loc)) g =
          some { x with rows := mset x.rows loc (stageRow (mget x.rows loc zeroRow) (rowLanes bs)) }) ∧
    (∀ g a o, f.pay = .mclose g → f.uid = a.uid → Settled s a → groupHeld s f g = some o → o.opened = true →
      pushesLeft s f g = false → Now (exec (.closeMarkerSend id) s) fun t => (∀ c ∈ o.members, Sent t (.mcloseMem g c)) ∧
        Has t a.ctx fun b => b.committed = true ∧ b.regs = a.regs) ∧
    (∀ g cal x, f.pay = .mcloseMem g cal → calUp s cal = true → slotOf (calAt s cal) g = some x →
      Now (exec (.caliperClose id) s) fun t => slotOf (calAt t cal) g = some { x with st := 2 } ∧
        Sent t (.mpart g (bimLeader s cal g.dom) cal (BitVec.ofNat 64 (partialSum x)) x.rows.length x.replayed)) ∧
    (∀ g leader cal sum rows rep, f.pay = .mpart g leader cal sum rows rep → calUp s leader = true →
      let c := calAt s leader
      let parts := insertPart (cal, sum, rows, rep) ((c.leads.find? fun l => l.g = g).elim [] fun l => l.parts)
      let n := mget c.seqs g.dom 0 + 1
      ((∃ m ∈ bimMembers s leader g.dom, ∀ p ∈ parts, p.1 ≠ m) → Now (exec (.leaderPartial id) s) fun t =>
        (⟨g, parts⟩ : MLead) ∈ (calAt t leader).leads ∧ (calAt t leader).seqs = c.seqs) ∧
      ((∀ m ∈ bimMembers s leader g.dom, ∃ p ∈ parts, p.1 = m) → Now (exec (.leaderPartial id) s) fun t =>
        let total := parts.foldl (fun v p => f64Add (valOf 10 v) (valOf 10 p.2.1.toNat)) 0
        let norm := (convert 9 true (fSqrt (valOf 10 total)).1 0 true 0).1
        let limit := wfld (bimReg s leader g.dom 8) 0 32
        let bad := (bimMembers s leader g.dom).any fun m => (slotOf (calAt s m) g).any fun x => x.bad
        let discard := bad || isNanBits 9 norm || norm == 0x7F800000
        let clip := !discard && fLt 9 limit norm
        let factor : BitVec 32 := if discard then 0
          else if clip then BitVec.ofNat 32 (convert 9 true (fDiv (valOf 9 limit) (valOf 9 norm)).1 0 true 0).1 else 0x3F800000
        mget (calAt t leader).seqs g.dom 0 = n ∧
        (∃ l ∈ (calAt t leader).logs, l.dom = g.dom ∧ l.seq = n ∧ l.g = g ∧ l.norm = BitVec.ofNat 32 norm ∧ l.factor = factor ∧
          l.clipped = clip ∧ l.discard = discard) ∧
        ∀ m ∈ bimMembers s leader g.dom, ∃ k ∈ (calAt t m).commits, k.dom = g.dom ∧ k.seq = n ∧ k.g = g ∧ k.factor = factor ∧
          k.discard = discard)) ∧
    (∀ dom n leader cal l, f.pay = .mack dom n leader cal → calUp s leader = true → (calAt s leader).logs = [l] → l.dom = dom →
      l.seq = n → (∀ m ∈ bimMembers s leader dom, m ∈ l.acks ++ [cal]) → s.wqs = [] →
      Now (exec (.leaderCommitAck id) s) fun t => (calAt t leader).logs = [] ∧
        readN t.mem (hbm (dkOfCal leader) (wfld (bimReg s leader dom 0x20) 3 49 * 8)) 8 = n % 2 ^ 64) ∧
    (∀ g d, f.pay = .mabort g d → openComing s g = false → Now (exec (.abortMarkerEntry id) s) fun t => Gone t id ∧
      Sent t (.mabortLead g (bimLeader s (calKey (srcDie f) 0) g.dom))) ∧
    (∀ g leader, f.pay = .mabortLead g leader → openComing s g = false → calUp s leader = true →
      Now (exec (.abortMarkerLeader id) s) fun t => Gone t id ∧ ∀ c ∈ bimMembers s leader g.dom, Sent t (.mabortMem g c)) ∧
    (∀ g cal x, f.pay = .mabortMem g cal → calUp s cal = true → earlierAt s cal g.dom id = false →
      slotOf (calAt s cal) g = some x → x.st = 1 → Now (exec (.caliperAbort id) s) fun t => Gone t id ∧
        slotOf (calAt t cal) g = none)

/-- The next commit of a domain is applied at a Caliper: a discarded one writes nothing, another writes one fused multiply-add for each
lane (R113); and the registers of a Caliper: BIM_DISC frees a slot, the fields of a valid entry are locked, a limit is no NaN and not
negative (R118 to R120). -/
def Obligations.CaliperRegistersAndCommits : Prop :=
  (∀ (s : State) (cal dom : Nat) (k : MCommit), calUp s cal = true →
    let c := calAt s cal
    let n := mget c.applied dom 0 + 1
    c.commits.find? (fun x => x.dom = dom && x.seq = n) = some k → Now (exec (.caliperApply cal dom) s) fun t =>
      mget (calAt t cal).applied dom 0 = n ∧ slotOf (calAt t cal) k.g = none ∧ Sent t (.mack dom n (bimLeader s cal dom) cal) ∧
      (k.discard = true → t.mem = s.mem) ∧
      ∀ x loc row, slotOf c k.g = some x → x.rows = [(loc, row)] → row.length = 128 → k.discard = false → s.eccBad = [] →
        s.wqs = [] → readBytes t.mem loc 512 = ((rowLanes (readBytes s.mem loc 512)).zip row).flatMap fun p =>
          toBytes 4 (portFma 9 p.1.toNat k.factor.toNat p.2.toNat)) ∧
  ∀ (s : State) (cal dom : Nat) (v : Word), calUp s cal = true →
    (∀ x, slotOf (calAt s cal) ⟨wfld v 48 4, wfld v 0 16, wfld v 16 24, wfld v 40 8⟩ = some x → x.st = 1 →
      Now (exec (.bimDisc cal v) s) fun t => t.mem = s.mem ∧
        slotOf (calAt t cal) ⟨wfld v 48 4, wfld v 0 16, wfld v 16 24, wfld v 40 8⟩ = none) ∧
    (dom < 16 →
      (bimV s cal dom = true → wfld (bimReg s cal dom 0) 24 29 ≠ wfld v 24 29 → exec (.bimCtlWrite cal dom 0 v) s = .next s) ∧
      (bimV s cal dom = false → wbit v 63 = true → Now (exec (.bimCtlWrite cal dom 0 v) s) fun t => bimV t cal dom = true ∧
        bimAsid t cal dom = wfld v 0 16 ∧ mget (calAt t cal).seqs dom 0 = 0 ∧ mget (calAt t cal).applied dom 0 = 0) ∧
      (isNanBits 9 (wfld v 0 32) = true ∨ 2 ^ 31 ≤ wfld v 0 32 → exec (.bimLimWrite cal dom v) s = .next s) ∧
      (isNanBits 9 (wfld v 0 32) = false → wfld v 0 32 < 2 ^ 31 → Now (exec (.bimLimWrite cal dom v) s) fun t =>
        wfld (bimReg t cal dom 8) 0 32 = wfld v 0 32 ∧ t.mem = s.mem))

/-- Order-first transactions: a submission enters the batch of its beat and its id is written (R123), batches are exchanged and merged
when all are held (R126, R127, R138), grants reach the home (R130), the end of a body releases its entries at every die (R132, R137), a
transaction that runs past its limit ends (R134), and OSQ_CTL waits for a beat boundary (R125, R139). That a sequencer with EN clear
and a missing batch stalls as one with EN set, and that a write that sets EN waits for a boundary of the beats it starts, are the
model's choice (log 57). -/
def Obligations.TransactionSteps : Prop :=
  (∀ (s : State) (id : Nat) (f : Flight), InFlight s id f →
    (∀ dk desc tiles a d, f.stage = .sent → f.pay = .oftSub dk desc tiles → f.dst = .oftSub d → d ≠ 0 → d < 32 → f.uid = a.uid →
      Settled s a → osqOn s dk = true →
      let o := osqAt s dk
      let tid := tidOf s dk o.beat o.batch.length
      o.stall = false → o.batch.length < 256 → o.inflight.length < 4096 → Now (exec (.osqSubmit id) s) fun t => Gone t id ∧
        (osqAt t dk).batch = o.batch ++ [⟨tid, desc, tiles, f.req.asid, f.req.gen⟩] ∧
        (osqAt t dk).inflight = o.inflight ++ [tid] ∧
        Has t a.ctx fun b => b.wait = .run ∧ b.decl = [] ∧ sreg b d = tid) ∧
    (∀ dk beat sender subs, f.pay = .batch dk beat sender subs → (∃ m ∈ domainDies s dk, seqNumber s m = sender) →
      (osqAt s dk).merged ≤ beat → Now (exec (.batchReceive id) s) fun t => Gone t id ∧
        (osqAt t dk).have_ = (osqAt s dk).have_ ++ [(beat, sender, subs)]) ∧
    (∀ dk tid h, f.pay = .grant dk tid → (osqAt s dk).homes.find? (fun x => x.sub.tid = tid) = some h →
      Now (exec (.homeGrant id) s) fun t => ∃ h', (osqAt t dk).homes.find? (fun x => x.sub.tid = tid) = some h' ∧
        h'.sub = h.sub ∧ h'.got = h.got + 1 ∧ (h'.placed = true ↔ h.placed = true ∨ h.got + 1 = h.sub.tiles.length)) ∧
    (∀ tid dies home, f.pay = .txnEnd tid dies home → txnQuiet s f = true → Now (exec (.txnReleaseSend id) s) fun t =>
      Gone t id ∧ ∀ d ∈ dies, Sent t (.release d tid home)) ∧
    (∀ dk tid home, f.pay = .release dk tid home → (∀ e ∈ (osqAt s dk).pend, e.tid ≠ tid) → Now (exec (.sliceRelease id) s)
      fun t => t.mem = s.mem ∧ ∀ e ∈ (osqAt t dk).queue, e.tid ≠ tid)) ∧
  (∀ (s : State) (ctx : Nat) (a : Act), actAt s ctx = some a → a.txn ≠ none → 2 ^ 20 < txnRun s a →
    exec (.txnTimeLimit ctx) s = .next (trap (raiseFault s (dieOf a) (reqOf a .load 0 0) 0x17 0 0 0).2 a 0)) ∧
  ∀ (s : State) (dk : Nat),
    let o := osqAt s dk
    let me := seqNumber s dk
    let missing := ∃ m ∈ domainDies s dk, ∀ h ∈ o.have_, h.1 = o.merged → h.2.1 ≠ seqNumber s m
    ((o.beat + 1) * beatLen s dk ≤ s.now → (dieAt s dk).failed = false → osqOn s dk = true → o.ctlPend = none →
      Now (exec (.beatEnd dk) s) fun t => (osqAt t dk).beat = o.beat + 1 ∧ (osqAt t dk).batch = [] ∧
        (osqAt t dk).have_ = o.have_ ++ [(o.beat, me, o.batch)] ∧
        ∀ m ∈ domainDies s dk, m ≠ dk → Sent t (.batch m o.beat me o.batch)) ∧
    (o.stall = false → o.merged < o.beat → (∃ h ∈ o.have_, h.1 = o.merged) → ¬missing → Now (exec (.batchMerge dk) s) fun t =>
      (osqAt t dk).merged = o.merged + 1 ∧ (osqAt t dk).have_ = (o.have_.filter fun h => h.1 != o.merged)) ∧
    (o.stall = false → osqOn s dk = true ∨ o.merged < o.endBeat → o.merged + 8 < o.beat → missing → Now (exec (.osqStall dk) s) fun t =>
      (osqAt t dk).stall = true ∧ (osqAt t dk).have_ = o.have_) ∧
    ∀ v : Word, dk % 16 < 8 → (dieAt s dk).failed = false →
      (osqOn s dk = true → exec (.osqCtlWrite dk 8 v) s = .next s) ∧
      (osqOn s dk = false → oneMaskPart s (dk / 16) (wfld v 16 8) = true → Now (exec (.osqCtlWrite dk 0 v) s) fun t =>
        (osqAt t dk).ctlPend = some v ∧ t.regs = s.regs ∧ s.now < (osqAt t dk).ctlAt ∧
        (osqAt t dk).ctlAt % (if wbit v 63 then beatOf v else beatLen s dk) = 0)

/-- Tasks and gangs: a core takes a queued task and its activation begins as the class and the descriptor say (R145, R150, R181), a
gang whose cores are all reserved begins with one member on each (R155), is dropped when its class is invalid (R144), or first reads
the descriptor of a SPLIT class (R157); a done whose paths are complete ends its activation (R151), and a gang sends one arrival
(R158). -/
def Obligations.LaunchSteps : Prop :=
  (∀ (s : State) (clus core : Nat) (q : QTask), fencedClus s clus = false → (clusAt s clus).queue = [q] → q.wait = none →
    q.gang = none → isGang q.task = false → core ∈ rectCores (clus / 16) (4 * (clus % 16 / 4)) (4 * (clus % 4)) 4 4 →
    canTake s core q.task = true → (∀ c ∈ rectCores (clus / 16) (4 * (clus % 16 / 4)) (4 * (clus % 4)) 4 4, c ≠ core →
      canTake s c q.task = false) →
    let e := (classAt s core q.task.asid (tClass q.task)).1
    taskBad e q.task (fromSub q.task) = false → e.split = false → Now (exec (.taskTake clus) s) fun t =>
      (clusAt t clus).queue = [] ∧ ∃ ctx, ctx / 8 = core ∧ Has t ctx fun b => b.task = q.task ∧ b.cls = e ∧ b.wait = .run ∧
        b.tx = 0xFFFFFFFF ∧ b.ty = 0xFFFFFFFF ∧ b.regs.pc = BitVec.ofNat 64 (e.img + e.entry) &&& ~~~1 ∧
        (∀ i, 1 ≤ i → i ≤ 6 → sreg b i = nth q.task.words (i + 1)) ∧ sreg b 7 = nth q.task.words 1 ∧
        sreg b 8 = nth q.task.words 0) ∧
  (∀ (s : State) (gid : Nat) (g : Gang), gangById s gid = some g →
    let bad := ∃ c ∈ gangCores g, taskBad (classAt s c g.task.asid (tClass g.task)).1 g.task (fromSub g.task) = true
    let split := (classAt s ((gangCores g).headD 0) g.task.asid (tClass g.task)).1.split
    (g.launched = false → g.reading = false → (∀ c ∈ gangCores g, c ∈ g.reserved) → (∀ k ∈ g.clus, fencedClus s k = false) →
      (bad → Now (exec (.gangLaunch gid) s) fun t => gangById t gid = none) ∧
      (¬bad → split = true → g.extents = none → Now (exec (.gangLaunch gid) s) fun t =>
        gangById t gid = some { g with reading := true } ∧ t.acts = s.acts) ∧
      (¬bad → split = false ∨ g.extents ≠ none → (launchGang s g).isSome = true → g.h ≠ 1 ∨ g.w ≠ 1 →
        Now (exec (.gangLaunch gid) s) fun t => ∃ g', gangById t gid = some g' ∧ g'.launched = true ∧
          g'.members.length = (gangCores g).length)) ∧
    (∀ bs s', g.reading = true → readNow s (agentReq (dieKey (g.die / 8) (g.die % 8)) 8 g.task.asid g.task.gen .load
        (nth g.task.words 2).toNat 64) = (.ok bs, s') → s'.gangs = s.gangs → s'.held = s.held →
      descMalformed (dOfBytes bs) = false →
      Now (exec (.splitDescriptorRead gid) s) fun t =>
        gangById t gid = some { g with reading := false, extents := some (dSize (dOfBytes bs) 0, dSize (dOfBytes bs) 1) }) ∧
    (g.launched = true → g.members = [] → g.dead = false → (nth g.task.words 1).getLsbD 23 = true →
      Now (exec (.gangJoin gid) s) fun t => gangById t gid = none ∧
        Sent t (.arrival ⟨nth g.task.words 1 &&& 0xFFFFFF, 1, g.task.asid, g.task.gen⟩))) ∧
  ∀ (s : State) (ctx : Nat) (a : Act), actAt s ctx = some a → a.ctx = ctx → a.wait = .done → doneReady s a = true → a.txn = none →
    a.gang = none → Now (exec (.doneComplete ctx) s) fun t => actAt t ctx = none ∧ t.mem = s.mem ∧
      (clusAt t (clusOfCore (coreOf a))).sum = (clusAt s (clusOfCore (coreOf a))).sum - a.task.cost ∧
      ((nth a.task.words 1).getLsbD 23 = true → Sent t (.arrival ⟨nth a.task.words 1, 1, a.task.asid, a.task.gen⟩))

/-- Arrivals and waiting-task entries (R160 to R163), class invalidation (R148) and the launch unit (R405): an arrival counts an entry
down, a firing reads its control word and then its template, a faulted one is retried or disarmed, and a written descriptor becomes a
task placed from cluster 0 of the die. -/
def Obligations.EntryAndLaunchUnitSteps : Prop :=
  (∀ (s : State) (id : Nat) (f : Flight) (m : Arrive) (core : Nat), flightById s id = some f → f.stage = .sent →
    f.pay = .arrival m → joinCore s (srcDie f) m.target = some core → overtakes s f core = false → Unlaned s id →
    let e := wttAt (coreAt s core) (wfld m.target 0 6)
    let after := fun (t : State) => wttAt (coreAt t core) (wfld m.target 0 6)
    (e.st = .armed → m.asid = e.asid → m.gen = e.gen →
      (m.amount < e.count → Now (exec (.arrival id) s) fun t => Gone t id ∧ after t = { e with count := e.count - m.amount }) ∧
      (e.count ≤ m.amount → Now (exec (.arrival id) s) fun t => Gone t id ∧ (after t).st = .firing ∧ (after t).count = 0 ∧
        (coreAt t core).ovf = (coreAt s core).ovf + BitVec.ofNat 32 (m.amount - e.count))) ∧
    (e.st = .firing → Now (exec (.arrival id) s) fun t => after t = { e with held := e.held ++ [m] }) ∧
    (e.st = .disarmed → Now (exec (.arrival id) s) fun t => after t = e ∧
      (coreAt t core).ovf = (coreAt s core).ovf + BitVec.ofNat 32 m.amount)) ∧
  (∀ (s : State) (core ent : Nat) (bs : List Byte) (s' : State),
    let e := wttAt (coreAt s core) ent
    (e.st = .firing → e.step = 0 → e.kind = 1 → readNow s (wttReq core e .load e.ctlw 8) = (.ok bs, s') → s'.cores = s.cores →
      s'.held = s.held →
      (ofBytes bs ≠ 0 → Now (exec (.wttFireRead core ent) s) fun t => t.mem = s'.mem ∧
        (wttAt (coreAt t core) ent).st = .firing ∧ (wttAt (coreAt t core) ent).step = 1) ∧
      (ofBytes bs = 0 → e.held = [] → Now (exec (.wttFireRead core ent) s) fun t => t.mem = s'.mem ∧
        (wttAt (coreAt t core) ent).st = .disarmed)) ∧
    (∀ v : Word, e.st = .fault → wfld v 0 6 = ent → (dieAt s (dkOfCore core)).failed = false →
      (wbit v 6 = false → Now (exec (.wttRetry core v) s) fun t => wttAt (coreAt t core) ent = { e with st := .firing }) ∧
      (wbit v 6 = true → e.held = [] → Now (exec (.wttRetry core v) s) fun t =>
        wttAt (coreAt t core) ent = { e with st := .disarmed }))) ∧
  ∀ (s : State) (die : Nat) (v : Word),
    let d := dieAt s die
    (d.failed = false → Now (exec (.clsInv die v) s) fun t => (dieAt t die).clsQ = d.clsQ ++ [v &&& 0x7FFFFFF] ∧ t.cores = s.cores) ∧
    (∀ r, d.clsQ = v :: r → Now (exec (.clsInvComplete die) s) fun t => (dieAt t die).clsQ = r ∧
      (dieAt t die).clsDone = d.clsDone + 1 ∧ ∀ core, dkOfCore core = die →
        (∀ e ∈ (coreAt t core).classes, e.1 / 1024 = wfld v 0 16 → wbit v 26 = false ∧ e.1 % 1024 ≠ wfld v 16 10) ∧
        ∀ l ∈ (coreAt t core).lines, l.1 = wfld v 0 16 → wbit v 26 = false ∧ l.2.2.1 ≠ wfld v 16 10) ∧
    (die % 16 < 8 → d.failed = false → Now (exec (.luLaunch die v) s) fun t => (dieAt t die).launchQ = d.launchQ ++
      [(wfld v 0 57, wfld (rawReg s die (luBlk + 0x10)) 0 16, wfld (rawReg s die (luBlk + 0x10)) 16 4)]) ∧
    ∀ va asid gen r bs s', d.launchQ = (va, asid, gen) :: r →
      readNow (setDie s die { d with launchQ := r }) (agentReq die 8 asid gen .load va 64) = (.ok bs, s') → s'.held = s.held →
      let core := coreKey (die / 16) (die % 16) 0
      let ws := wordsOf 8 bs
      let c := classAt s' core asid (wfld (nth ws 0) 0 10)
      let task := mkTask ws asid gen (clusOfCore core) false 0 c.1.cost
      (taskBad c.1 task false = false → exec (.launchDescriptorRead die) s = .next (placeTask c.2 (clusOfCore core) task)) ∧
      (taskBad c.1 task false = true → exec (.launchDescriptorRead die) s = .next (launchFault c.2 die (nth ws 0) 0 none))

/-- The Relief (R169, R170, R176 to R178): a tick gives every router of a package its pressure P, min(254, SUM) or 255 when fenced, and
its distance D: 63 when fenced, 0 below THETA, else the least of 63 and, over its reachable links, the value published before and the
weight. A link whose peer has been silent for 4 ticks is marked, a fence puts the queued tasks of its clusters in transit, and a die
that fails answers no more. Where the spec leaves the walk open, the choices are those of log 40; that a panel link has its peer's
value of the tick before is log 70's. -/
def Obligations.ReliefSteps : Prop :=
  (∀ (s : State) (pkg : Nat), 64 * (mget s.ticks pkg 0 + 1) ≤ s.now → Now (exec (.reliefTick pkg) s) fun t =>
    mget t.ticks pkg 0 = mget s.ticks pkg 0 + 1 ∧ ∀ k ∈ liveClusters s pkg,
      let p := (clusAt t k).press
      let d := (clusAt t k).dist
      let far := fun (l : Link) => (published s k l).1 + l.weight
      p = (if fencedClus s k then 255 else min 254 (clusAt s k).sum) ∧ (p = 255 → d = 63) ∧ (p < 255 → p < theta s k → d = 0) ∧
      (p < 255 → theta s k ≤ p → d ≤ 63 ∧ (∀ l ∈ linksOf s k, linkUp s k l = true → d ≤ far l) ∧
        (d = 63 ∨ ∃ l ∈ linksOf s k, linkUp s k l = true ∧ d = far l))) ∧
  (∀ (s : State) (k port : Nat), (∃ l ∈ linksOf s k, l.port = port) → port ∉ (clusAt s k).silent →
    4 ≤ mget (clusAt s k).missed port 0 → Now (exec (.linkSilence k port) s) fun t => clusAt t k = { clusAt s k with silent := (clusAt s k).silent ++ [port] }) ∧
  ∀ (s : State) (die : Nat) (v : Word), die % 16 < 8 → (dieAt s die).failed = false →
    (Now (exec (.rlfFenceWrite die v) s) fun t => ∀ c, c < 16 →
      let k := (die / 16 * 8 + die % 16) * 16 + c
      rlfFenced t k = wbit v c ∧ (wbit v c = true → rlfFenced s k = false → ∀ q ∈ (clusAt s k).queue, q.wait = none →
        bigGang q.task = false → ∃ x ∈ (clusAt t k).present, x.task = q.task ∧ x.budget = 63 ∧ x.hops = 0)) ∧
    Now (exec (.dieFailure die) s) fun t => (dieAt t die).failed = true ∧ (dieAt t die).failedAt = s.now ∧ t.acts = s.acts

/-- Fault release, events and exception statistics (R188, R191, R194, R195, R204, R226): FLT_PAGE releases tasks, activations and marks
of its region, FLT_CTX resumes or terminates a parked activation, an event is stored at TAIL, EVO_STAT.CLR clears LOST, and a window
that ends or a write of XS_CFG sets the count to 0. The words of event records that the spec leaves open are the model's choice (log
17). -/
def Obligations.ReleaseEventAndCountSteps : Prop :=
  (∀ (s : State) (die : Nat) (v : Word), (dieAt s die).failed = false → Now (exec (.fltPage die v) s) fun t =>
    (∀ m ∈ (dieAt t die).notLoaded, releases v m.1 m.2.2.2 = false) ∧
    (∀ k, rlfFenced s k = false → ∀ q ∈ (clusAt t k).queue, endsWait die v q = false) ∧
    ∀ a va r, Sole s a → a.wait = .fault va r → dieOf a = die → releases v a.task.asid va = true → Has t a.ctx (Released va)) ∧
  (∀ (s : State) (die : Nat) (v : Word) (a : Act) (va : Nat) (r : Bool), Sole s a → die % 16 < 8 →
    a.ctx = coreKey (die / 16) (die % 16) (wfld v 8 8) * 8 + wfld v 0 3 → a.wait = .fault va r → (dieAt s die).failed = false →
    (Now (exec (.fltCtxResume die v) s) fun t => t.mem = s.mem ∧ Has t a.ctx (Released va)) ∧
    exec (.fltCtxTerminate die v) s = .next (trap s a 0) ∧ exec (.fltCtxNop die v) s = .next s) ∧
  (∀ (s : State) (die : Nat) (e : Event) (r : List Event), (dieAt s die).buf = e :: r → evqFull s (die / 16) = false → s.wqs = [] →
    let pkg := die / 16
    let tail := (pkgAt s pkg).evqTail
    Now (exec (.eventBufferSend die) s) fun t => (dieAt t die).buf = r ∧ (pkgAt t pkg).evqTail = tail + 1 ∧
      readBytes t.mem (ddr pkg (wfld (evqReg s pkg 0) 6 46 * 64 + 64 * (tail.toNat % evqSize s pkg))) 64 = bytesOf (e.words 0)) ∧
  (∀ (s : State) (pkg die : Nat) (v : Word),
    (Now (exec (.evqHeadWrite pkg v) s) fun t => wfld (evqReg t pkg 0x10) 0 32 = wfld v 0 32 ∧
      (pkgAt t pkg).evqTail = (pkgAt s pkg).evqTail ∧ t.mem = s.mem) ∧
    ((dieAt s die).failed = false → Now (exec (.evoStatClr die) s) fun t => (dieAt t die).lost = 0 ∧ (dieAt t die).buf = (dieAt s die).buf)) ∧
  ∀ (s : State) (core k : Nat) (v : Word), k < 7 →
    (xsWindow s core k ≠ 0 → mget (coreAt s core).xsWin k 0 ≠ xsNow s core k → Now (exec (.xsWindowEnd core k) s) fun t =>
      xsCount t core k = 0 ∧ xsTaken t core k = false ∧ t.regs = s.regs) ∧
    ((dieAt s (dkOfCore core)).failed = false → Now (exec (.xsCfgWrite core k v) s) fun t => xsCount t core k = 0 ∧ xsWindow t core k = wfld v 32 32 ∧
      xsThresh t core k = wfld v 0 32 ∧ t.mem = s.mem)

/-- Pre-emption and migration (R197 to R202): a request is recorded, a stopped activation goes to a suspend slot, one that does not
stop in time is aborted and its task queued again, a suspend slot is resumed, refused or discarded, and a move is queued, sent and
installed. Which suspend slot is taken (log 41) and what MIG_CMD accepts (log 27) are the model's choice and reading. -/
def Obligations.PreemptionAndMigrationSteps : Prop :=
  (∀ (s : State) (core : Nat) (bits : BitVec 8), (dieAt s (dkOfCore core)).failed = false →
    (wfld (rawReg s (dkOfCore core) (coreBlk (numOfCore core) + 0x20)) 22 30 = 0 → exec (.preCtlReq core bits) s = .next s) ∧
    (wfld (rawReg s (dkOfCore core) (coreBlk (numOfCore core) + 0x20)) 22 30 ≠ 0 → NothingHeld s →
      Now (exec (.preCtlReq core bits) s) fun t =>
      ∀ h a, h < 8 → bits.getLsbD h = true → a.ctx = core * 8 + h → Sole s a → (coreAt t core).req.getLsbD h = true ∧
        Has t a.ctx fun b => b.preempt = some (a.preempt.getD s.now) ∧ b.regs = a.regs) ∧
    (Now (exec (.preCtlRes core bits) s) fun t => ∀ j x, j < 8 → bits.getLsbD j = true →
      Sys2Proof.Machine.mfind (coreAt s core).susp j = some x →
      Sys2Proof.Machine.mfind (coreAt t core).susp j = some x ∧
      (resumeRefused (coreAt s core) x = false → (coreAt t core).res.getLsbD j = true) ∧
      (resumeRefused (coreAt s core) x = true → (coreAt t core).preErr = true ∧ (coreAt t core).res.getLsbD j = false)) ∧
    (Now (exec (.preCtlDisc core bits) s) fun t => ∀ j, j < 8 → bits.getLsbD j = true →
      Sys2Proof.Machine.mfind (coreAt t core).susp j = none) ∧
    Now (exec (.forwardExpire core) s) fun t => (coreAt t core).forwards = (coreAt s core).forwards.filter fun w => s.now ≤ w.till) ∧
  (∀ (s : State) (ctx : Nat) (a : Act), actAt s ctx = some a → a.ctx = ctx →
    (∀ j, a.stopped = true → a.move = none → slotsEmpty s a = true → freeSusp (coreAt s (coreOf a)) = some j → NothingHeld s → Now (exec (.suspend ctx) s) fun t =>
      actAt t ctx = none ∧ ∃ x, Sys2Proof.Machine.mfind (coreAt t (coreOf a)).susp j = some x ∧ x.act.task = a.task ∧
        x.act.regs = a.regs ∧ x.partw = (coreAt s (coreOf a)).partw ∧ x.rows = actRows a) ∧
    (∀ since, a.preempt = some since → since + 65536 ≤ s.now → a.stopped = false → a.cls.res = false → a.txn = none → a.gang = none →
      Now (exec (.preemptBound ctx) s) fun t => actAt t ctx = none ∧ ∃ q ∈ (clusAt t (clusOfCore (coreOf a))).queue,
        q.task = { a.task with rc := (a.task.rc + 1) % 256, txn := none } ∧ q.wait = none ∧ q.seq = a.seq) ∧
    (∀ toCore, a.move = some toCore → moveReady s a = true → a.filling = false → Now (exec (.migrationSend ctx) s) fun t =>
      Sent t (.migrate a.uid toCore) ∧ (⟨a.uid, s.now + 4096⟩ : Forward) ∈ (coreAt t (coreOf a)).forwards ∧
      Has t ctx fun b => b.frame = none ∧ b.regs = a.regs)) ∧
  (∀ (s : State) (core slot ctx : Nat) (x : Suspended), Sys2Proof.Machine.mfind (coreAt s core).susp slot = some x →
    (coreAt s core).res.getLsbD slot = true → slot < 8 → ctx / 8 = core → actAt s ctx = none →
    (resumeRefused (coreAt s core) x = true → Now (exec (.suspendResume core slot ctx) s) fun t => (coreAt t core).preErr = true ∧
      Sys2Proof.Machine.mfind (coreAt t core).susp slot = some x) ∧
    (resumeRefused (coreAt s core) x = false → rowsFree s core x = true → Now (exec (.suspendResume core slot ctx) s) fun t =>
      Sys2Proof.Machine.mfind (coreAt t core).susp slot = none ∧ (coreAt t core).res.getLsbD slot = false ∧
      Has t ctx fun b => b.task = x.act.task ∧ b.uid = x.act.uid ∧ b.tiles = x.act.tiles)) ∧
  (∀ (s : State) (core : Nat) (v : Word) (a : Act), actAt s (core * 8 + wfld v 0 3) = some a → a.ctx = core * 8 + wfld v 0 3 →
    (dieAt s (dkOfCore core)).failed = false →
    (moveOk s a (migTarget core v) = true → Now (exec (.migCmd core v) s) fun t =>
      actAt t a.ctx = some { a with move := some (migTarget core v) } ∧ t.mem = s.mem) ∧
    (moveOk s a (migTarget core v) = false → Now (exec (.migCmd core v) s) fun t =>
      (coreAt t core).refused = (coreAt s core).refused + 1 ∧ t.acts = s.acts)) ∧
  ∀ (s : State) (id : Nat) (f : Flight) (toCore h : Nat) (a : Act), flightById s id = some f → f.pay = .migrate a.uid toCore → Sole s a →
    freeCtx s toCore = some h → Now (exec (.migrationInstall id) s) fun t =>
      (coreAt t (coreOf a)).moved = (coreAt s (coreOf a)).moved + 1 ∧ actAt t a.ctx = none ∧
      Has t (toCore * 8 + h) fun b => b.task = a.task ∧ b.regs = a.regs ∧ b.uid = a.uid

/-- Barrier objects (R235, R236): an arrival is counted and answered with the phase, the last one ends the phase and clears the count;
a wait request is answered with the phase and recorded while it is the awaited one; a flip ends the phase of a child and wakes a
waiter; a waiter that is not recorded, and bim.wait (R396), read again after 1024 cycles. -/
def Obligations.BarrierSteps : Prop :=
  (∀ (s : State) (id : Nat) (f : Flight), InFlight s id f →
    (∀ loc va, portLoc f = some loc → f.pay = .barArrive none va → id ∉ s.barHeld → arrivesBefore s f = false → f.uid ≠ 0 →
      (dieAt s (actingDie f)).failed = false →
      let u := closeLine s loc
      barN u loc ≠ 0 → barUp u loc = false →
      ((barCnt u loc + 1) % 2 ^ 32 ≠ barN u loc → Now (exec (.barrierArrive id) s) fun t =>
        StageIs t id (.reply (toBytes 8 (barPhase u loc).toNat)) ∧ barCnt t loc = (barCnt u loc + 1) % 2 ^ 32 ∧
        barPhase t loc = barPhase u loc) ∧
      ((barCnt u loc + 1) % 2 ^ 32 = barN u loc → barParent u loc = 0 → Now (exec (.barrierArrive id) s) fun t =>
        StageIs t id (.reply (toBytes 8 (barPhase u loc).toNat)) ∧ barCnt t loc = 0 ∧ barPhase t loc = barPhase u loc + 1) ∧
      ((barCnt u loc + 1) % 2 ^ 32 = barN u loc → barParent u loc ≠ 0 → Now (exec (.barrierArrive id) s) fun t =>
        StageIs t id (.reply (toBytes 8 (barPhase u loc).toNat)) ∧ barUp t loc = true ∧ barPhase t loc = barPhase u loc)) ∧
    (∀ loc p, portLoc f = some loc → f.pay = .barWait p → (dieAt s (actingDie f)).failed = false →
      let u := closeLine s loc
      barN u loc ≠ 0 → Now (exec (.barrierWaitRequest id) s) fun t =>
        StageIs t id (.reply (toBytes 8 (barPhase u loc).toNat)) ∧ t.mem = u.mem ∧
        (barPhase u loc = p → (barPairs s (wqKey loc)).length < 4096 → (wqKey loc, loc, flightCore f, f.uid) ∈ t.barWaits)) ∧
    (∀ loc, f.pay = .flip loc → (dieAt s (portDie loc)).failed = false → s.barHeld = [] → Now (exec (.barrierFlipReceive id) s) fun t =>
      barPhase t loc = barPhase s loc + 1 ∧ barCnt t loc = 0 ∧ barUp t loc = false ∧ ∀ w ∈ t.barWaits, w.2.1 ≠ loc) ∧
    (∀ obj phase a i p sc polls since d ad, f.pay = .wake a.uid obj phase → Settled s a →
      a.wait = .barrier i obj p sc polls since d ad → d < 32 → Now (exec (.barrierWake id) s) fun t => Gone t id ∧
        t.mem = s.mem ∧ (phase ≠ p + 1 → t.acts = s.acts) ∧ (phase = p + 1 → Has t a.ctx fun b => b.wait = .run ∧
          ∀ k, sreg b k = if k = d ∧ d ≠ 0 then phase else sreg a k))) ∧
  ∀ (s : State) (a : Act), actAt s a.ctx = some a →
    (∀ i o p sc since d ad, a.wait = .barrier i o p sc true since d ad → since + 1024 ≤ s.now → mayPoll s a (.phase d) = true →
      Now (exec (.barrierPoll a.ctx) s) fun t => ∃ f ∈ t.flights, f.id = s.nextId ∧ f.uid = a.uid ∧ f.pay = .load ∧
        f.req.va = (ad + 8) % 2 ^ 57 ∧ f.req.n = 8 ∧ f.dst = .phase d) ∧
    (∀ i since ad d target, a.wait = .bimWait i since ad d target → since + 1024 ≤ s.now →
      mayPoll s a (.bimWait d target) = true → Now (exec (.bimWaitPoll a.ctx) s) fun t => ∃ f ∈ t.flights, f.id = s.nextId ∧
        f.uid = a.uid ∧ f.pay = .load ∧ f.req.va = ad % 2 ^ 57 ∧ f.req.n = 8 ∧ f.dst = .bimWait d target)

/-- Ring sequencers (R238 to R243) and the bulk class (R230): a program whose header, steps and peers are read and found good starts, a
wait step with nothing outstanding and a receiving step go on to the next step, an ended program sends its signals, a step that waits
too long ends its program with CAUSE 3, and writing ERR clears it; a dropped bulk packet changes nothing. -/
def Obligations.CollectiveSteps : Prop :=
  (∀ (s : State) (q : Nat) (c : Coll) (r : List Coll), collQ s q = c :: r → (dieAt s (dkOfSeq q)).failed = false →
    (∀ hb sb s1 s2 s3 c' known, c.started = false → collOn s q = true → collErr s q = false → c.hdr % 128 = 0 →
      readNow (putColl s q { c with started := true, since := s.now }) (collReq q c .erd c.hdr 128) = (.ok hb, s1) →
      let ws := wordsOf 16 hb
      let n := hNstep ws
      readNow s1 (collReq q c .erd (c.hdr + 128) (16 * n)) = (.ok sb, s2) →
      let sw := wordsOf (2 * n) sb
      let c2 : Coll := { c with
        started := true
        since := s.now
        words := ws
        lc := (List.range 4).map fun i => wfld (nth ws 3) (16 * i) 16
        steps := (List.range n).map fun i => (nth sw (2 * i), nth sw (2 * i + 1)) }
      1 ≤ hNrank ws → hNrank ws ≤ 4096 → hRank ws < hNrank ws → (∀ x ∈ c2.steps, stBad (hBim ws) n x = false) →
      readPeers q (c2.steps.flatMap (stRanks c2)).eraseDups c2 s2 = (some c', known, s3) → hBim c'.words = false →
      exec (.collProgramStart q) s = unlessHeld s (.next (runQuiet q 64 (putColl s3 q c')))) ∧
    (c.started = true → stOp (c.steps.getD c.pc (0, 0)) = 4 → mergeBusy s q = false → c.pc + 1 = hNstep c.words →
      Now (exec (.collProgramStart q) s) fun t => collQ t q = { c with pc := c.pc + 1, since := s.now } :: r ∧ t.mem = s.mem) ∧
    (∀ f bs s1 s2, c.started = true → c.group = none → c.pc + 1 = hNstep c.words →
      let x := c.steps.getD c.pc (0, 0)
      stOp x = 1 → stFwd x = false → nextChunk s q (rankSeq s q c (stFrom c x)) = some f → takeChunk s q x f = (bs, s1) →
      writeNow s1 (collReq q c .ewr (stDst c x) bs.length) bs = (.ok [], s2) → (collQ s2 q).drop 1 = r →
      s2.held = s.held →
      Now (exec (.collChunkReceive q) s) fun t => collQ t q = { c with pc := c.pc + 1, since := s2.now } :: r ∧ t.mem = s2.mem) ∧
    (c.started = true → hNstep c.words ≤ c.pc → c.group = none → mergeBusy s q = false → Now (exec (.collProgramEnd q) s) fun t =>
      collQ t q = r ∧ t.mem = s.mem ∧ ∀ i, i < 256 → wbit (nth c.words (4 + i / 64)) (i % 64) = true →
        Sent t (.signal (q / 2 * 256 + i) (hSem c.words) (-1) c.asid c.gen)) ∧
    (c.started = true → collTmo s q ≠ 0 → c.since + 1024 * collTmo s q < s.now → collWaits s q c = true →
      Now (exec (.collStepTimeout q) s) fun t => collQ t q = r ∧ collErr t q = true ∧
        mget (dieAt t (dkOfSeq q)).cause (q % 2) 0 = 3 ∧ mget (dieAt t (dkOfSeq q)).estep (q % 2) 0 = c.pc)) ∧
  ∀ (s : State) (q id : Nat), ((dieAt s (dkOfSeq q)).failed = false → Now (exec (.collStatErrClear q) s) fun t => collErr t q = false ∧ collQ t q = collQ s q) ∧
    exec (.bulkDropNotice id) s = .next s

/-- Gate choice and expert routing (R245 to R252): a list enters its merge, the root writes the result once it has a list of every die
and sends the join arrival, clearing EN discards open merges, a snapshot takes and clears a table, a claim takes a partition slot of
the sender, a return frees or fills a slot, and a full buffer becomes a record. Which slot a claim takes (log 43) and the STATE that
marks a slot (log 44) are the model's choice and reading. -/
def Obligations.RoutingSteps : Prop :=
  (∀ (s : State) (id : Nat) (f : Flight), InFlight s id f →
    (∀ dk g tk core es, f.stage = .sent → f.pay = .topk dk g tk core es → s.wqs = [] →
      let w := (tkRecord s dk g).1
      tkOn s dk = true → rV w = true → rAsid w = f.req.asid → rGen w = f.req.gen → tk < rNtok w → core ∈ rCores w →
      dk % 16 ∈ rDies w → (∀ m, mergeAt (dieAt s dk) false g tk = some m → core ∉ m.from_) → Unlaned s id → mergeRoom (dieAt s dk) g tk = true →
      Now (exec (.topkList id) s) fun t => Gone t id ∧ ∃ m, mergeAt (dieAt t dk) false g tk = some m ∧ core ∈ m.from_ ∧
        es.take (rK w) ∈ m.lists) ∧
    (∀ dk g tk src es, f.stage = .sent → f.pay = .topkRoot dk g tk src es → tkOn s dk = true →
      Now (exec (.topkList id) s) fun t => Gone t id ∧ ∃ m, mergeAt (dieAt t dk) true g tk = some m ∧ src ∈ m.from_ ∧
        es ∈ m.lists) ∧
    (∀ dk tbl, f.stage = .sent → f.pay = .snap dk tbl → Now (exec (.ctrSnapTable id) s) fun t =>
      (∀ i, i < 256 → mget (dieAt t dk).routes (tbl * 256 + i) 0 = 0) ∧ ∃ h, flightById t id = some h ∧ h.stage = .sent ∧
        h.pay = .store ((List.range 256).flatMap fun i => toBytes 4 (mget (dieAt s dk).routes (tbl * 256 + i) 0))) ∧
    (∀ loc e snd v s', portLoc f = some loc → f.pay = .claim e snd → poolAt s loc (poolReq loc f.req) = (.ok v, s') →
      s'.flights = s.flights → s'.held = s.held → (dieAt s (actingDie f)).failed = false → e < pvE v → partSlots v snd e ≠ [] → Now (exec (.slotClaimPerform id) s) fun t => ∃ i ∈ partSlots v snd e,
        StageIs t id (.reply (toBytes 8 (pvSlots v + 4096 * i + e * 8))) ∧
        Sys2Proof.Machine.mfind (Sys2Proof.Machine.mget t.pools v.loc Pool.reset).slots i = some ⟨2, e, snd, 0⟩) ∧
    (∀ loc va n v s' i, portLoc f = some loc → f.pay = .slotRet va n → poolAt s loc (poolReq loc f.req) = (.ok v, s') →
      s'.flights = s.flights → s'.held = s.held → (dieAt s (actingDie f)).failed = false → namedSlot v va = .array i → (slotAt v i).st = 2 →
      let x := slotAt v i
      let buf := mget v.p.buf x.expert ([], 0)
      (n = 0 → Now (exec (.slotRetPerform id) s) fun t => StageIs t id .ack ∧
        Sys2Proof.Machine.mfind (Sys2Proof.Machine.mget t.pools v.loc Pool.reset).slots i = some ⟨0, 0, 0, 0⟩) ∧
      (n ≠ 0 → buf.1.length < 255 → Now (exec (.slotRetPerform id) s) fun t => StageIs t id .ack ∧
        let p := Sys2Proof.Machine.mget t.pools v.loc Pool.reset
        Sys2Proof.Machine.mfind p.slots i = some { x with st := 3, rows := n } ∧
        (Sys2Proof.Machine.mget p.buf x.expert ([], 0)).1 = buf.1 ++ [i]))) ∧
  (∀ (s : State) (die g : Nat) (token : BitVec 32) (m : Merge) (x : List Byte) (s' : State), die % 16 < 8 → s.wqs = [] →
    mergeAt (dieAt s die) true g token.toNat = some m →
    let w := (tkRecord s die g).1
    let best := bestOf (rK w) m.lists
    (∀ d ∈ rDies w, d ∈ m.from_) →
    writeNow s (agentReq die 7 (rAsid w) (rGen w) .store (rResult w + 64 * token.toNat) 64)
      (bytesOf (best ++ List.replicate (8 - best.length) 0xFFF)) = (.ok x, s') → s'.held = s.held →
    Now (exec (.topkRootMerge die g token) s) fun t => mergeAt (dieAt t die) true g token.toNat = none ∧ t.mem = s'.mem ∧
      ((nth w 2).getLsbD 23 = true → Sent t (.arrival ⟨nth w 2 &&& 0xFFFFFF, 1, rAsid w, rGen w⟩))) ∧
  (∀ (s : State) (die : Nat) (v : Word), die % 16 < 8 → (dieAt s die).failed = false → Now (exec (.tkCtlWrite die v) s) fun t =>
    tkOn t die = wbit v 63 ∧ (dieAt t die).merges = if wbit v 63 = true then (dieAt s die).merges else []) ∧
  ∀ (s : State) (hdr expert i : Nat) (eb tb x : List Byte) (s1 s2 s3 : State),
    let p := Sys2Proof.Machine.mget s.pools hdr Pool.reset
    let v : PoolView := ⟨hdr, wordsOf 8 (readBytes s.mem hdr 64), p⟩
    let buf := mget p.buf expert ([], 0)
    let q := agentReq (portDie hdr) 4 p.asid p.gen .load 0 0
    let w := wordsOf 4 eb
    let record := (wfld (nth w 2) 0 57 + 2048 * i) % 2 ^ 57
    buf.1 ≠ [] → pvBslots v ≤ buf.1.length ∨ buf.2 + 1024 * pvTseal v ≤ s.now → expRecord s q v expert = (.ok eb, s1) →
    freeRecord v expert (wfld (nth w 3) 0 16) = some i →
    writeNow s1 { q with acc := .ewr, va := record, n := 0 } (bytesOf (BitVec.ofNat 64 buf.1.length ::
      buf.1.map fun j => BitVec.ofNat 64 (pvSlots v + 4096 * j + (slotAt v j).rows))) = (.ok x, s2) →
    readNow s2 { q with va := wfld (nth w 0) 0 57, n := 64 } = (.ok tb, s3) → s3.held = s.held → Now (exec (.bufferSeal hdr expert) s) fun t =>
      let p' := Sys2Proof.Machine.mget t.pools hdr Pool.reset
      Sys2Proof.Machine.mfind p'.buf expert = none ∧ (i, buf.1) ∈ Sys2Proof.Machine.mget p'.recs expert []

/-- System control (R4, R406 to R412, R316, R419): a register write stores its RW bits and clears its W1C bits, a partition change is
asked for and takes effect when its dies are idle, the boot states follow one another, a report is made, power units move, health and
error records are kept, resets clear a package, and links train. The verdicts of boot, the image that a slot holds and the key and
randomness of a signature (log 20), how power units are shared (logs 21, 33), the order of a package record (log 36), the count of TIME
(log 7) and what a reset keeps (log 47) are the model's choices, and so is which port number names which link (log 67); that a locked
decoder takes no write is PRESUMED (log 23). -/
def Obligations.SystemSteps : Prop :=
  (∀ (s : State) (pkg off : Nat) (v : Word) (rw w1c : Nat),
    let d := off / 2 ^ 24
    let o := off % 2 ^ 24
    let dk := dieKey pkg d
    d ≤ 8 → (dieAt s dk).failed = false → ownStep (d = 8) o v = false → regBits (dk % 16 = 8) o = some (rw, w1c) →
    (d = 8 → hdmLocked s pkg o = true → exec (.registerWrite pkg off v) s = .next s) ∧
    ((d = 8 → hdmLocked s pkg o = false) → Now (exec (.registerWrite pkg off v) s) fun t => t.mem = s.mem ∧
      rawReg t dk o = (rawReg s dk o &&& ~~~(BitVec.ofNat 64 rw) &&& ~~~(v &&& BitVec.ofNat 64 w1c)) ||| (v &&& BitVec.ofNat 64 rw))) ∧
  (∀ (s : State) (pkg : Nat) (v : Word) (image : List Byte) (nonce : BitVec 256) (w : Bool),
    let p := pkgAt s pkg
    (p.partReq = none → wfld v 0 2 ≠ p.partMode → Now (exec (.partModeWrite pkg v) s) fun t =>
      (pkgAt t pkg).partReq = some (wfld v 0 2) ∧ (pkgAt t pkg).partMode = p.partMode ∧ (pkgAt t pkg).drain = true ∧
        (pkgAt t pkg).aff = affectedDies p.partMode (wfld v 0 2)) ∧
    (∀ m, p.partReq = some m → partIdle s pkg p.aff = true → Now (exec (.partModeComplete pkg) s) fun t =>
      (pkgAt t pkg).partMode = m ∧ (pkgAt t pkg).partReq = none ∧ (pkgAt t pkg).aff = 0 ∧ (pkgAt t pkg).drain = false) ∧
    (p.boot = .reset → Now (exec (.bootRelease pkg image) s) fun t => (pkgAt t pkg).boot = .verifyLocal ∧
      (pkgAt t pkg).image = bootSlot p image ∧ (pkgAt t pkg).slot = bootSlot p image ∧ timeOf t pkg = 0 ∧ ∀ d ∈ computeDies pkg, cyclesOf t d = 0) ∧
    (p.boot = .verifyLocal → Now (exec (.bootVerify pkg w) s) fun t => if w = true then (pkgAt t pkg).boot = .running ∧
      (pkgAt t pkg).measure = shake512 p.image else (pkgAt t pkg).boot = .verifyFetched ∧
        (pkgAt t pkg).out = p.out ++ [(0, fetchFrame pkg)]) ∧
    (p.boot = .verifyFetched → Now (exec (.bootFetchVerify pkg image w) s) fun t => if w = true then (pkgAt t pkg).boot = .running ∧
      (pkgAt t pkg).measure = shake512 image ∧ (pkgAt t pkg).image = image ∧ (pkgAt t pkg).slot = image else (pkgAt t pkg).boot = .failed ∧
      (pkgAt t pkg).bootAt = s.now ∧ (pkgAt t pkg).patHead = p.patHead + 1) ∧
    (p.boot = .failed → p.bootAt + 40000000000 ≤ s.now → Now (exec (.bootRetry pkg image) s) fun t =>
      (pkgAt t pkg).boot = .verifyLocal ∧ (pkgAt t pkg).image = bootSlot p image) ∧
    (Now (exec (.attestation pkg nonce) s) fun t => ∃ body rand, (pkgAt t pkg).reports = p.reports ++
      [(nonce, body, slhSign slh256s (identityKey (Config.fusedSeed pkg)) rand body)] ∧ body.take 64 = toBytes 64 p.measure.toNat) ∧
    (Now (exec (.watchdogExpire pkg) s) fun t => (pkgAt t pkg).patHead = p.patHead + 1 ∧
      wbit (rawReg t (ioDie pkg) patBlk) 0 = true ∧ t.acts = s.acts) ∧
    (Now (exec (.warmReset pkg) s) fun t => (pkgAt t pkg).boot = .reset ∧ (pkgAt t pkg).patina = p.patina ∧
      (pkgAt t pkg).patHead = p.patHead ∧ t.mem = s.mem ∧ (∀ ctx, ctx / 16384 = pkg → actAt t ctx = none) ∧
      ∀ core, core / 2048 = pkg → coreAt t core = Core.reset) ∧
    (Now (exec (.powerCycle pkg) s) fun t => (pkgAt t pkg).boot = .reset ∧ (pkgAt t pkg).patina = [] ∧
      (∀ c ∈ t.mem.cells, pkgOfLoc c.1 ≠ pkg) ∧ ∀ ctx, ctx / 16384 = pkg → actAt t ctx = none) ∧
    (∀ port rate width, port < 2 → Now (exec (.pcieLinkTraining pkg port rate width) s) fun t =>
      let x := wfld (rawReg s (ioDie pkg) rcBlk) (2 * port) 2
      let split := if x = 3 then 0 else x
      mget (pkgAt t pkg).split port 0 = split ∧ ∀ d, d < 2 ^ split →
        mget (pkgAt t pkg).link (4 * port + d) (0, 0) = (min rate 64, min width (16 / 2 ^ split))) ∧
    (∀ rate width d, d < 10 → rootPort s pkg d = true → Now (exec (.pcieLinkTraining pkg (if d < 8 then d + 4 else d - 6) rate width) s) fun t =>
      mget (pkgAt t pkg).link d (0, 0) = (min rate 64, min width (rootWidth s pkg d))) ∧
    (2700 < wfld v 16 16 → exec (.pwrGuardWrite pkg v) s = .next s) ∧
    (wfld v 16 16 ≤ 2700 → Now (exec (.pwrGuardWrite pkg v) s) fun t =>
      wfld (rawReg t (ioDie pkg) (sysBlk + 8)) 16 16 = wfld v 16 16 ∧ t.mem = s.mem) ∧
    (∀ src dst units draws, src < 8 → dst < 8 → src ≠ dst →
      let a := dieAt s (dieKey pkg src)
      let b := dieAt s (dieKey pkg dst)
      a.failed = false → b.failed = false → a.floor + units ≤ a.units → b.units + units ≤ b.ceil →
      Now (exec (.powerUnitTransfer pkg src dst units draws) s) fun t => (dieAt t (dieKey pkg src)).units = a.units - units ∧
        (dieAt t (dieKey pkg dst)).units = b.units + units)) ∧
  ∀ (s : State) (die : Nat) (place : Word),
    let d := dieAt s die
    (die % 16 < 8 → d.failed = true → d.failedAt + 4000000 ≤ s.now → liveNeighbours s die ≠ [] →
      Now (exec (.powerReclaim die) s) fun t =>
        (∀ n ∈ liveNeighbours s die, (dieAt s n).units ≤ (dieAt t n).units ∧
          ((dieAt s n).units ≤ (dieAt s n).ceil → (dieAt t n).units ≤ (dieAt s n).ceil)) ∧
        ((∀ n ∈ liveNeighbours s die, (dieAt s n).units + d.units ≤ (dieAt s n).ceil) → (dieAt t die).units = 0 ∧
          ∀ n ∈ liveNeighbours s die, (dieAt s n).units + d.units / (liveNeighbours s die).length ≤ (dieAt t n).units)) ∧
    (d.buf = [] → Now (exec (.scrub die 0 [place]) s) fun t =>
      if die % 16 < 8 then ∃ e, (dieAt t die).buf = [e] ∧ e.kind = 0x0E ∧ e.w5 = 0 ∧ e.w6 = place else t = s) ∧
    (d.buf = [] → ∀ kind uid, kind.toNat ≤ 5 → Now (exec (.eccError die kind false place uid) s) fun t =>
      t.mem = s.mem ∧ ∃ e, (dieAt t die).buf = [e] ∧ e.kind = 0x0E ∧ e.w5 = BitVec.ofNat 64 kind.toNat ∧ e.w6 = place) ∧
    (die % 16 < 8 → ∀ uid, actByUid s uid = none → Now (exec (.eccError die 0 true place uid) s) fun t =>
      t.eccBad = s.eccBad ++ [hbm die place.toNat / 64]) ∧
    ∀ clus droop, Now (exec (.sensorCrossing clus droop place) s) fun t =>
      (pkgAt t (dkOfClus clus / 16)).patHead = (pkgAt s (dkOfClus clus / 16)).patHead + 1 ∧ t.dies = s.dies

/-- Ethernet, steering, interrupts and device requests (R164 to R166, R413 to R415, R420, R422): frames are counted as bad, handed to
the steering engine or written into posted buffers, a descriptor is sent, a launch packet is written to its inbox, a written identity
becomes pending, and a device's read is unsupported or answered. The frame and packet formats are those of IEEE and IETF (PRESUMED, log
24), flow control too (log 68), and what a failed device read leaves in configuration space is PRESUMED (log 67), and the status of a
read that is unsupported (log 34). That a write of 1 to a V that is set restarts a rule's count is DEDUCED (log 29). -/
def Obligations.PortSteps : Prop :=
  (∀ (s : State) (pkg port : Nat) (frame : List Byte), port < 2 → wbit (rawReg s (ioDie pkg) (ethBlk port)) 63 = true →
    (60 ≤ frame.length → frame.length ≤ 9212 → acceptsMac s pkg port frame = true →
      (beAt frame 12 2 = 0x88B5 → Now (exec (.ethFrameReceive pkg port frame true) s) fun t => t.mem = s.mem ∧
        (pkgAt t pkg).steerQ = (pkgAt s pkg).steerQ ++ [frame]) ∧
      (∀ bufs, beAt frame 12 2 ∉ [0x8100, 0x8808, 0x88B5, 0x0800, 0x86DD] → wbit (ringReg s pkg port false 0 8) 63 = true →
        takeBuffers s pkg port 0 (ringPosted s pkg port false 0) (ringHead s pkg port false 0) frame.length = some bufs →
        Now (exec (.ethFrameReceive pkg port frame true) s) fun t =>
          ringHead t pkg port false 0 = (ringHead s pkg port false 0 + bufs.length) % 65536)) ∧
    (Now (exec (.ethFrameReceive pkg port frame false) s) fun t => t.mem = s.mem ∧
      wfld (rawReg t (ioDie pkg) (ethBlk port + 8)) 0 32 = min (2 ^ 32 - 1) (wfld (rawReg s (ioDie pkg) (ethBlk port + 8)) 0 32 + 1)) ∧
    ∀ ring, ring < 64 →
      (∀ v, (Now (exec (.ethTxTail pkg port ring v) s) fun t =>
          wfld (ringReg t pkg port true ring 0x10) 0 16 = wfld v 0 16 ∧ t.mem = s.mem) ∧
        Now (exec (.ethRxTail pkg port ring v) s) fun t =>
          wfld (ringReg t pkg port false ring 0x10) 0 16 = wfld v 0 16 ∧ t.mem = s.mem) ∧
      (s.wqs = [] → wbit (ringReg s pkg port true ring 8) 63 = true → 0 < ringPosted s pkg port true ring →
        let d := descPlace s pkg port true ring (ringHead s pkg port true ring)
        let w1 := readW s.mem (d + 8)
        let out := outFrame w1 (readBytes s.mem (ddr pkg (wfld (readW s.mem d) 0 52)) (wfld w1 0 16))
        mget (pkgAt s pkg).txBuf (ringKey port true ring) ([], false, w1) = ([], false, w1) → wbit w1 16 = true →
        wfld w1 0 16 ≠ 0 → out.length ≤ 9212 → sendHeld s pkg port = none → paused s pkg port (framePrio out) = false → Now (exec (.ethTransmit pkg port ring) s) fun t =>
          (pkgAt t pkg).out = (pkgAt s pkg).out ++ [(port, out)] ∧
          ringHead t pkg port true ring = (ringHead s pkg port true ring + 1) % 65536)) ∧
  (∀ (s : State) (pkg rule : Nat) (v : Word), rule < 256 → wbit v 63 = true → 6 ≤ wfld v 53 5 → wfld v 53 5 ≤ 16 →
    2 ≤ wfld v 32 21 → wfld (strReg s pkg rule 8) 0 57 % 2 ^ wfld v 53 5 = 0 → Now (exec (.strCtlWrite pkg rule v) s) fun t =>
      wbit (strReg t pkg rule 0) 63 = true ∧ (mget (pkgAt t pkg).str rule (0, 0, 0)).1 = 0) ∧
  (∀ (s : State) (pkg : Nat) (f x : List Byte) (r : List (List Byte)) (s' : State), (pkgAt s pkg).steerQ = f :: r →
    let b := f.drop 14
    let w0 := BitVec.ofNat 64 (ofBytes (b.take 8))
    let rule := wfld w0 8 8
    let len := wfld w0 16 16
    let ctl := strReg s pkg rule 0
    let st := mget (pkgAt s pkg).str rule (0, 0, 0)
    let s0 := setPkg s pkg { pkgAt s pkg with steerQ := r }
    let w := (st.1 + 1) % 2 ^ 64
    wfld w0 0 8 = 1 → wbit ctl 63 = true → wbit ctl 62 = false → wfld w0 32 32 = wfld (strReg s pkg rule 0x18) 0 32 →
    len ≤ 2 ^ wfld ctl 53 5 - 16 → ((b.drop 16).take len).length = len → steerRoom (wfld ctl 32 21) st.1 st.2.1 ≠ 0 →
    writeNow s0 (agentReq (ioDie pkg) 0 (wfld ctl 0 16) (wfld ctl 58 4) .ewr
        (wfld (strReg s pkg rule 8) 0 57 + (1 + st.1 % (wfld ctl 32 21 - 1)) * 2 ^ wfld ctl 53 5) (16 + len))
      (toBytes 8 w ++ toBytes 8 len ++ (b.drop 16).take len) = (.ok x, s') → s'.pkgs = s0.pkgs → s'.held = s.held →
    Now (exec (.steerPacket pkg) s) fun t => (pkgAt t pkg).steerQ = r ∧ t.mem = s'.mem ∧
      mget (pkgAt t pkg).str rule (0, 0, 0) = (w, st.2.1, st.2.2)) ∧
  ∀ (s : State) (pkg rid n : Nat) (addr : Word) (v : BitVec 32),
    (∀ file, interruptFile addr.toNat = some file → file % 16 < 9 → 1 ≤ v.toNat → v.toNat < 2048 →
      Now (exec (.interruptWrite pkg addr v) s) fun t => (file, v.toNat) ∈ (pkgAt t pkg).imsic ∧ t.mem = s.mem) ∧
    (s.wqs = [] →
      let e := readW s.mem (ddr pkg (wfld (rawReg s (ioDie pkg) (rcBlk + 8)) 19 33 * 2 ^ 19 + 8 * (rid % 65536)))
      (wbit e 63 = false → Now (exec (.pcieDeviceRequest pkg rid false addr n []) s) fun t => t.mem = s.mem ∧
        (pkgAt t pkg).devReads = (pkgAt s pkg).devReads ++ [(rid, 1, [])]) ∧
      ∀ bs s', wbit e 63 = true → wfld addr 57 7 = 0 →
        readNow s (agentReq (ioDie pkg) 2 (wfld e 0 16) (wfld e 16 4) .erd addr.toNat n) = (.ok bs, s') → s'.pkgs = s.pkgs →
        s'.held = s.held → Now (exec (.pcieDeviceRequest pkg rid false addr n []) s) fun t => t.mem = s'.mem ∧
          (pkgAt t pkg).devReads = (pkgAt s pkg).devReads ++ [(rid, 0, bs)])

/-- The RDMA engine (R416 to R418): a WRITE in order is performed and acknowledged, a notification lowers a pair's rate and silence
raises it, an unanswered request is sent again, a doorbell and a polled doorbell word set the indices, and a completion is written.
Packet handling and frames beyond the spec's words, and the word of an entry that shows that the engine keeps a state for the pair, are
those of log 48 (PRESUMED, after InfiniBand), statuses those of log 34, and 1 ns is 4 cycles (log 7). -/
def Obligations.RdmaSteps : Prop :=
  (∀ (s : State) (pkg : Nat) (p : RocePacket) (h : AddrHandle) (x : List Byte) (s' : State), rdmaOn s pkg = true → p.op = 2 →
    (pkgAt s pkg).roceQ.head? ≠ some p →
    let n := p.qpn.toNat
    let len := p.data.length
    qpValid s pkg n = true → qpState s pkg n = 2 ∨ qpState s pkg n = 3 → qpUd s pkg n = false →
    p.first = true → p.last = true → p.len.toNat = len → (qpNow s pkg n).cur = none →
    p.psn.toNat = (qpNow s pkg n).epsn → (qpNow s pkg n).epsn < 2 ^ 24 → keyOk s pkg n p.key.toNat p.va.toNat len (some 61) = true →
    writeNow s (qpReq s pkg n .ewr p.va.toNat len) p.data = (.ok x, s') → s'.pkgs = s.pkgs → s'.held = s.held →
    qpUd s' pkg n = false → qpcWord s' pkg n 10 ≠ 0 → qpAh s' pkg n = some h →
    ethOn s' pkg h.port = true →
    Now (exec (.rocePacket pkg p) s) fun t => t.mem = s'.mem ∧ ∃ q, (pkgAt t pkg).outRoce = (pkgAt s pkg).outRoce ++ [(h.port, q)] ∧
      q.op = 7 ∧ q.psn = p.psn ∧ (paused s' pkg h.port (h.tc / 32) = false →
        (pkgAt t pkg).out = (pkgAt s pkg).out ++ [(h.port, roceFrame s' pkg false h q)])) ∧
  ∀ (s : State) (pkg n : Nat),
    let q := qpNow s pkg n
    let qp := fun (t : State) => mget (pkgAt t pkg).qps n Qp.reset
    (rdmaOn s pkg = false → exec (.rdmaCnp pkg n) s = .next s ∧ exec (.rdmaRateRecover pkg n) s = .next s) ∧
    (rdmaOn s pkg = true → qpValid s pkg n = true → Now (exec (.rdmaCnp pkg n) s) fun t => (pkgAt t pkg).rdCnp = (pkgAt s pkg).rdCnp + 1 ∧
      qp t = { q with rate := q.rate - q.rate * wfld (rdmaReg s pkg 0x48) 24 8 / 256, cnpAt := s.now }) ∧
    (rdmaOn s pkg = true → qpValid s pkg n = true → q.cnpAt + 200000 ≤ s.now → Now (exec (.rdmaRateRecover pkg n) s) fun t =>
      qp t = { q with rate := min 800000 (q.rate + wfld (rdmaReg s pkg 0x48) 0 24), cnpAt := s.now }) ∧
    (rdmaOn s pkg = true → NothingHeld s → qpValid s pkg n = true → qpUd s pkg n = false →
      q.rnr.elim (q.sentAt + 4000 * wfld (qpcWord s pkg n 5) 24 16) (fun r => r.2) ≤ s.now →
      q.rnr ≠ none ∨ (∃ x ∈ q.sent, x.fin = none) → q.retries < wfld (qpcWord s pkg n 4) 24 3 →
      Now (exec (.rdmaRetransmitTimeout pkg n) s) fun t => (qp t).retries = q.retries + 1 ∧
        (qp t).sentAt = s.now ∧ (qp t).rnr = none) ∧
    (∀ v : Word, rdmaOn s pkg = true → wfld v 16 16 = n → doorbellHeld s pkg n = false → qpValid s pkg n = true → qpcWord s pkg n 10 ≠ 0 → qpState s pkg n ≠ 3 → qpState s pkg n ≠ 4 →
      Now (exec (.rdmaDoorbell pkg v) s) fun t => t.mem = s.mem ∧
        qp t = if wbit v 63 = true then { q with rqPi := wfld v 0 16 } else { q with sqPi := wfld v 0 16 }) ∧
    (∀ bs s', rdmaOn s pkg = true → qpValid s pkg n = true → wbit (qpcWord s pkg n 0) 57 = true →
      q.pollAt + 1024 * max 1 (wfld (qpcWord s pkg n 9) 0 16) ≤ s.now →
      let s1 := putQp s pkg n { q with pollAt := s.now }
      readNow s1 (qpReq s1 pkg n .erd (wfld (qpcWord s1 pkg n 8) 0 57) 8) = (.ok bs, s') → s'.pkgs = s1.pkgs →
      s'.held = s.held → qpcWord s' pkg n 10 ≠ 0 → qpValid s' pkg n = true → qpState s' pkg n ≠ 3 → qpState s' pkg n ≠ 4 → Now (exec (.rdmaDbwPoll pkg n) s) fun t =>
        qp t = { q with
          pollAt := s.now
          sqPi := wfld (BitVec.ofNat 64 (ofBytes bs)) 0 16
          rqPi := wfld (BitVec.ofNat 64 (ofBytes bs)) 32 16 }) ∧
    ∀ d r x s', (qp s).due = d :: r →
      let cq := wfld (qpcWord s pkg n 3) (if d.rq then 32 else 48) 16
      let e := ddr pkg (wfld (rdmaReg s pkg 0x28) 5 47 * 32 + 32 * cq)
      let w := fun (i : Nat) => readW s.mem (e + 8 * i)
      let count := mget (pkgAt s pkg).cqs cq 0
      let lg := wfld (w 1) 0 5
      qpcWord s pkg n 10 ≠ 0 → cq < wfld (rdmaReg s pkg 0x30) 0 16 → wbit (w 1) 63 = true →
      writeNow (putQp s pkg n { qp s with due := r }) (agentReq (ioDie pkg) 1 (wfld (w 1) 36 16) (wfld (w 1) 52 4) .ewr
        (wfld (w 0) 0 57 + 32 * (count % 2 ^ lg)) 32) (bytesOf (cqeWords d n count lg)) = (.ok x, s') →
      s'.pkgs = (putQp s pkg n { qp s with due := r }).pkgs → s'.held = s.held → Now (exec (.rdmaCompletion pkg n) s) fun t => t.mem = s'.mem ∧
        (qp t).due = r ∧ mget (pkgAt t pkg).cqs cq 0 = count + 1 ∧
        ((w 2).getLsbD 23 = true → Sent t (.arrival ⟨w 2 &&& 0xFFFFFF, 1, wfld (w 1) 36 16, wfld (w 1) 52 4⟩))

/-- R183, R197, R203, R206, R256: a step runs the decoded instruction. With nothing asked from outside, the core in focus issues: it
runs exec on the instruction that the bytes at the program counter decode to, with the core's bookkeeping done; a unit that an
interlock holds has not issued, and the bookkeeping is undone. Where that leaves the state as it was, a unit of the device has its
turn. A turn of the agenda asks for the same of any core, or for a step of a unit of the device, or lets cycles pass (log 4). -/
def Obligations.StepRunsDecoded : Prop :=
  (∀ (s : State) (h cls : Nat) (a : Act) (i : Instr),
    let c := coreAt s s.focus
    let o := unlessStalled s.focus h a c.lastCtx c.issuedAt (exec i (issued s s.focus h cls a))
    s.agenda = [] → selectContext s s.focus ≠ none → IssuesNext s s.focus h cls a i → o ≠ .next s → step s = o) ∧
  (∀ (s : State) (core w h cls : Nat) (a : Act) (i : Instr) (r : List Turn),
    let s' := { s with agenda := r, now := s.now + w }
    let c := coreAt s core
    s.agenda = ⟨w, .issue core⟩ :: r → IssuesNext s' core h cls a i →
    step s = unlessStalled core h a c.lastCtx c.issuedAt (exec i (issued s' core h cls a))) ∧
  (∀ (s : State) (w : Nat) (i : Instr) (r : List Turn),
    let s' := { s with agenda := r, now := s.now + w }
    s.agenda = ⟨w, .device i⟩ :: r → isEncoded i = false → step s = exec i s') ∧
  (∀ (s : State) (w : Nat) (r : List Turn),
    s.agenda = ⟨w, .idle⟩ :: r → step s = .next { s with agenda := r, now := s.now + w })

/-- R256 to R274: the words that the worked example of the encoding chapter writes out decode to the instructions it names. -/
def Obligations.DecodesSpecWords : Prop :=
  decodeTableWord 32 0x7A4030BB = some (.vbcast 1 3 9) ∧ decodeTableWord 32 0x00001029 = some (.vld 0 1 0 0) ∧
    decodeTableWord 32 0x0010007F = some (.vxPrefix 0 0 0 0 0 1) ∧ decodeTableWord 32 0x0A42003B = some (.vmul 0 0 1 9) ∧
    decodeTableWord 32 0x0000202B = some (.vst 0 2 0 0) ∧ decodeTableWord 32 0x04001085 = some (.addi 1 1 512) ∧
    decodeTableWord 32 0x04002105 = some (.addi 2 2 512) ∧ decodeTableWord 16 0xFC88 = some (.addi6 4 63) ∧
    decodeTableWord 16 0xCC96 = some (.bnz 4 0x33) ∧ decodeTableWord 16 0x003E = some .done ∧ decodeTableWord 16 0 = none

/-- R254 to R274: decoding an encoded instruction gives it back, with every operand at every value of its field, and leaves the bytes
behind it. -/
def Obligations.DecodeOfEncode : Prop :=
  ∀ (i : Instr) (bs rest : List Byte), encodeBytes i = some bs → decode (bs ++ rest) = .ok (i, rest)

/-- R254 to R274: what decodes is the encoding of the instruction read from it; no two encodings stand for one instruction. -/
def Obligations.EncodeOfDecode : Prop :=
  ∀ (bs rest : List Byte) (i : Instr), decode bs = .ok (i, rest) → ∃ w, encodeBytes i = some w ∧ bs = w ++ rest

/-- R4, R119, R182, R226, R410, R417: what software reads from the registers of a compute die and of the I/O die after reset. Not
covered: PKG_SELF, which the management core sets, the fused addresses of the Ethernet ports, and the root-complex block and the CXL
component registers of the I/O die, to which the spec gives no reset values. A register to which the spec gives no reset value reads 0
by the model's choice (log 1); the statement covers only values that the spec gives. -/
def Obligations.RegistersAfterReset : Prop :=
  ∀ (p off : Nat), off % 8 = 0 → off < 0x200000 → off ≠ 0x200 →
    (∀ d, d < 8 → readReg State.reset (dieKey p d) off =
      if off = 0x060000 then 3
      else if 0x060100 ≤ off ∧ off < 0x060180 then 0x3F00
      else if 0x030000 ≤ off ∧ off < 0x033000 then
        let o := off % 0x1000
        if o = 0 then BitVec.ofNat 64 (256 * (3 * d + (off - 0x030000) / 0x1000))
        else if o = 8 then 0x80004000
        else if 0x100 ≤ o ∧ o < 0x500 ∧ o % 0x40 = 8 then 0x7F800000
        else 0
      else if 0x100000 ≤ off ∧ 0x100 ≤ off % 0x1000 ∧ off % 0x1000 < 0x138 then 0xFFFFFFFF
      else 0) ∧
    (off ≠ ethBlk 0 → off ≠ ethBlk 1 → off < 0x110000 ∨ 0x140000 ≤ off → readReg State.reset (ioDie p) off =
      if off = 0x0C0008 then 0x04E20A8C else if off = 0x100048 then 0x400003E8 else 0)

/-- The memory after reset has the canonical form (log 2 says what an unlisted byte reads as). -/
def Obligations.ResetMemoryIsCanonical : Prop :=
  State.reset.mem.wf = true

/-- The canonical form of memory, cells in strictly rising order and none that repeats what an unlisted address reads as, is kept by
every step of the machine, whatever acts: an instruction, a unit of the device, or an event from outside. -/
def Obligations.MemoryStaysCanonical : Prop :=
  ∀ (s t : State), s.mem.wf = true → step s = .next t → t.mem.wf = true

/-- What the engines compute. The exact sum of a step (R218, R219): terms are truncated to the window when there is one, a zero sum is
-0 only when every term is or in mode 2, a NaN or infinities of both signs are invalid. An mma writes each lane inside its clip from
the old lane, or from zero, and the K products, scaled by R220, and converts once; with a ring step the latch goes east (R371, R373,
R375, R377). mld fills the latch, msc the scale latch, mst writes each element of the tile scaled and converted once (R381 to R384). A
copy moves its rows, or converts their elements (R386), and a part of a gather or convert moves the units of its own stack (R58, R391);
where source and destination meet the last part alone moves anything. Where the latches lie and that they keep their elements packed is
the model's choice (log 30), and so is which draw each element takes in mode 5 (log 8); that a NaN accumulator counts as a NaN operand
is its reading (log 16). -/
def Obligations.EnginesCompute : Prop :=
  (∀ (w : Option Nat) (mode : Nat),
    (∀ (xs : List (Bool × Nat × Int)) (q : Int),
      let term := fun (x : Bool × Nat × Int) => FVal.num x.1 (.dy x.2.1 x.2.2)
      let part := fun (x : Bool × Nat × Int) =>
        let n : Int := ((if q ≤ x.2.2 then x.2.1 * 2 ^ (x.2.2 - q).toNat else x.2.1 / 2 ^ (q - x.2.2).toNat : Nat) : Int)
        if x.1 then -n else n
      let low := fun (x : Bool × Nat × Int) => w.elim x.2.2 fun k => (Nat.log2 x.2.1 : Int) + x.2.2 - (k : Int)
      let v := xs.foldl (fun v x => v + part x) 0
      (∃ x ∈ xs, x.2.1 ≠ 0 ∧ low x = q) → (∀ x ∈ xs, x.2.1 ≠ 0 → if w.isSome then low x ≤ q else q ≤ low x) →
      sumTerms w (xs.map term) mode =
        (if v = 0 then .num (mode == 2 || xs.all fun x => x.1 && x.2.1 == 0) (.dy 0 0) else .num (v < 0) (.dy v.natAbs q), 0)) ∧
    (∀ xs : List (Bool × Int), sumTerms w (xs.map fun x => FVal.num x.1 (.dy 0 x.2)) mode =
      (.num (mode == 2 || xs.all fun x => x.1) (.dy 0 0), 0)) ∧
    ∀ ts : List FVal, (ts.any FVal.isNan = true ∨ (.inf true ∈ ts ∧ .inf false ∈ ts) → sumTerms w ts mode = (.nan false, evNV)) ∧
      ∀ n, ts.any FVal.isNan = false → .inf n ∈ ts → .inf (!n) ∉ ts → sumTerms w ts mode = (.inf n, 0)) ∧
  (∀ (s : State) (core : Nat) (m : MatrixCmd) (q : List MatrixCmd) (f : Flight), (coreAt s core).matQ = m :: q →
    flightById s m.id = some f → f.uid = m.uid → Unlaned s m.id → m.started = true → m.chain = none → m.tile < 4 →
    (∀ k, k < 7 → xsWindow s core k = 0) → (∀ a, actByUid s m.uid = some a → resident a = true) →
    let row := fun (u : State) (i : Nat) => readN u.mem (pool core (65536 * m.tile + 512 * i)) 512
    let tile := tileAt s core m.tile
    let sh := shapeOf (xMajor m.word)
    let done := Now (exec (.matrixCommandComplete core) s)
    (isMma m.word = true → m.a.length = 128 * sh.k → (sh.scl = 0 → xSC m.word = false) →
      (xBK m.word = 2 → tile.st = 2 ∧ tile.ty = sh.tb ∧
        (xRing m.word = true → eastRoom s (actByUid s m.uid) m = true)) →
      let w := accWidth sh.acc
      let t := accType sh.acc
      let cols := if xClip m.word then min sh.n m.tx else sh.n
      let old := fun i j => lane w (row s i) j
      let acc := fun i j => if xZf m.word then 0 else old i j
      let elemA := fun i k => m.a.getD (i * sh.k + k) 0
      let elemB := fun k j => (if xBK m.word = 2 then latchElems s core m.tile sh.tb (sh.k * sh.n) else m.b).getD (k * sh.n + j) 0
      let scl := fun o n => ofBytes (readBytes s.mem (scaleLatch core m.tile o) n)
      let prods := fun i j => (List.range sh.k).map fun k => (fMul (valOf sh.ta (elemA i k)) (valOf sh.tb (elemB k j))).1
      let exact := fun i j =>
        let c := valOf t (acc i j)
        if sh.scl = 0 then sumTerms (some (if sh.acc = 1 then 159 else 95)) (c :: prods i j) m.rnd
        else if xSC m.word = false then sumTerms none (c :: prods i j) m.rnd
        else if sh.scl = 1 then sumTerms none [c, (fMul (sumTerms none (prods i j) m.rnd).1
          (fMul (valOf 9 (scl (4 * i) 4)) (valOf 9 (wfld m.scale 0 32))).1).1] m.rnd
        else sumTerms none (c :: (prods i j).zipIdx.map fun p => (fMul p.1 (fMul (scaleVal true (scl (8 * i + p.2 / 32) 1))
          (scaleVal true (wfld m.scale (8 * (p.2 / 32)) 8))).1).1) m.rnd
      let int := fun i j => intVal 4 (acc i j) +
        (List.range sh.k).foldl (fun (v : Int) k => v + intVal sh.ta (elemA i k) * intVal sh.tb (elemB k j)) 0
      let new := fun i j =>
        if sh.acc = 2 then (if m.sat then (clamped 4 (int i j)).1 else intBits 32 (int i j))
        else (convert t true (exact i j).1 m.rnd m.sat
          (drawAt core ((coreAt s core).draws + (if m.rnd = 5 then cols * i else 0) + j))).1 % 2 ^ w
      done fun u => (coreAt u core).matQ = q ∧ Gone u m.id ∧
        (tileAt u core m.tile).acc = sh.acc ∧
        (tileAt u core m.tile).st = (if xBK m.word = 2 then (if xRing m.word then 1 else 2) else tile.st) ∧
        (∀ i j, i < 128 → j < sh.n → lane w (row u i) j =
          if xClip m.word = true ∧ (m.ty ≤ i ∨ m.tx ≤ j) then old i j else new i j) ∧
        ∀ e k, xBK m.word = 2 → xRing m.word = true → ringMember s (actByUid s m.uid) m.place (eastCol m.place) = some e →
          e.tiles[m.name]? = some k → k < 4 →
          readBytes u.mem (incoming (coreOf e) k 0) 16384 = readBytes s.mem (latch core m.tile 0) 16384 ∧
          (tileAt u (coreOf e) k).inFull = true ∧ (tileAt u (coreOf e) k).inTy = sh.tb) ∧
    (∀ xs s1, isMma m.word = false → xSub m.word = 1 ∨ xSub m.word = 2 → s1.acts = s.acts →
      (if m.desc = 0 then xs = m.a ∧ s1 = s else mldFar f m s = .ok xs s1) → xs.length * tWidth m.etype ≤ 131072 →
      done fun u => (tileAt u core m.tile).st = 2 ∧ (tileAt u core m.tile).ty = m.etype ∧
        ∀ e, e < xs.length → (latchElems u core m.tile m.etype xs.length).getD e 0 = xs.getD e 0 % 2 ^ tWidth m.etype) ∧
    (isMma m.word = false → xSub m.word = 4 →
      done fun u => (tileAt u core m.tile).scl = xB m.word + 1 ∧ (tileAt u core m.tile).acc = 0 ∧
        readBytes u.mem (scaleLatch core m.tile 0) m.a.length = m.a.map (BitVec.ofNat 8)) ∧
    (isMma m.word = false → xSub m.word = 3 → dSpace m.desc = 1 → tWidth (dEtype m.desc) % 8 = 0 → tile.acc < 3 →
      let n := tWidth (dEtype m.desc) / 8
      let place := fun (i j : Nat) =>
        let x : Idx := if xTr m.word then (org0 m.org + i, org1 m.org + j, 0, 0, 0) else (org0 m.org + j, org1 m.org + i, 0, 0, 0)
        (insideDesc m.desc x && !(xClip m.word && (m.ty ≤ i || m.tx ≤ j)), (idxAddr m.desc x).1)
      (∀ i j, i < 128 → j < accLanes tile.acc → (place i j).1 = true →
        (place i j).2 + n ≤ 262144 ∧ meets (place i j).2 n (65536 * m.tile) 65536 = false ∧
        ∀ k l, k < 128 → l < accLanes tile.acc → (place k l).1 = true → (k, l) ≠ (i, j) → meets (place i j).2 n (place k l).2 n = false) →
      let t := accType tile.acc
      let scale := if tile.acc = 1 then valOf 10 m.scale.toNat else valOf 9 (wfld m.scale 0 32)
      done fun u =>
        (∀ i j, i < 128 → j < accLanes tile.acc → (place i j).1 = true → ∃ k, readN u.mem (pool core (place i j).2) n =
          (convert (dEtype m.desc) true (fMul (valOf t (lane (accWidth tile.acc) (row s i) j)) scale).1 m.rnd m.sat
            (drawAt core k)).1 % 2 ^ (8 * n)) ∧
        ∀ i, i < 128 → row u i = if xZf m.word then 0 else row s i)) ∧
  (∀ (s : State) (core : Nat) (c : CopyCmd) (q : List CopyCmd) (f : Flight), (coreAt s core).copyQ = c :: q →
    flightById s c.id = some f → Unlaned s c.id → flightCore f = core → c.active = true → c.follow = none → c.kind < 2 →
    (∀ k, k < 7 → xsWindow s core k = 0) → (∀ a, actByUid s f.uid = some a → resident a = true) →
    let sh := c.shadow
    let n := shLen sh
    let src := fun r => rowAt (shAddr (nth sh 0)) (nth sh 3) r
    let dst := fun r => rowAt (shAddr (nth sh 1)) (nth sh 4) r
    let bs := tBytes (shSt sh)
    let bd := tBytes (shDt sh)
    shSpace (nth sh 0) = 1 → shSpace (nth sh 1) = 1 →
    (∀ r, r < shRows sh → 0 ≤ src r ∧ (src r).toNat + n ≤ 262144 ∧ 0 ≤ dst r ∧ (dst r).toNat + shDstLen sh ≤ 262144 ∧
      ∀ k, k < shRows sh → meets (dst r).toNat (shDstLen sh) (src k).toNat n = false ∧
        (k ≠ r → meets (dst r).toNat (shDstLen sh) (dst k).toNat (shDstLen sh) = false)) →
    (shEn sh = false → Now (exec (.copyCommandComplete core) s) fun t => (coreAt t core).copyQ = q ∧ Gone t c.id ∧
      (∀ r i, r < shRows sh → i < n → readByte t.mem (pool core ((dst r).toNat + i)) = readByte s.mem (pool core ((src r).toNat + i))) ∧
      ∀ x, (∀ r, r < shRows sh → x < pool core (dst r).toNat ∨ pool core (dst r).toNat + n ≤ x) →
        readByte t.mem x = readByte s.mem x) ∧
    (shEn sh = true → 0 < shSt sh → shSt sh < 13 → 0 < shDt sh → shDt sh < 13 → n % bs = 0 →
      Now (exec (.copyCommandComplete core) s) fun t => ∀ r e, r < shRows sh → e < n / bs →
        readN t.mem (pool core ((dst r).toNat + bd * e)) bd =
          (convertBits (shDt sh) (shSt sh) (readN s.mem (pool core ((src r).toNat + bs * e)) bs) (shRm sh) (shSat sh)
            (drawAt core ((coreAt s core).draws + (if shRm sh = 5 then n / bs * r else 0) + e))).1 % 2 ^ (8 * bd))) ∧
  (∀ (s : State) (f : Flight) (va n : Nat) (dk loc left : Nat) (leaf : Word) (s1 : State) (bs : List Byte),
    route s (srcDie f) (va % 2 ^ 57) = some dk → dk / 16 = f.req.src.pkg → s.eccBad = [] → f.req.txn = none →
    leafAPER leaf ≠ 1 → leafAPER leaf ≠ 5 → n ≤ left → s1.held = false → (dieAt s dk).failed = false →
    (dieAt s1 (locDie loc)).failed = false →
    (translateNow s dk (engReq f .erd va n) = (.ok loc leaf left, s1) →
      engRead f 0 va n s = .ok (readBytes (closeRange s1 loc n).mem loc n) (closeRange s1 loc n)) ∧
    (translateNow s dk (engReq f .ewr va n) = (.ok loc leaf left, s1) → bs.length = n →
      ∃ t, engWrite f 0 va bs s = .ok () t ∧ t.mem = writeBytes (closeRange s1 loc n).mem loc bs)) ∧
  ∀ (s : State) (id stack : Nat) (f : Flight) (g : Bool) (sh : List Word) (l : Nat) (parts : List Nat) (idx : Option (List Nat))
    (k : Nat) (src dst : Nat × Int) (u : Nat × Nat × Nat) (s1 s2 s3 s4 : State) (bs : List Byte),
    flightById s id = some f → f.pay = .plinth g sh l parts → f.stage = .waiting → stack ∈ parts → (∃ p ∈ parts, p ≠ stack) →
    plinthWaits s f stack = false → (dieAt s (actingDie f)).failed = false →
    gatherList f sh g l s = .ok idx s1 → srcRows (flightCore f) sh idx = [src] → dstRows (flightCore f) sh = [dst] →
    let meet := overlaps (placesOf s1 f .erd src (shLen sh)) (placesOf s1 f .ewr dst (shDstLen sh))
    ((g = false ∧ inPlace sh = true) ∨ meet = true → Now (exec (.plinthPartComplete id stack) s) fun t => t.mem = s1.mem) ∧
    (g = true ∨ inPlace sh = false → meet = false → rowUnits sh src.2.toNat = [u] → plinthRange f (src.2.toNat + u.1) u.2.1 s1 = .ok k s2 →
    (k ≠ stack → Now (exec (.plinthPartComplete id stack) s) fun t => t.mem = s2.mem) ∧
    (k = stack → engRead f 0 (src.2.toNat + u.1) u.2.1 s2 = .ok bs s3 →
      let core := flightCore f
      let out := if shEn sh then toBytes (tBytes (shDt sh)) (convertBits (shDt sh) (shSt sh) (ofBytes bs) (shRm sh) (shSat sh)
        (drawAt core (coreAt s3 core).draws)).1 else bs
      engWrite f dst.1 (dst.2.toNat + u.2.2) out (if shEn sh then useDraws s3 core (shRm sh) 1 else s3) = .ok () s4 →
      Now (exec (.plinthPartComplete id stack) s) fun t => t.mem = s4.mem))
end

