-- ==== Sys2Proof/Laws/Tables.lean ====
section
/-! SUPPORT. Sparse tables: reading back what was set, and what setting leaves alone. -/
namespace Sys2Proof.Machine

theorem mget_mset_same {α : Type} (m : SMap α) (k : Nat) (v d : α) : mget (mset m k v) k d = v := by
  induction m with
  | nil => simp [mset, mget]
  | cons e r ih =>
    obtain ⟨a, w⟩ := e
    simp only [mset]
    split
    · simp [mget]
    · split
      · simp [mget]
      · simp [mget, ih]; omega

theorem mget_mset_ne {α : Type} (m : SMap α) {k j : Nat} (v d : α) (h : j ≠ k) : mget (mset m k v) j d = mget m j d := by
  induction m with
  | nil => simp [mset, mget, Ne.symm h]
  | cons e r ih =>
    obtain ⟨a, w⟩ := e
    simp only [mset]
    split
    · simp [mget, Ne.symm h]
    · split
      · next h2 => subst h2; simp [mget, Ne.symm h]
      · simp [mget, ih]

theorem mfind_mset_same {α : Type} (m : SMap α) (k : Nat) (v : α) : mfind (mset m k v) k = some v := by
  induction m with
  | nil => simp [mset, mfind]
  | cons e r ih =>
    obtain ⟨a, w⟩ := e
    simp only [mset]
    split
    · simp [mfind]
    · split
      · simp [mfind]
      · simp [mfind, ih]; omega

theorem mfind_mset_ne {α : Type} (m : SMap α) {k j : Nat} (v : α) (h : j ≠ k) : mfind (mset m k v) j = mfind m j := by
  induction m with
  | nil => simp [mset, mfind, Ne.symm h]
  | cons e r ih =>
    obtain ⟨a, w⟩ := e
    simp only [mset]
    split
    · simp [mfind, Ne.symm h]
    · split
      · next h2 => subst h2; simp [mfind, Ne.symm h]
      · simp [mfind, ih]

/-- Replacing a record twice keeps the last. -/
theorem mset_mset {α : Type} (m : SMap α) (k : Nat) (v w : α) : mset (mset m k v) k w = mset m k w := by
  induction m with
  | nil => simp [mset]
  | cons e r ih =>
    obtain ⟨a, x⟩ := e
    by_cases h1 : k < a
    · simp [mset, h1]
    · by_cases h2 : k = a
      · subst h2; simp [mset]
      · simp [mset, h1, h2, ih]

/-- A record is found exactly where reading it does not depend on the value that stands for an absent one. -/
theorem mfind_of_mget {α : Type} (m : SMap α) (k : Nat) (d : α) : mget m k d = (mfind m k).getD d := by
  induction m with
  | nil => rfl
  | cons e r ih =>
    obtain ⟨a, w⟩ := e
    simp only [mget, mfind]
    split <;> simp [ih]

theorem coreAt_setCore (s : State) (k : Nat) (c : Core) : coreAt (setCore s k c) k = c := mget_mset_same ..
theorem coreAt_setCore_ne (s : State) {k j : Nat} (c : Core) (h : j ≠ k) : coreAt (setCore s k c) j = coreAt s j :=
  mget_mset_ne _ _ _ h
theorem actAt_setAct (s : State) (x : Nat) (a : Act) : actAt (setAct s x a) x = some a := mfind_mset_same ..
theorem actAt_setAct_ne (s : State) {x y : Nat} (a : Act) (h : y ≠ x) : actAt (setAct s x a) y = actAt s y :=
  mfind_mset_ne _ _ h
theorem dieAt_setDie (s : State) (k : Nat) (d : Die) : dieAt (setDie s k d) k = d := mget_mset_same ..
theorem clusAt_setClus (s : State) (k : Nat) (c : Cluster) : clusAt (setClus s k c) k = c := mget_mset_same ..
theorem mtuAt_setMtu (s : State) (k : Nat) (m : Mtu) : mtuAt (setMtu s k m) k = m := mget_mset_same ..
theorem pkgAt_setPkg (s : State) (k : Nat) (p : Pkg) : pkgAt (setPkg s k p) k = p := mget_mset_same ..
theorem calAt_setCal (s : State) (k : Nat) (c : Caliper) : calAt (setCal s k c) k = c := mget_mset_same ..
theorem osqAt_setOsq (s : State) (k : Nat) (q : Osq) : osqAt (setOsq s k q) k = q := mget_mset_same ..
theorem demAt_setDem (s : State) (k : Nat) (d : Demote) : demAt (setDem s k d) k = d := mget_mset_same ..

end Sys2Proof.Machine
end

