-- ==== Sys2Proof/Laws/Memory.lean ====
section
/-! SUPPORT. Memory: what a write leaves at each address, and that every operation keeps the canonical form. -/
namespace Sys2Proof.Machine

/-! ### Bytes and numbers -/

@[simp] theorem toBytes_length (n v : Nat) : (toBytes n v).length = n := by
  induction n generalizing v with
  | zero => rfl
  | succ n ih => simp [toBytes, ih]

theorem ofBytes_toBytes (n v : Nat) : ofBytes (toBytes n v) = v % 256 ^ n := by
  induction n generalizing v with
  | zero => simp [toBytes, ofBytes, Nat.mod_one]
  | succ n ih =>
    simp only [toBytes, ofBytes, ih, BitVec.toNat_ofNat]
    have e : 256 ^ (n + 1) = 256 * 256 ^ n := by rw [Nat.pow_succ, Nat.mul_comm]
    rw [e, Nat.mod_mul]

/-! ### Reading one byte -/

theorem mget_append {α : Type} (l r : SMap α) (k : Nat) (d : α) :
    mget (l ++ r) k d = mget l k (mget r k d) := by
  induction l with
  | nil => rfl
  | cons e l ih => obtain ⟨a, v⟩ := e; simp only [List.cons_append, mget, ih]

theorem mget_of_forall_ne {α : Type} (l : SMap α) (k : Nat) (d : α) (h : ∀ c ∈ l, c.1 ≠ k) : mget l k d = d := by
  induction l with
  | nil => rfl
  | cons e l ih =>
    obtain ⟨a, v⟩ := e
    have h0 : a ≠ k := h (a, v) (by simp)
    simp only [mget, if_neg h0]
    exact ih fun c hc => h c (by simp [hc])

theorem mget_filter {α : Type} (l : SMap α) (p : Nat → Bool) (k : Nat) (d : α) (h : p k = true) :
    mget (l.filter fun c => p c.1) k d = mget l k d := by
  induction l with
  | nil => rfl
  | cons e l ih =>
    obtain ⟨a, v⟩ := e
    by_cases hp : p a = true
    · simp only [List.filter_cons, hp, if_true, mget, ih]
    · simp only [List.filter_cons, hp, mget]
      have : a ≠ k := by rintro rfl; exact hp h
      simp [this, ih]

theorem cellsOf_range (m : Memory) (a : Nat) (bs : List Byte) :
    ∀ c ∈ cellsOf m a bs, a ≤ c.1 ∧ c.1 < a + bs.length ∧ (c.2 ≠ 0 ∨ undefEpoch m c.1 ≠ 0) := by
  induction bs generalizing a with
  | nil => simp [cellsOf]
  | cons b r ih =>
    intro c hc
    simp only [cellsOf] at hc
    split at hc
    · have h2 := ih (a + 1) c hc
      simp only [List.length_cons]
      exact ⟨by omega, by omega, h2.2.2⟩
    · next hb =>
      rcases List.mem_cons.1 hc with rfl | hc
      · refine ⟨Nat.le_refl _, by simp, ?_⟩
        by_cases h : b = 0
        · exact .inr fun h2 => hb ⟨h, h2⟩
        · exact .inl h
      · have h2 := ih (a + 1) c hc
        simp only [List.length_cons]
        exact ⟨by omega, by omega, h2.2.2⟩

/-- Undefined rows are not touched by a write. -/
@[simp] theorem undefEpoch_writeBytes (m : Memory) (a : Nat) (bs : List Byte) (x : Nat) :
    undefEpoch (writeBytes m a bs) x = undefEpoch m x := rfl

theorem mget_cellsOf (m : Memory) (a : Nat) (bs : List Byte) (i : Nat) (h : i < bs.length) :
    mget (cellsOf m a bs) (a + i) (unlisted m (a + i)) = bs[i] := by
  induction bs generalizing a i with
  | nil => simp at h
  | cons b r ih =>
    have low : ∀ k d, k < a + 1 → mget (cellsOf m (a + 1) r) k d = d := fun k d hk =>
      mget_of_forall_ne _ _ _ fun c hc => by have := cellsOf_range m (a + 1) r c hc; omega
    cases i with
    | zero =>
      simp only [cellsOf]
      split
      · next hb =>
        rw [low _ _ (by omega)]
        simp [unlisted, hb.2, hb.1]
      · simp [mget]
    | succ i =>
      have e : a + (i + 1) = (a + 1) + i := by omega
      simp only [cellsOf]
      split
      · rw [e, ih (a + 1) i (by simpa using h)]; simp
      · simp only [mget]
        rw [if_neg (by omega), e, ih (a + 1) i (by simpa using h)]; simp

/-- A byte outside a write reads as before. -/
theorem readByte_writeBytes_ne (m : Memory) (a : Nat) (bs : List Byte) (x : Nat) (h : x < a ∨ a + bs.length ≤ x) :
    readByte (writeBytes m a bs) x = readByte m x := by
  have mid : ∀ d, mget (cellsOf m a bs) x d = d := fun d =>
    mget_of_forall_ne _ _ _ fun c hc => by have := cellsOf_range m a bs c hc; omega
  have un : unlisted (writeBytes m a bs) x = unlisted m x := rfl
  simp only [readByte, un]
  simp only [writeBytes, mget_append, mid]
  rcases h with h | h
  · have hi : mget (m.cells.filter fun c => decide (a + bs.length ≤ c.1)) x (unlisted m x) = unlisted m x :=
      mget_of_forall_ne _ _ _ fun c hc => by have := (List.mem_filter.1 hc).2; simp at this; omega
    rw [hi, mget_filter _ (fun k => decide (k < a)) _ _ (by simpa using h)]
  · rw [mget_of_forall_ne (m.cells.filter fun c => decide (c.1 < a)) _ _
      fun c hc => by have := (List.mem_filter.1 hc).2; simp at this; omega]
    exact mget_filter _ (fun k => decide (a + bs.length ≤ k)) _ _ (by simpa using h)

/-- A byte that a write stores reads as the byte stored. -/
theorem readByte_writeBytes (m : Memory) (a : Nat) (bs : List Byte) (i : Nat) (h : i < bs.length) :
    readByte (writeBytes m a bs) (a + i) = bs[i] := by
  have un : unlisted (writeBytes m a bs) (a + i) = unlisted m (a + i) := rfl
  simp only [readByte, un]
  simp only [writeBytes, mget_append]
  rw [mget_of_forall_ne (m.cells.filter fun c => decide (c.1 < a)) _ _
    fun c hc => by have := (List.mem_filter.1 hc).2; simp at this; omega]
  rw [mget_of_forall_ne (m.cells.filter fun c => decide (a + bs.length ≤ c.1)) _ _
    fun c hc => by have := (List.mem_filter.1 hc).2; simp at this; omega]
  exact mget_cellsOf m a bs i h

/-- Reading a run of bytes is reading each of them. -/
theorem readBytes_eq (m : Memory) (a n : Nat) : readBytes m a n = (List.range n).map fun i => readByte m (a + i) := by
  simp only [readBytes]
  refine List.map_congr_left fun i hi => ?_
  have hi := List.mem_range.1 hi
  have un : unlisted { m with cells := m.cells.filter fun c => decide (a ≤ c.1) && decide (c.1 < a + n) } (a + i) =
    unlisted m (a + i) := rfl
  simp only [readByte, un]
  exact mget_filter _ (fun k => decide (a ≤ k) && decide (k < a + n)) _ _ (by simp; omega)

@[simp] theorem readBytes_length (m : Memory) (a n : Nat) : (readBytes m a n).length = n := by simp [readBytes]

/-- Bytes read where they were just written. -/
theorem readBytes_writeBytes (m : Memory) (a : Nat) (bs : List Byte) :
    readBytes (writeBytes m a bs) a bs.length = bs := by
  rw [readBytes_eq]
  apply List.ext_getElem (by simp)
  intro i h1 h2
  simp only [List.getElem_map, List.getElem_range]
  exact readByte_writeBytes m a bs i h2

/-- Bytes read apart from those written. -/
theorem readBytes_writeBytes_ne (m : Memory) (a : Nat) (bs : List Byte) (b n : Nat) (h : b + n ≤ a ∨ a + bs.length ≤ b) :
    readBytes (writeBytes m a bs) b n = readBytes m b n := by
  rw [readBytes_eq, readBytes_eq]
  refine List.map_congr_left fun i hi => readByte_writeBytes_ne _ _ _ _ ?_
  have := List.mem_range.1 hi
  omega

/-- A number read where it was just written. -/
theorem readN_writeN (m : Memory) (a n v : Nat) : readN (writeN m a n v) a n = v % 256 ^ n := by
  have := readBytes_writeBytes m a (toBytes n v)
  simp only [toBytes_length] at this
  simp [readN, writeN, this, ofBytes_toBytes]

theorem readN_writeN_ne (m : Memory) (a n v b k : Nat) (h : b + k ≤ a ∨ a + n ≤ b) :
    readN (writeN m a n v) b k = readN m b k := by
  simp only [readN, writeN]
  rw [readBytes_writeBytes_ne _ _ _ _ _ (by simpa using h)]

theorem readByte_writeN_ne (m : Memory) (a n v x : Nat) (h : x < a ∨ a + n ≤ x) :
    readByte (writeN m a n v) x = readByte m x := readByte_writeBytes_ne _ _ _ _ (by simpa using h)

/-! ### The canonical form -/

theorem rising_append (l r : List Host.Cell) :
    rising (l ++ r) = true ↔ rising l = true ∧ rising r = true ∧ ∀ c ∈ l, ∀ d ∈ r, c.1 < d.1 := by
  induction l with
  | nil => simp [rising]
  | cons e l ih =>
    obtain ⟨a, b⟩ := e
    simp only [List.cons_append, rising, Bool.and_eq_true, ih, List.all_eq_true, decide_eq_true_eq, List.mem_cons,
      List.mem_append]
    constructor
    · rintro ⟨h1, h2, h3, h4⟩
      refine ⟨⟨fun c hc => h1 c (.inl hc), h2⟩, h3, ?_⟩
      rintro c (rfl | hc) d hd
      · exact h1 d (.inr hd)
      · exact h4 c hc d hd
    · rintro ⟨⟨h1, h2⟩, h3, h4⟩
      refine ⟨?_, h2, h3, fun c hc d hd => h4 c (.inr hc) d hd⟩
      rintro c (hc | hc)
      · exact h1 c hc
      · exact h4 (a, b) (.inl rfl) c hc

theorem rising_filter (l : List Host.Cell) (p : Host.Cell → Bool) (h : rising l = true) : rising (l.filter p) = true := by
  induction l with
  | nil => rfl
  | cons e l ih =>
    obtain ⟨a, b⟩ := e
    simp only [rising, Bool.and_eq_true, List.all_eq_true, decide_eq_true_eq] at h
    simp only [List.filter_cons]
    split
    · simp only [rising, Bool.and_eq_true, List.all_eq_true, decide_eq_true_eq]
      exact ⟨fun c hc => h.1 c (List.mem_filter.1 hc).1, ih h.2⟩
    · exact ih h.2

theorem rising_cellsOf (m : Memory) (a : Nat) (bs : List Byte) : rising (cellsOf m a bs) = true := by
  induction bs generalizing a with
  | nil => rfl
  | cons b r ih =>
    simp only [cellsOf]
    split
    · exact ih (a + 1)
    · simp only [rising, Bool.and_eq_true, List.all_eq_true, decide_eq_true_eq]
      exact ⟨fun c hc => by have := cellsOf_range m (a + 1) r c hc; omega, ih (a + 1)⟩

/-- The canonical form says: cells rise, and none of a defined row is zero. -/
theorem wf_iff (m : Memory) :
    m.wf = true ↔ rising m.cells = true ∧ ∀ c ∈ m.cells, c.2 ≠ 0 ∨ undefEpoch m c.1 ≠ 0 := by
  simp [Memory.wf]

theorem writeBytes_wf (m : Memory) (a : Nat) (bs : List Byte) (h : m.wf = true) : (writeBytes m a bs).wf = true := by
  rw [wf_iff] at *
  constructor
  · simp only [writeBytes]
    rw [rising_append, rising_append]
    refine ⟨⟨rising_filter _ _ h.1, rising_cellsOf .., fun c hc d hd => ?_⟩, rising_filter _ _ h.1, fun c hc d hd => ?_⟩
    · have h1 := (List.mem_filter.1 hc).2
      have h2 := cellsOf_range m a bs d hd
      simp at h1; omega
    · have h2 := (List.mem_filter.1 hd).2
      simp at h2
      rcases List.mem_append.1 hc with hc | hc
      · have h1 := (List.mem_filter.1 hc).2
        simp at h1; omega
      · have h1 := cellsOf_range m a bs c hc
        omega
  · intro c hc
    rw [undefEpoch_writeBytes]
    simp only [writeBytes, List.append_assoc, List.mem_append] at hc
    rcases hc with hc | hc | hc
    · exact h.2 c (List.mem_filter.1 hc).1
    · exact (cellsOf_range m a bs c hc).2.2
    · exact h.2 c (List.mem_filter.1 hc).1

theorem writeN_wf (m : Memory) (a n v : Nat) (h : m.wf = true) : (writeN m a n v).wf = true := writeBytes_wf _ _ _ h

theorem copyBytes_wf (m : Memory) (d s n : Nat) (h : m.wf = true) : (copyBytes m d s n).wf = true := writeBytes_wf _ _ _ h

theorem poison_wf (m : Memory) (a e n : Nat) (h : m.wf = true) : (poison m a e n).wf = true := by
  induction n generalizing m a with
  | zero => exact h
  | succ n ih =>
    refine ih _ _ ?_
    rw [wf_iff] at *
    refine ⟨rising_filter _ _ h.1, fun c hc => ?_⟩
    have hm := List.mem_filter.1 hc
    have hne : c.1 / 512 ≠ a / 512 := by simpa using hm.2
    have he : undefEpoch { cells := m.cells.filter (fun c => c.1 / 512 != a / 512), undef := mset m.undef (a / 512) e } c.1 =
      undefEpoch m c.1 := mget_mset_ne _ _ _ hne
    rw [he]
    exact h.2 c hm.1

/-- The memory after reset has the canonical form. -/
theorem reset_wf : State.reset.mem.wf = true := by decide

end Sys2Proof.Machine
end

