-- ==== Sys2Proof/Laws/State.lean ====
section
/-! SUPPORT. What each update of the state leaves unchanged, field by field. -/
namespace Sys2Proof.Machine

@[simp] theorem setCore_now (s : State) (c : Nat) (v : Core) : (setCore s c v).now = s.now := rfl
@[simp] theorem setCore_agenda (s : State) (c : Nat) (v : Core) : (setCore s c v).agenda = s.agenda := rfl
@[simp] theorem setCore_focus (s : State) (c : Nat) (v : Core) : (setCore s c v).focus = s.focus := rfl
@[simp] theorem setCore_cur (s : State) (c : Nat) (v : Core) : (setCore s c v).cur = s.cur := rfl
@[simp] theorem setCore_fresh (s : State) (c : Nat) (v : Core) : (setCore s c v).fresh = s.fresh := rfl
@[simp] theorem setCore_nextId (s : State) (c : Nat) (v : Core) : (setCore s c v).nextId = s.nextId := rfl
@[simp] theorem setCore_regs (s : State) (c : Nat) (v : Core) : (setCore s c v).regs = s.regs := rfl
@[simp] theorem setCore_mem (s : State) (c : Nat) (v : Core) : (setCore s c v).mem = s.mem := rfl
@[simp] theorem setCore_eccBad (s : State) (c : Nat) (v : Core) : (setCore s c v).eccBad = s.eccBad := rfl
@[simp] theorem setCore_acts (s : State) (c : Nat) (v : Core) : (setCore s c v).acts = s.acts := rfl
@[simp] theorem setCore_dies (s : State) (c : Nat) (v : Core) : (setCore s c v).dies = s.dies := rfl
@[simp] theorem setCore_mtus (s : State) (c : Nat) (v : Core) : (setCore s c v).mtus = s.mtus := rfl
@[simp] theorem setCore_bcasts (s : State) (c : Nat) (v : Core) : (setCore s c v).bcasts = s.bcasts := rfl
@[simp] theorem setCore_wqs (s : State) (c : Nat) (v : Core) : (setCore s c v).wqs = s.wqs := rfl
@[simp] theorem setCore_demotes (s : State) (c : Nat) (v : Core) : (setCore s c v).demotes = s.demotes := rfl
@[simp] theorem setCore_cals (s : State) (c : Nat) (v : Core) : (setCore s c v).cals = s.cals := rfl
@[simp] theorem setCore_osqs (s : State) (c : Nat) (v : Core) : (setCore s c v).osqs = s.osqs := rfl
@[simp] theorem setCore_clus (s : State) (c : Nat) (v : Core) : (setCore s c v).clus = s.clus := rfl
@[simp] theorem setCore_gangs (s : State) (c : Nat) (v : Core) : (setCore s c v).gangs = s.gangs := rfl
@[simp] theorem setCore_pkgs (s : State) (c : Nat) (v : Core) : (setCore s c v).pkgs = s.pkgs := rfl
@[simp] theorem setCore_pools (s : State) (c : Nat) (v : Core) : (setCore s c v).pools = s.pools := rfl
@[simp] theorem setCore_flights (s : State) (c : Nat) (v : Core) : (setCore s c v).flights = s.flights := rfl
@[simp] theorem setCore_bars (s : State) (c : Nat) (v : Core) : (setCore s c v).bars = s.bars := rfl
@[simp] theorem setCore_barWaits (s : State) (c : Nat) (v : Core) : (setCore s c v).barWaits = s.barWaits := rfl
@[simp] theorem setCore_barKids (s : State) (c : Nat) (v : Core) : (setCore s c v).barKids = s.barKids := rfl
@[simp] theorem setCore_barHeld (s : State) (c : Nat) (v : Core) : (setCore s c v).barHeld = s.barHeld := rfl
@[simp] theorem setCore_barUps (s : State) (c : Nat) (v : Core) : (setCore s c v).barUps = s.barUps := rfl
@[simp] theorem setCore_noPath (s : State) (c : Nat) (v : Core) : (setCore s c v).noPath = s.noPath := rfl
@[simp] theorem setCore_held (s : State) (c : Nat) (v : Core) : (setCore s c v).held = s.held := rfl
@[simp] theorem setCore_heldReqs (s : State) (c : Nat) (v : Core) : (setCore s c v).heldReqs = s.heldReqs := rfl
@[simp] theorem setCore_redHeld (s : State) (c : Nat) (v : Core) : (setCore s c v).redHeld = s.redHeld := rfl
@[simp] theorem setCore_cables (s : State) (c : Nat) (v : Core) : (setCore s c v).cables = s.cables := rfl
@[simp] theorem setCore_ticks (s : State) (c : Nat) (v : Core) : (setCore s c v).ticks = s.ticks := rfl
@[simp] theorem setCore_lanes (s : State) (c : Nat) (v : Core) : (setCore s c v).lanes = s.lanes := rfl
@[simp] theorem setCore_hostRead (s : State) (c : Nat) (v : Core) : (setCore s c v).hostRead = s.hostRead := rfl

@[simp] theorem setDie_now (s : State) (c : Nat) (v : Die) : (setDie s c v).now = s.now := rfl
@[simp] theorem setDie_agenda (s : State) (c : Nat) (v : Die) : (setDie s c v).agenda = s.agenda := rfl
@[simp] theorem setDie_focus (s : State) (c : Nat) (v : Die) : (setDie s c v).focus = s.focus := rfl
@[simp] theorem setDie_cur (s : State) (c : Nat) (v : Die) : (setDie s c v).cur = s.cur := rfl
@[simp] theorem setDie_fresh (s : State) (c : Nat) (v : Die) : (setDie s c v).fresh = s.fresh := rfl
@[simp] theorem setDie_nextId (s : State) (c : Nat) (v : Die) : (setDie s c v).nextId = s.nextId := rfl
@[simp] theorem setDie_regs (s : State) (c : Nat) (v : Die) : (setDie s c v).regs = s.regs := rfl
@[simp] theorem setDie_mem (s : State) (c : Nat) (v : Die) : (setDie s c v).mem = s.mem := rfl
@[simp] theorem setDie_eccBad (s : State) (c : Nat) (v : Die) : (setDie s c v).eccBad = s.eccBad := rfl
@[simp] theorem setDie_acts (s : State) (c : Nat) (v : Die) : (setDie s c v).acts = s.acts := rfl
@[simp] theorem setDie_cores (s : State) (c : Nat) (v : Die) : (setDie s c v).cores = s.cores := rfl
@[simp] theorem setDie_mtus (s : State) (c : Nat) (v : Die) : (setDie s c v).mtus = s.mtus := rfl
@[simp] theorem setDie_bcasts (s : State) (c : Nat) (v : Die) : (setDie s c v).bcasts = s.bcasts := rfl
@[simp] theorem setDie_wqs (s : State) (c : Nat) (v : Die) : (setDie s c v).wqs = s.wqs := rfl
@[simp] theorem setDie_demotes (s : State) (c : Nat) (v : Die) : (setDie s c v).demotes = s.demotes := rfl
@[simp] theorem setDie_cals (s : State) (c : Nat) (v : Die) : (setDie s c v).cals = s.cals := rfl
@[simp] theorem setDie_osqs (s : State) (c : Nat) (v : Die) : (setDie s c v).osqs = s.osqs := rfl
@[simp] theorem setDie_clus (s : State) (c : Nat) (v : Die) : (setDie s c v).clus = s.clus := rfl
@[simp] theorem setDie_gangs (s : State) (c : Nat) (v : Die) : (setDie s c v).gangs = s.gangs := rfl
@[simp] theorem setDie_pkgs (s : State) (c : Nat) (v : Die) : (setDie s c v).pkgs = s.pkgs := rfl
@[simp] theorem setDie_pools (s : State) (c : Nat) (v : Die) : (setDie s c v).pools = s.pools := rfl
@[simp] theorem setDie_flights (s : State) (c : Nat) (v : Die) : (setDie s c v).flights = s.flights := rfl
@[simp] theorem setDie_bars (s : State) (c : Nat) (v : Die) : (setDie s c v).bars = s.bars := rfl
@[simp] theorem setDie_barWaits (s : State) (c : Nat) (v : Die) : (setDie s c v).barWaits = s.barWaits := rfl
@[simp] theorem setDie_barKids (s : State) (c : Nat) (v : Die) : (setDie s c v).barKids = s.barKids := rfl
@[simp] theorem setDie_barHeld (s : State) (c : Nat) (v : Die) : (setDie s c v).barHeld = s.barHeld := rfl
@[simp] theorem setDie_barUps (s : State) (c : Nat) (v : Die) : (setDie s c v).barUps = s.barUps := rfl
@[simp] theorem setDie_noPath (s : State) (c : Nat) (v : Die) : (setDie s c v).noPath = s.noPath := rfl
@[simp] theorem setDie_held (s : State) (c : Nat) (v : Die) : (setDie s c v).held = s.held := rfl
@[simp] theorem setDie_heldReqs (s : State) (c : Nat) (v : Die) : (setDie s c v).heldReqs = s.heldReqs := rfl
@[simp] theorem setDie_redHeld (s : State) (c : Nat) (v : Die) : (setDie s c v).redHeld = s.redHeld := rfl
@[simp] theorem setDie_cables (s : State) (c : Nat) (v : Die) : (setDie s c v).cables = s.cables := rfl
@[simp] theorem setDie_ticks (s : State) (c : Nat) (v : Die) : (setDie s c v).ticks = s.ticks := rfl
@[simp] theorem setDie_lanes (s : State) (c : Nat) (v : Die) : (setDie s c v).lanes = s.lanes := rfl
@[simp] theorem setDie_hostRead (s : State) (c : Nat) (v : Die) : (setDie s c v).hostRead = s.hostRead := rfl

@[simp] theorem setMtu_now (s : State) (c : Nat) (v : Mtu) : (setMtu s c v).now = s.now := rfl
@[simp] theorem setMtu_agenda (s : State) (c : Nat) (v : Mtu) : (setMtu s c v).agenda = s.agenda := rfl
@[simp] theorem setMtu_focus (s : State) (c : Nat) (v : Mtu) : (setMtu s c v).focus = s.focus := rfl
@[simp] theorem setMtu_cur (s : State) (c : Nat) (v : Mtu) : (setMtu s c v).cur = s.cur := rfl
@[simp] theorem setMtu_fresh (s : State) (c : Nat) (v : Mtu) : (setMtu s c v).fresh = s.fresh := rfl
@[simp] theorem setMtu_nextId (s : State) (c : Nat) (v : Mtu) : (setMtu s c v).nextId = s.nextId := rfl
@[simp] theorem setMtu_regs (s : State) (c : Nat) (v : Mtu) : (setMtu s c v).regs = s.regs := rfl
@[simp] theorem setMtu_mem (s : State) (c : Nat) (v : Mtu) : (setMtu s c v).mem = s.mem := rfl
@[simp] theorem setMtu_eccBad (s : State) (c : Nat) (v : Mtu) : (setMtu s c v).eccBad = s.eccBad := rfl
@[simp] theorem setMtu_acts (s : State) (c : Nat) (v : Mtu) : (setMtu s c v).acts = s.acts := rfl
@[simp] theorem setMtu_cores (s : State) (c : Nat) (v : Mtu) : (setMtu s c v).cores = s.cores := rfl
@[simp] theorem setMtu_dies (s : State) (c : Nat) (v : Mtu) : (setMtu s c v).dies = s.dies := rfl
@[simp] theorem setMtu_bcasts (s : State) (c : Nat) (v : Mtu) : (setMtu s c v).bcasts = s.bcasts := rfl
@[simp] theorem setMtu_wqs (s : State) (c : Nat) (v : Mtu) : (setMtu s c v).wqs = s.wqs := rfl
@[simp] theorem setMtu_demotes (s : State) (c : Nat) (v : Mtu) : (setMtu s c v).demotes = s.demotes := rfl
@[simp] theorem setMtu_cals (s : State) (c : Nat) (v : Mtu) : (setMtu s c v).cals = s.cals := rfl
@[simp] theorem setMtu_osqs (s : State) (c : Nat) (v : Mtu) : (setMtu s c v).osqs = s.osqs := rfl
@[simp] theorem setMtu_clus (s : State) (c : Nat) (v : Mtu) : (setMtu s c v).clus = s.clus := rfl
@[simp] theorem setMtu_gangs (s : State) (c : Nat) (v : Mtu) : (setMtu s c v).gangs = s.gangs := rfl
@[simp] theorem setMtu_pkgs (s : State) (c : Nat) (v : Mtu) : (setMtu s c v).pkgs = s.pkgs := rfl
@[simp] theorem setMtu_pools (s : State) (c : Nat) (v : Mtu) : (setMtu s c v).pools = s.pools := rfl
@[simp] theorem setMtu_flights (s : State) (c : Nat) (v : Mtu) : (setMtu s c v).flights = s.flights := rfl
@[simp] theorem setMtu_bars (s : State) (c : Nat) (v : Mtu) : (setMtu s c v).bars = s.bars := rfl
@[simp] theorem setMtu_barWaits (s : State) (c : Nat) (v : Mtu) : (setMtu s c v).barWaits = s.barWaits := rfl
@[simp] theorem setMtu_barKids (s : State) (c : Nat) (v : Mtu) : (setMtu s c v).barKids = s.barKids := rfl
@[simp] theorem setMtu_barHeld (s : State) (c : Nat) (v : Mtu) : (setMtu s c v).barHeld = s.barHeld := rfl
@[simp] theorem setMtu_barUps (s : State) (c : Nat) (v : Mtu) : (setMtu s c v).barUps = s.barUps := rfl
@[simp] theorem setMtu_noPath (s : State) (c : Nat) (v : Mtu) : (setMtu s c v).noPath = s.noPath := rfl
@[simp] theorem setMtu_held (s : State) (c : Nat) (v : Mtu) : (setMtu s c v).held = s.held := rfl
@[simp] theorem setMtu_heldReqs (s : State) (c : Nat) (v : Mtu) : (setMtu s c v).heldReqs = s.heldReqs := rfl
@[simp] theorem setMtu_redHeld (s : State) (c : Nat) (v : Mtu) : (setMtu s c v).redHeld = s.redHeld := rfl
@[simp] theorem setMtu_cables (s : State) (c : Nat) (v : Mtu) : (setMtu s c v).cables = s.cables := rfl
@[simp] theorem setMtu_ticks (s : State) (c : Nat) (v : Mtu) : (setMtu s c v).ticks = s.ticks := rfl
@[simp] theorem setMtu_lanes (s : State) (c : Nat) (v : Mtu) : (setMtu s c v).lanes = s.lanes := rfl
@[simp] theorem setMtu_hostRead (s : State) (c : Nat) (v : Mtu) : (setMtu s c v).hostRead = s.hostRead := rfl

@[simp] theorem setClus_now (s : State) (c : Nat) (v : Cluster) : (setClus s c v).now = s.now := rfl
@[simp] theorem setClus_agenda (s : State) (c : Nat) (v : Cluster) : (setClus s c v).agenda = s.agenda := rfl
@[simp] theorem setClus_focus (s : State) (c : Nat) (v : Cluster) : (setClus s c v).focus = s.focus := rfl
@[simp] theorem setClus_cur (s : State) (c : Nat) (v : Cluster) : (setClus s c v).cur = s.cur := rfl
@[simp] theorem setClus_fresh (s : State) (c : Nat) (v : Cluster) : (setClus s c v).fresh = s.fresh := rfl
@[simp] theorem setClus_nextId (s : State) (c : Nat) (v : Cluster) : (setClus s c v).nextId = s.nextId := rfl
@[simp] theorem setClus_regs (s : State) (c : Nat) (v : Cluster) : (setClus s c v).regs = s.regs := rfl
@[simp] theorem setClus_mem (s : State) (c : Nat) (v : Cluster) : (setClus s c v).mem = s.mem := rfl
@[simp] theorem setClus_eccBad (s : State) (c : Nat) (v : Cluster) : (setClus s c v).eccBad = s.eccBad := rfl
@[simp] theorem setClus_acts (s : State) (c : Nat) (v : Cluster) : (setClus s c v).acts = s.acts := rfl
@[simp] theorem setClus_cores (s : State) (c : Nat) (v : Cluster) : (setClus s c v).cores = s.cores := rfl
@[simp] theorem setClus_dies (s : State) (c : Nat) (v : Cluster) : (setClus s c v).dies = s.dies := rfl
@[simp] theorem setClus_mtus (s : State) (c : Nat) (v : Cluster) : (setClus s c v).mtus = s.mtus := rfl
@[simp] theorem setClus_bcasts (s : State) (c : Nat) (v : Cluster) : (setClus s c v).bcasts = s.bcasts := rfl
@[simp] theorem setClus_wqs (s : State) (c : Nat) (v : Cluster) : (setClus s c v).wqs = s.wqs := rfl
@[simp] theorem setClus_demotes (s : State) (c : Nat) (v : Cluster) : (setClus s c v).demotes = s.demotes := rfl
@[simp] theorem setClus_cals (s : State) (c : Nat) (v : Cluster) : (setClus s c v).cals = s.cals := rfl
@[simp] theorem setClus_osqs (s : State) (c : Nat) (v : Cluster) : (setClus s c v).osqs = s.osqs := rfl
@[simp] theorem setClus_gangs (s : State) (c : Nat) (v : Cluster) : (setClus s c v).gangs = s.gangs := rfl
@[simp] theorem setClus_pkgs (s : State) (c : Nat) (v : Cluster) : (setClus s c v).pkgs = s.pkgs := rfl
@[simp] theorem setClus_pools (s : State) (c : Nat) (v : Cluster) : (setClus s c v).pools = s.pools := rfl
@[simp] theorem setClus_flights (s : State) (c : Nat) (v : Cluster) : (setClus s c v).flights = s.flights := rfl
@[simp] theorem setClus_bars (s : State) (c : Nat) (v : Cluster) : (setClus s c v).bars = s.bars := rfl
@[simp] theorem setClus_barWaits (s : State) (c : Nat) (v : Cluster) : (setClus s c v).barWaits = s.barWaits := rfl
@[simp] theorem setClus_barKids (s : State) (c : Nat) (v : Cluster) : (setClus s c v).barKids = s.barKids := rfl
@[simp] theorem setClus_barHeld (s : State) (c : Nat) (v : Cluster) : (setClus s c v).barHeld = s.barHeld := rfl
@[simp] theorem setClus_barUps (s : State) (c : Nat) (v : Cluster) : (setClus s c v).barUps = s.barUps := rfl
@[simp] theorem setClus_noPath (s : State) (c : Nat) (v : Cluster) : (setClus s c v).noPath = s.noPath := rfl
@[simp] theorem setClus_held (s : State) (c : Nat) (v : Cluster) : (setClus s c v).held = s.held := rfl
@[simp] theorem setClus_heldReqs (s : State) (c : Nat) (v : Cluster) : (setClus s c v).heldReqs = s.heldReqs := rfl
@[simp] theorem setClus_redHeld (s : State) (c : Nat) (v : Cluster) : (setClus s c v).redHeld = s.redHeld := rfl
@[simp] theorem setClus_cables (s : State) (c : Nat) (v : Cluster) : (setClus s c v).cables = s.cables := rfl
@[simp] theorem setClus_ticks (s : State) (c : Nat) (v : Cluster) : (setClus s c v).ticks = s.ticks := rfl
@[simp] theorem setClus_lanes (s : State) (c : Nat) (v : Cluster) : (setClus s c v).lanes = s.lanes := rfl
@[simp] theorem setClus_hostRead (s : State) (c : Nat) (v : Cluster) : (setClus s c v).hostRead = s.hostRead := rfl

@[simp] theorem setPkg_now (s : State) (c : Nat) (v : Pkg) : (setPkg s c v).now = s.now := rfl
@[simp] theorem setPkg_agenda (s : State) (c : Nat) (v : Pkg) : (setPkg s c v).agenda = s.agenda := rfl
@[simp] theorem setPkg_focus (s : State) (c : Nat) (v : Pkg) : (setPkg s c v).focus = s.focus := rfl
@[simp] theorem setPkg_cur (s : State) (c : Nat) (v : Pkg) : (setPkg s c v).cur = s.cur := rfl
@[simp] theorem setPkg_fresh (s : State) (c : Nat) (v : Pkg) : (setPkg s c v).fresh = s.fresh := rfl
@[simp] theorem setPkg_nextId (s : State) (c : Nat) (v : Pkg) : (setPkg s c v).nextId = s.nextId := rfl
@[simp] theorem setPkg_regs (s : State) (c : Nat) (v : Pkg) : (setPkg s c v).regs = s.regs := rfl
@[simp] theorem setPkg_mem (s : State) (c : Nat) (v : Pkg) : (setPkg s c v).mem = s.mem := rfl
@[simp] theorem setPkg_eccBad (s : State) (c : Nat) (v : Pkg) : (setPkg s c v).eccBad = s.eccBad := rfl
@[simp] theorem setPkg_acts (s : State) (c : Nat) (v : Pkg) : (setPkg s c v).acts = s.acts := rfl
@[simp] theorem setPkg_cores (s : State) (c : Nat) (v : Pkg) : (setPkg s c v).cores = s.cores := rfl
@[simp] theorem setPkg_dies (s : State) (c : Nat) (v : Pkg) : (setPkg s c v).dies = s.dies := rfl
@[simp] theorem setPkg_mtus (s : State) (c : Nat) (v : Pkg) : (setPkg s c v).mtus = s.mtus := rfl
@[simp] theorem setPkg_bcasts (s : State) (c : Nat) (v : Pkg) : (setPkg s c v).bcasts = s.bcasts := rfl
@[simp] theorem setPkg_wqs (s : State) (c : Nat) (v : Pkg) : (setPkg s c v).wqs = s.wqs := rfl
@[simp] theorem setPkg_demotes (s : State) (c : Nat) (v : Pkg) : (setPkg s c v).demotes = s.demotes := rfl
@[simp] theorem setPkg_cals (s : State) (c : Nat) (v : Pkg) : (setPkg s c v).cals = s.cals := rfl
@[simp] theorem setPkg_osqs (s : State) (c : Nat) (v : Pkg) : (setPkg s c v).osqs = s.osqs := rfl
@[simp] theorem setPkg_clus (s : State) (c : Nat) (v : Pkg) : (setPkg s c v).clus = s.clus := rfl
@[simp] theorem setPkg_gangs (s : State) (c : Nat) (v : Pkg) : (setPkg s c v).gangs = s.gangs := rfl
@[simp] theorem setPkg_pools (s : State) (c : Nat) (v : Pkg) : (setPkg s c v).pools = s.pools := rfl
@[simp] theorem setPkg_flights (s : State) (c : Nat) (v : Pkg) : (setPkg s c v).flights = s.flights := rfl
@[simp] theorem setPkg_bars (s : State) (c : Nat) (v : Pkg) : (setPkg s c v).bars = s.bars := rfl
@[simp] theorem setPkg_barWaits (s : State) (c : Nat) (v : Pkg) : (setPkg s c v).barWaits = s.barWaits := rfl
@[simp] theorem setPkg_barKids (s : State) (c : Nat) (v : Pkg) : (setPkg s c v).barKids = s.barKids := rfl
@[simp] theorem setPkg_barHeld (s : State) (c : Nat) (v : Pkg) : (setPkg s c v).barHeld = s.barHeld := rfl
@[simp] theorem setPkg_barUps (s : State) (c : Nat) (v : Pkg) : (setPkg s c v).barUps = s.barUps := rfl
@[simp] theorem setPkg_noPath (s : State) (c : Nat) (v : Pkg) : (setPkg s c v).noPath = s.noPath := rfl
@[simp] theorem setPkg_held (s : State) (c : Nat) (v : Pkg) : (setPkg s c v).held = s.held := rfl
@[simp] theorem setPkg_heldReqs (s : State) (c : Nat) (v : Pkg) : (setPkg s c v).heldReqs = s.heldReqs := rfl
@[simp] theorem setPkg_redHeld (s : State) (c : Nat) (v : Pkg) : (setPkg s c v).redHeld = s.redHeld := rfl
@[simp] theorem setPkg_cables (s : State) (c : Nat) (v : Pkg) : (setPkg s c v).cables = s.cables := rfl
@[simp] theorem setPkg_ticks (s : State) (c : Nat) (v : Pkg) : (setPkg s c v).ticks = s.ticks := rfl
@[simp] theorem setPkg_lanes (s : State) (c : Nat) (v : Pkg) : (setPkg s c v).lanes = s.lanes := rfl
@[simp] theorem setPkg_hostRead (s : State) (c : Nat) (v : Pkg) : (setPkg s c v).hostRead = s.hostRead := rfl

@[simp] theorem setCal_now (s : State) (c : Nat) (v : Caliper) : (setCal s c v).now = s.now := rfl
@[simp] theorem setCal_agenda (s : State) (c : Nat) (v : Caliper) : (setCal s c v).agenda = s.agenda := rfl
@[simp] theorem setCal_focus (s : State) (c : Nat) (v : Caliper) : (setCal s c v).focus = s.focus := rfl
@[simp] theorem setCal_cur (s : State) (c : Nat) (v : Caliper) : (setCal s c v).cur = s.cur := rfl
@[simp] theorem setCal_fresh (s : State) (c : Nat) (v : Caliper) : (setCal s c v).fresh = s.fresh := rfl
@[simp] theorem setCal_nextId (s : State) (c : Nat) (v : Caliper) : (setCal s c v).nextId = s.nextId := rfl
@[simp] theorem setCal_regs (s : State) (c : Nat) (v : Caliper) : (setCal s c v).regs = s.regs := rfl
@[simp] theorem setCal_mem (s : State) (c : Nat) (v : Caliper) : (setCal s c v).mem = s.mem := rfl
@[simp] theorem setCal_eccBad (s : State) (c : Nat) (v : Caliper) : (setCal s c v).eccBad = s.eccBad := rfl
@[simp] theorem setCal_acts (s : State) (c : Nat) (v : Caliper) : (setCal s c v).acts = s.acts := rfl
@[simp] theorem setCal_cores (s : State) (c : Nat) (v : Caliper) : (setCal s c v).cores = s.cores := rfl
@[simp] theorem setCal_dies (s : State) (c : Nat) (v : Caliper) : (setCal s c v).dies = s.dies := rfl
@[simp] theorem setCal_mtus (s : State) (c : Nat) (v : Caliper) : (setCal s c v).mtus = s.mtus := rfl
@[simp] theorem setCal_bcasts (s : State) (c : Nat) (v : Caliper) : (setCal s c v).bcasts = s.bcasts := rfl
@[simp] theorem setCal_wqs (s : State) (c : Nat) (v : Caliper) : (setCal s c v).wqs = s.wqs := rfl
@[simp] theorem setCal_demotes (s : State) (c : Nat) (v : Caliper) : (setCal s c v).demotes = s.demotes := rfl
@[simp] theorem setCal_osqs (s : State) (c : Nat) (v : Caliper) : (setCal s c v).osqs = s.osqs := rfl
@[simp] theorem setCal_clus (s : State) (c : Nat) (v : Caliper) : (setCal s c v).clus = s.clus := rfl
@[simp] theorem setCal_gangs (s : State) (c : Nat) (v : Caliper) : (setCal s c v).gangs = s.gangs := rfl
@[simp] theorem setCal_pkgs (s : State) (c : Nat) (v : Caliper) : (setCal s c v).pkgs = s.pkgs := rfl
@[simp] theorem setCal_pools (s : State) (c : Nat) (v : Caliper) : (setCal s c v).pools = s.pools := rfl
@[simp] theorem setCal_flights (s : State) (c : Nat) (v : Caliper) : (setCal s c v).flights = s.flights := rfl
@[simp] theorem setCal_bars (s : State) (c : Nat) (v : Caliper) : (setCal s c v).bars = s.bars := rfl
@[simp] theorem setCal_barWaits (s : State) (c : Nat) (v : Caliper) : (setCal s c v).barWaits = s.barWaits := rfl
@[simp] theorem setCal_barKids (s : State) (c : Nat) (v : Caliper) : (setCal s c v).barKids = s.barKids := rfl
@[simp] theorem setCal_barHeld (s : State) (c : Nat) (v : Caliper) : (setCal s c v).barHeld = s.barHeld := rfl
@[simp] theorem setCal_barUps (s : State) (c : Nat) (v : Caliper) : (setCal s c v).barUps = s.barUps := rfl
@[simp] theorem setCal_noPath (s : State) (c : Nat) (v : Caliper) : (setCal s c v).noPath = s.noPath := rfl
@[simp] theorem setCal_held (s : State) (c : Nat) (v : Caliper) : (setCal s c v).held = s.held := rfl
@[simp] theorem setCal_heldReqs (s : State) (c : Nat) (v : Caliper) : (setCal s c v).heldReqs = s.heldReqs := rfl
@[simp] theorem setCal_redHeld (s : State) (c : Nat) (v : Caliper) : (setCal s c v).redHeld = s.redHeld := rfl
@[simp] theorem setCal_cables (s : State) (c : Nat) (v : Caliper) : (setCal s c v).cables = s.cables := rfl
@[simp] theorem setCal_ticks (s : State) (c : Nat) (v : Caliper) : (setCal s c v).ticks = s.ticks := rfl
@[simp] theorem setCal_lanes (s : State) (c : Nat) (v : Caliper) : (setCal s c v).lanes = s.lanes := rfl
@[simp] theorem setCal_hostRead (s : State) (c : Nat) (v : Caliper) : (setCal s c v).hostRead = s.hostRead := rfl

@[simp] theorem setOsq_now (s : State) (c : Nat) (v : Osq) : (setOsq s c v).now = s.now := rfl
@[simp] theorem setOsq_agenda (s : State) (c : Nat) (v : Osq) : (setOsq s c v).agenda = s.agenda := rfl
@[simp] theorem setOsq_focus (s : State) (c : Nat) (v : Osq) : (setOsq s c v).focus = s.focus := rfl
@[simp] theorem setOsq_cur (s : State) (c : Nat) (v : Osq) : (setOsq s c v).cur = s.cur := rfl
@[simp] theorem setOsq_fresh (s : State) (c : Nat) (v : Osq) : (setOsq s c v).fresh = s.fresh := rfl
@[simp] theorem setOsq_nextId (s : State) (c : Nat) (v : Osq) : (setOsq s c v).nextId = s.nextId := rfl
@[simp] theorem setOsq_regs (s : State) (c : Nat) (v : Osq) : (setOsq s c v).regs = s.regs := rfl
@[simp] theorem setOsq_mem (s : State) (c : Nat) (v : Osq) : (setOsq s c v).mem = s.mem := rfl
@[simp] theorem setOsq_eccBad (s : State) (c : Nat) (v : Osq) : (setOsq s c v).eccBad = s.eccBad := rfl
@[simp] theorem setOsq_acts (s : State) (c : Nat) (v : Osq) : (setOsq s c v).acts = s.acts := rfl
@[simp] theorem setOsq_cores (s : State) (c : Nat) (v : Osq) : (setOsq s c v).cores = s.cores := rfl
@[simp] theorem setOsq_dies (s : State) (c : Nat) (v : Osq) : (setOsq s c v).dies = s.dies := rfl
@[simp] theorem setOsq_mtus (s : State) (c : Nat) (v : Osq) : (setOsq s c v).mtus = s.mtus := rfl
@[simp] theorem setOsq_bcasts (s : State) (c : Nat) (v : Osq) : (setOsq s c v).bcasts = s.bcasts := rfl
@[simp] theorem setOsq_wqs (s : State) (c : Nat) (v : Osq) : (setOsq s c v).wqs = s.wqs := rfl
@[simp] theorem setOsq_demotes (s : State) (c : Nat) (v : Osq) : (setOsq s c v).demotes = s.demotes := rfl
@[simp] theorem setOsq_cals (s : State) (c : Nat) (v : Osq) : (setOsq s c v).cals = s.cals := rfl
@[simp] theorem setOsq_clus (s : State) (c : Nat) (v : Osq) : (setOsq s c v).clus = s.clus := rfl
@[simp] theorem setOsq_gangs (s : State) (c : Nat) (v : Osq) : (setOsq s c v).gangs = s.gangs := rfl
@[simp] theorem setOsq_pkgs (s : State) (c : Nat) (v : Osq) : (setOsq s c v).pkgs = s.pkgs := rfl
@[simp] theorem setOsq_pools (s : State) (c : Nat) (v : Osq) : (setOsq s c v).pools = s.pools := rfl
@[simp] theorem setOsq_flights (s : State) (c : Nat) (v : Osq) : (setOsq s c v).flights = s.flights := rfl
@[simp] theorem setOsq_bars (s : State) (c : Nat) (v : Osq) : (setOsq s c v).bars = s.bars := rfl
@[simp] theorem setOsq_barWaits (s : State) (c : Nat) (v : Osq) : (setOsq s c v).barWaits = s.barWaits := rfl
@[simp] theorem setOsq_barKids (s : State) (c : Nat) (v : Osq) : (setOsq s c v).barKids = s.barKids := rfl
@[simp] theorem setOsq_barHeld (s : State) (c : Nat) (v : Osq) : (setOsq s c v).barHeld = s.barHeld := rfl
@[simp] theorem setOsq_barUps (s : State) (c : Nat) (v : Osq) : (setOsq s c v).barUps = s.barUps := rfl
@[simp] theorem setOsq_noPath (s : State) (c : Nat) (v : Osq) : (setOsq s c v).noPath = s.noPath := rfl
@[simp] theorem setOsq_held (s : State) (c : Nat) (v : Osq) : (setOsq s c v).held = s.held := rfl
@[simp] theorem setOsq_heldReqs (s : State) (c : Nat) (v : Osq) : (setOsq s c v).heldReqs = s.heldReqs := rfl
@[simp] theorem setOsq_redHeld (s : State) (c : Nat) (v : Osq) : (setOsq s c v).redHeld = s.redHeld := rfl
@[simp] theorem setOsq_cables (s : State) (c : Nat) (v : Osq) : (setOsq s c v).cables = s.cables := rfl
@[simp] theorem setOsq_ticks (s : State) (c : Nat) (v : Osq) : (setOsq s c v).ticks = s.ticks := rfl
@[simp] theorem setOsq_lanes (s : State) (c : Nat) (v : Osq) : (setOsq s c v).lanes = s.lanes := rfl
@[simp] theorem setOsq_hostRead (s : State) (c : Nat) (v : Osq) : (setOsq s c v).hostRead = s.hostRead := rfl

@[simp] theorem setDem_now (s : State) (c : Nat) (v : Demote) : (setDem s c v).now = s.now := rfl
@[simp] theorem setDem_agenda (s : State) (c : Nat) (v : Demote) : (setDem s c v).agenda = s.agenda := rfl
@[simp] theorem setDem_focus (s : State) (c : Nat) (v : Demote) : (setDem s c v).focus = s.focus := rfl
@[simp] theorem setDem_cur (s : State) (c : Nat) (v : Demote) : (setDem s c v).cur = s.cur := rfl
@[simp] theorem setDem_fresh (s : State) (c : Nat) (v : Demote) : (setDem s c v).fresh = s.fresh := rfl
@[simp] theorem setDem_nextId (s : State) (c : Nat) (v : Demote) : (setDem s c v).nextId = s.nextId := rfl
@[simp] theorem setDem_regs (s : State) (c : Nat) (v : Demote) : (setDem s c v).regs = s.regs := rfl
@[simp] theorem setDem_mem (s : State) (c : Nat) (v : Demote) : (setDem s c v).mem = s.mem := rfl
@[simp] theorem setDem_eccBad (s : State) (c : Nat) (v : Demote) : (setDem s c v).eccBad = s.eccBad := rfl
@[simp] theorem setDem_acts (s : State) (c : Nat) (v : Demote) : (setDem s c v).acts = s.acts := rfl
@[simp] theorem setDem_cores (s : State) (c : Nat) (v : Demote) : (setDem s c v).cores = s.cores := rfl
@[simp] theorem setDem_dies (s : State) (c : Nat) (v : Demote) : (setDem s c v).dies = s.dies := rfl
@[simp] theorem setDem_mtus (s : State) (c : Nat) (v : Demote) : (setDem s c v).mtus = s.mtus := rfl
@[simp] theorem setDem_bcasts (s : State) (c : Nat) (v : Demote) : (setDem s c v).bcasts = s.bcasts := rfl
@[simp] theorem setDem_wqs (s : State) (c : Nat) (v : Demote) : (setDem s c v).wqs = s.wqs := rfl
@[simp] theorem setDem_cals (s : State) (c : Nat) (v : Demote) : (setDem s c v).cals = s.cals := rfl
@[simp] theorem setDem_osqs (s : State) (c : Nat) (v : Demote) : (setDem s c v).osqs = s.osqs := rfl
@[simp] theorem setDem_clus (s : State) (c : Nat) (v : Demote) : (setDem s c v).clus = s.clus := rfl
@[simp] theorem setDem_gangs (s : State) (c : Nat) (v : Demote) : (setDem s c v).gangs = s.gangs := rfl
@[simp] theorem setDem_pkgs (s : State) (c : Nat) (v : Demote) : (setDem s c v).pkgs = s.pkgs := rfl
@[simp] theorem setDem_pools (s : State) (c : Nat) (v : Demote) : (setDem s c v).pools = s.pools := rfl
@[simp] theorem setDem_flights (s : State) (c : Nat) (v : Demote) : (setDem s c v).flights = s.flights := rfl
@[simp] theorem setDem_bars (s : State) (c : Nat) (v : Demote) : (setDem s c v).bars = s.bars := rfl
@[simp] theorem setDem_barWaits (s : State) (c : Nat) (v : Demote) : (setDem s c v).barWaits = s.barWaits := rfl
@[simp] theorem setDem_barKids (s : State) (c : Nat) (v : Demote) : (setDem s c v).barKids = s.barKids := rfl
@[simp] theorem setDem_barHeld (s : State) (c : Nat) (v : Demote) : (setDem s c v).barHeld = s.barHeld := rfl
@[simp] theorem setDem_barUps (s : State) (c : Nat) (v : Demote) : (setDem s c v).barUps = s.barUps := rfl
@[simp] theorem setDem_noPath (s : State) (c : Nat) (v : Demote) : (setDem s c v).noPath = s.noPath := rfl
@[simp] theorem setDem_held (s : State) (c : Nat) (v : Demote) : (setDem s c v).held = s.held := rfl
@[simp] theorem setDem_heldReqs (s : State) (c : Nat) (v : Demote) : (setDem s c v).heldReqs = s.heldReqs := rfl
@[simp] theorem setDem_redHeld (s : State) (c : Nat) (v : Demote) : (setDem s c v).redHeld = s.redHeld := rfl
@[simp] theorem setDem_cables (s : State) (c : Nat) (v : Demote) : (setDem s c v).cables = s.cables := rfl
@[simp] theorem setDem_ticks (s : State) (c : Nat) (v : Demote) : (setDem s c v).ticks = s.ticks := rfl
@[simp] theorem setDem_lanes (s : State) (c : Nat) (v : Demote) : (setDem s c v).lanes = s.lanes := rfl
@[simp] theorem setDem_hostRead (s : State) (c : Nat) (v : Demote) : (setDem s c v).hostRead = s.hostRead := rfl

@[simp] theorem setAct_now (s : State) (c : Nat) (v : Act) : (setAct s c v).now = s.now := rfl
@[simp] theorem setAct_agenda (s : State) (c : Nat) (v : Act) : (setAct s c v).agenda = s.agenda := rfl
@[simp] theorem setAct_focus (s : State) (c : Nat) (v : Act) : (setAct s c v).focus = s.focus := rfl
@[simp] theorem setAct_cur (s : State) (c : Nat) (v : Act) : (setAct s c v).cur = s.cur := rfl
@[simp] theorem setAct_fresh (s : State) (c : Nat) (v : Act) : (setAct s c v).fresh = s.fresh := rfl
@[simp] theorem setAct_nextId (s : State) (c : Nat) (v : Act) : (setAct s c v).nextId = s.nextId := rfl
@[simp] theorem setAct_regs (s : State) (c : Nat) (v : Act) : (setAct s c v).regs = s.regs := rfl
@[simp] theorem setAct_mem (s : State) (c : Nat) (v : Act) : (setAct s c v).mem = s.mem := rfl
@[simp] theorem setAct_eccBad (s : State) (c : Nat) (v : Act) : (setAct s c v).eccBad = s.eccBad := rfl
@[simp] theorem setAct_cores (s : State) (c : Nat) (v : Act) : (setAct s c v).cores = s.cores := rfl
@[simp] theorem setAct_dies (s : State) (c : Nat) (v : Act) : (setAct s c v).dies = s.dies := rfl
@[simp] theorem setAct_mtus (s : State) (c : Nat) (v : Act) : (setAct s c v).mtus = s.mtus := rfl
@[simp] theorem setAct_bcasts (s : State) (c : Nat) (v : Act) : (setAct s c v).bcasts = s.bcasts := rfl
@[simp] theorem setAct_wqs (s : State) (c : Nat) (v : Act) : (setAct s c v).wqs = s.wqs := rfl
@[simp] theorem setAct_demotes (s : State) (c : Nat) (v : Act) : (setAct s c v).demotes = s.demotes := rfl
@[simp] theorem setAct_cals (s : State) (c : Nat) (v : Act) : (setAct s c v).cals = s.cals := rfl
@[simp] theorem setAct_osqs (s : State) (c : Nat) (v : Act) : (setAct s c v).osqs = s.osqs := rfl
@[simp] theorem setAct_clus (s : State) (c : Nat) (v : Act) : (setAct s c v).clus = s.clus := rfl
@[simp] theorem setAct_gangs (s : State) (c : Nat) (v : Act) : (setAct s c v).gangs = s.gangs := rfl
@[simp] theorem setAct_pkgs (s : State) (c : Nat) (v : Act) : (setAct s c v).pkgs = s.pkgs := rfl
@[simp] theorem setAct_pools (s : State) (c : Nat) (v : Act) : (setAct s c v).pools = s.pools := rfl
@[simp] theorem setAct_flights (s : State) (c : Nat) (v : Act) : (setAct s c v).flights = s.flights := rfl
@[simp] theorem setAct_bars (s : State) (c : Nat) (v : Act) : (setAct s c v).bars = s.bars := rfl
@[simp] theorem setAct_barWaits (s : State) (c : Nat) (v : Act) : (setAct s c v).barWaits = s.barWaits := rfl
@[simp] theorem setAct_barKids (s : State) (c : Nat) (v : Act) : (setAct s c v).barKids = s.barKids := rfl
@[simp] theorem setAct_barHeld (s : State) (c : Nat) (v : Act) : (setAct s c v).barHeld = s.barHeld := rfl
@[simp] theorem setAct_barUps (s : State) (c : Nat) (v : Act) : (setAct s c v).barUps = s.barUps := rfl
@[simp] theorem setAct_noPath (s : State) (c : Nat) (v : Act) : (setAct s c v).noPath = s.noPath := rfl
@[simp] theorem setAct_held (s : State) (c : Nat) (v : Act) : (setAct s c v).held = s.held := rfl
@[simp] theorem setAct_heldReqs (s : State) (c : Nat) (v : Act) : (setAct s c v).heldReqs = s.heldReqs := rfl
@[simp] theorem setAct_redHeld (s : State) (c : Nat) (v : Act) : (setAct s c v).redHeld = s.redHeld := rfl
@[simp] theorem setAct_cables (s : State) (c : Nat) (v : Act) : (setAct s c v).cables = s.cables := rfl
@[simp] theorem setAct_ticks (s : State) (c : Nat) (v : Act) : (setAct s c v).ticks = s.ticks := rfl
@[simp] theorem setAct_lanes (s : State) (c : Nat) (v : Act) : (setAct s c v).lanes = s.lanes := rfl
@[simp] theorem setAct_hostRead (s : State) (c : Nat) (v : Act) : (setAct s c v).hostRead = s.hostRead := rfl

@[simp] theorem putAct_now (s : State) (v : Act) : (putAct s v).now = s.now := rfl
@[simp] theorem putAct_agenda (s : State) (v : Act) : (putAct s v).agenda = s.agenda := rfl
@[simp] theorem putAct_focus (s : State) (v : Act) : (putAct s v).focus = s.focus := rfl
@[simp] theorem putAct_cur (s : State) (v : Act) : (putAct s v).cur = s.cur := rfl
@[simp] theorem putAct_fresh (s : State) (v : Act) : (putAct s v).fresh = s.fresh := rfl
@[simp] theorem putAct_nextId (s : State) (v : Act) : (putAct s v).nextId = s.nextId := rfl
@[simp] theorem putAct_regs (s : State) (v : Act) : (putAct s v).regs = s.regs := rfl
@[simp] theorem putAct_mem (s : State) (v : Act) : (putAct s v).mem = s.mem := rfl
@[simp] theorem putAct_eccBad (s : State) (v : Act) : (putAct s v).eccBad = s.eccBad := rfl
@[simp] theorem putAct_cores (s : State) (v : Act) : (putAct s v).cores = s.cores := rfl
@[simp] theorem putAct_dies (s : State) (v : Act) : (putAct s v).dies = s.dies := rfl
@[simp] theorem putAct_mtus (s : State) (v : Act) : (putAct s v).mtus = s.mtus := rfl
@[simp] theorem putAct_bcasts (s : State) (v : Act) : (putAct s v).bcasts = s.bcasts := rfl
@[simp] theorem putAct_wqs (s : State) (v : Act) : (putAct s v).wqs = s.wqs := rfl
@[simp] theorem putAct_demotes (s : State) (v : Act) : (putAct s v).demotes = s.demotes := rfl
@[simp] theorem putAct_cals (s : State) (v : Act) : (putAct s v).cals = s.cals := rfl
@[simp] theorem putAct_osqs (s : State) (v : Act) : (putAct s v).osqs = s.osqs := rfl
@[simp] theorem putAct_clus (s : State) (v : Act) : (putAct s v).clus = s.clus := rfl
@[simp] theorem putAct_gangs (s : State) (v : Act) : (putAct s v).gangs = s.gangs := rfl
@[simp] theorem putAct_pkgs (s : State) (v : Act) : (putAct s v).pkgs = s.pkgs := rfl
@[simp] theorem putAct_pools (s : State) (v : Act) : (putAct s v).pools = s.pools := rfl
@[simp] theorem putAct_flights (s : State) (v : Act) : (putAct s v).flights = s.flights := rfl
@[simp] theorem putAct_bars (s : State) (v : Act) : (putAct s v).bars = s.bars := rfl
@[simp] theorem putAct_barWaits (s : State) (v : Act) : (putAct s v).barWaits = s.barWaits := rfl
@[simp] theorem putAct_barKids (s : State) (v : Act) : (putAct s v).barKids = s.barKids := rfl
@[simp] theorem putAct_barHeld (s : State) (v : Act) : (putAct s v).barHeld = s.barHeld := rfl
@[simp] theorem putAct_barUps (s : State) (v : Act) : (putAct s v).barUps = s.barUps := rfl
@[simp] theorem putAct_noPath (s : State) (v : Act) : (putAct s v).noPath = s.noPath := rfl
@[simp] theorem putAct_held (s : State) (v : Act) : (putAct s v).held = s.held := rfl
@[simp] theorem putAct_heldReqs (s : State) (v : Act) : (putAct s v).heldReqs = s.heldReqs := rfl
@[simp] theorem putAct_redHeld (s : State) (v : Act) : (putAct s v).redHeld = s.redHeld := rfl
@[simp] theorem putAct_cables (s : State) (v : Act) : (putAct s v).cables = s.cables := rfl
@[simp] theorem putAct_ticks (s : State) (v : Act) : (putAct s v).ticks = s.ticks := rfl
@[simp] theorem putAct_lanes (s : State) (v : Act) : (putAct s v).lanes = s.lanes := rfl
@[simp] theorem putAct_hostRead (s : State) (v : Act) : (putAct s v).hostRead = s.hostRead := rfl

@[simp] theorem setRaw_now (s : State) (d o : Nat) (v : Word) : (setRaw s d o v).now = s.now := rfl
@[simp] theorem setRaw_agenda (s : State) (d o : Nat) (v : Word) : (setRaw s d o v).agenda = s.agenda := rfl
@[simp] theorem setRaw_focus (s : State) (d o : Nat) (v : Word) : (setRaw s d o v).focus = s.focus := rfl
@[simp] theorem setRaw_cur (s : State) (d o : Nat) (v : Word) : (setRaw s d o v).cur = s.cur := rfl
@[simp] theorem setRaw_fresh (s : State) (d o : Nat) (v : Word) : (setRaw s d o v).fresh = s.fresh := rfl
@[simp] theorem setRaw_nextId (s : State) (d o : Nat) (v : Word) : (setRaw s d o v).nextId = s.nextId := rfl
@[simp] theorem setRaw_mem (s : State) (d o : Nat) (v : Word) : (setRaw s d o v).mem = s.mem := rfl
@[simp] theorem setRaw_eccBad (s : State) (d o : Nat) (v : Word) : (setRaw s d o v).eccBad = s.eccBad := rfl
@[simp] theorem setRaw_acts (s : State) (d o : Nat) (v : Word) : (setRaw s d o v).acts = s.acts := rfl
@[simp] theorem setRaw_cores (s : State) (d o : Nat) (v : Word) : (setRaw s d o v).cores = s.cores := rfl
@[simp] theorem setRaw_dies (s : State) (d o : Nat) (v : Word) : (setRaw s d o v).dies = s.dies := rfl
@[simp] theorem setRaw_mtus (s : State) (d o : Nat) (v : Word) : (setRaw s d o v).mtus = s.mtus := rfl
@[simp] theorem setRaw_bcasts (s : State) (d o : Nat) (v : Word) : (setRaw s d o v).bcasts = s.bcasts := rfl
@[simp] theorem setRaw_wqs (s : State) (d o : Nat) (v : Word) : (setRaw s d o v).wqs = s.wqs := rfl
@[simp] theorem setRaw_demotes (s : State) (d o : Nat) (v : Word) : (setRaw s d o v).demotes = s.demotes := rfl
@[simp] theorem setRaw_cals (s : State) (d o : Nat) (v : Word) : (setRaw s d o v).cals = s.cals := rfl
@[simp] theorem setRaw_osqs (s : State) (d o : Nat) (v : Word) : (setRaw s d o v).osqs = s.osqs := rfl
@[simp] theorem setRaw_clus (s : State) (d o : Nat) (v : Word) : (setRaw s d o v).clus = s.clus := rfl
@[simp] theorem setRaw_gangs (s : State) (d o : Nat) (v : Word) : (setRaw s d o v).gangs = s.gangs := rfl
@[simp] theorem setRaw_pkgs (s : State) (d o : Nat) (v : Word) : (setRaw s d o v).pkgs = s.pkgs := rfl
@[simp] theorem setRaw_pools (s : State) (d o : Nat) (v : Word) : (setRaw s d o v).pools = s.pools := rfl
@[simp] theorem setRaw_flights (s : State) (d o : Nat) (v : Word) : (setRaw s d o v).flights = s.flights := rfl
@[simp] theorem setRaw_bars (s : State) (d o : Nat) (v : Word) : (setRaw s d o v).bars = s.bars := rfl
@[simp] theorem setRaw_barWaits (s : State) (d o : Nat) (v : Word) : (setRaw s d o v).barWaits = s.barWaits := rfl
@[simp] theorem setRaw_barKids (s : State) (d o : Nat) (v : Word) : (setRaw s d o v).barKids = s.barKids := rfl
@[simp] theorem setRaw_barHeld (s : State) (d o : Nat) (v : Word) : (setRaw s d o v).barHeld = s.barHeld := rfl
@[simp] theorem setRaw_barUps (s : State) (d o : Nat) (v : Word) : (setRaw s d o v).barUps = s.barUps := rfl
@[simp] theorem setRaw_noPath (s : State) (d o : Nat) (v : Word) : (setRaw s d o v).noPath = s.noPath := rfl
@[simp] theorem setRaw_held (s : State) (d o : Nat) (v : Word) : (setRaw s d o v).held = s.held := rfl
@[simp] theorem setRaw_heldReqs (s : State) (d o : Nat) (v : Word) : (setRaw s d o v).heldReqs = s.heldReqs := rfl
@[simp] theorem setRaw_redHeld (s : State) (d o : Nat) (v : Word) : (setRaw s d o v).redHeld = s.redHeld := rfl
@[simp] theorem setRaw_cables (s : State) (d o : Nat) (v : Word) : (setRaw s d o v).cables = s.cables := rfl
@[simp] theorem setRaw_ticks (s : State) (d o : Nat) (v : Word) : (setRaw s d o v).ticks = s.ticks := rfl
@[simp] theorem setRaw_lanes (s : State) (d o : Nat) (v : Word) : (setRaw s d o v).lanes = s.lanes := rfl
@[simp] theorem setRaw_hostRead (s : State) (d o : Nat) (v : Word) : (setRaw s d o v).hostRead = s.hostRead := rfl

@[simp] theorem setWq_now (s : State) (c : Nat) (v : List WqEntry) : (setWq s c v).now = s.now := rfl
@[simp] theorem setWq_agenda (s : State) (c : Nat) (v : List WqEntry) : (setWq s c v).agenda = s.agenda := rfl
@[simp] theorem setWq_focus (s : State) (c : Nat) (v : List WqEntry) : (setWq s c v).focus = s.focus := rfl
@[simp] theorem setWq_cur (s : State) (c : Nat) (v : List WqEntry) : (setWq s c v).cur = s.cur := rfl
@[simp] theorem setWq_fresh (s : State) (c : Nat) (v : List WqEntry) : (setWq s c v).fresh = s.fresh := rfl
@[simp] theorem setWq_nextId (s : State) (c : Nat) (v : List WqEntry) : (setWq s c v).nextId = s.nextId := rfl
@[simp] theorem setWq_regs (s : State) (c : Nat) (v : List WqEntry) : (setWq s c v).regs = s.regs := rfl
@[simp] theorem setWq_mem (s : State) (c : Nat) (v : List WqEntry) : (setWq s c v).mem = s.mem := rfl
@[simp] theorem setWq_eccBad (s : State) (c : Nat) (v : List WqEntry) : (setWq s c v).eccBad = s.eccBad := rfl
@[simp] theorem setWq_acts (s : State) (c : Nat) (v : List WqEntry) : (setWq s c v).acts = s.acts := rfl
@[simp] theorem setWq_cores (s : State) (c : Nat) (v : List WqEntry) : (setWq s c v).cores = s.cores := rfl
@[simp] theorem setWq_dies (s : State) (c : Nat) (v : List WqEntry) : (setWq s c v).dies = s.dies := rfl
@[simp] theorem setWq_mtus (s : State) (c : Nat) (v : List WqEntry) : (setWq s c v).mtus = s.mtus := rfl
@[simp] theorem setWq_bcasts (s : State) (c : Nat) (v : List WqEntry) : (setWq s c v).bcasts = s.bcasts := rfl
@[simp] theorem setWq_demotes (s : State) (c : Nat) (v : List WqEntry) : (setWq s c v).demotes = s.demotes := rfl
@[simp] theorem setWq_cals (s : State) (c : Nat) (v : List WqEntry) : (setWq s c v).cals = s.cals := rfl
@[simp] theorem setWq_osqs (s : State) (c : Nat) (v : List WqEntry) : (setWq s c v).osqs = s.osqs := rfl
@[simp] theorem setWq_clus (s : State) (c : Nat) (v : List WqEntry) : (setWq s c v).clus = s.clus := rfl
@[simp] theorem setWq_gangs (s : State) (c : Nat) (v : List WqEntry) : (setWq s c v).gangs = s.gangs := rfl
@[simp] theorem setWq_pkgs (s : State) (c : Nat) (v : List WqEntry) : (setWq s c v).pkgs = s.pkgs := rfl
@[simp] theorem setWq_pools (s : State) (c : Nat) (v : List WqEntry) : (setWq s c v).pools = s.pools := rfl
@[simp] theorem setWq_flights (s : State) (c : Nat) (v : List WqEntry) : (setWq s c v).flights = s.flights := rfl
@[simp] theorem setWq_bars (s : State) (c : Nat) (v : List WqEntry) : (setWq s c v).bars = s.bars := rfl
@[simp] theorem setWq_barWaits (s : State) (c : Nat) (v : List WqEntry) : (setWq s c v).barWaits = s.barWaits := rfl
@[simp] theorem setWq_barKids (s : State) (c : Nat) (v : List WqEntry) : (setWq s c v).barKids = s.barKids := rfl
@[simp] theorem setWq_barHeld (s : State) (c : Nat) (v : List WqEntry) : (setWq s c v).barHeld = s.barHeld := rfl
@[simp] theorem setWq_barUps (s : State) (c : Nat) (v : List WqEntry) : (setWq s c v).barUps = s.barUps := rfl
@[simp] theorem setWq_noPath (s : State) (c : Nat) (v : List WqEntry) : (setWq s c v).noPath = s.noPath := rfl
@[simp] theorem setWq_held (s : State) (c : Nat) (v : List WqEntry) : (setWq s c v).held = s.held := rfl
@[simp] theorem setWq_heldReqs (s : State) (c : Nat) (v : List WqEntry) : (setWq s c v).heldReqs = s.heldReqs := rfl
@[simp] theorem setWq_redHeld (s : State) (c : Nat) (v : List WqEntry) : (setWq s c v).redHeld = s.redHeld := rfl
@[simp] theorem setWq_cables (s : State) (c : Nat) (v : List WqEntry) : (setWq s c v).cables = s.cables := rfl
@[simp] theorem setWq_ticks (s : State) (c : Nat) (v : List WqEntry) : (setWq s c v).ticks = s.ticks := rfl
@[simp] theorem setWq_lanes (s : State) (c : Nat) (v : List WqEntry) : (setWq s c v).lanes = s.lanes := rfl
@[simp] theorem setWq_hostRead (s : State) (c : Nat) (v : List WqEntry) : (setWq s c v).hostRead = s.hostRead := rfl

@[simp] theorem setFlight_now (s : State) (f : Flight) : (setFlight s f).now = s.now := rfl
@[simp] theorem setFlight_agenda (s : State) (f : Flight) : (setFlight s f).agenda = s.agenda := rfl
@[simp] theorem setFlight_focus (s : State) (f : Flight) : (setFlight s f).focus = s.focus := rfl
@[simp] theorem setFlight_cur (s : State) (f : Flight) : (setFlight s f).cur = s.cur := rfl
@[simp] theorem setFlight_fresh (s : State) (f : Flight) : (setFlight s f).fresh = s.fresh := rfl
@[simp] theorem setFlight_nextId (s : State) (f : Flight) : (setFlight s f).nextId = s.nextId := rfl
@[simp] theorem setFlight_regs (s : State) (f : Flight) : (setFlight s f).regs = s.regs := rfl
@[simp] theorem setFlight_mem (s : State) (f : Flight) : (setFlight s f).mem = s.mem := rfl
@[simp] theorem setFlight_eccBad (s : State) (f : Flight) : (setFlight s f).eccBad = s.eccBad := rfl
@[simp] theorem setFlight_acts (s : State) (f : Flight) : (setFlight s f).acts = s.acts := rfl
@[simp] theorem setFlight_cores (s : State) (f : Flight) : (setFlight s f).cores = s.cores := rfl
@[simp] theorem setFlight_dies (s : State) (f : Flight) : (setFlight s f).dies = s.dies := rfl
@[simp] theorem setFlight_mtus (s : State) (f : Flight) : (setFlight s f).mtus = s.mtus := rfl
@[simp] theorem setFlight_bcasts (s : State) (f : Flight) : (setFlight s f).bcasts = s.bcasts := rfl
@[simp] theorem setFlight_wqs (s : State) (f : Flight) : (setFlight s f).wqs = s.wqs := rfl
@[simp] theorem setFlight_demotes (s : State) (f : Flight) : (setFlight s f).demotes = s.demotes := rfl
@[simp] theorem setFlight_cals (s : State) (f : Flight) : (setFlight s f).cals = s.cals := rfl
@[simp] theorem setFlight_osqs (s : State) (f : Flight) : (setFlight s f).osqs = s.osqs := rfl
@[simp] theorem setFlight_clus (s : State) (f : Flight) : (setFlight s f).clus = s.clus := rfl
@[simp] theorem setFlight_gangs (s : State) (f : Flight) : (setFlight s f).gangs = s.gangs := rfl
@[simp] theorem setFlight_pkgs (s : State) (f : Flight) : (setFlight s f).pkgs = s.pkgs := rfl
@[simp] theorem setFlight_pools (s : State) (f : Flight) : (setFlight s f).pools = s.pools := rfl
@[simp] theorem setFlight_bars (s : State) (f : Flight) : (setFlight s f).bars = s.bars := rfl
@[simp] theorem setFlight_barWaits (s : State) (f : Flight) : (setFlight s f).barWaits = s.barWaits := rfl
@[simp] theorem setFlight_barKids (s : State) (f : Flight) : (setFlight s f).barKids = s.barKids := rfl
@[simp] theorem setFlight_barHeld (s : State) (f : Flight) : (setFlight s f).barHeld = s.barHeld := rfl
@[simp] theorem setFlight_barUps (s : State) (f : Flight) : (setFlight s f).barUps = s.barUps := rfl
@[simp] theorem setFlight_noPath (s : State) (f : Flight) : (setFlight s f).noPath = s.noPath := rfl
@[simp] theorem setFlight_held (s : State) (f : Flight) : (setFlight s f).held = s.held := rfl
@[simp] theorem setFlight_heldReqs (s : State) (f : Flight) : (setFlight s f).heldReqs = s.heldReqs := rfl
@[simp] theorem setFlight_redHeld (s : State) (f : Flight) : (setFlight s f).redHeld = s.redHeld := rfl
@[simp] theorem setFlight_cables (s : State) (f : Flight) : (setFlight s f).cables = s.cables := rfl
@[simp] theorem setFlight_ticks (s : State) (f : Flight) : (setFlight s f).ticks = s.ticks := rfl
@[simp] theorem setFlight_lanes (s : State) (f : Flight) : (setFlight s f).lanes = s.lanes := rfl
@[simp] theorem setFlight_hostRead (s : State) (f : Flight) : (setFlight s f).hostRead = s.hostRead := rfl

@[simp] theorem dropFlight_now (s : State) (i : Nat) : (dropFlight s i).now = s.now := rfl
@[simp] theorem dropFlight_agenda (s : State) (i : Nat) : (dropFlight s i).agenda = s.agenda := rfl
@[simp] theorem dropFlight_focus (s : State) (i : Nat) : (dropFlight s i).focus = s.focus := rfl
@[simp] theorem dropFlight_cur (s : State) (i : Nat) : (dropFlight s i).cur = s.cur := rfl
@[simp] theorem dropFlight_fresh (s : State) (i : Nat) : (dropFlight s i).fresh = s.fresh := rfl
@[simp] theorem dropFlight_nextId (s : State) (i : Nat) : (dropFlight s i).nextId = s.nextId := rfl
@[simp] theorem dropFlight_regs (s : State) (i : Nat) : (dropFlight s i).regs = s.regs := rfl
@[simp] theorem dropFlight_mem (s : State) (i : Nat) : (dropFlight s i).mem = s.mem := rfl
@[simp] theorem dropFlight_eccBad (s : State) (i : Nat) : (dropFlight s i).eccBad = s.eccBad := rfl
@[simp] theorem dropFlight_acts (s : State) (i : Nat) : (dropFlight s i).acts = s.acts := rfl
@[simp] theorem dropFlight_cores (s : State) (i : Nat) : (dropFlight s i).cores = s.cores := rfl
@[simp] theorem dropFlight_dies (s : State) (i : Nat) : (dropFlight s i).dies = s.dies := rfl
@[simp] theorem dropFlight_mtus (s : State) (i : Nat) : (dropFlight s i).mtus = s.mtus := rfl
@[simp] theorem dropFlight_bcasts (s : State) (i : Nat) : (dropFlight s i).bcasts = s.bcasts := rfl
@[simp] theorem dropFlight_wqs (s : State) (i : Nat) : (dropFlight s i).wqs = s.wqs := rfl
@[simp] theorem dropFlight_demotes (s : State) (i : Nat) : (dropFlight s i).demotes = s.demotes := rfl
@[simp] theorem dropFlight_cals (s : State) (i : Nat) : (dropFlight s i).cals = s.cals := rfl
@[simp] theorem dropFlight_osqs (s : State) (i : Nat) : (dropFlight s i).osqs = s.osqs := rfl
@[simp] theorem dropFlight_clus (s : State) (i : Nat) : (dropFlight s i).clus = s.clus := rfl
@[simp] theorem dropFlight_gangs (s : State) (i : Nat) : (dropFlight s i).gangs = s.gangs := rfl
@[simp] theorem dropFlight_pkgs (s : State) (i : Nat) : (dropFlight s i).pkgs = s.pkgs := rfl
@[simp] theorem dropFlight_pools (s : State) (i : Nat) : (dropFlight s i).pools = s.pools := rfl
@[simp] theorem dropFlight_bars (s : State) (i : Nat) : (dropFlight s i).bars = s.bars := rfl
@[simp] theorem dropFlight_barWaits (s : State) (i : Nat) : (dropFlight s i).barWaits = s.barWaits := rfl
@[simp] theorem dropFlight_barKids (s : State) (i : Nat) : (dropFlight s i).barKids = s.barKids := rfl
@[simp] theorem dropFlight_barHeld (s : State) (i : Nat) : (dropFlight s i).barHeld = s.barHeld := rfl
@[simp] theorem dropFlight_barUps (s : State) (i : Nat) : (dropFlight s i).barUps = s.barUps := rfl
@[simp] theorem dropFlight_noPath (s : State) (i : Nat) : (dropFlight s i).noPath = s.noPath := rfl
@[simp] theorem dropFlight_held (s : State) (i : Nat) : (dropFlight s i).held = s.held := rfl
@[simp] theorem dropFlight_heldReqs (s : State) (i : Nat) : (dropFlight s i).heldReqs = s.heldReqs := rfl
@[simp] theorem dropFlight_redHeld (s : State) (i : Nat) : (dropFlight s i).redHeld = s.redHeld := rfl
@[simp] theorem dropFlight_cables (s : State) (i : Nat) : (dropFlight s i).cables = s.cables := rfl
@[simp] theorem dropFlight_ticks (s : State) (i : Nat) : (dropFlight s i).ticks = s.ticks := rfl
@[simp] theorem dropFlight_lanes (s : State) (i : Nat) : (dropFlight s i).lanes = s.lanes := rfl
@[simp] theorem dropFlight_hostRead (s : State) (i : Nat) : (dropFlight s i).hostRead = s.hostRead := rfl

@[simp] theorem launchFlight_now (s : State) (f : Flight) : (launchFlight s f).now = s.now := rfl
@[simp] theorem launchFlight_agenda (s : State) (f : Flight) : (launchFlight s f).agenda = s.agenda := rfl
@[simp] theorem launchFlight_focus (s : State) (f : Flight) : (launchFlight s f).focus = s.focus := rfl
@[simp] theorem launchFlight_cur (s : State) (f : Flight) : (launchFlight s f).cur = s.cur := rfl
@[simp] theorem launchFlight_fresh (s : State) (f : Flight) : (launchFlight s f).fresh = s.fresh := rfl
@[simp] theorem launchFlight_regs (s : State) (f : Flight) : (launchFlight s f).regs = s.regs := rfl
@[simp] theorem launchFlight_mem (s : State) (f : Flight) : (launchFlight s f).mem = s.mem := rfl
@[simp] theorem launchFlight_eccBad (s : State) (f : Flight) : (launchFlight s f).eccBad = s.eccBad := rfl
@[simp] theorem launchFlight_acts (s : State) (f : Flight) : (launchFlight s f).acts = s.acts := rfl
@[simp] theorem launchFlight_cores (s : State) (f : Flight) : (launchFlight s f).cores = s.cores := rfl
@[simp] theorem launchFlight_dies (s : State) (f : Flight) : (launchFlight s f).dies = s.dies := rfl
@[simp] theorem launchFlight_mtus (s : State) (f : Flight) : (launchFlight s f).mtus = s.mtus := rfl
@[simp] theorem launchFlight_bcasts (s : State) (f : Flight) : (launchFlight s f).bcasts = s.bcasts := rfl
@[simp] theorem launchFlight_wqs (s : State) (f : Flight) : (launchFlight s f).wqs = s.wqs := rfl
@[simp] theorem launchFlight_demotes (s : State) (f : Flight) : (launchFlight s f).demotes = s.demotes := rfl
@[simp] theorem launchFlight_cals (s : State) (f : Flight) : (launchFlight s f).cals = s.cals := rfl
@[simp] theorem launchFlight_osqs (s : State) (f : Flight) : (launchFlight s f).osqs = s.osqs := rfl
@[simp] theorem launchFlight_clus (s : State) (f : Flight) : (launchFlight s f).clus = s.clus := rfl
@[simp] theorem launchFlight_gangs (s : State) (f : Flight) : (launchFlight s f).gangs = s.gangs := rfl
@[simp] theorem launchFlight_pkgs (s : State) (f : Flight) : (launchFlight s f).pkgs = s.pkgs := rfl
@[simp] theorem launchFlight_pools (s : State) (f : Flight) : (launchFlight s f).pools = s.pools := rfl
@[simp] theorem launchFlight_bars (s : State) (f : Flight) : (launchFlight s f).bars = s.bars := rfl
@[simp] theorem launchFlight_barWaits (s : State) (f : Flight) : (launchFlight s f).barWaits = s.barWaits := rfl
@[simp] theorem launchFlight_barKids (s : State) (f : Flight) : (launchFlight s f).barKids = s.barKids := rfl
@[simp] theorem launchFlight_barHeld (s : State) (f : Flight) : (launchFlight s f).barHeld = s.barHeld := rfl
@[simp] theorem launchFlight_barUps (s : State) (f : Flight) : (launchFlight s f).barUps = s.barUps := rfl
@[simp] theorem launchFlight_noPath (s : State) (f : Flight) : (launchFlight s f).noPath = s.noPath := rfl
@[simp] theorem launchFlight_held (s : State) (f : Flight) : (launchFlight s f).held = s.held := rfl
@[simp] theorem launchFlight_heldReqs (s : State) (f : Flight) : (launchFlight s f).heldReqs = s.heldReqs := rfl
@[simp] theorem launchFlight_redHeld (s : State) (f : Flight) : (launchFlight s f).redHeld = s.redHeld := rfl
@[simp] theorem launchFlight_cables (s : State) (f : Flight) : (launchFlight s f).cables = s.cables := rfl
@[simp] theorem launchFlight_ticks (s : State) (f : Flight) : (launchFlight s f).ticks = s.ticks := rfl
@[simp] theorem launchFlight_lanes (s : State) (f : Flight) : (launchFlight s f).lanes = s.lanes := rfl
@[simp] theorem launchFlight_hostRead (s : State) (f : Flight) : (launchFlight s f).hostRead = s.hostRead := rfl

@[simp] theorem patinaWrite_now (s : State) (c : Nat) (v : List Word) : (patinaWrite s c v).now = s.now := rfl
@[simp] theorem patinaWrite_agenda (s : State) (c : Nat) (v : List Word) : (patinaWrite s c v).agenda = s.agenda := rfl
@[simp] theorem patinaWrite_focus (s : State) (c : Nat) (v : List Word) : (patinaWrite s c v).focus = s.focus := rfl
@[simp] theorem patinaWrite_cur (s : State) (c : Nat) (v : List Word) : (patinaWrite s c v).cur = s.cur := rfl
@[simp] theorem patinaWrite_fresh (s : State) (c : Nat) (v : List Word) : (patinaWrite s c v).fresh = s.fresh := rfl
@[simp] theorem patinaWrite_nextId (s : State) (c : Nat) (v : List Word) : (patinaWrite s c v).nextId = s.nextId := rfl
@[simp] theorem patinaWrite_regs (s : State) (c : Nat) (v : List Word) : (patinaWrite s c v).regs = s.regs := rfl
@[simp] theorem patinaWrite_mem (s : State) (c : Nat) (v : List Word) : (patinaWrite s c v).mem = s.mem := rfl
@[simp] theorem patinaWrite_eccBad (s : State) (c : Nat) (v : List Word) : (patinaWrite s c v).eccBad = s.eccBad := rfl
@[simp] theorem patinaWrite_acts (s : State) (c : Nat) (v : List Word) : (patinaWrite s c v).acts = s.acts := rfl
@[simp] theorem patinaWrite_cores (s : State) (c : Nat) (v : List Word) : (patinaWrite s c v).cores = s.cores := rfl
@[simp] theorem patinaWrite_dies (s : State) (c : Nat) (v : List Word) : (patinaWrite s c v).dies = s.dies := rfl
@[simp] theorem patinaWrite_mtus (s : State) (c : Nat) (v : List Word) : (patinaWrite s c v).mtus = s.mtus := rfl
@[simp] theorem patinaWrite_bcasts (s : State) (c : Nat) (v : List Word) : (patinaWrite s c v).bcasts = s.bcasts := rfl
@[simp] theorem patinaWrite_wqs (s : State) (c : Nat) (v : List Word) : (patinaWrite s c v).wqs = s.wqs := rfl
@[simp] theorem patinaWrite_demotes (s : State) (c : Nat) (v : List Word) : (patinaWrite s c v).demotes = s.demotes := rfl
@[simp] theorem patinaWrite_cals (s : State) (c : Nat) (v : List Word) : (patinaWrite s c v).cals = s.cals := rfl
@[simp] theorem patinaWrite_osqs (s : State) (c : Nat) (v : List Word) : (patinaWrite s c v).osqs = s.osqs := rfl
@[simp] theorem patinaWrite_clus (s : State) (c : Nat) (v : List Word) : (patinaWrite s c v).clus = s.clus := rfl
@[simp] theorem patinaWrite_gangs (s : State) (c : Nat) (v : List Word) : (patinaWrite s c v).gangs = s.gangs := rfl
@[simp] theorem patinaWrite_pools (s : State) (c : Nat) (v : List Word) : (patinaWrite s c v).pools = s.pools := rfl
@[simp] theorem patinaWrite_flights (s : State) (c : Nat) (v : List Word) : (patinaWrite s c v).flights = s.flights := rfl
@[simp] theorem patinaWrite_bars (s : State) (c : Nat) (v : List Word) : (patinaWrite s c v).bars = s.bars := rfl
@[simp] theorem patinaWrite_barWaits (s : State) (c : Nat) (v : List Word) : (patinaWrite s c v).barWaits = s.barWaits := rfl
@[simp] theorem patinaWrite_barKids (s : State) (c : Nat) (v : List Word) : (patinaWrite s c v).barKids = s.barKids := rfl
@[simp] theorem patinaWrite_barHeld (s : State) (c : Nat) (v : List Word) : (patinaWrite s c v).barHeld = s.barHeld := rfl
@[simp] theorem patinaWrite_barUps (s : State) (c : Nat) (v : List Word) : (patinaWrite s c v).barUps = s.barUps := rfl
@[simp] theorem patinaWrite_noPath (s : State) (c : Nat) (v : List Word) : (patinaWrite s c v).noPath = s.noPath := rfl
@[simp] theorem patinaWrite_held (s : State) (c : Nat) (v : List Word) : (patinaWrite s c v).held = s.held := rfl
@[simp] theorem patinaWrite_heldReqs (s : State) (c : Nat) (v : List Word) : (patinaWrite s c v).heldReqs = s.heldReqs := rfl
@[simp] theorem patinaWrite_redHeld (s : State) (c : Nat) (v : List Word) : (patinaWrite s c v).redHeld = s.redHeld := rfl
@[simp] theorem patinaWrite_cables (s : State) (c : Nat) (v : List Word) : (patinaWrite s c v).cables = s.cables := rfl
@[simp] theorem patinaWrite_ticks (s : State) (c : Nat) (v : List Word) : (patinaWrite s c v).ticks = s.ticks := rfl
@[simp] theorem patinaWrite_lanes (s : State) (c : Nat) (v : List Word) : (patinaWrite s c v).lanes = s.lanes := rfl
@[simp] theorem patinaWrite_hostRead (s : State) (c : Nat) (v : List Word) : (patinaWrite s c v).hostRead = s.hostRead := rfl

end Sys2Proof.Machine
end

