-- ==== Sys2Proof/Laws/Ops.lean ====
section
/-! SUPPORT. What the shared operations of instructions do: issue, waiting, retirement, jumps, register writes. -/
namespace Sys2Proof.Machine
open Sys2Proof.Safety

/-! ### Registers -/

@[simp] theorem sreg_zero (a : Act) : sreg a 0 = 0 := rfl
@[simp] theorem mreg_zero (a : Act) : mreg a 0 = BitVec.allOnes 1024 := rfl

theorem getD_set {α : Type} (l : List α) (i k : Nat) (v d : α) (h : i < l.length) :
    (l.set i v).getD k d = if k = i then v else l.getD k d := by
  simp only [List.getD_eq_getElem?_getD, List.getElem?_set]
  by_cases hk : i = k
  · subst hk; simp [h]
  · simp [hk, Ne.symm hk]

/-- Reading scalar registers after a write. -/
theorem sreg_setS (a : Act) (i k : Nat) (v : Word) (h : i < 32) :
    sreg (setS a i v) k = if k = i ∧ i ≠ 0 then v else sreg a k := by
  by_cases hi : i = 0
  · simp [setS, hi]
  · simp only [setS, if_neg hi, sreg, Vector.toList_setIfInBounds]
    rw [getD_set _ _ _ _ _ (by simpa using h)]
    by_cases hk : k = i
    · subst hk; simp [hi]
    · simp [hk]

theorem freg_setFr (a : Act) (i k : Nat) (v : Word) (h : i < 16) :
    freg (setFr a i v) k = if k = i then v else freg a k := by
  simp only [setFr, freg, Vector.toList_setIfInBounds]
  exact getD_set _ _ _ _ _ (by simpa using h)

theorem mreg_setM (a : Act) (i k : Nat) (v : MReg) (h : i < 8) :
    mreg (setM a i v) k = if k = i ∧ i ≠ 0 then v else mreg a k := by
  by_cases hi : i = 0
  · simp [setM, hi]
  · simp only [setM, if_neg hi, mreg, Vector.toList_setIfInBounds]
    rw [getD_set _ _ _ _ _ (by simpa using h)]
    by_cases hk : k = i
    · subst hk; simp [hi]
    · simp [hk]

theorem creg_setC (a : Act) (i k : Nat) (v : Word) (h : i < 8) :
    creg (setC a i v) k = if k = i then v else creg a k := by
  simp only [setC, creg, Vector.toList_setIfInBounds]
  exact getD_set _ _ _ _ _ (by simpa using h)

theorem dreg_setD (a : Act) (i k : Nat) (v : DReg) (h : i < 8) :
    dreg (setD a i v) k = if k = i then v else dreg a k := by
  simp only [setD, dreg, Vector.toList_setIfInBounds]
  exact getD_set _ _ _ _ _ (by simpa using h)

/-- A scalar write touches nothing but the scalar file. -/
theorem setS_shape (a : Act) (i : Nat) (v : Word) :
    setS a i v = { a with regs := { a.regs with s := (setS a i v).regs.s } } := by
  by_cases h : i = 0 <;> simp [setS, h]

theorem setM_shape (a : Act) (i : Nat) (v : MReg) :
    setM a i v = { a with regs := { a.regs with m := (setM a i v).regs.m } } := by
  by_cases h : i = 0 <;> simp [setM, h]

/-! ### Sequence and jumps -/

/-- What advance changes. -/
theorem advance_shape (a : Act) (n : Nat) :
    advance a n = { a with regs := { a.regs with pc := (advance a n).regs.pc, lcnt := (advance a n).regs.lcnt } } := by
  simp only [advance, setPc]
  split
  · split <;> rfl
  · rfl

/-- Advancing follows the rule of loops (R311). -/
theorem advance_advances (a : Act) (n : Nat) : Advances a (advance a n) n := by
  simp only [Advances, advance, setPc, ne_eq, bne_iff_ne, Bool.and_eq_true, beq_iff_eq]
  by_cases h : ¬a.regs.lcnt = 0 ∧ a.regs.pc + BitVec.ofNat 64 n = BitVec.ofNat 64 a.cls.img + a.regs.lend.setWidth 64
  · rw [if_pos h, if_pos h]
    have hn : a.regs.lcnt.toNat ≠ 0 := fun h0 => h.1 (BitVec.eq_of_toNat_eq (by simpa using h0))
    by_cases h1 : a.regs.lcnt = 1
    · rw [if_pos h1, if_neg (by simp [h1])]; exact ⟨rfl, rfl⟩
    · rw [if_neg h1]
      have : a.regs.lcnt.toNat ≠ 1 := fun h0 => h1 (BitVec.eq_of_toNat_eq (by simpa using h0))
      rw [if_pos (by omega)]; exact ⟨rfl, rfl⟩
  · rw [if_neg h, if_neg h]; exact ⟨rfl, rfl⟩

/-- A register write does not change the way a unit goes on. -/
theorem advances_of_same {a a' b : Act} {n : Nat} (h : Advances a' b n) (hp : a'.regs.pc = a.regs.pc)
    (hl : a'.regs.lcnt = a.regs.lcnt) (hs : a'.regs.lstart = a.regs.lstart) (he : a'.regs.lend = a.regs.lend)
    (hc : a'.cls = a.cls) : Advances a b n := by
  simpa only [Advances, hp, hl, hs, he, hc] using h

theorem jumpTo_jumps (a : Act) (t : Word) : Jumps a (jumpTo a t) t := by
  simp only [Jumps, jumpTo, Bool.or_eq_true, decide_eq_true_eq, true_and]
  by_cases h : a.regs.lstart.toNat ≤ (t - BitVec.ofNat 64 a.cls.img).toNat ∧
      (t - BitVec.ofNat 64 a.cls.img).toNat < a.regs.lend.toNat
  · rw [if_neg (by omega), if_pos h]
  · rw [if_pos (by omega), if_neg h]

/-! ### Issue -/

theorem pending_of_subset (s : State) (a : Act) {rs names : List RegName} (h : ∀ r ∈ rs, r ∈ names)
    (hp : pending s a names = []) : pending s a rs = [] := by
  simp only [pending, List.filter_eq_nil_iff, Bool.and_eq_true, not_and, List.any_eq_true, decide_eq_true_eq, not_exists,
    List.contains_iff_mem] at *
  exact fun f hf hu x hx hr => hp f hf hu x hx (h x hr)

theorem windowHolds_of_subset (s : State) (a : Act) {w : Bool} {rs names : List RegName} (h : ∀ r ∈ rs, r ∈ names)
    (hp : windowHolds s a w names = []) : windowHolds s a w rs = [] := by
  simp only [windowHolds, List.flatMap_eq_nil_iff] at *
  exact fun r hr => hp r (h r hr)

/-- What holds a read holds a write too. -/
theorem rowHolds_read (s : State) (a : Act) (p n : Nat) (h : rowHolds s a p n true = []) : rowHolds s a p n false = [] := by
  simp only [rowHolds, List.append_eq_nil_iff, lateHolds, List.map_eq_nil_iff, List.filter_eq_nil_iff, Bool.and_eq_true, decide_eq_true_eq,
    not_and] at *
  refine ⟨h.1, fun f hf hu hl => h.2 f hf hu ?_⟩
  cases hm : f.late with
  | none => simp [hm] at hl
  | some l =>
    simp only [hm, Option.any_some, Late.holds, Bool.false_and, Bool.false_or, Bool.true_and, Bool.or_eq_true] at hl ⊢
    exact .inr hl

theorem windowHolds_read (s : State) (a : Act) (rs : List RegName) (h : windowHolds s a true rs = []) : windowHolds s a false rs = [] := by
  simp only [windowHolds, List.flatMap_eq_nil_iff] at *
  intro r hr
  have := h r hr
  cases r with
  | v row =>
    simp only at this ⊢
    by_cases hk : row < 100000
    · rw [if_pos hk] at this ⊢; exact rowHolds_read s a _ _ this
    · rw [if_neg hk]
  | _ => rfl

/-- A legal unit that has nothing to wait for runs its own effect. -/
theorem issueUnit_of_issues {s : State} {a : Act} {names : List RegName} {rd wr : Act → List RegName} {k : Act → State}
    (h : Issues s a names) (hr : ∀ r ∈ rd a, r ∈ names) (hw : ∀ r ∈ wr a, r ∈ names) :
    issueUnit s true rd wr k = .next (k a) := by
  have h1 := windowHolds_read s a _ (windowHolds_of_subset s a hr h.2.2)
  have h2 := windowHolds_of_subset s a hw h.2.2
  simp [issueUnit, h.1, pending_of_subset s a hr h.2.1, pending_of_subset s a hw h.2.1, h1, h2]

/-- A unit with no activation to issue it changes nothing. -/
theorem issueUnit_none {s : State} {l : Bool} {rd wr : Act → List RegName} {k : Act → State} (h : actAt s s.cur = none) :
    issueUnit s l rd wr k = .next s := by simp [issueUnit, h]

/-- An illegal unit traps (R255). -/
theorem issueUnit_illegal {s : State} {a : Act} {rd wr : Act → List RegName} {k : Act → State} (h : actAt s s.cur = some a) :
    issueUnit s false rd wr k = .next (trap s a cIllegal) := by simp [issueUnit, h]

/-- A unit waits for the replies that bring the registers it reads (R185). -/
theorem issueUnit_waits {s : State} {a : Act} {rd wr : Act → List RegName} {k : Act → State} (h : actAt s s.cur = some a)
    (hp : pending s a (rd a) ≠ []) : issueUnit s true rd wr k = .next (block s a (waitFor (pending s a (rd a)))) := by
  simp [issueUnit, h, hp]

/-- Everything that issueUnit can do: it goes on, and to one of these states. -/
theorem issueUnit_cases (s : State) (l : Bool) (rd wr : Act → List RegName) (k : Act → State) :
    ∃ t, issueUnit s l rd wr k = .next t ∧
      ((actAt s s.cur = none ∧ t = s) ∨ ∃ a, actAt s s.cur = some a ∧
        ((l = false ∧ t = trap s a cIllegal) ∨ (∃ w, t = block s a w) ∨ (l = true ∧ t = k a))) := by
  cases h : actAt s s.cur with
  | none => exact ⟨s, by simp [issueUnit, h], .inl ⟨rfl, rfl⟩⟩
  | some a =>
    cases l with
    | false => exact ⟨_, issueUnit_illegal h, .inr ⟨a, rfl, .inl ⟨rfl, rfl⟩⟩⟩
    | true =>
      simp only [issueUnit, h]
      split
      · contradiction
      · split
        · exact ⟨_, rfl, .inr ⟨a, rfl, .inr (.inl ⟨_, rfl⟩)⟩⟩
        · split
          · exact ⟨_, rfl, .inr ⟨a, rfl, .inr (.inl ⟨_, rfl⟩)⟩⟩
          · exact ⟨_, rfl, .inr ⟨a, rfl, .inr (.inr ⟨by trivial, rfl⟩)⟩⟩

theorem windowHolds_sNames (s : State) (a : Act) (w : Bool) (is : List Nat) : windowHolds s a w (sNames is) = [] := by
  simp only [windowHolds, sNames, List.flatMap_eq_nil_iff, List.mem_map]
  rintro r ⟨i, -, rfl⟩
  rfl

theorem mem_sNames (is : List Nat) (r : RegName) : r ∈ sNames is ↔ ∃ i ∈ is, i ≠ 0 ∧ r = .s i := by
  simp only [sNames, List.mem_map, List.mem_filter, bne_iff_ne]
  exact ⟨fun ⟨i, hi, h⟩ => ⟨i, hi.1, hi.2, h.symm⟩, fun ⟨i, hi, h0, h⟩ => ⟨i, ⟨hi, h0⟩, h.symm⟩⟩

theorem sNames_subset {is js : List Nat} (h : ∀ i ∈ is, i ∈ js) : ∀ r ∈ sNames is, r ∈ sNames js := by
  intro r hr
  obtain ⟨i, hi, h0, rfl⟩ := (mem_sNames _ _).1 hr
  exact (mem_sNames _ _).2 ⟨i, h i hi, h0, rfl⟩

/-! ### Units that complete -/

/-- A unit that changes the register block of its activation and goes on in sequence. -/
theorem retire_retires {s : State} {a c : Act} {n : Nat} {P : Act → Prop} (hc : c = { a with regs := c.regs })
    (hp : c.regs.pc = a.regs.pc) (hl : c.regs.lcnt = a.regs.lcnt) (hs : c.regs.lstart = a.regs.lstart)
    (he : c.regs.lend = a.regs.lend)
    (hP : P (advance { c with wait := .run } n)) : Retires s a n (.next (retire s c n)) P := by
  have hx : c.ctx = a.ctx := by rw [hc]
  have sh := advance_shape { c with wait := .run } n
  refine ⟨_, advance { c with wait := .run } n, rfl, ⟨?_, fun _ => rfl⟩, ?_, ?_, ?_, ?_, hP⟩
  · have h2 : (advance { c with wait := .run } n).ctx = a.ctx := by rw [sh]; exact hx
    simp only [retire, putAct, setAct, h2]
  · unfold OnlyRegs
    rw [sh, hc]
  · exact advances_of_same (advance_advances { c with wait := .run } n) hp hl hs he (by rw [hc])
  · rw [sh]; exact hs
  · rw [sh]; exact he

theorem sreg_advance (a : Act) (n k : Nat) : sreg (advance a n) k = sreg a k := by rw [advance_shape]; rfl
theorem mreg_advance (a : Act) (n k : Nat) : mreg (advance a n) k = mreg a k := by rw [advance_shape]; rfl
theorem freg_advance (a : Act) (n k : Nat) : freg (advance a n) k = freg a k := by rw [advance_shape]; rfl

/-- A unit whose effect is one scalar register. -/
theorem retire_setS (s : State) (a : Act) (d n : Nat) (v : Word) (h : d < 32) :
    SetsS s a d v n (.next (retire s (setS a d v) n)) := by
  have sh := setS_shape a d v
  refine retire_retires (by rw [sh]) (by rw [sh]) (by rw [sh]) (by rw [sh]) (by rw [sh]) ⟨?_, fun k => ?_⟩
  · rw [sh]; unfold KeepsAllButS; rw [advance_shape]; exact ⟨rfl, rfl, rfl, rfl, rfl, rfl⟩
  · rw [sreg_advance]; exact sreg_setS a d k v h

theorem retire_setM (s : State) (a : Act) (d n : Nat) (v : MReg) (h : d < 8) :
    SetsM s a d v n (.next (retire s (setM a d v) n)) := by
  have sh := setM_shape a d v
  refine retire_retires (by rw [sh]) (by rw [sh]) (by rw [sh]) (by rw [sh]) (by rw [sh]) ⟨?_, fun k => ?_⟩
  · rw [sh]; unfold KeepsAllButM; rw [advance_shape]; exact ⟨rfl, rfl, rfl, rfl, rfl, rfl⟩
  · rw [mreg_advance]; exact mreg_setM a d k v h

/-- An arithmetic unit with nothing to wait for writes its one result. -/
theorem aluUnit_sets {s : State} {a : Act} {names : List RegName} (len : Nat) (rs : List Nat) (d : Nat) (f : Act → Word)
    (hi : Issues s a names) (hr : ∀ i ∈ rs, i ≠ 0 → RegName.s i ∈ names) (hd : d ≠ 0 → RegName.s d ∈ names) (h : d < 32) :
    SetsS s a d (f a) len (aluUnit len rs d f s) := by
  have e : aluUnit len rs d f s = .next (retire s (setS a d (f a)) len) := by
    refine issueUnit_of_issues hi (fun r hr' => ?_) (fun r hr' => ?_)
    · obtain ⟨i, h1, h2, rfl⟩ := (mem_sNames _ _).1 hr'; exact hr i h1 h2
    · obtain ⟨i, h1, h2, rfl⟩ := (mem_sNames _ _).1 hr'
      have : i = d := by simpa using h1
      subst this; exact hd h2
  rw [e]; exact retire_setS s a d len (f a) h

/-! ### Operations that leave the core -/

theorem mset_first {s : List (Nat × Act)} {a b : Act} (hb : b.uid = a.uid)
    (hu : ∀ e ∈ s, e.2.uid = a.uid → e = (a.ctx, a)) :
    (mset s a.ctx b).find? (fun e => decide (e.2.uid = a.uid)) = some (a.ctx, b) := by
  induction s with
  | nil => simp [mset, hb]
  | cons e r ih =>
    obtain ⟨k, c⟩ := e
    simp only [mset]
    split
    · simp [hb]
    · split
      · simp [hb]
      · next h1 h2 =>
        have hk : ¬ c.uid = a.uid := fun h => by
          have := hu (k, c) (by simp) h
          simp only [Prod.mk.injEq] at this
          exact h2 this.1.symm
        simp only [List.find?_cons, hk]
        exact ih fun e he => hu e (by simp [he])

/-- Nothing of the list is sent for an activation that has nothing in it. -/
theorem pumpList_other (all : List Flight) (uid n : Nat) (opened : List GroupId) (free : Nat) (l : List Flight)
    (h : ∀ f ∈ l, f.uid ≠ uid) (r : List Flight) :
    pumpList all uid n opened free (l ++ r) = l ++ pumpList all uid n opened free r := by
  induction l with
  | nil => rfl
  | cons f l ih =>
    have hf : f.uid ≠ uid := h f (by simp)
    simp only [List.cons_append, pumpList, bne_iff_ne, ne_eq, hf, not_false_eq_true, true_or, if_true]
    rw [ih fun g hg => h g (by simp [hg])]

/-- What an activation with nothing else in flight holds its one operation of the next id behind: lanes with later ids only. -/
theorem laneHolds_alone {s : State} {uid : Nat} {fs : List Flight} (hn : ∀ f ∈ s.flights, f.uid = uid → False)
    (hf : s.flights = fs) {t : State} {f : Flight} (ht : t.flights = fs ++ [f]) {g : Flight} (hg : g ∈ laneHolds t uid) :
    ¬ g.id < f.id := by
  subst hf
  simp only [laneHolds, List.mem_flatMap, List.mem_filter, List.mem_map, List.any_eq_true, Bool.and_eq_true, inLanes,
    decide_eq_true_eq, ht, List.mem_append, List.mem_singleton] at hg
  obtain ⟨e, ⟨-, x, hx, hu, h1, h2⟩, y, -, rfl⟩ := hg
  rcases hx with hx | rfl
  · exact (hn x hx hu).elim
  · simp only; omega

/-- An operation of an activation with nothing in flight, issued by a unit that leaves its record b: it goes out at once. -/
theorem issueOp_alone {s : State} {a b : Act} {f : Flight} (ha : Alone s a) (hu : b.uid = a.uid)
    (hw : ∀ v r, b.wait ≠ .fault v r) (hf : f.uid = a.uid) (hs : f.stage = .held)
    (hl : f.late = none) (hslot : f.slot = true ∨ f.pay.isAccess = false ∨ f.pay = .prf)
    (hp : ∀ o all, sendBlocked all f.uid o { f with id := s.nextId } = all.any fun g => g.uid = f.uid && g.id < s.nextId && sameWord g { f with id := s.nextId }) :
    issueOp { s with acts := mset s.acts a.ctx b } f =
      { s with acts := mset s.acts a.ctx b, nextId := s.nextId + 1,
               flights := s.flights ++ [{ f with id := s.nextId, stage := if f.gang.isSome then .port 0 0 0 0 else .sent, sentNo := s.nextId + 1 }] } := by
  have hu' : ∀ e ∈ s.acts, e.2.uid = a.uid → e = (a.ctx, a) := ha.1
  have hnone : ∀ g ∈ s.flights, g.uid ≠ f.uid := fun g hg => by rw [hf]; exact ha.2 g hg
  have hfind : actByUid { s with
      acts := mset s.acts a.ctx b
      nextId := s.nextId + 1
      flights := s.flights ++ [{ f with id := s.nextId }] } f.uid = some b := by
    rw [hf]
    simp only [actByUid, mset_first hu hu', Option.map_some]
  have hbl : ∀ o, sendBlocked (s.flights ++ [{ f with id := s.nextId }] ++ laneHolds { s with
      acts := mset s.acts a.ctx b
      nextId := s.nextId + 1
      flights := s.flights ++ [{ f with id := s.nextId }] } f.uid) f.uid o { f with id := s.nextId } = false :=
    fun o => by
      rw [hp, List.any_eq_false]
      intro g hg
      rcases List.mem_append.1 hg with hg | hg
      · rcases List.mem_append.1 hg with hg | hg
        · simp [hnone g hg]
        · have : g = { f with id := s.nextId } := by simpa using hg
          subst this; simp
      · have := laneHolds_alone (s := s) (fun x hx hu => hnone x hx hu) rfl rfl hg
        simp only at this
        simp [this]
  have hneeds : (f.pay.isAccess && f.pay != Pay.prf && f.pay != Pay.fetch && !f.slot) = false := by
    rcases hslot with h | h | h <;> simp [h]
  simp only [issueOp, launchFlight, pump, hfind, Bool.false_eq_true, if_false]
  congr 1
  revert hbl
  generalize _ ++ laneHolds _ _ = all
  intro hbl
  rw [pumpList_other _ _ _ _ _ _ hnone]
  rw [hs, hl] at hbl
  simp [pumpList, hs, hl, hneeds, hbl]

/-- What a unit that writes no register leaves. -/
theorem goes_advance (a : Act) (n : Nat) : Goes a (advance { a with wait := .run } n) n :=
  ⟨by rw [advance_shape], advances_of_same (advance_advances { a with wait := .run } n) rfl rfl rfl rfl rfl⟩

theorem retire_eq (s : State) (a : Act) (n : Nat) :
    retire s a n = { s with acts := mset s.acts a.ctx (advance { a with wait := .run } n) } := by
  have hx : (advance { a with wait := .run } n).ctx = a.ctx := by rw [advance_shape]
  simp only [retire, putAct, setAct, hx]

/-- An activation with nothing in flight has a free operation slot (R186). -/
theorem withSlot_alone {s : State} {a : Act} (h : Alone s a) (k : State) : withSlot s a k = k := by
  have hf : slotsUsed s a.uid = 0 := by
    simp only [slotsUsed, List.length_eq_zero_iff, List.filter_eq_nil_iff]
    intro f hf; simp [h.2 f hf]
  have hg : flightsOf s a.uid = [] := by
    simp only [flightsOf, List.filter_eq_nil_iff]
    intro f hf; simp [h.2 f hf]
  simp [withSlot, waitOver, waitDone, hf, hg]

/-- An access of an activation with nothing in flight leaves the core at once. -/
theorem sends_opOf {s : State} {a : Act} (h : Alone s a) (n : Nat) (path : Option Nat) (acc : Acc) (va len : Nat) (pay : Pay)
    (dst : Dst) (hacc : acc ≠ .fetch)
    (hp : ∀ o f all, f.pay = pay → sendBlocked all a.uid o f = all.any fun g => g.uid = a.uid && g.id < f.id && sameWord g f) :
    Sends s a n (request s a path acc va len pay dst) (.next (issueOp (retire s a n) (opOf a path acc va len pay dst))) := by
  refine ⟨_, advance { a with wait := .run } n, rfl, goes_advance a n, ?_⟩
  have hu : (advance { a with wait := .run } n).uid = a.uid := by rw [advance_shape]
  have hw : ∀ v r, (advance { a with wait := .run } n).wait ≠ .fault v r := by rw [advance_shape]; intro v r; simp
  rw [retire_eq, issueOp_alone h hu hw rfl rfl rfl (.inl rfl) fun o all => hp o _ all rfl]
  have : (acc == Acc.fetch) = false := by simpa using hacc
  simp [opOf, request, reqOf, this, srcOf, pcOf]

end Sys2Proof.Machine
end

