-- ==== Sys2Proof/Tests/Slice0.lean ====
section
/-! SUPPORT. The tests: ill-formed terms that the checks refuse, words written out from the encoding tables, the worked examples of the
spec, and for each statement with hypotheses a state and operands that meet them. -/
namespace Sys2Proof.Tests
open Sys2Proof Sys2Proof.Machine Sys2Proof.Safety
set_option Elab.async false

/-- An activation on core 0 with values in s1 to s6, next to the address of its pool slot in s9. -/
def wa : Act :=
  let a := placedAct (setCore State.reset 0 (placedCore Core.reset 0 [])) 0
  let put (s : Vector Word 32) (e : Nat × Word) : Vector Word 32 := s.setIfInBounds e.1 e.2
  { a with regs := { a.regs with s := [(1, 5), (2, 3), (3, 16), (4, 0x40000), (5, 64), (6, 512)].foldl put a.regs.s } }

/-- The machine with that activation alone, about to execute a nop. -/
def ws : State := { State.reset.withFetchWord 16 0x001E with acts := [(0, wa)] }

/-- The same with another activation in its place. -/
def wsOf (a : Act) : State := { ws with acts := [(0, a)] }

/-- An activation with more values in its scalar registers. -/
def withS (a : Act) (l : List (Nat × Word)) : Act :=
  { a with regs := { a.regs with s := l.foldl (fun s e => s.setIfInBounds e.1 e.2) a.regs.s } }

theorem test_witness_ScalarArithmeticResults : Issues ws wa (sNames [1, 2, 3]) := by unfold Issues; decide +kernel

/-! ### Ill-formed terms -/

/-- One term, or more, for each check of WellFormed.lean, with a field just outside what the check admits; and terms at the edge of it. -/
theorem test_illFormed_scalar :
    [Instr.ext 1 2 60 4, .extS 1 2 63 1, .ins 1 2 1 63, .fadd 16 0 0 0 0, .fma 0 0 16 0 1, .fsqrt 0 0 7 0, .fcmp 1 0 0 4 0,
     .fcvt 16 0 1 0 0 0, .fcvt 1 16 1 1 0 0, .fcvt 1 16 9 0 0 0, .fmvS 1 16 0, .fmvF 16 1 0, .fclass 1 16 0, .loop 1 2, .loopi 2 5,
     .csrr 1 0x47, .csrw 1 1 0x10, .csrs 1 1 0x12, .csrc 1 1 2, .idr 1 12].all (fun i => !wellFormed i) = true ∧
    [Instr.ext 1 2 60 3, .ins 1 2 0 63, .fadd 15 15 15 6 1, .fcmp 1 0 0 3 0, .fcvt 15 31 1 0 6 0, .fcvt 31 15 1 1 0 0, .loop 1 3, .loopi 3 0,
     .csrr 1 0x46, .csrw 1 1 0xF, .csrs 1 0 0x12, .idr 1 11].all wellFormed = true := by decide +kernel

theorem test_illFormed_memory :
    [Instr.ld 1 2 7 0 0, .ld 1 2 0 3 0, .st 1 2 4 0 0, .st 1 2 0 3 0, .vld 1 2 3 0, .vst 1 2 3 0, .ldx 1 2 3 3 1 0, .ldx 1 2 3 0 0 3,
     .vldx 1 2 3 0 0, .vstx 1 2 3 13 0, .vldx 1 2 3 1 3, .rangeNext 5 1 5, .atomAdd 1 2 3 0 0, .atomSwap 1 2 3 3 0, .redXor 1 2 0,
     .cas 1 2 3 3 0, .fence 5, .drain 4, .arrive 1 5 1 0, .arrive 1 0 0 0, .semAdd 1 2 0 0 1, .semAdd 1 2 5 0 0, .send 1 2 3 0 0 1 0,
     .send 1 2 3 0 1 5 0, .send 1 2 3 1 0 0 0].all (fun i => !wellFormed i) = true ∧
    [Instr.ld 1 2 6 2 0, .st 1 2 3 2 0, .ldx 1 2 3 2 1 2, .vldx 1 2 3 12 2, .rangeNext 0 1 0, .atomAdd 1 2 3 1 3, .cas 1 2 3 2 0, .fence 4,
     .drain 3, .arrive 1 4 127 1, .semAdd 0 2 4 15 1, .send 1 2 3 15 1 4 1].all wellFormed = true := by decide +kernel

theorem test_illFormed_vector :
    [Instr.vadd 1 2 3 0, .vadd 1 2 3 11, .vdiv 1 2 3 6, .vsqrt 1 2 11, .vexp2 1 2 10, .vshl 1 2 3 7, .vquant 1 2 3 10, .vdequant 1 2 3 0,
     .vtrw 1 2 6, .vtrc 1 2 10, .mmaF64 0 0 8 0 0 0 0 0 0 0 0, .mmaF32 0 0 0 0 3 0 0 0 0 0 0, .mmaI8 0 0 1 0 2 0 0 0 0 0 0,
     .mmaF16 0 0 0 0 1 0 0 1 0 0 0, .mmaBf16 0 0 0 0 0 0 1 0 0 0 0, .mmaI4 0 0 0 1 0 0 0 0 0 0 0, .eset 1 7, .cpy 1 2 3 3 0,
     .cpy 1 2 3 0 3, .vxPrefix 0 0 7 0 0 1].all (fun i => !wellFormed i) = true ∧
    [Instr.vadd 1 2 3 10, .vdiv 1 2 3 7, .vexp2 1 2 9, .vshl 1 2 3 6, .vquant 1 2 3 11, .vtrw 1 2 12, .mmaE4e4 3 7 0 1 2 1 15 1 1 1 1, .eset 1 6,
     .cpy 1 2 3 2 2, .vxPrefix 7 1 6 31 1 0].all wellFormed = true := by decide +kernel

theorem test_illFormed_device :
    wellFormed (.invAll (16 * 4096) 0) = false ∧ wellFormed (.invCommandComplete 9) = false ∧ wellFormed (.frTake 10) = false ∧
    wellFormed (.partwApply (2048 * 4096)) = false ∧ wellFormed (.suspend (16384 * 4096)) = false ∧
    wellFormed (.taskTake (128 * 4096)) = false ∧ wellFormed (.caliperApply (24 * 4096) 0) = false ∧
    wellFormed (.collProgramEnd (16 * 4096)) = false ∧ wellFormed (.partModeComplete 4096) = false ∧ wellFormed (.invAll 9 0) = true ∧
    wellFormed (.partModeComplete 4095) = true := by decide +kernel

/-! ### Words written out from the encoding tables (R257 to R274) -/

/-- R257: a 16-bit word by its ra, rd and op; by its imm6, rd and op. -/
def w16 (op rd ra : Nat) : Nat := ra <<< 11 ||| rd <<< 5 ||| op <<< 1
def w16i (op rd imm : Nat) : Nat := imm <<< 10 ||| rd <<< 5 ||| op <<< 1

/-- R259: the 32-bit formats, from the major opcode up. -/
def wR (major fn rd ra rb : Nat) : Nat := fn <<< 22 ||| rb <<< 17 ||| ra <<< 12 ||| rd <<< 7 ||| major <<< 1 ||| 1
def wI (major imm rd ra : Nat) : Nat := imm <<< 17 ||| ra <<< 12 ||| rd <<< 7 ||| major <<< 1 ||| 1
def wB (cond off ra rb : Nat) : Nat := off <<< 20 ||| cond <<< 17 ||| rb <<< 12 ||| ra <<< 7 ||| 12 <<< 1 ||| 1
def wJ (major off rd : Nat) : Nat := off <<< 12 ||| rd <<< 7 ||| major <<< 1 ||| 1
def wM (major off space size base rd : Nat) : Nat :=
  off <<< 22 ||| space <<< 20 ||| size <<< 17 ||| base <<< 12 ||| rd <<< 7 ||| major <<< 1 ||| 1
def wV (major fn type vd va vb : Nat) : Nat :=
  fn <<< 26 ||| type <<< 22 ||| vb <<< 17 ||| va <<< 12 ||| vd <<< 7 ||| major <<< 1 ||| 1
def wX (major flags fs sub bsrc asrc acc : Nat) : Nat :=
  flags <<< 27 ||| fs <<< 23 ||| sub <<< 19 ||| bsrc <<< 14 ||| asrc <<< 9 ||| acc <<< 7 ||| major <<< 1 ||| 1
def wS (major imm scope rd ra : Nat) : Nat := imm <<< 20 ||| scope <<< 17 ||| ra <<< 12 ||| rd <<< 7 ||| major <<< 1 ||| 1

/-- Each word of a list decodes to the instruction beside it. -/
def reads (nbits : Nat) (l : List (Nat × Instr)) : Bool := l.all fun e => decide (decodeTableWord nbits e.1 = some e.2)

/-- R258. -/
theorem test_decode_16bit : reads 16
    [(w16 1 3 17, .mov 3 17), (w16 2 3 17, .add16 3 17), (w16 3 3 17, .sub16 3 17), (w16i 4 4 0x3F, .addi6 4 0x3F), (w16i 5 5 0x21, .li6 5 0x21),
     (w16 6 1 30, .and16 1 30), (w16 7 1 30, .or16 1 30), (w16i 8 2 5, .ldDShort 2 5), (w16i 9 2 5, .stDShort 2 5), (w16i 10 7 0x3E, .bz 7 0x3E),
     (w16i 11 7 3, .bnz 7 3), (0x701 <<< 5 ||| 12 <<< 1, .b16 0x701), (w16i 13 6 33, .shli16 6 33), (w16i 14 6 33, .shri16 6 33),
     (0x001E, .nop), (0x003E, .done), (0x005E, .brk16), (0x007E, .ret)] = true := by decide +kernel

/-- R267. -/
theorem test_decode_integer : reads 32
    [(wR 1 0 3 1 2, .add 3 1 2), (wR 1 1 3 1 2, .sub 3 1 2), (wR 1 2 5 6 7, .mul 5 6 7), (wR 1 3 5 6 7, .mulh 5 6 7), (wR 1 4 5 6 7, .mulhz 5 6 7),
     (wR 1 5 31 30 29, .div 31 30 29), (wR 1 6 31 30 29, .divz 31 30 29), (wR 1 7 31 30 29, .rem 31 30 29), (wR 1 8 31 30 29, .remz 31 30 29),
     (wR 1 9 1 2 3, .and 1 2 3), (wR 1 10 1 2 3, .andn 1 2 3), (wR 1 11 1 2 3, .or 1 2 3), (wR 1 12 1 2 3, .xor 1 2 3),
     (wR 1 13 1 2 3, .shl 1 2 3), (wR 1 14 1 2 3, .shr 1 2 3), (wR 1 15 1 2 3, .sra 1 2 3), (wR 1 16 1 2 3, .rol 1 2 3),
     (wR 1 17 8 9 0, .clz 8 9), (wR 1 18 8 9 0, .ctz 8 9), (wR 1 19 8 9 0, .popc 8 9), (wR 1 20 4 5 6, .min 4 5 6), (wR 1 21 4 5 6, .max 4 5 6),
     (wR 1 22 4 5 6, .minz 4 5 6), (wR 1 23 4 5 6, .maxz 4 5 6), (wR 1 24 4 5 6, .seq 4 5 6), (wR 1 25 4 5 6, .sne 4 5 6),
     (wR 1 26 4 5 6, .slt 4 5 6), (wR 1 27 4 5 6, .sltz 4 5 6), (wR 1 28 4 5 6, .sel 4 5 6), (wR 1 29 8 9 0, .bswap 8 9),
     (wR 1 30 4 5 6, .clmul 4 5 6), (wR 1 31 4 5 6, .clmulh 4 5 6), (wR 1 32 4 5 6, .crc 4 5 6), (wR 1 33 4 5 6, .hdrPack 4 5 6),
     (wR 1 34 4 5 6, .hdrUnpk 4 5 6)] = true := by decide +kernel

/-- R266, R269. -/
theorem test_decode_immediate : reads 32
    [(wI 2 0x7FFF 1 2, .addi 1 2 0x7FFF), (wI 3 0x4000 1 2, .andi 1 2 0x4000), (wI 4 1 1 2, .ori 1 2 1), (wI 5 3 1 2, .xori 1 2 3),
     (wI 6 5 1 2, .slti 1 2 5), (wI 7 0x1234 9 0, .li 9 0x1234), (wI 8 63 1 2, .shli 1 2 63), (wI 8 (1 <<< 13 ||| 8) 1 2, .shri 1 2 8),
     (wI 8 (2 <<< 13 ||| 8) 1 2, .srai 1 2 8), (wI 8 (3 <<< 13 ||| 8) 1 2, .rori 1 2 8), (wI 9 (15 <<< 6 ||| 40) 1 2, .ext 1 2 40 15),
     (wI 9 (1 <<< 13 ||| 15 <<< 6 ||| 40) 1 2, .extS 1 2 40 15), (wI 9 (1 <<< 14 ||| 15 <<< 6 ||| 40) 1 2, .ins 1 2 40 15),
     (wJ 10 0x80001 3, .lih 3 0x80001)] = true := by decide +kernel

/-- R268. -/
theorem test_decode_float : reads 32
    [(wR 11 (0 <<< 4 ||| 1) 1 2 3, .fadd 1 2 3 1 0), (wR 11 (1 <<< 4 ||| 8 ||| 6) 1 2 3, .fsub 1 2 3 6 1), (wR 11 (2 <<< 4 ||| 2) 1 2 3, .fmul 1 2 3 2 0),
     (wR 11 (3 <<< 4 ||| 8) 1 2 3, .fma 1 2 3 0 1), (wR 11 (4 <<< 4 ||| 3) 1 2 3, .fdiv 1 2 3 3 0), (wR 11 (5 <<< 4 ||| 8 ||| 4) 1 2 0, .fsqrt 1 2 4 1),
     (wR 11 (6 <<< 4) 1 2 3, .fmin 1 2 3 0), (wR 11 (7 <<< 4 ||| 8) 1 2 3, .fmax 1 2 3 1), (wR 11 (8 <<< 4 ||| 2) 20 2 3, .fcmp 20 2 3 2 0),
     (wR 11 (9 <<< 4 ||| 8 ||| 1) 20 2 (16 ||| 4), .fcvt 20 2 4 1 1 1), (wR 11 (10 <<< 4) 20 2 0, .fmvS 20 2 0),
     (wR 11 (11 <<< 4 ||| 8) 2 20 0, .fmvF 2 20 1), (wR 11 (12 <<< 4) 20 2 0, .fclass 20 2 0)] = true := by decide +kernel

/-- R261, R266, R271. -/
theorem test_decode_control : reads 32
    [(wB 0 0x801 4 5, .bEq 4 5 0x801), (wB 1 2 4 5, .bNe 4 5 2), (wB 2 2 4 5, .bLt 4 5 2), (wB 3 2 4 5, .bGe 4 5 2), (wB 4 2 4 0, .bLtz 4 2),
     (wB 5 2 4 0, .bGez 4 2), (wJ 13 0x80 31, .jal 31 0x80), (wI 14 0x7FFE 31 10, .jalr 31 10 0x7FFE), (wI 15 10 0 4, .loop 4 10),
     (wJ 16 (7 <<< 10 ||| 12) 0, .loopi 12 7), (wS 17 0x010 0 4 0, .csrr 4 0x010), (wS 17 2 1 0 5, .csrw 0 5 2), (wS 17 2 2 1 5, .csrs 1 5 2),
     (wS 17 3 3 1 5, .csrc 1 5 3), (wS 17 11 4 2 0, .idr 2 11), (wS 17 7 5 0 5, .trap 5 7), (wS 17 0xABC 6 0 0, .brk 0xABC),
     (wS 17 0x123 7 0 0, .yield 0x123)] = true := by decide +kernel

/-- R260, R272. -/
theorem test_decode_memory : reads 32
    [(wM 18 0x3FF 2 6 4 3, .ld 3 4 6 2 0x3FF), (wM 19 2 1 3 4 3, .st 3 4 3 1 2), (wM 20 1 2 0 4 31, .vld 31 4 2 1), (wM 21 1 0 0 4 31, .vst 31 4 0 1),
     (wR 22 (0 <<< 6 ||| 1 <<< 4 ||| 1 <<< 3 ||| 2) 5 6 7, .ldx 5 6 7 2 1 1), (wR 22 (1 <<< 6) 0 6 7, .prf 6 7),
     (wR 22 (2 <<< 6 ||| 1 <<< 4 ||| 9) 5 6 7, .vldx 5 6 7 9 1), (wR 22 (3 <<< 6 ||| 2 <<< 4 ||| 9) 5 6 7, .vstx 5 6 7 9 2),
     (wR 22 (4 <<< 6) 7 6 0, .dld 7 6), (wR 22 (5 <<< 6) 1 2 3, .tld 1 2 3), (wR 22 (6 <<< 6) 1 2 3, .tst 1 2 3),
     (wR 22 (7 <<< 6) 4 5 6, .rangeNext 4 5 6)] = true := by decide +kernel

/-- R270, with the codes of R94. -/
theorem test_decode_atomic : reads 32
    [(wR 23 (1 <<< 6 ||| 0 <<< 2 ||| 2) 3 4 5, .atomAdd 3 4 5 2 1), (wR 23 (2 <<< 6 ||| 1 <<< 2 ||| 1) 3 4 5, .atomFaddF32 3 4 5 2),
     (wR 23 (3 <<< 6 ||| 2 <<< 2 ||| 2) 3 4 5, .atomFaddF64 3 4 5 3), (wR 23 (3 <<< 2 ||| 0) 3 4 5, .atomFaddBf16 3 4 5 0),
     (wR 23 (4 <<< 2 ||| 1) 3 4 5, .atomMin 3 4 5 1 0), (wR 23 (5 <<< 2 ||| 1) 3 4 5, .atomMax 3 4 5 1 0), (wR 23 (6 <<< 2 ||| 2) 3 4 5, .atomMinz 3 4 5 2 0),
     (wR 23 (7 <<< 2 ||| 2) 3 4 5, .atomMaxz 3 4 5 2 0), (wR 23 (8 <<< 2 ||| 1) 3 4 5, .atomAnd 3 4 5 1 0), (wR 23 (9 <<< 2 ||| 1) 3 4 5, .atomOr 3 4 5 1 0),
     (wR 23 (10 <<< 2 ||| 1) 3 4 5, .atomXor 3 4 5 1 0), (wR 23 (11 <<< 2 ||| 1) 3 4 5, .atomSwap 3 4 5 1 0),
     (wR 24 (0 <<< 2 ||| 1) 0 4 5, .redAdd 4 5 1), (wR 24 (1 <<< 2 ||| 1) 0 4 5, .redFaddF32 4 5), (wR 24 (2 <<< 2 ||| 2) 0 4 5, .redFaddF64 4 5),
     (wR 24 (3 <<< 2 ||| 0) 0 4 5, .redFaddBf16 4 5), (wR 24 (4 <<< 2 ||| 1) 0 4 5, .redMin 4 5 1), (wR 24 (5 <<< 2 ||| 1) 0 4 5, .redMax 4 5 1),
     (wR 24 (6 <<< 2 ||| 1) 0 4 5, .redMinz 4 5 1), (wR 24 (7 <<< 2 ||| 1) 0 4 5, .redMaxz 4 5 1), (wR 24 (8 <<< 2 ||| 2) 0 4 5, .redAnd 4 5 2),
     (wR 24 (9 <<< 2 ||| 2) 0 4 5, .redOr 4 5 2), (wR 24 (10 <<< 2 ||| 2) 0 4 5, .redXor 4 5 2), (wR 25 (2 <<< 6 ||| 2) 3 4 5, .cas 3 4 5 2 2)] = true := by
  decide +kernel

/-- R271, R272, with the operand fields of R332 to R344. -/
theorem test_decode_sync : reads 32
    [(wS 26 0 4 0 0, .fence 4), (wS 26 (1 <<< 8 ||| 3) 0 0 0, .drain 3), (wS 26 (2 <<< 8 ||| 1 <<< 7 ||| 9) 2 0 5, .arrive 5 2 9 1),
     (wS 26 (3 <<< 8) 0 4 5, .barArrive 4 5), (wS 26 (4 <<< 8) 0 4 5, .barWait 4 5), (wS 26 (5 <<< 8 ||| 9) 0 4 0, .semWait 4 9),
     (wS 26 (6 <<< 8 ||| 1 <<< 7 ||| 9) 3 0 5, .semAdd 0 5 3 9 1), (wS 26 (7 <<< 8 ||| 63) 0 0 5, .ownGive 5 63), (wS 26 (8 <<< 8 ||| 2) 0 0 5, .ownTake 5 2),
     (wS 26 (9 <<< 8 ||| 2) 0 0 5, .ownWait 5 2), (wS 26 (10 <<< 8 ||| 9 <<< 3 ||| 6) 0 0 0, .cbWait 6 9),
     (wS 26 (11 <<< 8 ||| 9 <<< 3 ||| 6) 0 0 0, .cbRoom 6 9), (wS 26 (12 <<< 8 ||| 9 <<< 3 ||| 6) 0 0 0, .cbPush 6 9),
     (wS 26 (13 <<< 8 ||| 9 <<< 3 ||| 6) 0 0 0, .cbPop 6 9), (wR 27 (0 <<< 6 ||| 1) 0 1 2, .spawn 1 2 1), (wR 27 (1 <<< 6) 0 1 2, .spawng 1 2 0),
     (wR 27 (2 <<< 6) 0 1 2, .wttArm 1 2), (wR 27 (3 <<< 6) 4 0 2, .wttDisarm 4 2),
     (wR 28 (1 <<< 8 ||| 2 <<< 5 ||| 1 <<< 4 ||| 9) 1 2 3, .send 1 2 3 9 1 2 1)] = true := by decide +kernel

/-- R273, functions 0 to 23 of V0. -/
theorem test_decode_vectorArithmetic : reads 32
    [(wV 29 0 1 1 2 3, .vadd 1 2 3 1), (wV 29 1 9 1 2 3, .vsub 1 2 3 9), (wV 29 2 9 0 0 1, .vmul 0 0 1 9), (wV 29 3 9 1 2 3, .vfma 1 2 3 9),
     (wV 29 4 9 1 2 3, .vfms 1 2 3 9), (wV 29 5 9 1 2 3, .vfnma 1 2 3 9), (wV 29 6 9 1 2 3, .vdiv 1 2 3 9), (wV 29 7 9 1 2 0, .vsqrt 1 2 9),
     (wV 29 8 9 1 2 0, .vrcp 1 2 9), (wV 29 9 9 1 2 0, .vrsqrt 1 2 9), (wV 29 10 9 1 2 0, .vexp2 1 2 9), (wV 29 11 9 1 2 0, .vlog2 1 2 9),
     (wV 29 12 9 1 2 0, .vtanh 1 2 9), (wV 29 13 9 1 2 0, .vsigm 1 2 9), (wV 29 14 9 1 2 0, .vsin 1 2 9), (wV 29 15 9 1 2 0, .vcos 1 2 9),
     (wV 29 16 9 1 2 3, .vmin 1 2 3 9), (wV 29 17 9 1 2 3, .vmax 1 2 3 9), (wV 29 18 9 1 2 0, .vabs 1 2 9), (wV 29 19 9 1 2 0, .vneg 1 2 9),
     (wV 29 20 3 1 2 3, .vand 1 2 3 3), (wV 29 21 3 1 2 3, .vor 1 2 3 3), (wV 29 22 3 1 2 3, .vxor 1 2 3 3), (wV 29 23 3 1 2 0, .vnot 1 2 3)] = true := by
  decide +kernel

/-- R273, the other functions of V0; V1; and the prefix (R262). -/
theorem test_decode_vectorOther : reads 32
    [(wV 29 24 3 1 2 3, .vshl 1 2 3 3), (wV 29 25 3 1 2 3, .vshr 1 2 3 3), (wV 29 26 3 1 2 3, .vsra 1 2 3 3), (wV 29 27 9 7 2 3, .vcmp 7 2 3 9),
     (wV 29 28 9 1 2 3, .vsel 1 2 3 9), (wV 29 29 9 1 2 0, .vmov 1 2 9), (wV 29 30 9 1 3 0, .vbcast 1 3 9), (wV 29 31 9 1 2 3, .vins 1 2 3 9),
     (wV 29 32 9 1 2 3, .vext 1 2 3 9), (wV 29 33 9 1 2 7, .vcvt 1 2 7 9), (wV 29 34 11 1 2 3, .vquant 1 2 3 11), (wV 29 35 11 1 2 3, .vdequant 1 2 3 11),
     (wV 29 36 9 1 2 0, .vredsum 1 2 9), (wV 29 37 9 1 2 0, .vredmax 1 2 9), (wV 29 38 9 1 2 0, .vredmin 1 2 9), (wV 29 39 9 1 2 3, .vredmaxi 1 2 3 9),
     (wV 29 40 9 1 2 3, .vredmini 1 2 3 9), (wV 29 41 3 1 2 0, .vscanAdd 1 2 3), (wV 29 42 3 1 2 0, .vscanXor 1 2 3), (wV 29 43 3 1 2 3, .vclmul 1 2 3 3),
     (wV 29 44 3 1 2 0, .vpopc 1 2 3), (wV 29 45 3 1 2 0, .vclz 1 2 3), (wV 30 0 9 1 2 3, .vperm 1 2 3 9), (wV 30 1 9 1 2 3, .vslide 1 2 3 9),
     (wV 30 2 9 1 2 3, .vzip 1 2 3 9), (wV 30 3 9 1 2 3, .vunzip 1 2 3 9), (wV 30 4 9 0 2 3, .vtrw 2 3 9), (wV 30 5 9 1 2 0, .vtrc 1 2 9),
     (wV 30 6 0 1 2 3, .mand 1 2 3), (wV 30 7 0 1 2 3, .mor 1 2 3), (wV 30 8 0 1 2 3, .mxor 1 2 3), (wV 30 9 0 1 2 0, .mnot 1 2),
     (wV 30 10 0 20 2 0, .mpop 20 2), (wV 30 11 0 20 2 0, .mfirst 20 2), (wV 30 12 0 1 20 0, .mset 1 20),
     (1 <<< 20 ||| 1 <<< 19 ||| 9 <<< 14 ||| 2 <<< 11 ||| 1 <<< 10 ||| 5 <<< 7 ||| 63 <<< 1 ||| 1, .vxPrefix 5 1 2 9 1 1)] = true := by decide +kernel

/-- R266, R274, with the flags and sources of R377 to R384. -/
theorem test_decode_matrix : reads 32
    [(wX 31 0b0010 0 0 3 2 1, .mmaF64 1 2 3 0 0 0 0 0 1 0 0), (wX 32 0 0 0 20 2 1, .mmaF32 1 2 20 0 0 0 0 0 0 0 0),
     (wX 33 0 0 0 20 2 1, .mmaBf16 1 2 20 0 0 0 0 0 0 0 0), (wX 34 0 0 0 20 2 1, .mmaF16 1 2 20 0 0 0 0 0 0 0 0),
     (wX 35 0b1100 9 0b0101 0 2 1, .mmaE4e4 1 2 0 1 2 0 9 0 0 1 1), (wX 36 0 0 0 20 2 1, .mmaE4e5 1 2 20 0 0 0 0 0 0 0 0),
     (wX 37 0 0 0 20 2 1, .mmaE5e4 1 2 20 0 0 0 0 0 0 0 0), (wX 38 0 0 0 20 2 1, .mmaE5e5 1 2 20 0 0 0 0 0 0 0 0),
     (wX 39 0 0 0 20 2 1, .mmaE3m2 1 2 20 0 0 0 0 0 0 0 0), (wX 40 0 0 0 20 2 1, .mmaE2m3 1 2 20 0 0 0 0 0 0 0 0),
     (wX 41 0 0 0 20 2 1, .mmaE2m1 1 2 20 0 0 0 0 0 0 0 0), (wX 42 0 0 0 20 2 1, .mmaI8 1 2 20 0 0 0 0 0 0 0 0),
     (wX 43 0 0 0 20 2 1, .mmaI4 1 2 20 0 0 0 0 0 0 0 0), (wX 44 0 0 0 0 0 2, .mzero 2), (wX 44 0 0 1 7 1 0, .mld 0 1 7), (wX 44 0 0 2 7 1 0, .mldT 0 1 7),
     (wX 44 0b10110 1 3 6 5 0, .mst 0 5 6 1 1 1 1), (wX 44 0 0 4 0 3 1, .msc 1 3), (wX 44 0 0 4 1 3 1, .mscE8m0 1 3)] = true := by decide +kernel

/-- R272, with the operand fields of R389 to R402. -/
theorem test_decode_engines : reads 32
    [(wR 45 2 0 4 0, .eset 4 2), (wR 45 (1 <<< 6) 0 0 0, .ego), (wR 45 (2 <<< 6 ||| 1 <<< 4 ||| 2 <<< 2) 1 2 3, .cpy 1 2 3 2 1), (wR 45 (3 <<< 6) 0 4 0, .cpyChain 4),
     (wR 45 (4 <<< 6) 0 4 0, .bgath 4), (wR 45 (5 <<< 6) 0 0 0, .bcvt), (wR 46 3 0 4 5, .bimOpen 4 5 3), (wR 46 (1 <<< 6) 0 4 5, .bimPush 4 5),
     (wR 46 (2 <<< 6) 0 0 0, .bimClose), (wR 46 (3 <<< 6) 3 4 5, .bimWait 3 4 5), (wR 47 1 0 3 0, .oftDecl 3 1), (wR 47 (1 <<< 6) 3 4 0, .oftSub 3 4),
     (wR 47 (2 <<< 6) 0 0 0, .oftRel), (wR 48 1 0 3 0, .collGo 3 1), (wR 48 (1 <<< 6) 0 3 4, .topkSend 3 4), (wR 48 (2 <<< 6) 2 3 4, .slotClaim 2 3 4),
     (wR 48 (3 <<< 6) 0 3 4, .slotRet 3 4), (wR 48 (4 <<< 6) 0 3 4, .ctrSnap 3 4)] = true := by decide +kernel

/-- The words that the entries of the spec write out. -/
theorem test_decode_specWords : reads 32
    [(0x00041183, .add 3 1 2), (0x008E6283, .mul 5 6 7), (0x00000195, .lih 3 0), (0x00080F9B, .jal 31 0x80), (0x0000AF9D, .jalr 31 10 0),
     (0x0014401F, .loop 4 10), (0x00025023, .csrw 0 5 0), (0x01000223, .csrr 4 0x10), (0x00B80123, .idr 2 11), (0x007A5023, .trap 5 7), (0x001C0023, .brk 1),
     (0x008611A5, .ld 3 1 3 0 2), (0xFFD42227, .st 4 2 2 1 0x3FF)] = true ∧
    reads 32 [(0x00060035, .fence 3), (0x00441037, .spawn 1 2 1), (0x0010107F, .vxPrefix 0 0 2 0 0 1), (0x00000159, .mzero 2), (0x0009C259, .mld 0 1 7),
     (0x0011C259, .mldT 0 1 7), (0x00998A59, .mst 0 5 6 1 0 0 0), (0x00204659, .mscE8m0 0 3), (0x0080405B, .eset 4 2), (0x00CA405D, .bimOpen 4 5 3),
     (0x0040305F, .oftDecl 3 1), (0x00403061, .collGo 3 1)] = true := by decide +kernel

/-- R4, R256, R264, R266 to R274: words that are no instruction: op 0, a flag F set, the codes of misc beyond 3; majors 0, 49 and 62; a code
past the end of each function table; a nonzero field that the entry does not use. A field value out of its range is refused by the meaning
(R255; the tests of ill-formed terms). -/
theorem test_decode_refuses :
    [0, w16 0 1 0, w16 1 3 17 ||| 0x400, w16 15 4 0, w16i 15 0 1].all (fun w => decide (decodeTableWord 16 w = none)) = true ∧
    [wR 0 0 1 2 3, wR 49 0 1 2 3, wR 62 0 1 2 3, wR 1 35 1 2 3, wR 1 17 8 9 1, wI 7 1 9 1, wI 8 0x40 1 2, wI 9 (1 <<< 12) 1 2, wI 9 (3 <<< 13) 1 2,
     wR 11 (13 <<< 4) 1 2 3, wB 6 2 4 5, wB 4 2 4 5, wJ 16 (7 <<< 10 ||| 12) 1, wM 20 0 0 1 1 1,
     wR 22 (8 <<< 6) 1 2 3, wR 23 (1 <<< 8 ||| 1) 1 2 3, wR 24 (1 <<< 6 ||| 1) 0 2 3, wR 24 (11 <<< 2 ||| 1) 0 2 3, wS 26 (14 <<< 8) 0 0 0,
     wS 26 (7 <<< 8) 1 0 5, wR 27 (4 <<< 6) 0 1 2, wV 29 46 9 1 2 3, wV 30 13 0 1 2 3, wX 44 0 0 5 0 0 0,
     wX 44 0 0 0 0 1 0, wR 45 (6 <<< 6) 0 0 0, wR 46 (4 <<< 6) 0 0 0, wR 47 (3 <<< 6) 0 0 0, wR 48 (5 <<< 6) 0 0 0,
     1 <<< 21 ||| 127].all (fun w => decide (decodeTableWord 32 w = none)) = true := by decide +kernel

/-! ### Witnesses: scalar and control instructions -/

theorem test_witness_DivisionResults :
    let a := withS wa [(1, BitVec.ofInt 64 (-2 ^ 63)), (2, -1)]
    Issues (wsOf a) a (sNames [1, 1, 2]) ∧ (sreg a 1).toInt = -2 ^ 63 ∧ (sreg a 2).toInt = -1 ∧ sreg a 7 = 0 := by
  unfold Issues; decide +kernel

/-- A core whose header-field entries 5 and 6 are set: a signed byte-reversed field of 16 bits at bit 8, and one that runs past bit 63. -/
def wsHdr : State :=
  { ws with cores := mset ws.cores 0 { coreAt ws 0 with hdrf := [(5, BitVec.ofNat 64 (8 + 64 * 16 + 0xE000)), (6, 0x8000 + 64 * 2 + 63)] } }

theorem test_witness_LogicAndBitFieldResults :
    Issues wsHdr wa (sNames [4, 3, 1]) ∧ (63 : BitVec 6).toNat + (0 : BitVec 6).toNat ≤ 63 ∧
    64 ≤ (63 : BitVec 6).toNat + (1 : BitVec 6).toNat ∧
    (let e := mget (coreAt wsHdr 0).hdrf ((sreg wa 1).toNat % 64) 0
     e.getLsbD 15 = true ∧ 1 ≤ wfld e 6 7 ∧ wfld e 6 7 ≤ 64 ∧ wfld e 0 6 + wfld e 6 7 ≤ 64 ∧
       (e.getLsbD 13 = true → wfld e 6 7 % 8 = 0 ∧ wfld e 0 6 % 8 = 0)) ∧
    (let e := mget (coreAt wsHdr 0).hdrf 6 0
     e.getLsbD 15 = true ∧ 64 < wfld e 0 6 + wfld e 6 7) := by unfold Issues; decide +kernel

theorem test_witness_BitCountAndPolynomialResults :
    Issues ws wa (sNames [1, 2]) ∧ Issues ws wa (sNames [1, 2, 3]) := by unfold Issues; decide +kernel

theorem test_witness_ComparisonResults : Issues ws wa (sNames [1, 2, 2]) := by unfold Issues; decide +kernel

theorem test_witness_ControlFlowResults :
    (let a := { wa with regs := { wa.regs with lcnt := 1, lstart := 0, lend := 4 } }
     Issues (wsOf a) a (sNames [1, 2]) ∧ Issues (wsOf a) a (sNames [1, 2, 31]) ∧ Issues (wsOf a) a (sNames [1]) ∧ a.regs.lcnt ≠ 0) ∧
    Issues ws wa (sNames [1]) ∧ wa.regs.lcnt = 0 ∧ 3 ≤ (3 : BitVec 10).toNat ∧ (2 : BitVec 10).toNat < 3 := by
  unfold Issues; decide +kernel

theorem test_witness_ControlRegisterResults :
    Issues ws wa (sNames [1]) ∧ Issues ws wa (sNames [1, 2]) ∧ wa.tiles.length = 1 ∧
    (0x100C : Word).getLsbD 12 = true ∧ wfld (0x100C : Word) 10 2 < wa.tiles.length ∧ wfld (0x100C : Word) 0 4 ≤ 12 ∧
    12 < wfld (0x100D : Word) 0 4 ∧ (0x100D : Word).getLsbD 12 = true ∧
    (0x1000430 : Word).getLsbD 24 = true ∧ wfld (0x1000430 : Word) 6 5 = 16 ∧ wfld (0x1000430 : Word) 0 6 + wfld (0x1000430 : Word) 6 5 = 64 ∧
    wfld (0x1000431 : Word) 0 6 + wfld (0x1000431 : Word) 6 5 = 65 ∧ 12 ≤ (12 : BitVec 12).toNat := by unfold Issues; decide +kernel

theorem test_witness_TrapAndBreakTerminate : Issues ws wa (sNames [1]) := by unfold Issues; decide +kernel

theorem test_witness_YieldWaits : Issues ws wa [] := by unfold Issues; decide +kernel

/-! ### Witnesses: floating point -/

theorem test_witness_FloatArithmeticResults :
    Issues ws wa [] ∧ Uncounted ws wa ∧
    ((15 : BitVec 5).toNat < 16 ∧ (0 : BitVec 5).toNat < 16 ∧ (7 : BitVec 5).toNat < 16 ∧ (6 : BitVec 3).toNat ≠ 7) ∧
    ¬ (16 : BitVec 5).toNat < 16 := by unfold Issues Uncounted; decide +kernel

theorem test_witness_FloatMoveAndCompareResults :
    Issues ws wa (sNames [1, 15]) ∧ Issues ws wa (sNames [16, 16]) ∧ Uncounted ws wa ∧ (15 : BitVec 5).toNat < 16 ∧ 16 ≤ (16 : BitVec 5).toNat ∧
    (6 : BitVec 3) ≠ 7 ∧ 4 ≤ (4 : BitVec 3).toNat ∧ (fmtOf (9 : BitVec 4).toNat).isSome = true ∧ fmtOf (6 : BitVec 4).toNat = none := by
  unfold Issues Uncounted; decide +kernel

theorem test_witness_ConversionKeepsRepresentableValues :
    ∃ k, fmtOf 9 = some k ∧ 0x7F7FFFFF < 2 ^ k.w ∧ ∃ neg x, k.val 0x7F7FFFFF = .num neg x := by
  refine ⟨_, rfl, by decide, _, _, rfl⟩

/-! ### Witnesses: memory, synchronisation, tasks -/

theorem test_witness_GlobalAndGangAccessesAreSent :
    Issues ws wa (sNames [1, 6, 5] ++ vNames wa [1] ++ [.d 7]) ∧ Alone ws wa ∧ (6 : BitVec 3) ≠ 7 ∧
    ¬ ((0 : BitVec 1) = 1 ∧ (3 : BitVec 2) = 3) ∧ (sreg wa 6 + BitVec.ofInt 64 ((-1) * 512)).toNat % 512 = 0 ∧
    (sreg wa 1).toNat % 512 ≠ 0 ∧ (sreg wa 5).toNat % 8 = 0 ∧ (sreg wa 1).toNat % 8 ≠ 0 ∧ (sreg wa 5).toNat % 32 = 0 ∧
    ((1 : BitVec 5) ≠ 5) ∧ Issues ws wa (sNames [1, 4] ++ vNames wa [1]) ∧ (coreAt ws (coreOf wa)).copyQ = [] ∧
    gangCore wa (sreg wa 4 + BitVec.ofInt 64 (511 * 8)).toNat ≠ coreOf wa ∧ gangCore wa (sreg wa 4 + BitVec.ofInt 64 (511 * 512)).toNat ≠ coreOf wa ∧
    (sreg wa 4 + BitVec.ofInt 64 (511 * 512)).toNat % 512 = 0 := by unfold Issues Alone; decide +kernel

/-- The last slot of the pool is engine-owned. -/
def wsOwned : State := { ws with cores := mset ws.cores 0 { coreAt ws 0 with slots := [(63, true, 0)] } }

theorem test_witness_OwnPoolAccesses :
    Issues ws wa (sNames [1, 9, 7, 9] ++ vNames wa [1]) ∧ Alone ws wa ∧ (3 : BitVec 3).toNat < 4 ∧
    OwnFree ws wa ((sreg wa 9 + BitVec.ofInt 64 (511 * 8)).toNat % 262144) 8 ∧
    OwnFree ws wa ((sreg wa 9 + sreg wa 7 * BitVec.ofNat 64 (2 ^ 3)).toNat % 262144) 8 ∧
    OwnFree ws wa ((sreg wa 9 + BitVec.ofNat 64 (8 * 63)).toNat % 262144) 8 ∧
    OwnFree ws wa ((sreg wa 9 + BitVec.ofInt 64 (7 * 512)).toNat % 262144) 512 ∧
    (sreg wa 9 + BitVec.ofInt 64 (7 * 512)).toNat % 262144 % 512 = 0 ∧
    ownReach ws wa (128 * 512) 8 = false ∧ Issues wsOwned wa (sNames [1, 9, 7, 9] ++ vNames wa [1]) ∧
    ownReach wsOwned wa 258048 8 = true ∧ poolHolds wsOwned wa 258048 8 true = [] ∧
    ownedSlot wsOwned (coreOf wa) 258048 8 ≠ none := by unfold Issues Alone OwnFree; decide +kernel

theorem test_witness_GatherAndScatter :
    let ix := readN ws.mem (vloc ws wa 2) 512
    let ad (x i : Nat) : Nat := (sreg wa x + BitVec.ofNat 64 (fld ix (64 * i) 64 * 8)).toNat
    Issues ws wa (sNames [9] ++ vNames wa [1, 2]) ∧ Alone ws wa ∧ tWidth 10 = 64 ∧ (∀ i, i < 64 → ad 9 i % 8 = 0) ∧
    (∀ i, i < 64 → OwnFree ws wa (ad 9 i % 262144) 8) ∧ Issues ws wa (sNames [1] ++ vNames wa [1, 2]) ∧ ∃ i, i < 64 ∧ ad 1 i % 8 ≠ 0 := by
  unfold Issues Alone OwnFree
  refine ⟨?_, ?_, ?_, ?_, ?_, ?_, 63, ?_⟩ <;> decide +kernel

theorem test_witness_AtomicsAndReductions :
    Issues ws wa (sNames [1, 5, 2]) ∧ Issues ws wa (sNames [5, 2]) ∧ Alone ws wa ∧ (sreg wa 5).toNat % 8 = 0 ∧ (sreg wa 1).toNat % 4 ≠ 0 ∧
    2 ^ 64 - 1 < 2 ^ (8 * 8) := by unfold Issues Alone; decide +kernel

/-- A store of an activation on its way, on path 1. -/
def wsStore : State := { ws with flights := [request ws wa (some 1) .store 64 8 (.store (toBytes 8 1)) .none] }

/-- A semaphore above and one at zero. -/
def wsSem : State := { ws with cores := mset ws.cores 0 { coreAt ws 0 with sems := [(2, 1)] } }

/-- Slot 63 is engine-owned with a command outstanding, slot 62 with none. -/
def wsSlots : State := { ws with cores := mset ws.cores 0 { coreAt ws 0 with slots := [(62, true, 0), (63, true, 1)] } }

/-- The words of a descriptor of 32-bit elements of rank 1: base and space, number of elements. -/
def wdesc (base space n : Nat) : DReg := BitVec.ofNat 512 (base + 2 ^ 57 * space + 2 ^ 60 * 9 + 2 ^ 64 * (1 + 2 ^ 16 * n))

/-- A tile load of the activation into the own pool from an address on, queued: it holds the bytes until it has written them. -/
def wsTload (p : Nat) : State :=
  { ws with cores := mset ws.cores 0 { coreAt ws 0 with
      copyQ := [⟨1, wa.uid, 2, [], none, 0, wdesc p 1 4, 0, 0, 0, 0, false, []⟩] } }

/-- A ring of 16 slots at slot 48, with 1 slot filled at its last place. -/
def wring : Act := { wa with regs := { wa.regs with c := wa.regs.c.setIfInBounds 7 (BitVec.ofNat 64 (48 + 64 * 16 + 2048 * 15 + 2 ^ 19 + 2 ^ 24)) } }

theorem test_witness_SlotsAndFences :
    (let early (f : Flight) : Prop := f.uid = wa.uid ∧ f.pay.touches = true ∧ f.pay ≠ .prf ∧ scopeOfFlight wsStore f ≤ 4
     Issues wsStore wa (sNames [1]) ∧ (∃ f ∈ wsStore.flights, early f) ∧ (∃ f ∈ wsStore.flights, f.uid = wa.uid ∧ f.path = some 1) ∧
       ∀ f ∈ wsStore.flights, f.uid = wa.uid → f.path ≠ some 3) ∧
    (let s : State := { wsStore with nextId := 3, flights := wsStore.flights.map fun f => { f with stage := .replay } }
     ∃ f ∈ s.flights, f.uid = wa.uid ∧ f.id < s.nextId ∧ isRefused f = true) ∧
    (∀ f ∈ wsStore.flights, isRefused f = false) ∧ Issues ws wa (sNames [1]) ∧ ws.flights = [] ∧ Issues wsSem wa (sNames [1]) ∧
    (let v : Int := mget (coreAt wsSem (coreOf wa)).sems 2 0; 0 < v) ∧ (let v : Int := mget (coreAt wsSem (coreOf wa)).sems 15 0; v ≤ 0) ∧
    ownSignal wsSem wa 15 = false ∧
    ownSignal { wsSem with flights := [request wsSem wa none .load 64 8 (.signal 0 15 1 0 0) .none] } wa 15 = true ∧
    (let c := coreAt wsSlots (coreOf wa)
     Issues wsSlots wa (sNames [3]) ∧ poolHolds wsSlots wa (4096 * (((sreg wa 3).toNat + 16) % 64)) 4096 true = [] ∧
       poolHolds (wsTload 258048) wa (4096 * (((sreg wa 3).toNat + 47) % 64)) 4096 true ≠ [] ∧ Issues (wsTload 258048) wa (sNames [3]) ∧
       (mget (coreAt (wsTload 258048) 0).slots (((sreg wa 3).toNat + 47) % 64) (false, 0)).1 = false ∧ 8 * (((sreg wa 3).toNat + 15) % 64) < scratchRow c ∧
       scratchRow c ≤ 8 * (((sreg wa 3).toNat + 16) % 64) ∧ (mget c.slots (((sreg wa 3).toNat + 16) % 64) (false, 0)).1 = false ∧
       mget c.slots (((sreg wa 3).toNat + 46) % 64) (false, 0) = (true, 0) ∧ (mget c.slots (((sreg wa 3).toNat + 47) % 64) (false, 0)).2 ≠ 0) ∧
    (let w := creg wring 7
     let c := coreAt (wsOf wring) 0
     Issues (wsOf wring) wring [] ∧ w.getLsbD 24 = true ∧ scratchRow c ≤ 8 * wfld w 0 6 ∧ wfld w 6 5 = 16 ∧ wfld w 19 5 = 1 ∧
       (∀ i, i < 1 → engineOwned c (wfld w 0 6 + (wfld w 11 4 + i) % 16) = false) ∧
       (∀ i, i < 15 → engineOwned c (wfld w 0 6 + (wfld w 15 4 + i) % 16) = false) ∧ (creg wring 0).getLsbD 24 = false ∧
       8 * wfld (0x1000400 : Word) 0 6 < scratchRow c ∧ (0x1000400 : Word).getLsbD 24 = true ∧ (15 : BitVec 4).toNat + 1 ≤ 16 ∧
       15 < (15 : BitVec 4).toNat + 1) := by
  unfold Issues
  refine ⟨?_, ?_, ?_, ?_⟩ <;> decide +kernel

theorem test_witness_ArrivalsAndSignals :
    Issues ws wa (sNames [0, 5]) ∧ Alone ws wa ∧ (4 : BitVec 3).toNat < 5 ∧ 5 ≤ (5 : BitVec 3).toNat ∧ (127 : BitVec 7) ≠ 0 ∧ (sreg wa 5).getLsbD 23 = false ∧
    (sreg (withS wa [(5, 0x800000)]) 5).getLsbD 23 = true ∧ Issues (wsOf (withS wa [(5, 0x800000)])) (withS wa [(5, 0x800000)]) (sNames [0, 5]) ∧
    (sreg wa 5).toNat % 32 = 0 ∧ (sreg wa 1).toNat % 32 ≠ 0 := by unfold Issues Alone; decide +kernel

/-- Entries of the waiting-task table: armed, firing, faulted. -/
def wsWtt : State :=
  { ws with cores := mset ws.cores 0 { coreAt ws 0 with
      wtt := [(3, { WttEntry.reset with st := .armed, count := 1 }), (5, { WttEntry.reset with st := .firing }),
        (16, { WttEntry.reset with st := .fault })] } }

theorem test_witness_WaitingReadsAndDisarm :
    Issues ws wa (sNames [1, 5, 2]) ∧ Alone ws wa ∧ (sreg wa 5).toNat % 64 = 0 ∧ (sreg wa 5).toNat % 32 = 0 ∧ (sreg wa 1).toNat % 32 ≠ 0 ∧
    Issues wsWtt wa (sNames [1, 2]) ∧
    (let st (k : Nat) : WttState := (mget (coreAt wsWtt (coreOf wa)).wtt ((sreg wa k).toNat % 64) WttEntry.reset).st
     st 2 = .armed ∧ st 1 = .firing ∧ st 3 = .fault ∧ st 5 = .disarmed) := by unfold Issues Alone; decide +kernel

/-- A merge group that is open, its open acknowledged. -/
def wgroup : OpenGroup := ⟨⟨0, 0, 0, 0⟩, [], [], true⟩

theorem test_witness_DoneEnds :
    Issues ws wa [] ∧ Alone ws wa ∧ wa.gang = none ∧ wa.txn = none ∧ wa.closing = [] ∧
    (∀ m ∈ (coreAt ws (coreOf wa)).matQ, m.uid ≠ wa.uid) ∧ wa.group = none ∧ (nth wa.task.words 1).getLsbD 23 = false ∧
    (let a := { wa with group := some wgroup }; Issues (wsOf a) a [] ∧ a.group ≠ none) ∧
    (let a := { wa with task := { wa.task with words := [0, 0x800000, 0, 0, 0, 0, 0, 0] } }
     Issues (wsOf a) a [] ∧ (nth a.task.words 1).getLsbD 23 = true) := by unfold Issues Alone; decide +kernel

theorem test_witness_SendResults :
    (let a := withS wa [(1, 0x40000000800000), (5, 0x0009000000800000 + 4 * 2 ^ 24)]
     let c := coreAt (wsOf a) (coreOf a)
     Issues (wsOf a) a (sNames [5, 9, 5]) ∧ Alone (wsOf a) a ∧ Uncounted (wsOf a) a ∧ (4 : BitVec 3).toNat < 5 ∧
       wfld (sreg a 5) 24 24 = 4 ∧ wfld (sreg a 9) 0 18 + 4 ≤ 262144 ∧ 512 * scratchRow c ≤ wfld (sreg a 9) 0 18 ∧
       (∀ k ∈ slotsOf (wfld (sreg a 9) 0 18) 4, engineOwned c k = false) ∧ wfld (sreg a 5) 48 4 = 9 ∧ wireLocal 9 = true ∧
       wirePairing 9 8 = true ∧ 4 % (tWidth 9 / 8) = 0 ∧ wfld (sreg a 9) 0 18 % (tWidth 9 / 8) = 0 ∧ (sreg a 5).toNat % (tWidth 9 / 8) = 0 ∧
       okSend 8 1 4 1 = true ∧ okSend 8 0 0 1 = true) ∧
    (let a := withS wa [(5, 2 ^ 44)]; Issues (wsOf a) a (sNames [5, 1, 5]) ∧ wfld (sreg a 5) 24 24 = 2 ^ 20 ∧
       262144 < wfld (sreg a 9) 0 18 + wfld (sreg a 5) 24 24 ∧ wfld (sreg a 1) 0 18 < 512 * scratchRow (coreAt (wsOf a) 0)) ∧
    wfld (sreg wa 5) 24 24 = 0 ∧
    (let a := withS wa [(5, 4 * 2 ^ 24)]
     let s := { wsTload 258048 with acts := [(0, a)] }
     Issues s a (sNames [5, 9, 5]) ∧ poolHolds s a (wfld (sreg a 9) 0 18) 4 false ≠ [] ∧ 512 * scratchRow (coreAt s 0) ≤ wfld (sreg a 9) 0 18) := by unfold Issues Alone Uncounted; decide +kernel

/-! ### Witnesses: vectors, masks, the prefix -/

theorem test_witness_VectorBitAndMoveResults :
    Issues ws wa (sNames [1, 2] ++ vNames wa [0, 1, 2]) ∧ Uncounted ws wa ∧ 1 ≤ (1 : BitVec 4).toNat ∧ (6 : BitVec 4).toNat ≤ 6 ∧
    7 ≤ (7 : BitVec 4).toNat := by unfold Issues Uncounted; decide +kernel

theorem test_witness_VectorIntegerResults :
    Issues ws wa (sNames [2] ++ vNames wa [31, 31, 0]) ∧ Uncounted ws wa ∧ 1 ≤ (6 : BitVec 4).toNat ∧ (6 : BitVec 4).toNat ≤ 6 := by
  unfold Issues Uncounted; decide +kernel

theorem test_witness_VectorFloatResults :
    Issues ws wa (vNames wa [31, 31, 0]) ∧ Uncounted ws wa ∧ 7 ≤ (7 : BitVec 4).toNat ∧ (9 : BitVec 4).toNat ≤ 9 ∧ (10 : BitVec 4).toNat = 10 := by
  unfold Issues Uncounted; decide +kernel

theorem test_witness_VectorScalarResults :
    Issues ws wa (sNames [3, 2, 1] ++ vNames wa [3, 2, 1]) ∧ Uncounted ws wa ∧ 11 ≤ (11 : BitVec 4).toNat ∧ (6 : BitVec 4).toNat ≤ 6 := by
  unfold Issues Uncounted; decide +kernel

theorem test_witness_MaskAndTransposeResults :
    Issues ws wa (sNames [3, 2] ++ vNames wa [3, 1]) ∧ mreg wa 1 = 0 ∧ (mreg wa 0).getLsbD 0 = true ∧ (∀ j, j < 0 → (mreg wa 0).getLsbD j = false) ∧
    (12 : BitVec 4).toNat ∈ [1, 2, 3, 4, 5, 7, 8, 9, 11, 12] ∧ (13 : BitVec 4).toNat ∉ [1, 2, 3, 4, 5, 7, 8, 9, 11, 12] := by
  unfold Issues; decide +kernel

/-- A VX prefix before another word. -/
def wsPfx (w : Nat) : State := { State.reset.withFetchWord 64 (0x0010007F + 2 ^ 32 * w) with acts := [(0, wa)] }

/-! ### Witnesses: matrix, copies, merges, transactions, network -/

/-- A ring of 16 slots at slot 48, with 8 slots filled, in c7. -/
def wring8 : Act := { wa with regs := { wa.regs with c := wa.regs.c.setIfInBounds 7 (BitVec.ofNat 64 (48 + 64 * 16 + 2 ^ 19 * 8 + 2 ^ 24)) } }

/-- An mma.f32 whose operands both come from that ring, and the same from a handle that is not valid. -/
def mmaRing (c : Nat) : Nat := 1 + 2 * 32 + 2 ^ 9 * c + 2 ^ 14 * 7 + 2 ^ 20 + 2 ^ 22

theorem test_witness_MatrixStepsAreQueued :
    let s := wsOf wring8
    let core := coreAt s (coreOf wring8)
    Issues s wring8 [.d 7, .d 7] ∧ Issues s wring8 [.d 0, .d 7] ∧ Alone s wring8 ∧ mmaFields (mmaRing 7) = true ∧
    mmaTrap s wring8 (mmaRing 7) = none ∧ core.matQ = [] ∧ core.copyQ = [] ∧ mmaWait s wring8 (mmaRing 7) [] = none ∧
    mmaFields (mmaRing 0) = true ∧ mmaTrap s wring8 (mmaRing 0) = some 1 ∧ mmaFields (mmaRing 7 + 2 ^ 20) = false ∧
    mmaFields (mmaRing 7 + 2 ^ 21) = false := by unfold Issues Alone; decide +kernel

/-- Descriptors of the global space in d1 and of the last slot of the pool in d2; a length in s10, an mma with the chain flag in s8. -/
def wcopy : Act :=
  let a := withS wring8 [(8, BitVec.ofNat 64 (mmaRing 7 + 2 ^ 30)), (10, 2 ^ 24 - 1)]
  { a with regs := { a.regs with d := (a.regs.d.setIfInBounds 1 (wdesc 0 0 4)).setIfInBounds 2 (wdesc 258048 1 4) } }

/-- A core whose shadow set copies 64 bytes of its last slot to global address 0. -/
def wshadow : List Word := [BitVec.ofNat 64 (258048 + 2 ^ 57), 0, BitVec.ofNat 64 (2 ^ 24 + 64), 0, 0, 0, 0]
def wsCopy (sh : List Word) : State := { wsOf wcopy with cores := mset ws.cores 0 { coreAt ws 0 with shadow := sh } }

/-- A word behind a prefix is read as the governed instruction. -/
def wgov (l : List (Nat × Instr)) : Bool :=
  l.all fun e => decide (decode32 (leNat (codeBytes (wsPfx e.1) wa 4 4)) = some e.2 ∧ leNat (codeBytes (wsPfx e.1) wa 4 2) % 2 = 1)

theorem test_witness_PrefixGoverns :
    (let s := wsPfx (wV 29 20 4 1 2 3)
     inImage wa 4 4 = true ∧ missingLine s wa 4 4 = none ∧ missingLine s wa 4 2 = none ∧ (6 : BitVec 3) ≠ 7 ∧ actAt s s.cur = some wa ∧
       Issues s wa (sNames [3] ++ vNames wa [1, 2, 3, 31]) ∧ Uncounted s wa) ∧
    wgov [(wV 29 20 4 1 2 3, .vand 1 2 3 4), (wR 1 0 1 2 3, .add 1 2 3), (0x0010007F, .vxPrefix 0 0 0 0 0 1), (wV 29 0 4 1 2 3, .vadd 1 2 3 4),
      (wV 29 0 9 1 2 3, .vadd 1 2 3 9), (wV 29 2 4 1 2 3, .vmul 1 2 3 4), (wV 29 3 9 1 2 3, .vfma 1 2 3 9), (wV 29 6 9 1 2 3, .vdiv 1 2 3 9),
      (wV 29 27 4 7 2 3, .vcmp 7 2 3 4), (wV 29 28 9 1 2 3, .vsel 1 2 3 9), (wV 29 29 9 1 2 0, .vmov 1 2 9), (wV 29 31 9 1 2 3, .vins 1 2 3 9),
      (wV 29 32 9 1 2 3, .vext 1 2 3 9), (wV 29 36 4 1 2 0, .vredsum 1 2 4), (wV 30 0 9 1 2 3, .vperm 1 2 3 9),
      (wV 30 1 9 1 2 3, .vslide 1 2 3 9)] = true ∧
    leNat (codeBytes (wsPfx 0x001E) wa 4 2) % 2 = 0 ∧
    (let s := { wsPfx (mmaRing 7) with acts := [(0, wring8)] }
     let core := coreAt s (coreOf wring8)
     wgov [(mmaRing 7, .mmaF32 0 7 7 0 1 1 0 0 0 0 0)] = true ∧ missingLine s wring8 4 4 = none ∧ Issues s wring8 [.d 7, .d 7] ∧
       Alone s wring8 ∧ core.matQ = [] ∧ core.copyQ = [] ∧ mmaWord 32 0 7 7 0 1 1 0 0 0 0 0 = mmaRing 7 ∧ mmaFields (mmaRing 7) = true ∧
       mmaTrap s wring8 (mmaRing 7) = none ∧ mmaWait s wring8 (mmaRing 7) [] = none) ∧
    (let s := { wsPfx (wX 44 0 0 3 9 1 0) with acts := [(0, wcopy)] }
     wgov [(wX 44 0 0 3 9 1 0, .mst 0 1 9 0 0 0 0)] = true ∧ Issues s wcopy (.d 1 :: sNames [9]) ∧ (0 : BitVec 2).toNat < wcopy.tiles.length ∧
       dreg wcopy 1 ≠ 0 ∧ dSpace (dreg wcopy 1) = 0 ∧ originBad (dEtype (dreg wcopy 1)) (wfld (sreg wcopy 9) 0 32) = false) := by
  unfold Issues Uncounted Alone
  refine ⟨?_, ?_, ?_, ?_, ?_⟩ <;> decide +kernel

theorem test_witness_TileAndCopyCommandsAreQueued :
    (let s := wsCopy wshadow
     let core := coreAt s (coreOf wcopy)
     Issues s wcopy (.d 1 :: sNames [9]) ∧ Alone s wcopy ∧ (0 : BitVec 2).toNat < wcopy.tiles.length ∧ wcopy.tiles.length ≤ (1 : BitVec 2).toNat ∧
       core.matQ = [] ∧ core.copyQ = [] ∧ dreg wcopy 3 = 0 ∧ wfld (sreg wcopy 1) 0 18 % 512 ≠ 0 ∧ wfld (sreg wcopy 9) 0 18 % 512 = 0 ∧
       OwnFree s wcopy (wfld (sreg wcopy 9) 0 18) 512 ∧ OwnFree s wcopy (wfld (sreg wcopy 9) 0 18) 1024 ∧ dreg wcopy 1 ≠ 0 ∧
       dSpace (dreg wcopy 1) = 0 ∧ latchShape (dEtype (dreg wcopy 1)) = some (32, 128) ∧
       originBad (dEtype (dreg wcopy 1)) (wfld (sreg wcopy 9) 0 32) = false) ∧
    (let s := wsCopy wshadow
     let core := coreAt s (coreOf wcopy)
     let W := wfld (sreg wcopy 8) 0 32
     Issues s wcopy (sNames [10, 8, 9] ++ [.d 2, .d 1] ++ mmaReads W) ∧ (6 : BitVec 6).toNat < 7 ∧ 7 ≤ (7 : BitVec 6).toNat ∧
       copyMalformed core.shadow = false ∧ namedSlots s (coreOf wcopy) core.shadow false = some [63] ∧ W % 2 = 1 ∧ isMma W = true ∧
       xChain W = true ∧ mmaFields W = true ∧ mmaTrap s wcopy W = none ∧ mmaWait s wcopy W [63] = none ∧
       dreg wcopy 2 ≠ 0 ∧ dSpace (dreg wcopy 2) = 1 ∧ dEtype (dreg wcopy 2) = dEtype (dreg wcopy 1) ∧
       originBad (dEtype (dreg wcopy 2)) (wfld (sreg wcopy 8) 0 32) = false ∧
       ∀ r ∈ descPlaces wcopy (dreg wcopy 2), OwnFree s wcopy r.2.1 r.2.2) ∧
    (let s := wsCopy wshadow
     let one : List Word := [putFld (sreg wcopy 5) 57 7 0, putFld (sreg wcopy 9) 57 7 1, BitVec.ofNat 64 (2 ^ 24 + (sreg wcopy 6).toNat), 0, 0, 0, 0]
     Issues s wcopy (sNames [6, 5, 9] ++ [.d 2, .d 1] ++ mmaReads (wfld (sreg wcopy 5) 0 32)) ∧ (sreg wcopy 6).toNat ≠ 0 ∧
       (sreg wcopy 10).toNat < 2 ^ 24 ∧ namedSlots s (coreOf wcopy) one false = some [63]) ∧
    (let s := wsCopy [0, 0, 64, 0, 0, 0, 0]; copyMalformed (coreAt s (coreOf wcopy)).shadow = true) ∧
    (let s := wsCopy [BitVec.ofNat 64 (2 ^ 57), 0, BitVec.ofNat 64 (2 ^ 24 + 64), 0, 0, 0, 0]
     copyMalformed (coreAt s (coreOf wcopy)).shadow = false ∧ namedSlots s (coreOf wcopy) (coreAt s (coreOf wcopy)).shadow false = none) := by
  unfold Issues Alone OwnFree
  refine ⟨?_, ⟨?_, ?_, ?_, ?_, ?_, ?_, ?_, ?_, ?_, ?_, ?_, ?_, ?_, ?_, ?_, ?_⟩, ?_, ?_, ?_⟩ <;> decide +kernel

theorem test_witness_GatherAndConvertAreSent :
    (let sh : List Word := [0, BitVec.ofNat 64 (258048 + 2 ^ 57), BitVec.ofNat 64 (2 ^ 24 + 64), 0, 0, 0x199, 0]
     let s := wsCopy sh
     let core := coreAt s (coreOf wcopy)
     Issues s wcopy (sNames [5]) ∧ Alone s wcopy ∧ (sreg wcopy 5).toNat % 4 = 0 ∧ copyMalformed core.shadow = false ∧
       wfld (nth core.shadow 0) 57 2 = 0 ∧ namedSlots s (coreOf wcopy) core.shadow true = some [63] ∧ core.copyQ = [] ∧ core.matQ = [] ∧
       (nth core.shadow 5).getLsbD 8 = true ∧ inPlace core.shadow = false ∧
       namedSlots s (coreOf wcopy) core.shadow false = some [63] ∧ (sreg wcopy 1).toNat % 4 ≠ 0) ∧
    (let sh : List Word := [0, 0, BitVec.ofNat 64 (2 ^ 24 + 64), 0, 0, 0x197, 0]
     inPlace sh = true ∧ tBytes (shSt sh) < tBytes (shDt sh) ∧ copyMalformed sh = false) ∧
    (nth wshadow 5).getLsbD 8 = false ∧ wfld (nth wshadow 0) 57 2 ≠ 0 := by unfold Issues Alone; decide +kernel

/-- An activation with an open group. -/
def wopen : Act := { wa with group := some wgroup }

theorem test_witness_MergeInstructions :
    Issues ws (withS wa []) (sNames [1, 6, 5]) ∧ Alone ws wa ∧ wa.group = none ∧ wa.closing = [] ∧
    (let a := withS wa [(1, 4096), (2, 4097)]; (sreg a 1).toNat ≤ 4096 ∧ 4096 < (sreg a 2).toNat ∧ (sreg a 0).toNat = 0 ∧ 1 ≤ (sreg a 1).toNat) ∧
    (let s := wsOf wopen
     Issues s wopen (sNames [1, 6, 9]) ∧ Alone s wopen ∧ wopen.group = some wgroup ∧ wopen.closing = [] ∧ wfld (sreg wopen 1) 0 18 % 512 ≠ 0 ∧
       wfld (sreg wopen 9) 0 18 % 512 = 0 ∧ (sreg wopen 6).toNat % 512 = 0 ∧ OwnFree s wopen (wfld (sreg wopen 9) 0 18) 512) ∧
    (let s := { wsTload 258048 with acts := [(0, wopen)] }
     Issues s wopen (sNames [6, 9]) ∧ ownReach s wopen (wfld (sreg wopen 9) 0 18) 512 = true ∧
       poolHolds s wopen (wfld (sreg wopen 9) 0 18) 512 false ≠ []) ∧
    (sreg wa 5).toNat % 8 = 0 ∧ (sreg wa 1).toNat % 8 ≠ 0 := by unfold Issues Alone OwnFree; decide +kernel

/-- An activation with 16 declared tiles, inside a transaction. -/
def wdecl : Act := { wa with decl := (List.range 16).map fun i => (4096 * (i + 8), i % 2 == 1), txn := some 1 }

theorem test_witness_TransactionInstructions :
    Issues ws wa (sNames [1, 5]) ∧ Alone ws wa ∧ wa.decl.length < 16 ∧ wa.decl = [] ∧ wa.txn = none ∧ (sreg wa 5).toNat % 64 = 0 ∧
    (sreg wa 1).toNat % 64 ≠ 0 ∧ Issues (wsOf wdecl) wdecl (sNames [1, 5]) ∧ Alone (wsOf wdecl) wdecl ∧ 16 ≤ wdecl.decl.length ∧
    (¬ ∃ e ∈ wdecl.decl, e.1 = (sreg wdecl 5).toNat % 2 ^ 57 / 4096 * 4096) ∧ wdecl.txn = some 1 ∧ wdecl.decl ≠ [] ∧
    (let a := withS wdecl [(5, 4096 * 9 + 7), (1, 4096 * 8)]
     Issues (wsOf a) a (sNames [1, 5]) ∧ Alone (wsOf a) a ∧ ((sreg a 5).toNat % 2 ^ 57 / 4096 * 4096, true) ∈ a.decl ∧
       ((sreg a 1).toNat % 2 ^ 57 / 4096 * 4096, true) ∉ a.decl) := by
  unfold Issues Alone; decide +kernel

/-- A collective program that is queued. -/
def wcoll : Coll := ⟨0, 0, 0, [], [], 0, [], 0, false, false, none, false, []⟩

/-- A die whose first ring sequencer has four programs queued. -/
def wsColl : State := { ws with dies := [(0, { Die.reset 0 with ringQ := [(0, [wcoll, wcoll, wcoll, wcoll])] })] }

theorem test_witness_NetworkCommandsAreSent :
    Issues ws wa (sNames [1, 9, 5]) ∧ Alone ws wa ∧
    (let seq := coreOf wa / 256 * 2 + (1 : BitVec 1).toNat
     ((mget (dieAt ws (dkOfSeq seq)).ringQ (seq % 2) []).filter fun c => !c.started).length < 4) ∧
    (let seq := coreOf wa / 256 * 2 + (0 : BitVec 1).toNat
     Issues wsColl wa (sNames [1, 9, 5]) ∧ Alone wsColl wa ∧
       4 ≤ ((mget (dieAt wsColl (dkOfSeq seq)).ringQ (seq % 2) []).filter fun c => !c.started).length) ∧
    wfld (sreg wa 1) 0 18 % 8 ≠ 0 ∧ wfld (sreg wa 9) 0 18 % 8 = 0 ∧ OwnFree ws wa (wfld (sreg wa 9) 0 18) 64 ∧
    mergeRoom (dieAt ws (dieOf wa)) (wfld (sreg wa 5) 32 4) (wfld (sreg wa 5) 0 32) = true ∧ (sreg wa 1).toNat % 64 ≠ 0 ∧
    (sreg wa 9).toNat % 64 = 0 := by unfold Issues Alone OwnFree; decide +kernel

/-! ### Witnesses: the units that serve requests, and what comes back -/

/-- The machine with address 0 of package map entry 0 mapped at die 0: a leaf cached that permits every access. -/
def wmap (s : State) : State :=
  { s with
    regs := [(regKey 0 0, 0x8000), (regKey 0 8, 0x8001), (regKey 0 0x400, 0x9000000000000000), (regKey 0 mtuBlk, 1), (regKey 8 0, 0x8000)]
    mtus := [(0, { Mtu.reset with tlb := [⟨0, 0, 0, 65536, 0x1FF, 0⟩], asdts := [(0, 1, 0x3FF)] })] }

/-- An operation of the activation, of 8 bytes at address 64, at a stage. -/
def wfl (st : Stage) (pay : Pay) : Flight := { request ws wa none .load 64 8 pay .none with stage := st }

/-- The machine with one operation in flight. -/
def wsF (f : Flight) : State := { wmap ws with flights := [f], nextId := 3 }

theorem test_witness_OwnersServeRequests :
    (let e : WqEntry := ⟨0, 0, 8, [(0, 1)], true⟩
     let s := { wsF (wfl .sent .load) with wqs := [(0, [e])] }
     (wqAt s 0).find? (fun x => x.closed) = some e ∧ mget s.redHeld 0 [] = [] ∧ (dieAt s (0 / 4)).failed = false) ∧
    (let f := wfl .sent .load
     let s := wsF f
     let q := curReq f
     flightById s 2 = some f ∧ f.pay.isAccess = true ∧ route s (srcDie f) q.va = some 0 ∧ pathTo s (srcDie f) 0 = true ∧
       asdtFault s 0 q = 0 ∧ tlbLookup s 0 q = some ⟨0, 0, 0, 65536, 0x1FF, 0⟩ ∧ checkLeaf s 0 0x1FF q = 0 ∧ apertureFault s 0 0x1FF q = 0 ∧
       undeclared s 0 q 8 = false ∧ leafAPER 0x1FF ≠ 1 ∧ leafDI 0x1FF = true) ∧
    (let f := { wfl .walking .load with unit := 0 }
     let s := { wsF f with
       mem := writeN ⟨[], []⟩ (hbm 0 0) 8 0x7F
       mtus := [(0, { Mtu.reset with asdts := [(0, 1, 0x3FF)], ptrs := [⟨0, 0, 4, 0, 1⟩] })] }
     let q := curReq f
     s.flights.filter (fun g => g.stage == .walking) = [f] ∧ f.stage = .walking ∧ f.gang = none ∧
       (dieAt s f.unit).failed = false ∧ asdtJudge s f.unit q = 0 ∧
       walk s f.unit q (wfld (asdtEntry s f.unit q.asid).1 12 40 * 4096) = .leaf 0x7F (hbm 0 0) 4 [] ∧ checkLeaf s f.unit 0x7F q = 0 ∧
       apertureFault s f.unit 0x7F q = 0 ∧ q.acc.writes = false ∧ undeclared s f.unit q 8 = false) ∧
    (let f := { wfl .sent .load with req := { (wfl .sent .load).req with va := 2 ^ 51 } }
     let s := wsF f
     route s (srcDie f) (curReq f).va = some 16 ∧ 16 / 16 ≠ f.req.src.pkg ∧
       route s (srcDie f) (shAddr (BitVec.ofNat 64 (2 ^ 51))) = some 16 ∧ pathTo { s with noPath := [(0, 1)] } (srcDie f) 16 = false ∧
       route { s with noPath := [(0, 1)] } (srcDie f) (shAddr (BitVec.ofNat 64 (2 ^ 51))) = some 16) ∧
    (let f := { wfl (.fwd 0 0 8 0x1FF) .load with req := { (wfl .sent .load).req with va := 0 } }
     let s := wsF f
     f.stage = .fwd 0 0 8 0x1FF ∧ pathTo s f.unit 0 = true ∧ readsBad s f (hbm 0 0) 8 = false ∧
       admits s 0 (sysPkg s (f.unit / 16)) 0 8 f.req.acc = true ∧ 0 + 8 ≤ localSize 0 ∧
       f.done = 0 ∧ f.req.n = 8 ∧ f.got = []) ∧
    (let f := wfl (.port (hbm 0 64) 8 0 0x1FF) (.store (toBytes 8 7))
     (dieAt (wsF f) (locDie (hbm 0 64))).failed = false ∧ readsBad (wsF f) f (hbm 0 64) 8 = false ∧ f.gang = none ∧ f.after = none ∧ f.wire = none ∧
       metObjects (wsF f) f (hbm 0 64) 8 = [] ∧ (toBytes 8 7).length = 8) ∧
    (let f := wfl (.port (pool 0 258048) 8 5 0x1FF) .load
     windowVerdict (wsF f) (pool 0 258048) 8 f.req.acc.writes = 0 ∧ (dieAt (wsF f) (locDie (pool 0 258048))).failed = false ∧
       readsBad (wsF f) f (pool 0 258048) 8 = false) ∧
    (let f := wfl (.port (hbm 0 64) 8 0 0x1FF) .load
     let s := { wsF f with eccBad := [hbm 0 64 / 64] }
     readsBad s f (hbm 0 64) 8 = true ∧ actByUid s f.uid = some wa ∧ (dieAt s (locDie (hbm 0 64))).failed = false) ∧
    (let f := { wfl (.port 0 0 0 0) .load with gang := some 0, req := { (wfl .sent .load).req with va := 258048 } }
     (dieAt (wsF f) (dkOfCore 0)).failed = false ∧ f.late = none ∧ f.got = [] ∧ gangAdmits (wsF f) 0 f.req.asid f.req.gen f.req.va f.req.n = true ∧
       ownedSlot (wsF f) 0 f.req.va f.req.n = none) ∧
    (let f := wfl (.port (hbm 0 64) 8 0 0x1FF) (.red 0 8 1)
     (dieAt (wsF f) (actingDie f)).failed = false ∧ mget (wsF f).redHeld (wqKey (hbm 0 64)) [] = [] ∧
       (∀ e ∈ wqAt (wsF f) (wqKey (hbm 0 64)), e.line ≠ hbm 0 64 / 64) ∧ (wqAt (wsF f) (wqKey (hbm 0 64))).length < wqCap (wqKey (hbm 0 64))) ∧
    (let f := wfl (.port (hbm 0 64) 8 0 0x1FF) .range
     flightById (wsF f) 2 = some f ∧ f.stage = .port (hbm 0 64) 8 0 0x1FF ∧ f.pay = .range ∧ (dieAt (wsF f) (actingDie f)).failed = false ∧
       readsBad (wsF f) f (hbm 0 64) 8 = false ∧ readsBad (wsF f) f (hbm 0 64) 32 = false) := by
  refine ⟨?_, ?_, ?_, ?_, ?_, ?_, ?_, ?_, ?_, ?_, ?_⟩ <;> decide +kernel

/-- A fault record of a page that is not loaded. -/
def wfrec : FRec := ⟨0, false, false, 0, 0, 0, 0, 0, 4, 0, 2, 64, 0, 0⟩

theorem test_witness_AnswersReachTheCore :
    (let f := wfl (.nack wfrec) .load
     let s := wsF f
     flightById s 2 = some f ∧ f.pay ≠ .fetch ∧ f.uid ≠ 0 ∧ actByUid s f.uid = some wa ∧ recoverable wfrec.kind = true ∧ wa.cls.res = true ∧
       onFault wa = false) ∧
    (let f := { wfl (.reply (toBytes 8 7)) .load with dst := .sreg 31 8 false }
     let s := wsF f
     f.uid = wa.uid ∧ Settled s wa ∧ reachesAct s wa f = true ∧ (31 : Nat) < 32) ∧
    (let f := { wfl (.reply (toBytes 8 7)) .load with req := { (wfl .sent .load).req with src := ⟨0, 0, 5, 0, none⟩ } }
     let s := wsF f
     actByUid s f.uid = some wa ∧ reachesAct s wa f = false) ∧
    (let f := { wfl (.relWait 4) (.arrival ⟨0, 1, 0, 0⟩) with uid := 0 }
     flightById (wsF f) 2 = some f ∧ f.stage = .relWait 4 ∧ f.uid = 0) ∧
    (let f := wfl (.relWait 4) (.arrival ⟨0, 1, 0, 0⟩); releaseHeld (wsF f) f 4 = false) ∧
    (let f := { wfl (.reply []) .fetch with dst := .line 0 0 }; flightById (wsF f) 2 = some f ∧ Unlaned (wsF f) 2) ∧
    (let f := wfl .sent (.signal 0 15 1 0 0)
     let s := wsF f
     flightById s 2 = some f ∧ coreNames (coreAt s 0) 0 0 = true ∧ overtakes s f 0 = false) := by
  unfold Settled Unlaned; decide +kernel

/-- A core whose contexts are empty, with a PARTW value held. -/
def wsHeld : State := { State.reset with cores := [(0, { Core.reset with partwHeld := some 33 })] }

theorem test_witness_CoreAndContextSteps :
    ((dieAt ws 0).failed = false ∧ (coreAt ws 0).frameRegs = [] ∧ 4 < (5 : BitVec 4).toNat ∧ (4, Instr.invRefresh 0 0) ∈ [(1, Instr.invPage 0 0), (2, .invAsid 0 0), (3, .invAll 0 0), (4, .invRefresh 0 0),
      (0, .invNop 0 0 5)] ∧ 0 % 16 ≠ 9 ∧ (mtuAt ws 0).queue.length < 16 ∧ 9 % 16 = 9 ∧ ∀ d ∈ computeDies (9 / 16), (mtuAt ws d).queue.length < 16) ∧
    (let c : InvCmd := ⟨1, 0, 0, none, none⟩
     let s := { wsF (wfl .sent .load) with mtus := [(0, { Mtu.reset with queue := [c] })] }
     (mtuAt s 0).queue = c :: [] ∧ c.dem = none ∧ (dieAt s 0).failed = false ∧ ∀ f ∈ s.flights, invHolds c 0 f = false) ∧
    (512 < 128 * wfld (0x83 : Word) 0 2 + 16 * wfld (0x83 : Word) 2 6 ∧ 128 * wfld (0x20 : Word) 0 2 + 16 * wfld (0x20 : Word) 2 6 ≤ 512 ∧
      actsOn State.reset 0 = [] ∧ actsOn ws 0 ≠ [] ∧ (coreAt wsHeld 0).partwHeld = some 33 ∧ actsOn wsHeld 0 = []) ∧
    (let a := { wa with frame := none }
     let s := { wsOf a with cores := mset ws.cores 0 (setFrame (coreAt ws 0) 0 none) }
     actAt s 0 = some a ∧ a.ctx = 0 ∧ a.frame = none ∧ selectContext s (coreOf a) = some (ctxNum 0, 0) ∧ freeFrame (coreAt s (coreOf a)) = some 0) ∧
    (let a := { wa with filling := true }; actAt (wsOf a) 0 = some a ∧ a.frame = some 0 ∧ a.filling = true ∧ a.mask = none) ∧
    (let a := { wa with wait := .drain 3 }; resident a = true ∧ actAt (wsOf a) 0 = some a ∧ drainReady (wsOf a) a.uid 3 = true) ∧
    (let a := { wa with wait := .fence 4 }; resident a = true ∧ fenceReady (wsOf a) a.uid 4 = true) ∧
    (let a := { wa with wait := .ownGive 63 }
     resident a = true ∧ poolHolds (wsOf a) a (4096 * 63) 4096 true = [] ∧ engineOwned (coreAt (wsOf a) (coreOf a)) 63 = false) := by
  decide +kernel

/-- A command of the copy engine and one of the matrix unit, with its operation. -/
def wcmd (active : Bool) (kind : Nat) : CopyCmd := ⟨2, wa.uid, kind, wshadow, none, 0, 0, 0, 0, 0, 0, active, [63]⟩
def wmat (started : Bool) : MatrixCmd := ⟨2, wa.uid, 1 + 2 * 44, 0, true, 0, 0, 0, [], [], 0, 0, 0, 0, 0, 0, 0, 0, none, started, ⟨none, 0, 0, 1⟩⟩
def wsCore (c : Core) (f : Flight) : State := { wsF f with cores := [(0, c)] }

theorem test_witness_EngineSteps :
    (let f := wfl .sent .command
     let c := wcmd false 0
     let s := wsCore { coreAt ws 0 with copyQ := [c], slots := [(63, true, 1)] } f
     (coreAt s 0).copyQ = c :: [] ∧ flightById s c.id = some f ∧ Unlaned s c.id ∧ c.active = false ∧ f.stage = .sent ∧
       ∀ k ∈ c.slots, engineOwned (coreAt s 0) k = true) ∧
    (let f := wfl .sent .command
     let m := wmat false
     let s := wsCore { coreAt ws 0 with matQ := [m] } f
     (coreAt s 0).matQ = m :: [] ∧ flightById s m.id = some f ∧ Unlaned s m.id ∧ f.uid = m.uid ∧ actByUid s m.uid = some wa ∧ m.started = false) ∧
    (let m := wmat true; m.started = true ∧ isMma m.word = false ∧ xSub m.word = 0 ∧ m.chain = none ∧ resident wa = true) ∧
    (let s := wsCore { coreAt ws 0 with tiles := [(0, { TileState.reset with st := 1, inFull := true })] } (wfl .sent .command)
     (tileAt s 0 0).st = 1 ∧ (tileAt s 0 0).inFull = true) ∧
    (let sh : List Word := [0, BitVec.ofNat 64 (258048 + 2 ^ 57), BitVec.ofNat 64 (2 ^ 24 + 64), 0, 0, 0, 0]
     let f := wfl .sent (.plinth true sh 64 [])
     let s := wsCore { coreAt ws 0 with slots := [(63, true, 1)] } f
     flightById s 2 = some f ∧ route s (dieKey f.req.src.pkg f.req.src.die) (shAddr (nth sh 0)) = some 0 ∧ pathTo s 0 0 = true ∧ (dieAt s 0).failed = false ∧ plinthLoad s 0 true < 32 ∧ plinthOvertakes s f 0 = false ∧
       ∀ k ∈ plinthSlots s f sh true, engineOwned (coreAt s (flightCore f)) k = true) := by
  unfold Unlaned; decide +kernel

theorem io_ok {α : Type} {x : Io α} (p : α → State → Bool) (h : (match x with | .ok v s => p v s | _ => false) = true) :
    ∃ v s, x = .ok v s ∧ p v s = true := by
  cases x with
  | ok v s => exact ⟨v, s, rfl, h⟩
  | _ => simp at h

theorem got_ok {x : Got × State} (p : List Byte → State → Bool) (h : (match x with | (.ok v, s) => p v s | _ => false) = true) :
    ∃ v s, x = (.ok v, s) ∧ p v s = true := by
  obtain ⟨g, s⟩ := x
  cases g with
  | ok v => exact ⟨v, s, rfl, h⟩
  | _ => simp at h

/-- A tile load of four elements in the copy engine, active; and a convert in place in the Plinth, with its three parts to do. -/
def wload : CopyCmd := { wcmd true 2 with far := wdesc 0 0 4, pool := wdesc 258048 1 4 }
def wsLoad : State := wsCore { coreAt ws 0 with copyQ := [wload], slots := [(63, true, 1)] } (wfl .sent .command)
def wconv : List Word := [0, 0, BitVec.ofNat 64 (2 ^ 24 + 64), 0, 0, 0, 0]

theorem test_witness_EngineSteps_performed :
    (∃ evs s', performCommand (wfl .sent .command) wload wsLoad = .ok evs s' ∧
      (decide (s'.lanes = wsLoad.lanes ∧ evs = [] ∧ (coreAt s' 0).copyQ = [wload] ∧ wload.active = true ∧ wload.follow = none ∧ 2 ≤ wload.kind)) = true) ∧
    (dieAt (wsF (wfl .waiting (.plinth false wconv 0 [0, 1, 2]))) (actingDie (wfl .waiting (.plinth false wconv 0 [0, 1, 2])))).failed = false ∧
    plinthWaits (wsF (wfl .waiting (.plinth false wconv 0 [0, 1, 2]))) (wfl .waiting (.plinth false wconv 0 [0, 1, 2])) 2 = false ∧
    ∃ evs s', plinthPart (wfl .waiting (.plinth false wconv 0 [0, 1, 2])) false wconv 0 [0, 1, 2] 2
        (wsF (wfl .waiting (.plinth false wconv 0 [0, 1, 2]))) = .ok evs s' ∧
      (decide (s'.flights = (wsF (wfl .waiting (.plinth false wconv 0 [0, 1, 2]))).flights)) = true :=
  ⟨io_ok (fun evs s' => decide (s'.lanes = wsLoad.lanes ∧ evs = [] ∧ (coreAt s' 0).copyQ = [wload] ∧ wload.active = true ∧ wload.follow = none ∧ 2 ≤ wload.kind))
      (by decide +kernel),
    by decide +kernel, by decide +kernel, io_ok (fun _ s' => decide (s'.flights = (wsF (wfl .waiting (.plinth false wconv 0 [0, 1, 2]))).flights)) (by decide +kernel)⟩

/-! ### Witnesses: demotion, merge domains, transactions -/

/-- The registers of a demotion engine: enabled, watermarks 1 and 2, rings of 4 frames at 4096, one candidate at 8192. -/
def demRegs : List (Nat × Word) :=
  [(regKey 0 demBlk, 1), (regKey 0 (demBlk + 8), 0x200000001), (regKey 0 (demBlk + 0x10), 8192), (regKey 0 (demBlk + 0x18), 1),
   (regKey 0 (demBlk + 0x20), 4096), (regKey 0 (demBlk + 0x28), 4)]

/-- A die whose only candidate is a page of its own HBM that was accessed; its leaf is at 12288. -/
def wsDem (d : Demote) : State :=
  { State.reset with
    regs := demRegs, demotes := [(0, d)]
    mem := writeN (writeN ⟨[], []⟩ (hbm 0 8192) 24 12288) (hbm 0 12288) 8 0x17F }

theorem test_witness_DemotionSteps :
    (wsDem Demote.reset).wqs = [] ∧ (dieAt (wsDem Demote.reset) (demDie 0)).failed = false ∧ (demAt (wsDem Demote.reset) 0).count = 0 ∧
    (demAt (wsDem { Demote.reset with count := 4, head := 3 }) 0).count = 4 ∧ 0 < ringSize (wsDem Demote.reset) 0 ∧
    (demAt (wsDem { Demote.reset with count := 3 }) 0).count < ringSize (wsDem Demote.reset) 0 ∧
    (let s := wsDem Demote.reset
     let d := demAt s 0
     let n := wfld (demReg s 0 0x18) 0 24
     let c := (candAt s 0 (d.next % n)).1
     let e := readW s.mem c.loc
     wbit (demReg s 0 0) 0 = true ∧ d.stage = 0 ∧ 0 < n ∧ d.count < wfld (demReg s 0 8) 0 32 ∧ d.count < wfld (demReg s 0 8) 32 32 ∧
       (mtuAt s c.unit).queue.length < 16 ∧ leafV e = true ∧ leafL e = true ∧ leafSZ e = 0 ∧ ownTier 0 c.unit e = true ∧
       wbit c.w1 26 = false ∧ leafAC e = true) ∧
    (let s := wsDem { Demote.reset with stage := 3 }
     (demAt s 0).stage = 3 ∧ nextTier 0 = some (8, 2) ∧ (mtuAt s (candAt s 0 0).1.unit).queue.length < 16 ∧
       wbit (demReg s 0 0) 1 = false) := by decide +kernel

/-- Entry 15 of merge domains: ASID 0, leader Caliper 0, members 0 and 1, V at the Calipers of die 0 that `on` names; their units on;
rows 0 to 2 at each. -/
def mergeRegs (on : List Nat) : List (Nat × Word) :=
  on.flatMap fun c => [(regKey 0 (calBlk c), 1), (regKey 0 (calBlk c + 0x100 + 0x40 * 15), 0x8000000003000000),
    (regKey 0 (calBlk c + 0x110 + 0x40 * 15), 0), (regKey 0 (calBlk c + 0x118 + 0x40 * 15), 1024)]
def wg : GroupId := ⟨15, 0, 0, 2⟩
def wsMerge (f : Flight) (cals : SMap Caliper) : State :=
  { wsF f with regs := mergeRegs [0, 1], cals := cals }
/-- A slot of that group, or of an older generation of it. -/
def mslot (gen resv : Nat) : MSlot := ⟨{ wg with gen := gen }, 1, resv, [], false, false⟩
def wheld : OpenGroup := ⟨wg, [0], [0, 1], true⟩

theorem test_witness_MergeSteps :
    (let f := wfl .sent (.mopen wg 3 0)
     let s := wsMerge f []
     flightById s 2 = some f ∧ 2 < s.nextId ∧ domainAgrees s 0 15 = true ∧ bimOn s 0 = true ∧ bimV s 0 15 = true ∧
       bimAsid s 0 15 = f.req.asid ∧ calKey (srcDie f) 0 = 0 ∧
       domainAgrees { s with regs := mset s.regs (regKey 0 (calBlk 1 + 0x100 + 0x40 * 15)) 0x8001000003000000 } 0 15 = false ∧
       domainAgrees (wsF f) 0 15 = true ∧ bimOn (wsF f) 0 = false) ∧
    (let s := wsMerge (wfl .sent (.mopenLead wg 3 0 2)) []
     domainAgrees s 0 15 = true ∧ calUp s 0 = true ∧ bimOn s 0 = true ∧ bimV s 0 15 = true) ∧
    (let s := wsMerge (wfl .sent (.mopenMem wg 3 0 2)) []
     let t := wsMerge (wfl .sent (.mopenMem wg 3 0 2)) [(0, { Caliper.reset with slots := [mslot 1 16384] })]
     calUp s 0 = true ∧ earlierAt s 0 15 2 = false ∧ openHeldAt s 0 2 = false ∧ bimOn s 0 = true ∧ bimV s 0 15 = true ∧ slotLike (calAt s 0) wg = none ∧
       (calAt s 0).slots.length < 1024 ∧ min 3 (rowsHomed s 0 15) ≤ freeRows (calAt s 0) ∧
       slotLike (calAt t 0) wg = some (mslot 1 16384) ∧ newerGen 2 1 = true ∧ min 3 (rowsHomed t 0 15) ≤ freeRows (calAt t 0) + 16384) ∧
    (let a := { wa with group := some { wheld with acks := [0], opened := false } }
     let o := { wfl .waiting (.mopen wg 3 0) with id := 1 }
     let s := { wsMerge (wfl .sent (.mopenAck wg 1 1)) [] with acts := [(0, a)], flights := [o, wfl .sent (.mopenAck wg 1 1)] }
     flightById s 1 = some o ∧ o.uid = a.uid ∧ Settled s a ∧ a.closing = [] ∧ o.stage = .waiting ∧ ∀ m ∈ wheld.members, m ∈ [0] ++ [1]) ∧
    (let f := wfl (.port (hbm 0 0) 512 0 0x1FF) (.push [] wg)
     let s := wsMerge f [(0, { Caliper.reset with slots := [mslot 2 1] })]
     portLoc f = some (hbm 0 0) ∧ domainAgrees s (homeCal (hbm 0 0) / 24) 15 = true ∧ calUp s (homeCal (hbm 0 0)) = true ∧
       pushKind s f (hbm 0 0) wg = 0) ∧
    (let a := { wa with group := none, closing := [wheld] }
     let f := wfl .sent (.mclose wg)
     let s := { wsMerge f [] with acts := [(0, a)] }
     f.uid = a.uid ∧ Settled s a ∧ groupHeld s f wg = some wheld ∧ wheld.opened = true ∧ pushesLeft s f wg = false) ∧
    (let f := wfl .sent (.mcloseMem wg 0)
     let s := wsMerge f [(0, { Caliper.reset with slots := [mslot 2 1] })]
     calUp s 0 = true ∧ slotOf (calAt s 0) wg = some (mslot 2 1)) ∧
    (let f := wfl .sent (.mpart wg 0 1 0 0 false)
     let s := wsMerge f [(0, { Caliper.reset with leads := [⟨wg, [(0, 0, 0, false)]⟩] })]
     let t := wsMerge f []
     calUp s 0 = true ∧ (∃ m ∈ bimMembers t 0 15, ∀ p ∈ insertPart (1, 0, 0, false) [], p.1 ≠ m) ∧
       ∀ m ∈ bimMembers s 0 15, ∃ p ∈ insertPart (1, 0, 0, false) [((0 : Nat), (0 : Word), (0 : Nat), false)], p.1 = m) ∧
    (let f := wfl .sent (.mack 15 1 0 1)
     let l : MLog := ⟨15, 1, wg, 0x3F800000, 0, false, false, false, 0, [0]⟩
     let s := wsMerge f [(0, { Caliper.reset with logs := [l] })]
     calUp s 0 = true ∧ (calAt s 0).logs = [l] ∧ (∀ m ∈ bimMembers s 0 15, m ∈ l.acks ++ [1]) ∧ s.wqs = []) ∧
    openComing (wsMerge (wfl .sent (.mabort wg 0)) []) wg = false ∧
    (let s := wsMerge (wfl .sent (.mabortLead wg 0)) []; openComing s wg = false ∧ calUp s 0 = true) ∧
    (let s := wsMerge (wfl .sent (.mabortMem wg 0)) [(0, { Caliper.reset with slots := [mslot 2 1] })]
     calUp s 0 = true ∧ earlierAt s 0 15 2 = false ∧ slotOf (calAt s 0) wg = some (mslot 2 1)) := by
  unfold Settled
  refine ⟨?_, ?_, ?_, ?_, ?_, ?_, ?_, ?_, ?_, ?_, ?_, ?_⟩ <;> decide +kernel

theorem test_witness_CaliperRegistersAndCommits :
    (let k : MCommit := ⟨15, 1, wg, 0x3F800000, false⟩
     let x : MSlot := { mslot 2 1 with st := 2, rows := [(hbm 0 0, zeroRow)] }
     let s := wsMerge (wfl .sent .load) [(0, { Caliper.reset with slots := [x], commits := [k] })]
     let c := calAt s 0
     calUp s 0 = true ∧ c.commits.find? (fun y => y.dom = 15 && y.seq = mget c.applied 15 0 + 1) = some k ∧ slotOf c wg = some x ∧
       x.rows = [(hbm 0 0, zeroRow)] ∧ zeroRow.length = 128 ∧ k.discard = false ∧ s.eccBad = [] ∧ s.wqs = []) ∧
    (let v : Word := 0x000F020000000000
     let s := wsMerge (wfl .sent .load) [(0, { Caliper.reset with slots := [mslot 2 1] })]
     (⟨wfld v 48 4, wfld v 0 16, wfld v 16 24, wfld v 40 8⟩ : GroupId) = wg ∧ slotOf (calAt s 0) wg = some (mslot 2 1)) ∧
    (let s := wsMerge (wfl .sent .load) []
     bimV s 0 15 = true ∧ wfld (bimReg s 0 15 0) 24 29 ≠ wfld (0x8000000001000000 : Word) 24 29 ∧ bimV s 0 0 = false ∧
       wbit (0x8000000001000000 : Word) 63 = true) ∧
    isNanBits 9 (wfld (0x7FC00000 : Word) 0 32) = true ∧ 2 ^ 31 ≤ wfld (0x80000000 : Word) 0 32 ∧
    isNanBits 9 (wfld (0x7F800000 : Word) 0 32) = false ∧ wfld (0x7F800000 : Word) 0 32 < 2 ^ 31 := by decide +kernel

/-- Die 0's order sequencer on, alone in its domain; `o` its state. -/
def wsOsq (ctl : Word) (o : Osq) (f : Flight) : State :=
  { wsF f with regs := mset (wmap ws).regs (regKey 0 osqBlk) ctl, osqs := [(0, o)] }
def wsub : Sub := ⟨5, [0, 0, 0, 0, 0, 0, 0, 0], [(4096, true)], 0, 0⟩

theorem test_witness_TransactionSteps :
    (let f := { wfl .sent (.oftSub 0 wsub.desc wsub.tiles) with dst := .oftSub 31 }
     let o := { Osq.reset with batch := List.replicate 255 wsub, inflight := List.replicate 255 5 }
     let s := wsOsq 0x8000000000010000 o f
     flightById s 2 = some f ∧ 2 < s.nextId ∧ f.uid = wa.uid ∧ Settled s wa ∧ osqOn s 0 = true ∧ o.stall = false ∧ o.batch.length < 256 ∧
       o.inflight.length < 4096) ∧
    (let s := wsOsq 0x8000000000010000 { Osq.reset with merged := 3 } (wfl .sent (.batch 0 3 0 []))
     (∃ m ∈ domainDies s 0, seqNumber s m = 0) ∧ (osqAt s 0).merged ≤ 3) ∧
    (let h : HomeTxn := ⟨wsub, 0, false, false⟩
     let s := wsOsq 0 { Osq.reset with homes := [h] } (wfl .sent (.grant 0 5))
     (osqAt s 0).homes.find? (fun x => x.sub.tid = 5) = some h) ∧
    (let f := wfl (.relWait 4) (.txnEnd 5 [0, 7] 0); txnQuiet (wsF f) f = true) ∧
    (let s := wsOsq 0 Osq.reset (wfl .sent (.release 0 5 0)); ∀ e ∈ (osqAt s 0).pend, e.tid ≠ 5) ∧
    (let a := { wa with txn := some 5, txnCycles := 2 ^ 20 + 1 }
     actAt (wsOf a) 0 = some a ∧ a.txn ≠ none ∧ 2 ^ 20 < txnRun (wsOf a) a) ∧
    (let s := { wsOsq 0x8000000000030000 Osq.reset (wfl .sent .load) with now := 1000 }
     (Osq.reset.beat + 1) * beatLen s 0 ≤ s.now ∧ (dieAt s 0).failed = false ∧ osqOn s 0 = true ∧ (osqAt s 0).ctlPend = none ∧
       1 ∈ domainDies s 0) ∧
    (let o := { Osq.reset with beat := 1, have_ := [(0, 0, [])] }
     let s := wsOsq 0x8000000000010000 o (wfl .sent .load)
     o.stall = false ∧ o.merged < o.beat ∧ (∃ h ∈ o.have_, h.1 = o.merged) ∧
       ¬ ∃ m ∈ domainDies s 0, ∀ h ∈ o.have_, h.1 = o.merged → h.2.1 ≠ seqNumber s m) ∧
    (let o := { Osq.reset with beat := 9 }
     let s := wsOsq 0x8000000000030000 o (wfl .sent .load)
     o.stall = false ∧ osqOn s 0 = true ∧ o.merged + 8 < o.beat ∧
       ∃ m ∈ domainDies s 0, ∀ h ∈ o.have_, h.1 = o.merged → h.2.1 ≠ seqNumber s m) ∧
    (let o := { Osq.reset with beat := 9, endBeat := 1 }
     let s := wsOsq 0x0000000000030000 o (wfl .sent .load)
     o.stall = false ∧ osqOn s 0 = false ∧ o.merged < o.endBeat ∧ o.merged + 8 < o.beat ∧
       ∃ m ∈ domainDies s 0, ∀ h ∈ o.have_, h.1 = o.merged → h.2.1 ≠ seqNumber s m) ∧
    (let s := wsOsq 0 Osq.reset (wfl .sent .load)
     (dieAt s 0).failed = false ∧ osqOn s 0 = false ∧ oneMaskPart s 0 (wfld (0x8000000000FF0000 : Word) 16 8) = true) := by
  unfold Settled
  refine ⟨?_, ?_, ?_, ?_, ?_, ?_, ?_, ?_, ?_, ?_, ?_⟩ <;> decide +kernel

/-! ### Witnesses: launches, the Relief, faults, pre-emption -/

/-- A class that needs no tile and no slot, and a core that serves address space 0 with that class cached. -/
def wcls : ClassEntry := placedClass 0 0
def wlcore (e : ClassEntry) : Core := { placedCore Core.reset 0 [] with frames := [], classes := [(0, e)] }
def wtask (w0 w1 w2 : Word) : Task := ⟨[w0, w1, w2, 0, 0, 0, 0, 0], 0, 0, 0, none, 1, 0, 0, 0, false⟩

/-- Core 0 of cluster 0 with a queued task, and with a gang of cores 0 and 1 whose descriptor is at 64. -/
def wlaunch (e : ClassEntry) : State :=
  { State.reset with
    cores := [(0, wlcore e), (1, wlcore e)], clus := [(0, { Cluster.reset with queue := [⟨wtask 0 0 0, 5, none, none⟩], sum := 1 })] }
def wgang : Gang := ⟨7, wtask 0x8000 0x800000 64, wcls, 0, [0], 5, 0, 0, 1, 2, [0, 1], false, false, none, [], false⟩
def wsGang (e : ClassEntry) (g : Gang) : State :=
  { wlaunch e with gangs := [g], clus := [(0, { Cluster.reset with queue := [⟨wgang.task, 5, none, some 7⟩] })] }

theorem test_witness_LaunchSteps :
    (let s := { wlaunch wcls with cores := [(0, wlcore wcls)] }
     let q : QTask := ⟨wtask 0 0 0, 5, none, none⟩
     let e := (classAt s 0 q.task.asid (tClass q.task)).1
     fencedClus s 0 = false ∧ (clusAt s 0).queue = [q] ∧ q.wait = none ∧ q.gang = none ∧ isGang q.task = false ∧
       0 ∈ rectCores 0 0 0 4 4 ∧ canTake s 0 q.task = true ∧ (∀ c ∈ rectCores 0 0 0 4 4, c ≠ 0 → canTake s c q.task = false) ∧
       taskBad e q.task (fromSub q.task) = false ∧ e.split = false) ∧
    (let s := wsGang wcls wgang
     gangById s 7 = some wgang ∧ wgang.launched = false ∧ wgang.reading = false ∧ (∀ c ∈ gangCores wgang, c ∈ wgang.reserved) ∧
       (∀ k ∈ wgang.clus, fencedClus s k = false) ∧
       (∀ c ∈ gangCores wgang, taskBad (classAt s c 0 0).1 wgang.task (fromSub wgang.task) = false) ∧
       (classAt s 0 0 0).1.split = false ∧ (launchGang s wgang).isSome = true ∧ wgang.w ≠ 1 ∧
       (classAt (wsGang { wcls with split := true } wgang) 0 0 0).1.split = true ∧ wgang.extents = none ∧
       taskBad (classAt (wsGang { wcls with valid := false } wgang) 0 0 0).1 wgang.task (fromSub wgang.task) = true) ∧
    (let g := { wgang with launched := true }
     gangById (wsGang wcls g) 7 = some g ∧ g.members = [] ∧ g.dead = false ∧ (nth g.task.words 1).getLsbD 23 = true) ∧
    (let a := { wa with wait := .done, task := wtask 0 0x800000 0 }
     actAt (wsOf a) 0 = some a ∧ a.ctx = 0 ∧ doneReady (wsOf a) a = true ∧ a.txn = none ∧ a.gang = none ∧
       (nth a.task.words 1).getLsbD 23 = true) := by decide +kernel

theorem test_witness_LaunchSteps_read :
    let g := { wgang with reading := true }
    let s := { wmap (wsGang wcls g) with mem := writeN ⟨[], []⟩ (hbm 0 64) 64 (wdesc 0 0 4).toNat }
    ∃ bs s', readNow s (agentReq (dieKey (g.die / 8) (g.die % 8)) 8 g.task.asid g.task.gen .load (nth g.task.words 2).toNat 64) =
      (.ok bs, s') ∧ (decide (s'.held = s.held ∧ s'.gangs = s.gangs ∧ descMalformed (dOfBytes bs) = false)) = true :=
  got_ok (fun bs s' => decide (s'.held = false ∧ s'.gangs = [{ wgang with reading := true }] ∧ descMalformed (dOfBytes bs) = false)) (by decide +kernel)

/-- Core 0 with a waiting-task entry. -/
def wsEntry (e : WttEntry) (f : Flight) : State :=
  { wsF f with
    cores := [(0, { wlcore wcls with wtt := [(63, e)] })], mem := writeN ⟨[], []⟩ (hbm 0 64) 8 (2 ^ 64 - 1)
    dies := [(0, { Die.reset 0 with launchQ := [(512, 0, 0)], clsQ := [0] })] }
def wentry (st : WttState) : WttEntry := ⟨st, 1, 0, 1, 2, 128, 64, 0, 0, 0, 0, []⟩

theorem test_witness_EntryAndLaunchUnitSteps :
    (let m : Arrive := ⟨63 + 2 ^ 17 * 63, 2, 0, 0⟩
     let s := wsEntry (wentry .armed) (wfl .sent (.arrival m))
     Unlaned s 2 ∧ overtakes s (wfl .sent (.arrival m)) 0 = false ∧ joinCore s 0 m.target = some 0 ∧ (wttAt (coreAt s 0) (wfld m.target 0 6)).st = .armed ∧ 1 < (wentry .armed).count ∧
       (wentry .armed).count ≤ m.amount ∧ (wttAt (coreAt s 0) 62).st = .disarmed) ∧
    (let e := { wentry .fault with held := [] }
     e.st = .fault ∧ wfld (0x3F : Word) 0 6 = 63 ∧ wbit (0x3F : Word) 6 = false ∧ wfld (0x7F : Word) 0 6 = 63 ∧ wbit (0x7F : Word) 6 = true) ∧
    (dieAt (wsEntry (wentry .armed) (wfl .sent .load)) 0).clsQ = 0 :: [] ∧ (dieAt (wsEntry (wentry .armed) (wfl .sent .load)) 0).failed = false := by
  unfold Unlaned; decide +kernel

theorem test_witness_EntryAndLaunchUnitSteps_read :
    let s := wsEntry (wentry .firing) (wfl .sent .load)
    (wttAt (coreAt s 0) 63) = wentry .firing ∧
    (∃ bs s', readNow s (wttReq 0 (wentry .firing) .load (wentry .firing).ctlw 8) = (.ok bs, s') ∧
      (decide (s'.held = s.held ∧ s'.cores = s.cores ∧ ofBytes bs ≠ 0)) = true) ∧
    (∃ bs s', readNow s (wttReq 0 (wentry .firing) .load 72 8) = (.ok bs, s') ∧
      (decide (s'.held = s.held ∧ s'.cores = s.cores ∧ ofBytes bs = 0)) = true) ∧
    (∃ bs s', readNow (setDie s 0 { dieAt s 0 with launchQ := [] }) (agentReq 0 8 0 0 .load 512 64) = (.ok bs, s') ∧
      (decide (s'.held = s.held ∧ taskBad (classAt s' 0 0 (wfld (nth (wordsOf 8 bs) 0) 0 10)).1 (mkTask (wordsOf 8 bs) 0 0 0 false 0 1) false = false)) = true) ∧
    ∃ bs s', readNow (setDie s 0 { dieAt s 0 with launchQ := [] }) (agentReq 0 8 0 0 .load 64 64) = (.ok bs, s') ∧
      (decide (s'.held = s.held ∧ taskBad (classAt s' 0 0 (wfld (nth (wordsOf 8 bs) 0) 0 10)).1 (mkTask (wordsOf 8 bs) 0 0 0 false 0 1) false = true)) = true :=
  ⟨by decide +kernel,
   got_ok (fun bs s' => decide (s'.held = (wsEntry (wentry .firing) (wfl .sent .load)).held ∧ s'.cores = (wsEntry (wentry .firing) (wfl .sent .load)).cores ∧ ofBytes bs ≠ 0)) (by decide +kernel),
   got_ok (fun bs s' => decide (s'.held = (wsEntry (wentry .firing) (wfl .sent .load)).held ∧ s'.cores = (wsEntry (wentry .firing) (wfl .sent .load)).cores ∧ ofBytes bs = 0)) (by decide +kernel),
   got_ok (fun bs s' => decide (s'.held = (wsEntry (wentry .firing) (wfl .sent .load)).held ∧
     taskBad (classAt s' 0 0 (wfld (nth (wordsOf 8 bs) 0) 0 10)).1
     (mkTask (wordsOf 8 bs) 0 0 0 false 0 1) false = false)) (by decide +kernel),
   got_ok (fun bs s' => decide (s'.held = (wsEntry (wentry .firing) (wfl .sent .load)).held ∧
     taskBad (classAt s' 0 0 (wfld (nth (wordsOf 8 bs) 0) 0 10)).1
     (mkTask (wordsOf 8 bs) 0 0 0 false 0 1) false = true)) (by decide +kernel)⟩

/-- Die 0 with THETA 3, cluster 0 fenced, cluster 1 below the threshold and cluster 2 at it. -/
def wsTick : State :=
  { State.reset with regs := [(regKey 0 rlfBlk, 3), (regKey 0 (rlfBlk + 8), 1)], clus := [(1, { Cluster.reset with sum := 2 }), (2, { Cluster.reset with sum := 3 })] }

theorem test_witness_ReliefSteps :
    64 * (mget ({ State.reset with now := 64 } : State).ticks 0 0 + 1) ≤ 64 ∧
    (let s := wsTick
     fencedClus s 0 = true ∧ pressure s 1 < theta s 1 ∧ theta s 2 ≤ pressure s 2 ∧ pressure s 2 < 255 ∧
       ∃ l ∈ linksOf s 2, linkUp s 2 l = true) ∧
    ((∃ l ∈ linksOf State.reset 127, l.port = 1) ∧ 1 ∉ (clusAt State.reset 127).silent ∧
      (let s := { State.reset with clus := [(127, { Cluster.reset with missed := [(1, 4)] })] }
       4 ≤ mget (clusAt s 127).missed 1 0 ∧ 1 ∉ (clusAt s 127).silent)) ∧ (dieAt State.reset 7).failed = false ∧
    (let q : QTask := ⟨wtask 0 0 0, 5, none, none⟩
     rlfFenced (wlaunch wcls) 0 = false ∧ q ∈ (clusAt (wlaunch wcls) 0).queue ∧ q.wait = none ∧ bigGang q.task = false ∧
       wbit (1 : Word) 0 = true) := by
  refine ⟨by decide, ?_, ⟨?_, ?_, ?_⟩, ?_, ?_⟩ <;> decide +kernel

/-- An activation parked on a fault at address 64. -/
def wpark : Act := { wa with wait := .fault 64 false }

theorem test_witness_ReleaseEventAndCountSteps :
    (let s := wsOf wpark
     (dieAt s 0).failed = false ∧ Sole s wpark ∧ dieOf wpark = 0 ∧ releases 0 wpark.task.asid 64 = true ∧
       wpark.ctx = coreKey (0 / 16) (0 % 16) (wfld (0 : Word) 8 8) * 8 + wfld (0 : Word) 0 3) ∧
    (let e := mkEvent State.reset 0 1 0 0
     let s := { State.reset with
       dies := [(0, { Die.reset 0 with buf := [e] })], regs := [(regKey 8 evqBlk, 1), (regKey 8 (evqBlk + 8), 16)] }
     (dieAt s 0).buf = e :: [] ∧ evqFull s (0 / 16) = false ∧ s.wqs = []) ∧
    (let s := { ws with regs := [(regKey 0 (coreBlk 0 + 0x100 + 8 * 6), 0x100000000)], now := 9 }
     xsWindow s 0 6 ≠ 0 ∧ mget (coreAt s 0).xsWin 6 0 ≠ xsNow s 0 6) := by unfold Sole; decide +kernel

/-- A suspend slot of core 0 that holds an activation with its rows in place, and one that was suspended under another PARTW. -/
def wsusp (pw : Word) : Suspended := ⟨wa, pw, [], actRows wa, []⟩
def wsSusp (pw : Word) : State :=
  { ws with acts := [], cores := mset ws.cores 0 { coreAt ws 0 with susp := [(7, wsusp pw)], res := 0x80 } }

theorem test_witness_PreemptionAndMigrationSteps :
    (let s := { ws with regs := [(regKey 0 (coreBlk 0 + 0x20), 0x400000)] }
     (dieAt s (dkOfCore 0)).failed = false ∧ NothingHeld s ∧ wfld (rawReg s (dkOfCore 0) (coreBlk (numOfCore 0) + 0x20)) 22 30 ≠ 0 ∧ Sole s wa ∧ wa.ctx = 0 * 8 + 0 ∧
       wfld (rawReg ws (dkOfCore 0) (coreBlk (numOfCore 0) + 0x20)) 22 30 = 0) ∧
    (Sys2Proof.Machine.mfind (coreAt (wsSusp 33) 0).susp 7 = some (wsusp 33) ∧ resumeRefused (coreAt (wsSusp 33) 0) (wsusp 33) = false ∧
      resumeRefused (coreAt (wsSusp 32) 0) (wsusp 32) = true) ∧
    (let a := { wa with stopped := true }
     actAt (wsOf a) 0 = some a ∧ a.move = none ∧ NothingHeld (wsOf a) ∧ slotsEmpty (wsOf a) a = true ∧ freeSusp (coreAt (wsOf a) (coreOf a)) = some 0) ∧
    (let a := { wa with preempt := some 0, cls := { wa.cls with res := false, idem := true } }
     let s := { wsOf a with now := 65536 }
     actAt s 0 = some a ∧ 0 + 65536 ≤ s.now ∧ a.stopped = false ∧ a.cls.res = false ∧ a.txn = none ∧ a.gang = none) ∧
    (let a := { wpark with move := some 1 }
     actAt (wsOf a) 0 = some a ∧ moveReady (wsOf a) a = true ∧ a.filling = false) ∧
    ((coreAt (wsSusp 33) 0).res.getLsbD 7 = true ∧ (7 : Nat) < 8 ∧ 0 / 8 = 0 ∧ actAt (wsSusp 33) 0 = none ∧
      rowsFree (wsSusp 33) 0 (wsusp 33) = true) ∧
    (let a := { wpark with tiles := [], alloc := none }
     let s := { wsOf a with cores := [(0, coreAt ws 0), (1, wlcore wcls)] }
     actAt s (0 * 8 + wfld (0x10000 : Word) 0 3) = some a ∧ a.ctx = 0 ∧ moveOk s a (migTarget 0 0x10000) = true ∧
       moveOk s a (migTarget 0 0xF0000) = false) ∧
    (let f := wfl .sent (.migrate wa.uid 1)
     flightById (wsF f) 2 = some f ∧ Sole (wsF f) wa ∧ freeCtx (wsF f) 1 = some 0) := by
  unfold Sole NothingHeld
  refine ⟨?_, ?_, ?_, ?_, ?_, ?_, ?_, ?_⟩ <;> decide +kernel

/-! ### Witnesses: barriers, collectives, routing -/

/-- A barrier object at address 64 with N and a parent. -/
def wsBar (n parent : Nat) (f : Flight) : State :=
  { wsF f with mem := writeN (writeN ⟨[], []⟩ (hbm 0 68) 4 n) (hbm 0 80) 8 parent }

theorem test_witness_BarrierSteps :
    (let f := wfl (.port (hbm 0 64) 32 0 0x1FF) (.barArrive none 64)
     let t (n p : Nat) : State := closeLine (wsBar n p f) (hbm 0 64)
     flightById (wsBar 1 0 f) 2 = some f ∧ (dieAt (wsBar 1 0 f) (actingDie f)).failed = false ∧ portLoc f = some (hbm 0 64) ∧ arrivesBefore (wsBar 1 0 f) f = false ∧ f.uid ≠ 0 ∧ barN (t 2 0) (hbm 0 64) ≠ 0 ∧
       barUp (t 2 0) (hbm 0 64) = false ∧ (barCnt (t 2 0) (hbm 0 64) + 1) % 2 ^ 32 ≠ barN (t 2 0) (hbm 0 64) ∧
       (barCnt (t 1 0) (hbm 0 64) + 1) % 2 ^ 32 = barN (t 1 0) (hbm 0 64) ∧ barParent (t 1 0) (hbm 0 64) = 0 ∧
       barParent (t 1 128) (hbm 0 64) ≠ 0) ∧
    (let f := wfl (.port (hbm 0 64) 32 0 0x1FF) (.barWait 0)
     let s := wsBar 1 0 f
     (dieAt s (actingDie f)).failed = false ∧ barPhase (closeLine s (hbm 0 64)) (hbm 0 64) = 0 ∧ (barPairs s (wqKey (hbm 0 64))).length < 4096) ∧
    ((wsBar 1 0 (wfl .sent (.flip (hbm 0 64)))).barHeld = [] ∧ (dieAt (wsBar 1 0 (wfl .sent (.flip (hbm 0 64)))) (portDie (hbm 0 64))).failed = false) ∧
    (let a := { wa with wait := .barrier 9 (hbm 0 64) 0 4 false 0 31 64 }
     let s := { wsF (wfl .sent (.wake wa.uid (hbm 0 64) 1)) with acts := [(0, a)] }
     Settled s a ∧ (31 : Nat) < 32 ∧ (1 : Word) = 0 + 1 ∧ (5 : Word) ≠ 0 + 1) ∧
    (let a := { wa with wait := .barrier 9 (hbm 0 64) 0 4 true 0 31 64 }
     let s := { wsOf a with now := 1024 }
     actAt s a.ctx = some a ∧ 0 + 1024 ≤ s.now ∧ mayPoll s a (.phase 31) = true) ∧
    (let a := { wa with wait := .bimWait 9 0 64 31 5 }
     let s := { wsOf a with now := 1024 }
     actAt s a.ctx = some a ∧ 0 + 1024 ≤ s.now ∧ mayPoll s a (.bimWait 31 5) = true) := by
  unfold Settled
  refine ⟨?_, ?_, ?_, ?_, ?_, ?_⟩ <;> decide +kernel

/-- Sequencer 0 enabled with a limit of 1024 cycles; its program at address 128: one rank, one step. `x` is the step's first word. -/
def wcollMem (x : Nat) : Memory := writeN (writeN ⟨[], []⟩ (hbm 0 128) 8 (1 + 2 ^ 32)) (hbm 0 256) 8 x
def wsSeq (c : Coll) (f : Flight) (x : Nat) : State :=
  { wsF f with
    mem := wcollMem x, dies := [(0, { Die.reset 0 with ringQ := [(0, [c])] })]
    regs := mset (wmap ws).regs (regKey 0 (collBlk 0)) 0x100000001 }
/-- The program running: at its only step, whose first word is x. -/
def wrun (x : Word) (pc : Nat) : Coll := { wcoll with hdr := 128, words := [0x100000001, 0, 0, 0, 1], steps := [(x, 0)], pc := pc, started := true }

theorem test_witness_CollectiveSteps :
    (let c := { wcoll with hdr := 128 }
     let s := wsSeq c (wfl .sent .load) 0x102640004
     collQ s 0 = c :: [] ∧ (dieAt s (dkOfSeq 0)).failed = false ∧ c.started = false ∧ collOn s 0 = true ∧ collErr s 0 = false ∧
     (match readNow (putColl s 0 { c with started := true, since := s.now }) (collReq 0 c .erd c.hdr 128) with
      | (.ok hb, s1) => (match readNow s1 (collReq 0 c .erd (c.hdr + 128) (16 * hNstep (wordsOf 16 hb))) with
        | (.ok sb, s2) =>
          let ws := wordsOf 16 hb
          let n := hNstep ws
          let sw := wordsOf (2 * n) sb
          let c2 : Coll := { c with
            started := true, since := s.now, words := ws, lc := (List.range 4).map fun i => wfld (nth ws 3) (16 * i) 16
            steps := (List.range n).map fun i => (nth sw (2 * i), nth sw (2 * i + 1)) }
          decide (1 ≤ hNrank ws ∧ hNrank ws ≤ 4096 ∧ hRank ws < hNrank ws) && c2.steps.all (fun x => !stBad (hBim ws) n x) &&
          (match readPeers 0 (c2.steps.flatMap (stRanks c2)).eraseDups c2 s2 with
          | (some c', _, s3) => !hBim c'.words && decide (s3.held = s.held)
          | _ => false)
        | _ => false)
      | _ => false) = true) ∧
    (let c := wrun 4 0
     let s := wsSeq c (wfl .sent .load) 4
     collQ s 0 = c :: [] ∧ c.started = true ∧ stOp (c.steps.getD c.pc (0, 0)) = 4 ∧ mergeBusy s 0 = false ∧ c.pc + 1 = hNstep c.words) ∧
    (let x : Word := 0x100240001
     let c := wrun x 0
     let f := { wfl .sent (.chunk 0 0 7 (List.replicate 512 1)) with uid := 0, wire := some (0x99, []) }
     let s := wsSeq c f 4
     let y := c.steps.getD c.pc (0, 0)
     stOp y = 1 ∧ stFwd y = false ∧ nextChunk s 0 (rankSeq s 0 c (stFrom c y)) = some f ∧ c.group = none ∧ c.pc + 1 = hNstep c.words ∧
       (match writeNow (takeChunk s 0 y f).2 (collReq 0 c .ewr (stDst c y) (takeChunk s 0 y f).1.length) (takeChunk s 0 y f).1 with
        | (.ok bs, s2) => bs.isEmpty && decide ((collQ s2 0).drop 1 = [] ∧ s2.held = s.held)
        | _ => false) = true) ∧
    (let c := wrun 4 1
     let s := wsSeq c (wfl .sent .load) 4
     hNstep c.words ≤ c.pc ∧ c.group = none ∧ mergeBusy s 0 = false ∧ wbit (nth c.words (4 + 0 / 64)) (0 % 64) = true) ∧
    (let c := wrun 1 0
     let s := { wsSeq c (wfl .sent .load) 4 with now := 1025 }
     collTmo s 0 ≠ 0 ∧ c.since + 1024 * collTmo s 0 < s.now ∧ collWaits s 0 c = true) := by
  refine ⟨?_, ?_, ?_, ?_, ?_⟩ <;> decide +kernel

/-- Die 0's top-k tree with record 0 at HBM address 0: 8 entries, die 0, core 0, 1 token, the result at 4096, a join target. -/
def wsTree (f : Flight) (ms : List Merge) : State :=
  { wsF f with
    regs := mset (wmap ws).regs (regKey 0 tkBlk) 0x8000000000000000, dies := [(0, { Die.reset 0 with merges := ms })]
    mem := writeN ⟨[], []⟩ (hbm 0 0) 64 (2 ^ 63 + 16 + 8 + 2 ^ 64 * 4096 + 2 ^ 128 * 2 ^ 23 + 2 ^ 192 + 2 ^ 256) }

/-- A slot pool at HBM address 8192: one expert with one slot for each sender, 129 slots from 32768 on, STATE at 16384, expert record at
20480 with a ring of one record at 24576. -/
def wpoolMem (state : Nat) : Memory :=
  writeN (writeN (writeN ⟨[], []⟩ (hbm 0 8192) 64
    (2 ^ 63 + 2 ^ 40 + 2 ^ 24 + 2 ^ 64 * 32768 + 2 ^ 128 * 129 + 2 ^ 320 * 16384 + 2 ^ 384 * 20480)) (hbm 0 16384) 8 state)
    (hbm 0 20480) 32 (2 ^ 128 * 24576 + 2 ^ 192)
def wsPool (f : Flight) (p : Pool) (state : Nat) : State := { wsF f with mem := wpoolMem state, pools := [(hbm 0 8192, p)] }
def wreq (pay : Pay) : Flight := wfl (.port (hbm 0 8192) 8 0 0x1FF) pay

theorem test_witness_RoutingSteps :
    (let f := wfl .sent (.topk 0 0 0 0 [])
     let s := wsTree f []
     let w := (tkRecord s 0 0).1
     flightById s 2 = some f ∧ Unlaned s 2 ∧ s.wqs = [] ∧ tkOn s 0 = true ∧ rV w = true ∧ rAsid w = f.req.asid ∧ rGen w = f.req.gen ∧ 0 < rNtok w ∧
       0 ∈ rCores w ∧ 0 % 16 ∈ rDies w ∧ mergeAt (dieAt s 0) false 0 0 = none ∧ mergeRoom (dieAt s 0) 0 0 = true) ∧
    tkOn (wsTree (wfl .sent (.topkRoot 0 0 0 0 [])) []) 0 = true ∧
    (let f := wreq (.claim 0 127)
     let s := wsPool f Pool.reset 0
     portLoc f = some (hbm 0 8192) ∧ (dieAt s (actingDie f)).failed = false ∧
     (match poolAt s (hbm 0 8192) (poolReq (hbm 0 8192) f.req) with
       | (.ok v, s') => decide (s'.flights = s.flights ∧ s'.held = s.held ∧ 0 < pvE v ∧ partSlots v 127 0 ≠ [])
       | _ => false) = true) ∧
    (let f := wreq (.slotRet 32768 1)
     let s := wsPool f { Pool.reset with slots := [(0, ⟨2, 0, 0, 0⟩)], buf := [(0, (List.range' 1 254, 0))] } 1
     portLoc f = some (hbm 0 8192) ∧ (dieAt s (actingDie f)).failed = false ∧
     (match poolAt s (hbm 0 8192) (poolReq (hbm 0 8192) f.req) with
       | (.ok v, s') => (match namedSlot v 32768 with
         | .array i => decide (s'.flights = s.flights ∧ s'.held = s.held ∧ (slotAt v i).st = 2 ∧
             (mget v.p.buf (slotAt v i).expert (([] : List Nat), 0)).1.length < 255)
         | _ => false)
       | _ => false) = true) ∧
    (let s := wsTree (wfl .sent .load) [⟨0, 0, true, [0], [[]]⟩]
     let w := (tkRecord s 0 0).1
     let best := bestOf (rK w) [[]]
     s.wqs = [] ∧ mergeAt (dieAt s 0) true 0 0 = some ⟨0, 0, true, [0], [[]]⟩ ∧ (∀ d ∈ rDies w, d ∈ [0]) ∧
       (match writeNow s (agentReq 0 7 (rAsid w) (rGen w) .store (rResult w + 64 * 0) 64)
           (bytesOf (best ++ List.replicate (8 - best.length) 0xFFF)) with
        | (.ok _, s') => decide (s'.held = s.held)
        | _ => false) = true) ∧
    (dieAt State.reset 7).failed = false ∧
    (let s := wsPool (wfl .sent .load) { Pool.reset with slots := [(0, ⟨3, 0, 0, 9⟩)], buf := [(0, ([0], 0))] } 1
     let p := Sys2Proof.Machine.mget s.pools (hbm 0 8192) Pool.reset
     let v : PoolView := ⟨hbm 0 8192, wordsOf 8 (readBytes s.mem (hbm 0 8192) 64), p⟩
     let q := agentReq (portDie (hbm 0 8192)) 4 p.asid p.gen .load 0 0
     pvBslots v ≤ (mget p.buf 0 (([] : List Nat), 0)).1.length ∧ (match expRecord s q v 0 with
       | (.ok eb, s1) =>
         let w := wordsOf 4 eb
         (match freeRecord v 0 (wfld (nth w 3) 0 16) with
          | some i => (match writeNow s1 { q with acc := .ewr, va := (wfld (nth w 2) 0 57 + 2048 * i) % 2 ^ 57, n := 0 }
              (bytesOf [1, BitVec.ofNat 64 (pvSlots v + 4096 * 0 + (slotAt v 0).rows)]) with
            | (.ok _, s2) => (match readNow s2 { q with va := wfld (nth w 0) 0 57, n := 64 } with
              | (.ok _, s3) => decide (s3.held = s.held)
              | _ => false)
            | _ => false)
          | none => false)
       | _ => false) = true) := by
  unfold Unlaned
  refine ⟨?_, ?_, ?_, ?_, ?_, ?_, ?_⟩ <;> decide +kernel

/-! ### Witnesses: system control, ports, RDMA -/

def wsPkg (p : Pkg) : State := { State.reset with pkgs := [(0, p)], now := 40000000000 }

theorem test_witness_SystemSteps :
    (0x8010008 / 2 ^ 24 ≤ 8 ∧ (dieAt State.reset (dieKey 0 8)).failed = false ∧ ownStep (0x8010008 / 2 ^ 24 = 8) (0x8010008 % 2 ^ 24) 5 = false ∧
      regBits (dieKey 0 8 % 16 = 8) (0x8010008 % 2 ^ 24) = some (mask 56 0, 0) ∧
      hdmLocked State.reset 0 (0x8010008 % 2 ^ 24) = false) ∧
    (let o := cxlBlk 1 + hdmDec 7
     hdmLocked (wsPkg { Pkg.reset 0 with hdm := [(15, some ⟨0, 0, 0, false, [], true⟩)] }) 0 o = true ∧ (8 * 2 ^ 24 + o) / 2 ^ 24 = 8 ∧
       ownStep true o 5 = false ∧ (regBits true o).isSome = true) ∧
    (rootPort State.reset 0 9 = true ∧ rootPort (wsPkg { Pkg.reset 0 with split := [(1, 2)] }) 0 7 = true ∧
      rootPort (wsPkg { Pkg.reset 0 with split := [(1, 1)] }) 0 7 = false) ∧
    ((pkgAt State.reset 0).partReq = none ∧ wfld (3 : Word) 0 2 ≠ (pkgAt State.reset 0).partMode ∧ (pkgAt State.reset 0).boot = .reset) ∧
    (let s := wsPkg { Pkg.reset 0 with partReq := some 3, aff := 255 }
     (pkgAt s 0).partReq = some 3 ∧ partIdle s 0 (pkgAt s 0).aff = true) ∧
    (pkgAt (wsPkg { Pkg.reset 0 with boot := .verifyLocal }) 0).boot = .verifyLocal ∧
    (pkgAt (wsPkg { Pkg.reset 0 with boot := .verifyFetched }) 0).boot = .verifyFetched ∧
    (let s := wsPkg { Pkg.reset 0 with boot := .failed }
     (pkgAt s 0).boot = .failed ∧ (pkgAt s 0).bootAt + 40000000000 ≤ s.now) ∧
    2700 < wfld (2701 * 65536 : Word) 16 16 ∧ wfld (2700 * 65536 : Word) 16 16 ≤ 2700 ∧
    (let a := dieAt State.reset (dieKey 0 7)
     let b := dieAt State.reset (dieKey 0 0)
     a.failed = false ∧ b.failed = false ∧ a.floor + 181 ≤ a.units ∧ b.units + 181 ≤ b.ceil) ∧
    (let s := { State.reset with dies := [(7, { Die.reset 7 with failed := true })], now := 4000000 }
     (dieAt s 7).failed = true ∧ (dieAt s 7).failedAt + 4000000 ≤ s.now ∧ liveNeighbours s 7 ≠ [] ∧
       (∀ n ∈ liveNeighbours s 7, (dieAt s n).units ≤ (dieAt s n).ceil)) ∧
    (let s := { State.reset with dies := [(7, { Die.reset 7 with failed := true, units := 100 })], now := 4000000 }
     ∀ n ∈ liveNeighbours s 7, (dieAt s n).units + (dieAt s 7).units ≤ (dieAt s n).ceil) ∧
    (dieAt State.reset 8).buf = [] ∧ (5 : BitVec 3).toNat ≤ 5 ∧ actByUid State.reset 9 = none := by decide +kernel

/-- A frame of 60 bytes with an Ethernet type. -/
def wframe (t : Nat) (n : Nat) : List Byte := List.replicate 12 0 ++ beBytes 2 t ++ List.replicate (n - 14) 0

/-- Port 0 of package 0 enabled for every address, its rings 0 with one descriptor posted: a buffer of 60 bytes at DDR 256. -/
def wsEth : State :=
  { State.reset with
    regs := [(regKey 8 (ethBlk 0), 0xC000000000000000), (regKey 8 (ethBlk 0 + 0x1008), 0x8000000000000000),
      (regKey 8 (ethBlk 0 + 0x1010), 1), (regKey 8 (ethBlk 0 + 0x2000 + 0x20 * 63 + 8), 0x8000000000000000),
      (regKey 8 (ethBlk 0 + 0x2000 + 0x20 * 63 + 0x10), 1)]
    mem := writeN ⟨[], []⟩ (ddr 0 0) 16 (256 + 2 ^ 64 * (60 + 65536)) }

/-- Steering rule 255: V, NSLOT 2, slots of 64 bytes, ring at 4096; a launch packet of 48 bytes. -/
def wsRule (q : List (List Byte)) : State :=
  { wmap ws with
    regs := mset (mset (wmap ws).regs (regKey 8 (strBlk + 0x20 * 255)) (BitVec.ofNat 64 (2 ^ 63 + 6 * 2 ^ 53 + 2 * 2 ^ 32)))
      (regKey 8 (strBlk + 0x20 * 255 + 8)) 4096
    pkgs := [(0, { Pkg.reset 0 with steerQ := q })] }
def wlaunchFrame : List Byte := List.replicate 14 0 ++ toBytes 8 (1 + 255 * 256 + 48 * 65536) ++ List.replicate 56 0

/-- Requester 65535 has an entry for address space 0. -/
def wsRid : State := { wmap ws with mem := writeN ⟨[], []⟩ (ddr 0 (8 * 65535)) 8 (2 ^ 63) }

theorem test_witness_PortSteps :
    (wbit (rawReg wsEth (ioDie 0) (ethBlk 0)) 63 = true ∧ 60 ≤ (wframe 0x88B5 60).length ∧ (wframe 0x88B5 9212).length ≤ 9212 ∧
      acceptsMac wsEth 0 0 (wframe 0x88B5 60) = true ∧ beAt (wframe 0x88B5 60) 12 2 = 0x88B5) ∧
    (beAt (wframe 0x88B6 60) 12 2 ∉ [0x8100, 0x8808, 0x88B5, 0x0800, 0x86DD] ∧ acceptsMac wsEth 0 0 (wframe 0x88B6 60) = true ∧
      wbit (ringReg wsEth 0 0 false 0 8) 63 = true ∧ takeBuffers wsEth 0 0 0 (ringPosted wsEth 0 0 false 0) (ringHead wsEth 0 0 false 0)
        (wframe 0x88B6 60).length ≠ none) ∧
    (wsEth.wqs = [] ∧ wbit (ringReg wsEth 0 0 true 63 8) 63 = true ∧ 0 < ringPosted wsEth 0 0 true 63 ∧
      (let d := descPlace wsEth 0 0 true 63 (ringHead wsEth 0 0 true 63)
       let w1 := readW wsEth.mem (d + 8)
       mget (pkgAt wsEth 0).txBuf (ringKey 0 true 63) ([], false, w1) = ([], false, w1) ∧ wbit w1 16 = true ∧ wfld w1 0 16 ≠ 0 ∧
         sendHeld wsEth 0 0 = none ∧
         (let out := outFrame w1 (readBytes wsEth.mem (ddr 0 (wfld (readW wsEth.mem d) 0 52)) (wfld w1 0 16))
          out.length ≤ 9212 ∧ paused wsEth 0 0 (framePrio out) = false))) ∧
    (let v : Word := BitVec.ofNat 64 (2 ^ 63 + 16 * 2 ^ 53 + 2 * 2 ^ 32)
     wbit v 63 = true ∧ 6 ≤ wfld v 53 5 ∧ wfld v 53 5 ≤ 16 ∧ 2 ≤ wfld v 32 21 ∧ wfld (strReg State.reset 0 255 8) 0 57 % 2 ^ wfld v 53 5 = 0) ∧
    (let s := wsRule [wlaunchFrame]
     let b := wlaunchFrame.drop 14
     let w0 := BitVec.ofNat 64 (ofBytes (b.take 8))
     let len := wfld w0 16 16
     let ctl := strReg s 0 255 0
     (pkgAt s 0).steerQ = wlaunchFrame :: [] ∧ wfld w0 8 8 = 255 ∧ wfld w0 0 8 = 1 ∧ wbit ctl 63 = true ∧ wbit ctl 62 = false ∧
       wfld w0 32 32 = wfld (strReg s 0 255 0x18) 0 32 ∧ len ≤ 2 ^ wfld ctl 53 5 - 16 ∧ ((b.drop 16).take len).length = len ∧
       steerRoom (wfld ctl 32 21) 0 0 ≠ 0 ∧
       (match writeNow (wsRule []) (agentReq (ioDie 0) 0 (wfld ctl 0 16) (wfld ctl 58 4) .ewr
           (wfld (strReg s 0 255 8) 0 57 + (1 + 0 % (wfld ctl 32 21 - 1)) * 2 ^ wfld ctl 53 5) (16 + len))
           (toBytes 8 1 ++ toBytes 8 len ++ (b.drop 16).take len) with
        | (.ok _, s') => decide (s'.pkgs = (wsRule []).pkgs ∧ s'.held = (wsRule []).held)
        | _ => false) = true) ∧
    (interruptFile (0xF00020000000 + 0x1000 * 1016 : Word).toNat = some 1016 ∧ 1016 % 16 < 9 ∧ 1 ≤ (2047 : BitVec 32).toNat ∧
      (2047 : BitVec 32).toNat < 2048) ∧
    (wsRid.wqs = [] ∧ wbit (readW wsRid.mem (ddr 0 (wfld (rawReg wsRid (ioDie 0) (rcBlk + 8)) 19 33 * 2 ^ 19 + 8 * (65535 % 65536)))) 63 = true ∧
      wbit (readW wsRid.mem (ddr 0 (8 * (5 % 65536)))) 63 = false ∧ wfld (64 : Word) 57 7 = 0 ∧
      (match readNow wsRid (agentReq (ioDie 0) 2 0 0 .erd 64 8) with
       | (.ok _, s') => decide (s'.pkgs = wsRid.pkgs ∧ s'.held = wsRid.held)
       | _ => false) = true) := by
  refine ⟨?_, ?_, ?_, ?_, ?_, ?_, ?_⟩ <;> decide +kernel

/-- Queue pair 0 in a state, reliable, polled, with retries allowed, its engine on and keeping a state for it; handle 0 is all zeros; key 0 open for address 0 to 65535; completion queue 0 with 2 entries at
4096; q the engine's record of the pair. -/
def wsQp (st : Nat) (q : Qp) : State :=
  { wmap ws with
    now := 200000
    regs := mset ((wmap ws).regs ++ [(regKey 8 rdmaBlk, 0x8000000000000000), (regKey 8 (rdmaBlk + 8), 0x10000), (regKey 8 (rdmaBlk + 0x10), 1), (regKey 8 (rdmaBlk + 0x18), 0x20000),
      (regKey 8 (rdmaBlk + 0x20), 1), (regKey 8 (rdmaBlk + 0x28), 0x30000), (regKey 8 (rdmaBlk + 0x30), 1),
      (regKey 8 (rdmaBlk + 0x38), 0x40000), (regKey 8 (rdmaBlk + 0x40), 1)]) (regKey 8 (ethBlk 0)) 0x8000000000000000
    pkgs := [(0, { Pkg.reset 0 with qps := [(0, q)] })]
    mem := writeN (writeN (writeN (writeN (writeN (writeN ⟨[], []⟩ (ddr 0 0x10050) 8 1) (ddr 0 0x10000) 8 (2 ^ 63 + st * 2 ^ 60 + 2 ^ 57)) (ddr 0 0x10020) 8 (2 ^ 24))
      (ddr 0 0x10040) 8 64) (ddr 0 0x20000) 24 (2 ^ 64 * 65536 + 2 ^ 128 * (2 ^ 63 + 2 ^ 61)))
      (ddr 0 0x30000) 24 (4096 + 2 ^ 64 * (2 ^ 63 + 1) + 2 ^ 128 * 2 ^ 23) }
def wpacket : RocePacket := ⟨2, 0, 0, 0, 0, 0, 65528, 8, 0, 0, 0, [1, 2, 3, 4, 5, 6, 7, 8], true, true, []⟩
def wqp : Qp := { Qp.reset with live := true, sent := [⟨0, 0, 0, true, 0, 0, 0, none, 1, 0⟩], due := [⟨false, 0, 0, 0, 0, 0, 0⟩] }

theorem test_witness_RdmaSteps :
    (let s := wsQp 2 Qp.reset
     rdmaOn s 0 = true ∧ wpacket.op = 2 ∧ wpacket.first = true ∧ wpacket.last = true ∧ wpacket.len.toNat = wpacket.data.length ∧
       (qpNow s 0 0).cur = none ∧ (pkgAt s 0).roceQ.head? ≠ some wpacket ∧ qpValid s 0 0 = true ∧ qpState s 0 0 = 2 ∧ qpUd s 0 0 = false ∧
       wpacket.psn.toNat = (qpNow s 0 0).epsn ∧ (qpNow s 0 0).epsn < 2 ^ 24 ∧ keyOk s 0 0 wpacket.key.toNat wpacket.va.toNat 8 (some 61) = true ∧
       (match writeNow s (qpReq s 0 0 .ewr wpacket.va.toNat 8) wpacket.data with
        | (.ok _, s') => decide (s'.pkgs = s.pkgs ∧ s'.held = s.held ∧ qpcWord s' 0 0 10 ≠ 0 ∧ qpAh s' 0 0 ≠ none ∧
            paused s' 0 0 0 = false) && !qpUd s' 0 0 && (qpAh s' 0 0).all (fun h => ethOn s' 0 h.port)
        | _ => false) = true) ∧
    (let s := wsQp 2 wqp
     let q := qpNow s 0 0
     rdmaOn s 0 = true ∧ NothingHeld s ∧ qpcWord s 0 0 10 ≠ 0 ∧ qpValid s 0 0 = true ∧ q.cnpAt + 200000 ≤ s.now ∧ qpUd s 0 0 = false ∧ q.rnr = none ∧ q.sentAt + 4000 * wfld (qpcWord s 0 0 5) 24 16 ≤ s.now ∧
       (∃ x ∈ q.sent, x.fin = none) ∧ doorbellHeld s 0 0 = false ∧ rdmaOn State.reset 0 = false ∧ q.retries < wfld (qpcWord s 0 0 4) 24 3 ∧ wfld (0x8000000000000000 : Word) 16 16 = 0 ∧
       qpState s 0 0 ≠ 3 ∧ qpState s 0 0 ≠ 4 ∧ wbit (qpcWord s 0 0 0) 57 = true ∧
       q.pollAt + 1024 * max 1 (wfld (qpcWord s 0 0 9) 0 16) ≤ s.now ∧
       (let s1 := putQp s 0 0 { q with pollAt := s.now }
        (match readNow s1 (qpReq s1 0 0 .erd (wfld (qpcWord s1 0 0 8) 0 57) 8) with
         | (.ok _, s') => decide (s'.pkgs = s1.pkgs ∧ s'.held = s.held ∧ qpcWord s' 0 0 10 ≠ 0 ∧ qpValid s' 0 0 = true ∧ qpState s' 0 0 ≠ 3 ∧ qpState s' 0 0 ≠ 4)
         | _ => false) = true)) ∧
    (let s := wsQp 2 wqp
     let qs := mget (pkgAt s 0).qps 0 Qp.reset
     let cq := wfld (qpcWord s 0 0 3) 48 16
     let e := ddr 0 (wfld (rdmaReg s 0 0x28) 5 47 * 32 + 32 * cq)
     let w := fun (i : Nat) => readW s.mem (e + 8 * i)
     qs.due = [⟨false, 0, 0, 0, 0, 0, 0⟩] ∧ cq < wfld (rdmaReg s 0 0x30) 0 16 ∧ wbit (w 1) 63 = true ∧ (w 2).getLsbD 23 = true ∧
       (let s1 := putQp s 0 0 { qs with due := [] }
        (match writeNow s1 (agentReq (ioDie 0) 1 (wfld (w 1) 36 16) (wfld (w 1) 52 4) .ewr (wfld (w 0) 0 57 + 32 * (0 % 2 ^ wfld (w 1) 0 5)) 32)
            (bytesOf (cqeWords ⟨false, 0, 0, 0, 0, 0, 0⟩ 0 0 (wfld (w 1) 0 5))) with
         | (.ok _, s') => decide (s'.pkgs = s1.pkgs ∧ s'.held = s.held ∧ qpcWord s 0 0 10 ≠ 0)
         | _ => false) = true)) := by
  unfold NothingHeld
  refine ⟨?_, ?_, ?_⟩ <;> decide +kernel

/-! ### Witnesses: the general statements -/

theorem decode_ok {bs : List Byte} {i : Instr} (h : (decode bs).toOption.map (fun r => r.1) = some i) : ∃ rest, decode bs = .ok (i, rest) := by
  cases hd : decode bs with
  | error e => simp [hd, Except.toOption] at h
  | ok r => exact ⟨r.2, by simp [hd, Except.toOption] at h; simp [← h]⟩

/-- The machine about to run addi s1, s1, 512, and its activation. -/
def waddi : State := State.reset.withFetchWord 32 0x04001085
def waddiAct : Act := placedAct (setCore State.reset 0 (placedCore Core.reset 0 (leBytes 64 0x04001085))) 0

theorem test_witness_StepRunsDecoded :
    (let c := coreAt waddi waddi.focus
     (match unlessStalled waddi.focus 0 waddiAct c.lastCtx c.issuedAt (exec (.addi 1 1 512) (issued waddi waddi.focus 0 0 waddiAct)) with
      | .next t => decide (t ≠ waddi)
      | _ => true) = true) ∧
    (waddi.agenda = [] ∧ selectContext waddi waddi.focus ≠ none ∧ IssuesNext waddi waddi.focus 0 0 waddiAct (.addi 1 1 512)) ∧
    IssuesNext { waddi with agenda := [], now := waddi.now + 5 } 0 0 0 waddiAct (.addi 1 1 512) ∧ isEncoded (.eventBufferSend 0) = false := by
  refine ⟨by decide +kernel, ⟨rfl, by decide +kernel, ?_⟩, ?_, by decide +kernel⟩
  all_goals
    unfold IssuesNext Fetches
    refine ⟨by decide +kernel, by decide +kernel, by decide +kernel, by decide +kernel, by decide +kernel,
      by decide +kernel, by decide +kernel, by decide +kernel, by decide +kernel, decode_ok (by decide +kernel)⟩

theorem test_witness_DecodeOfEncode : encodeBytes (.addi 1 1 512) = some (leBytes 4 0x04001085) := by decide +kernel

theorem test_witness_EncodeOfDecode : ∃ rest, decode (leBytes 4 0x04001085 ++ [7]) = .ok (.addi 1 1 512, rest) := decode_ok (by decide +kernel)

theorem test_witness_RegistersAfterReset : (0x060000 : Nat) % 8 = 0 ∧ 0x1FFFF8 % 8 = 0 ∧ (0x1FFFF8 : Nat) < 0x200000 ∧ (0 : Nat) ≠ 0x200 := by
  decide

theorem goesOn_next {σ φ ρ : Type} {o : Host.Outcome σ φ ρ} (h : goesOn o = true) : ∃ t, o = .next t := by
  cases o with
  | next t => exact ⟨t, rfl⟩
  | _ => simp [goesOn] at h

theorem test_witness_MemoryStaysCanonical :
    State.reset.mem.wf = true ∧ ∃ t, step (State.reset.withFetchWord 16 0x001E) = .next t :=
  ⟨by decide +kernel, goesOn_next (by decide +kernel)⟩

/-! ### One step each, with the results worked out from the rules -/

/-- Scalar register r after the unit i of an activation a. -/
def sAfter (i : Instr) (a : Act) (r : Nat) : Option Word :=
  match exec i (wsOf a) with
  | .next t => (actAt t 0).map fun b => sreg b r
  | _ => none

/-- The activation wa with values in s1, s2 and s3. -/
def w3 (x y z : Word) : Act := withS wa [(1, x), (2, y), (3, z)]

/-- R284, R285: wrap, and the high halves of (2^64 − 1) · 3, signed −3. -/
theorem test_arithmetic :
    sAfter (.add 4 1 2) (w3 (BitVec.allOnes 64) 3 0) 4 = some 2 ∧ sAfter (.sub 4 1 2) (w3 1 3 0) 4 = some 0xFFFFFFFFFFFFFFFE ∧
    sAfter (.mul 1 1 2) (w3 (BitVec.allOnes 64) 3 0) 1 = some 0xFFFFFFFFFFFFFFFD ∧ sAfter (.mulh 4 1 2) (w3 (BitVec.allOnes 64) 3 0) 4 = some (BitVec.allOnes 64) ∧
    sAfter (.mulhz 4 1 2) (w3 (BitVec.allOnes 64) 3 0) 4 = some 2 := by decide +kernel

/-- R286: −7 over 2, by zero, and the overflow. -/
theorem test_division :
    sAfter (.div 4 1 2) (w3 (-7) 2 0) 4 = some (-3) ∧ sAfter (.rem 4 1 2) (w3 (-7) 2 0) 4 = some (-1) ∧ sAfter (.divz 4 1 2) (w3 7 0 0) 4 = some (BitVec.allOnes 64) ∧
    sAfter (.remz 4 1 2) (w3 7 0 0) 4 = some 7 ∧ sAfter (.div 4 1 2) (w3 0x8000000000000000 (-1) 0) 4 = some 0x8000000000000000 ∧ sAfter (.rem 4 1 2) (w3 0x8000000000000000 (-1) 0) 4 = some 0 := by
  decide +kernel

/-- R287, R297: amounts above 63 lose their upper bits. -/
theorem test_shifts :
    sAfter (.shl 4 1 2) (w3 3 65 0) 4 = some 6 ∧ sAfter (.sra 4 1 2) (w3 0x8000000000000000 62 0) 4 = some (-2) ∧ sAfter (.shr 4 1 2) (w3 0x8000000000000000 62 0) 4 = some 2 ∧
    sAfter (.rol 4 1 2) (w3 0x8000000000000001 1 0) 4 = some 3 ∧ sAfter (.rori 4 1 8) (w3 0x1FF 0 0) 4 = some 0xFF00000000000001 ∧
    sAfter (.srai 4 1 63) (w3 0x8000000000000000 0 0) 4 = some (-1) := by decide +kernel

/-- R284, R289. -/
theorem test_logicAndSelect :
    sAfter (.andn 4 1 2) (w3 0xFF 0x0F 0) 4 = some 0xF0 ∧ sAfter (.sel 3 1 2) (w3 10 20 0) 3 = some 20 ∧ sAfter (.sel 3 1 2) (w3 10 20 1) 3 = some 10 ∧
    sAfter (.slt 4 1 2) (w3 (-1) 1 0) 4 = some 1 ∧ sAfter (.sltz 4 1 2) (w3 (-1) 1 0) 4 = some 0 ∧ sAfter (.min 4 1 2) (w3 (-1) 1 0) 4 = some (-1) ∧
    sAfter (.minz 4 1 2) (w3 (-1) 1 0) 4 = some 1 ∧ sAfter (.sne 0 1 2) (w3 0 1 0) 0 = some 0 := by decide +kernel

/-- R288, R290: the counts of zero; (x + 1)^2 = x^2 + 1. -/
theorem test_countsAndPolynomials :
    sAfter (.clz 4 1) (w3 0 0 0) 4 = some 64 ∧ sAfter (.ctz 4 1) (w3 0x10 0 0) 4 = some 4 ∧ sAfter (.popc 4 1) (w3 (-1) 0 0) 4 = some 64 ∧
    sAfter (.bswap 4 1) (w3 0x0102030405060708 0 0) 4 = some 0x0807060504030201 ∧ sAfter (.clmul 4 1 2) (w3 3 3 0) 4 = some 5 ∧
    sAfter (.clmulh 4 1 2) (w3 0x8000000000000000 4 0) 4 = some 2 := by decide +kernel

/-- R291: from a remainder of 1 the first bit brings the polynomial in. -/
theorem test_crc :
    crcNat 1 0 1 = 0x82F63B78 ∧ crcNat 1 1 1 = 0 ∧ sAfter (.crc 4 1 2) (w3 0xABCDEF0000000000 0 0) 4 = some 0 := by decide +kernel

/-- R292, R293: the EtherType example; the entry is 0xA420. -/
theorem test_headerField :
    (let s : State := { wsOf (w3 0x0000B58800000000 2 0) with cores := mset ws.cores 0 { coreAt ws 0 with hdrf := [(2, 0xA420)] } }
     match exec (.hdrUnpk 4 1 2) s with
     | .next t => (actAt t 0).map fun b => sreg b 4
     | _ => none) = some 0x88B5 ∧
    (let s : State := { wsOf (w3 0x88B5 2 0xFFFFFFFFFFFFFFFF) with cores := mset ws.cores 0 { coreAt ws 0 with hdrf := [(2, 0xA420)] } }
     match exec (.hdrPack 3 1 2) s with
     | .next t => (actAt t 0).map fun b => sreg b 3
     | _ => none) = some 0xFFFFB588FFFFFFFF := by decide +kernel

/-- R294 to R298. -/
theorem test_immediates :
    sAfter (.addi 4 1 0x7FFF) (w3 5 0 0) 4 = some 4 ∧ sAfter (.slti 4 1 0x7FFF) (w3 (-2) 0 0) 4 = some 1 ∧ sAfter (.li 4 0x4000) wa 4 = some (-16384) ∧
    sAfter (.lih 3 0) (w3 0 0 0x3E8) 3 = some 0x3E800000 ∧ sAfter (.ext 4 1 32 15) (w3 0x8001234500000000 0 0) 4 = some 0x2345 ∧
    sAfter (.extS 4 1 48 15) (w3 0x8001234500000000 0 0) 4 = some 0xFFFFFFFFFFFF8001 ∧ sAfter (.ins 3 1 8 7) (w3 0xAB 0 0xFFFFFF) 3 = some 0xFFABFF := by
  decide +kernel

/-- R258: the 16-bit forms. -/
theorem test_shortForms :
    sAfter (.addi6 1 0x3F) (w3 5 0 0) 1 = some 4 ∧ sAfter (.li6 1 0x20) wa 1 = some (-32) ∧ sAfter (.sub16 1 2) (w3 5 7 0) 1 = some (-2) ∧
    sAfter (.shri16 1 63) (w3 (-1) 0 0) 1 = some 1 ∧ sAfter (.mov 4 1) (w3 9 0 0) 4 = some 9 := by decide +kernel

/-- The program counter after a unit. -/
def pcAfter (i : Instr) (a : Act) : Option Word :=
  match exec i (wsOf a) with
  | .next t => (actAt t 0).map fun b => b.regs.pc - a.regs.pc
  | _ => none

/-- R305 to R307: offsets count halfwords from the instruction; the link is the address behind it; bit 0 of a computed target is dropped. -/
theorem test_branches :
    pcAfter (.bLt 1 2 0xFFE) (w3 (-1) 1 0) = some (-4) ∧ pcAfter (.bLt 1 2 0xFFE) (w3 1 (-1) 0) = some 4 ∧ pcAfter (.bnz 1 3) (w3 1 0 0) = some 6 ∧
    pcAfter (.b16 0x7FF) wa = some (-2) ∧ (sAfter (.jal 31 0x80) wa 31).map (· - wa.regs.pc) = some 4 ∧ pcAfter (.jal 31 0x80) wa = some 0x100 ∧
    pcAfter (.jalr 0 1 1) (w3 (wa.regs.pc + 8) 0 0) = some 8 := by decide +kernel

/-- R215 to R217: 1/3 to nearest and up; the largest f32 doubled; a tie; −0.5 and 2^31 to i32. -/
theorem test_rounding :
    (fmtOf 9).map (fun k => ((fResult k (fDiv (valOf 9 0x3F800000) (valOf 9 0x40400000)) [] 0 true 0).1,
      (fResult k (fDiv (valOf 9 0x3F800000) (valOf 9 0x40400000)) [] 3 true 0).1)) = some (0x3EAAAAAB, 0x3EAAAAAB) ∧
    (fmtOf 9).map (fun k => fResult k (fAdd (valOf 9 0x7F7FFFFF) (valOf 9 0x7F7FFFFF) 1) [] 1 true 0) = some (0x7F7FFFFF, evOF ||| evNX) ∧
    convertBits 8 9 0x3F808000 0 true 0 = (0x3F80, evNX) ∧ convertBits 8 9 0x3F808000 4 true 0 = (0x3F81, evNX) ∧
    convertBits 4 9 0xBF000000 0 true 0 = (0, evNX) ∧ convertBits 4 9 0x4F000000 0 true 0 = (0x7FFFFFFF, evSA ||| evNX) := by decide +kernel

/-- R216: 500 and the infinity to e4m3 with and without saturation. -/
theorem test_saturation :
    convertBits 11 9 0x43FA0000 0 true 0 = (0x7E, evSA ||| evNX) ∧ (convertBits 11 9 0x43FA0000 0 false 0).1 = 0x7F ∧
    convertBits 11 9 0x7F800000 0 true 0 = (0x7E, evSA) ∧ convertBits 11 9 0x7F800000 0 false 0 = (0x7F, evNP) := by decide +kernel

/-- R222: the example of the spec, a block whose amax is 896. -/
theorem test_quantise :
    (quantise 11 [(true, 0x40400000), (true, 0x3DCCCCCD), (true, 0xC4600000)] 0 true (fun _ => 0)).1 = 0x40000000 ∧
    (quantise 11 [(true, 0x40400000), (true, 0x3DCCCCCD), (true, 0xC4600000)] 0 true (fun _ => 0)).2.map Prod.fst = [0x3C, 0x15, 0xFE] := by decide +kernel

/-- R219: the example of the spec, a product of 2^−100 beside an accumulator element of 1, in mode up. -/
theorem test_accumulationWindow :
    (fmtOf 9).map (fun k => (k.convert (sumTerms (some 95) (valOf 9 0x3F800000 :: .num false (.dy 1 (-100)) :: List.replicate 31 (.num false (.dy 0 0))) 3).1 3 true 0).1) =
      some 0x3F800000 := by decide +kernel

/-- R94, R97: what a port writes for each kind of operation. -/
theorem test_memoryOperations :
    memOp 0 4 0xFFFFFFFF 2 = 1 ∧ memOp 4 4 0xFFFFFFFF 2 = 0xFFFFFFFF ∧ memOp 6 4 0xFFFFFFFF 2 = 2 ∧ memOp 10 8 5 3 = 6 ∧ memOp 11 8 5 3 = 3 ∧
    memOp 1 4 0x3F800000 0x3F800000 = 0x40000000 := by decide +kernel

/-- R351, R352: without a prefix sums are clamped: 2^31 − 1 plus 1 stays at the maximum. -/
theorem test_vectorClamp :
    (let s := setV (setV ws wa 1 (0x7FFFFFFF + 2 ^ 32 * 5)) wa 2 (1 + 2 ^ 32 * 6)
     match exec (.vadd 0 1 2 4) s with
     | .next t => some (lane 32 (vreg t wa 0) 0, lane 32 (vreg t wa 0) 1, lane 32 (vreg t wa 0) 127)
     | _ => none) = some (0x7FFFFFFF, 11, 0) := by decide +kernel

/-! ### Witnesses: what the engines compute -/

theorem test_witness_EnginesCompute_sum :
    let xs : List (Bool × Nat × Int) := [(false, 3, 0), (true, 1, -2), (false, 0, 7)]
    let low (w : Option Nat) (x : Bool × Nat × Int) : Int := w.elim x.2.2 fun k => (Nat.log2 x.2.1 : Int) + x.2.2 - (k : Int)
    (∃ x ∈ xs, x.2.1 ≠ 0 ∧ low none x = -2) ∧ (∀ x ∈ xs, x.2.1 ≠ 0 → -2 ≤ low none x) ∧
    (∃ x ∈ xs, x.2.1 ≠ 0 ∧ low (some 95) x = -94) ∧ (∀ x ∈ xs, x.2.1 ≠ 0 → low (some 95) x ≤ -94) ∧
    ([FVal.nan true, .inf false].any FVal.isNan = true) ∧ FVal.inf true ∈ [FVal.inf true, .inf false] ∧ FVal.inf false ∈ [FVal.inf true, .inf false] ∧
    [FVal.inf true].any FVal.isNan = false ∧ FVal.inf true ∈ [FVal.inf true] ∧ FVal.inf (!true) ∉ [FVal.inf true] := by
  decide +kernel

/-- A started command of the matrix unit: its word, its operand, a descriptor; both clip extents are 1. -/
def wmcmd (word : Nat) (xs : List Nat) (d : DReg) : MatrixCmd :=
  ⟨2, wa.uid, word, 0, true, 0, 0, 9, xs, [], 0, 0, d, 1, 1, 0, 0, 0, none, true, ⟨some 7, 0, 0, 2⟩⟩

/-- Core 0 with that command, its tile in a state. -/
def wsMat (m : MatrixCmd) (x : TileState) : State :=
  wsCore { coreAt ws 0 with matQ := [m], tiles := [(0, x)] } (wfl .sent .command)

/-- What every clause on the matrix unit asks for. -/
def wmatOk (m : MatrixCmd) (x : TileState) : Bool :=
  decide ((coreAt (wsMat m x) 0).matQ = m :: [] ∧ flightById (wsMat m x) m.id = some (wfl .sent .command) ∧ wa.uid = m.uid) &&
    decide (m.started = true ∧ m.chain = none ∧ m.tile < 4 ∧ actByUid (wsMat m x) m.uid = some wa) && resident wa &&
    (List.range 7).all (fun k => decide (xsWindow (wsMat m x) 0 k = 0)) && (wsMat m x).lanes.isEmpty

/-- An mma of a 64-bit type; with the latch as its operand B and a ring step. -/
def wmmaPlain : Nat := 1 + 2 * 31 + 2 ^ 20
def wmmaRing : Nat := 1 + 2 * 31 + 2 ^ 21 + 2 ^ 27
/-- The two members of a gang of one row, on cores 0 and 1. -/
def wgangActs : List (Nat × Act) := [(0, { wa with gang := some 7, gw := 2 }), (8, { wa with uid := 9, ctx := 8, gang := some 7, gw := 2, gx := 1 })]

theorem test_witness_EnginesCompute_mma :
    (let m := wmcmd wmmaPlain (List.replicate 2048 0) 0
     wmatOk m TileState.reset = true ∧ isMma m.word = true ∧ m.a.length = 128 * (shapeOf (xMajor m.word)).k ∧ (shapeOf (xMajor m.word)).scl = 0 ∧
       xSC m.word = false ∧ xBK m.word ≠ 2) ∧
    (let x := { TileState.reset with st := 2, ty := 10 }
     let m := wmcmd wmmaRing (List.replicate 2048 0) 0
     wmatOk m x = true ∧ isMma m.word = true ∧ xSC m.word = false ∧ xBK m.word = 2 ∧ xRing m.word = true ∧ x.st = 2 ∧
       x.ty = (shapeOf (xMajor m.word)).tb ∧
       (let s := { wsMat m x with acts := wgangActs }
        let a := { wa with gang := some 7, gw := 2 }
        let e := { wa with uid := 9, ctx := 8, gang := some 7, gw := 2, gx := 1 }
        actByUid s m.uid = some a ∧ resident a = true ∧ eastRoom s (some a) m = true ∧ ringMember s (some a) m.place (eastCol m.place) = some e ∧
          e.tiles[m.name]? = some 0)) := by decide +kernel

theorem test_witness_EnginesCompute_latches :
    (let m := wmcmd (1 + 2 * 44 + 2 ^ 19) [1, 2, 3] 0
     wmatOk m TileState.reset = true ∧ isMma m.word = false ∧ xSub m.word = 1 ∧ m.desc = 0 ∧ m.a.length * tWidth m.etype ≤ 131072) ∧
    (let m := wmcmd (1 + 2 * 44 + 4 * 2 ^ 19) (List.replicate 512 7) 0
     wmatOk m TileState.reset = true ∧ isMma m.word = false ∧ xSub m.word = 4) := by decide +kernel

/-- An mst with clip of one element, to the last slot of the pool. -/
def wmst : MatrixCmd := wmcmd (1 + 2 * 44 + 3 * 2 ^ 19 + 2 ^ 29) [] (wdesc 258048 1 4)

/-- Whether an element of a tile is written by that mst, and where. -/
def wplace (m : MatrixCmd) (i j : Nat) : Bool × Nat :=
  let x : Idx := if xTr m.word then (org0 m.org + i, org1 m.org + j, 0, 0, 0) else (org0 m.org + j, org1 m.org + i, 0, 0, 0)
  (insideDesc m.desc x && !(xClip m.word && (m.ty ≤ i || m.tx ≤ j)), (idxAddr m.desc x).1)

theorem wplace_first (m : MatrixCmd) (hc : xClip m.word = true) (hx : m.tx = 1) (hy : m.ty = 1) (i j : Nat) (h : (wplace m i j).1 = true) :
    i = 0 ∧ j = 0 := by
  simp only [wplace, hc, hx, hy, Bool.true_and, Bool.and_eq_true, Bool.not_eq_true', Bool.or_eq_false_iff, decide_eq_false_iff_not] at h
  omega

theorem test_witness_EnginesCompute_mst :
    let tile := tileAt (wsMat wmst TileState.reset) 0 0
    let n := tWidth (dEtype wmst.desc) / 8
    (wmatOk wmst TileState.reset = true ∧ isMma wmst.word = false ∧ xSub wmst.word = 3 ∧ dSpace wmst.desc = 1 ∧
      tWidth (dEtype wmst.desc) % 8 = 0 ∧ tile.acc < 3 ∧ (wplace wmst 0 0).1 = true) ∧
    ∀ i j, i < 128 → j < accLanes tile.acc → (wplace wmst i j).1 = true →
      (wplace wmst i j).2 + n ≤ 262144 ∧ meets (wplace wmst i j).2 n (65536 * 0) 65536 = false ∧
      ∀ k l, k < 128 → l < accLanes tile.acc → (wplace wmst k l).1 = true → (k, l) ≠ (i, j) →
        meets (wplace wmst i j).2 n (wplace wmst k l).2 n = false := by
  intro tile n
  have first := wplace_first wmst (by decide +kernel) rfl rfl
  refine ⟨by decide +kernel, fun i j _ _ h => ?_⟩
  obtain ⟨rfl, rfl⟩ := first i j h
  refine ⟨by decide +kernel, by decide +kernel, fun k l _ _ h2 ne => ?_⟩
  obtain ⟨rfl, rfl⟩ := first k l h2
  exact absurd rfl ne

/-- A started copy of the core's own pool: one row of 64 bytes in the last slot, moved 64 bytes up, or converted from f32 to f64. -/
def wown (conv : Nat) : CopyCmd :=
  { wcmd true 0 with shadow := [BitVec.ofNat 64 (258048 + 2 ^ 57), BitVec.ofNat 64 (258112 + 2 ^ 57), BitVec.ofNat 64 (2 ^ 24 + 64), 0, 0,
      BitVec.ofNat 64 conv, 0] }
def wsOwn (conv : Nat) : State := wsCore { coreAt ws 0 with copyQ := [wown conv], slots := [(63, true, 1)] } (wfl .sent .command)

theorem test_witness_EnginesCompute_copy :
    [0, 0x1A9].all (fun conv => decide (
      let s := wsOwn conv
      let c := wown conv
      let sh := c.shadow
      let src := fun r => rowAt (shAddr (nth sh 0)) (nth sh 3) r
      (coreAt s 0).copyQ = c :: [] ∧ flightById s c.id = some (wfl .sent .command) ∧ c.active = true ∧ c.follow = none ∧ c.kind < 2 ∧
        actByUid s wa.uid = some wa ∧ shSpace (nth sh 0) = 1 ∧ shSpace (nth sh 1) = 1 ∧ shRows sh = 1 ∧ 0 ≤ src 0) &&
      (let s := wsOwn conv
       let sh := (wown conv).shadow
       let src := fun r => rowAt (shAddr (nth sh 0)) (nth sh 3) r
       let dst := fun r => rowAt (shAddr (nth sh 1)) (nth sh 4) r
       decide ((src 0).toNat + shLen sh ≤ 262144 ∧ 0 ≤ dst 0 ∧ (dst 0).toNat + shDstLen sh ≤ 262144 ∧
         meets (dst 0).toNat (shDstLen sh) (src 0).toNat (shLen sh) = false) && s.lanes.isEmpty &&
       (List.range 7).all (fun k => decide (xsWindow s 0 k = 0)))) = true ∧
    flightCore (wfl .sent .command) = 0 ∧
    shEn (wown 0).shadow = false ∧ shEn (wown 0x1A9).shadow = true ∧ shSt (wown 0x1A9).shadow = 9 ∧ shDt (wown 0x1A9).shadow = 10 ∧
    shLen (wown 0x1A9).shadow % tBytes 9 = 0 := by decide +kernel

/-- A command of an engine on its way; the machine with it. -/
def wengine : Flight := wfl .sent .command

theorem test_witness_EnginesCompute_far :
    let s := wsF wengine
    route s (srcDie wengine) (64 % 2 ^ 57) = some 0 ∧ 0 / 16 = wengine.req.src.pkg ∧ s.eccBad = [] ∧ wengine.req.txn = none ∧
    [Acc.erd, .ewr].all (fun acc => match translateNow s 0 (engReq wengine acc 64 8) with
      | (.ok loc leaf left, s1) => decide (leafAPER leaf ≠ 1 ∧ leafAPER leaf ≠ 5 ∧ 8 ≤ left ∧ s1.held = false) && !(dieAt s1 (locDie loc)).failed
      | _ => false) = true ∧ (dieAt s 0).failed = false := by decide +kernel

/-- A convert without types of 64 bytes from address 0 to the last slot, with all its parts to do. -/
def wplinth : List Word := [0, BitVec.ofNat 64 (258048 + 2 ^ 57), BitVec.ofNat 64 (2 ^ 24 + 64), 0, 0, 0, 0]

theorem test_witness_EnginesCompute_parts :
    let f := wfl .waiting (.plinth false wplinth 0 [0, 1, 2])
    let s := wsCore { coreAt ws 0 with slots := [(63, true, 1)] } f
    let src := (srcRows (flightCore f) wplinth none).headD (0, 0)
    let dst := (dstRows (flightCore f) wplinth).headD (0, 0)
    let u := (rowUnits wplinth src.2.toNat).headD (0, 0, 0)
    flightById s 2 = some f ∧ plinthWaits s f 0 = false ∧ plinthWaits s f 1 = false ∧ inPlace wplinth = false ∧
    srcRows (flightCore f) wplinth none = [src] ∧ dstRows (flightCore f) wplinth = [dst] ∧ rowUnits wplinth src.2.toNat = [u] ∧
    (match gatherList f wplinth false 0 s with
     | .ok none s1 => !overlaps (placesOf s1 f .erd src (shLen wplinth)) (placesOf s1 f .ewr dst (shDstLen wplinth)) && (match plinthRange f (src.2.toNat + u.1) u.2.1 s1 with
       | .ok 0 s2 => (match engRead f 0 (src.2.toNat + u.1) u.2.1 s2 with
         | .ok bs s3 => (match engWrite f dst.1 (dst.2.toNat + u.2.2) bs s3 with
           | .ok _ _ => true
           | _ => false)
         | _ => false)
       | _ => false)
     | _ => false) = true ∧ (dieAt s (actingDie f)).failed = false ∧ inPlace wconv = true ∧
    (match srcRows (flightCore f) wconv none, dstRows (flightCore f) wconv with
     | [x], [y] => overlaps (placesOf s f .erd x (shLen wconv)) (placesOf s f .ewr y (shDstLen wconv))
     | _, _ => false) = true := by decide +kernel

end Sys2Proof.Tests
end

section
/-! SUPPORT. Scalar units that issue: what a unit with nothing to wait for completes with, or traps. -/
namespace Sys2Proof.Machine
open Sys2Proof.Safety

/-- An activation that awaits none of its scalar registers awaits none of fewer. -/
theorem issues_of_subset {s : State} {a : Act} {ns ms : List Nat} (h : Issues s a (sNames ns)) (hm : ms ⊆ ns) :
    Issues s a (sNames ms) := by
  obtain ⟨hact, hpend, hwin⟩ := h
  exact ⟨hact, pending_of_subset s a (sNames_subset hm) hpend, windowHolds_of_subset s a (sNames_subset hm) hwin⟩

/-- A unit whose scalar registers are among those named has nothing to wait for, and runs its own effect. -/
theorem issueUnit_of_names {s : State} {a : Act} {ns rs ws : List Nat} {k : Act → State} (h : Issues s a (sNames ns))
    (hr : rs ⊆ ns) (hw : ws ⊆ ns) : issueUnit s true (fun _ => sNames rs) (fun _ => sNames ws) k = .next (k a) :=
  issueUnit_of_issues h (sNames_subset hr) (sNames_subset hw)

/-- The same of a unit that writes no register. -/
theorem issueUnit_of_reads {s : State} {a : Act} {ns rs : List Nat} {k : Act → State} (h : Issues s a (sNames ns))
    (hr : rs ⊆ ns) : issueUnit s true (fun _ => sNames rs) (fun _ => []) k = .next (k a) :=
  issueUnit_of_names (ws := []) h hr (List.nil_subset ns)

/-- A unit that is illegal, or whose effect is an illegal-instruction trap. -/
theorem issueUnit_traps {s : State} {a : Act} {ns rs ws : List Nat} {k : Act → State} {l : Bool}
    (h : Issues s a (sNames ns)) (hr : rs ⊆ ns) (hw : ws ⊆ ns) (hk : l = true → k a = trap s a cIllegal) :
    issueUnit s l (fun _ => sNames rs) (fun _ => sNames ws) k = .next (trap s a cIllegal) := by
  cases l with
  | false => exact issueUnit_illegal h.1
  | true => rw [issueUnit_of_names h hr hw, hk rfl]

/-- A legal unit whose effect is to write v into scalar register d. -/
theorem issueUnit_setsS {s : State} {a : Act} {ns rs : List Nat} {k : Act → State} {l : Bool} {d n : Nat} {v : Word}
    (h : Issues s a (sNames ns)) (hr : rs ⊆ ns) (hw : [d] ⊆ ns) (hd : d < 32) (hl : l = true)
    (hk : k a = retire s (setS a d v) n) :
    SetsS s a d v n (issueUnit s l (fun _ => sNames rs) (fun _ => sNames [d]) k) := by
  rw [hl, issueUnit_of_names h hr hw, hk]
  exact retire_setS s a d n v hd

/-- An arithmetic unit writes v where v is the value of its function. -/
theorem aluUnit_setsS {s : State} {a : Act} {ns rs : List Nat} {d : BitVec 5} {f : Act → Word} {len : Nat} {v : Word}
    (h : Issues s a (sNames ns)) (hr : rs ⊆ ns) (hw : [d.toNat] ⊆ ns) (hv : f a = v) :
    SetsS s a d.toNat v len (aluUnit len rs d.toNat f s) :=
  issueUnit_setsS h hr hw d.isLt rfl (by rw [hv])

section
variable {s : State} {a : Act} {d x y : BitVec 5} {v : Word}

/-- Two sources, 32 bits. -/
theorem rrr_setsS {f : Word → Word → Word} (h : Issues s a (sNames [d.toNat, x.toNat, y.toNat]))
    (hv : f (sreg a x.toNat) (sreg a y.toNat) = v) : SetsS s a d.toNat v 4 (rrr d x y f s) :=
  aluUnit_setsS h (by simp) (by simp) hv

/-- One source, 32 bits. -/
theorem rr_setsS {f : Word → Word} (h : Issues s a (sNames [d.toNat, x.toNat])) (hv : f (sreg a x.toNat) = v) :
    SetsS s a d.toNat v 4 (rr d x f s) :=
  aluUnit_setsS h (by simp) (by simp) hv

/-- The destination and one source, 16 bits. -/
theorem rr16_setsS {f : Word → Word → Word} (h : Issues s a (sNames [d.toNat, x.toNat]))
    (hv : f (sreg a d.toNat) (sreg a x.toNat) = v) : SetsS s a d.toNat v 2 (rr16 d x f s) :=
  aluUnit_setsS h (by simp) (by simp) hv

/-- nop writes nothing (R313). -/
theorem execNop_setsS {ns : List Nat} (h : Issues s a (sNames ns)) : SetsS s a 0 0 2 (execNop s) :=
  aluUnit_sets 2 [] 0 (fun _ => 0) h (by simp) (by simp) (by decide)

/-! ### Bit fields and header fields -/

variable {p l : BitVec 6}

theorem execExt_setsS (h : Issues s a (sNames [d.toNat, x.toNat])) (hf : okField p l = true) :
    SetsS s a d.toNat (BitVec.ofNat 64 (wfld (sreg a x.toNat) p.toNat (l.toNat + 1))) 4 (execExt d x p l s) :=
  issueUnit_setsS h (by simp) (by simp) d.isLt hf rfl

theorem execExtS_setsS (h : Issues s a (sNames [d.toNat, x.toNat])) (hf : okField p l = true) :
    SetsS s a d.toNat (sextNat (l.toNat + 1) (wfld (sreg a x.toNat) p.toNat (l.toNat + 1))) 4 (execExtS d x p l s) :=
  issueUnit_setsS h (by simp) (by simp) d.isLt hf rfl

theorem execIns_setsS (h : Issues s a (sNames [d.toNat, x.toNat])) (hf : okField p l = true) :
    SetsS s a d.toNat (putFld (sreg a d.toNat) p.toNat (l.toNat + 1) (sreg a x.toNat).toNat) 4 (execIns d x p l s) :=
  issueUnit_setsS h (by simp) (by simp) d.isLt hf rfl

theorem execHdrUnpk_setsS (h : Issues s a (sNames [d.toNat, x.toNat, y.toNat]))
    (he : hdrBad (hdrOf s a (sreg a y.toNat)) = false) :
    SetsS s a d.toNat (hdrUnpk (hdrOf s a (sreg a y.toNat)) (sreg a x.toNat)) 4 (execHdrUnpk d x y s) :=
  issueUnit_setsS h (by simp) (by simp) d.isLt rfl (by simp [he])

theorem execHdrPack_setsS (h : Issues s a (sNames [d.toNat, x.toNat, y.toNat]))
    (he : hdrBad (hdrOf s a (sreg a y.toNat)) = false) :
    SetsS s a d.toNat (hdrPack (hdrOf s a (sreg a y.toNat)) (sreg a d.toNat) (sreg a x.toNat)) 4 (execHdrPack d x y s) :=
  issueUnit_setsS h (by simp) (by simp) d.isLt rfl (by simp [he])

theorem execHdrUnpk_traps (h : Issues s a (sNames [d.toNat, x.toNat, y.toNat]))
    (he : hdrBad (hdrOf s a (sreg a y.toNat)) = true) : execHdrUnpk d x y s = .next (trap s a cIllegal) :=
  issueUnit_traps h (by simp) (by simp) fun _ => by simp [he]

theorem execHdrPack_traps (h : Issues s a (sNames [d.toNat, x.toNat, y.toNat]))
    (he : hdrBad (hdrOf s a (sreg a y.toNat)) = true) : execHdrPack d x y s = .next (trap s a cIllegal) :=
  issueUnit_traps h (by simp) (by simp) fun _ => by simp [he]

end

end Sys2Proof.Machine
end

section
/-! SUPPORT. The values of the scalar arithmetic functions (R284 to R297), in the integers and modulo 2^64. -/
namespace Sys2Proof.Machine

/-! ### Sums, products and constants -/

theorem mul_eq_ofInt (x y : Word) : x * y = BitVec.ofInt 64 (x.toInt * y.toInt) := by
  rw [BitVec.ofInt_mul, BitVec.ofInt_toInt, BitVec.ofInt_toInt]

theorem sext15_eq_ofInt (i : BitVec 15) : sext15 i = BitVec.ofInt 64 i.toInt := rfl

theorem sext6_eq_ofInt (k : BitVec 6) : sext6 k = BitVec.ofInt 64 k.toInt := rfl

theorem add_sext15 (x : Word) (i : BitVec 15) : x + sext15 i = BitVec.ofInt 64 (x.toInt + i.toInt) := by
  rw [sext15_eq_ofInt, BitVec.ofInt_add, BitVec.ofInt_toInt]

theorem add_sext6 (x : Word) (k : BitVec 6) : x + sext6 k = BitVec.ofInt 64 (x.toInt + k.toInt) := by
  rw [sext6_eq_ofInt, BitVec.ofInt_add, BitVec.ofInt_toInt]

theorem shl20_or_eq (x : Word) (h : BitVec 20) :
    x <<< 20 ||| h.setWidth 64 = BitVec.ofNat 64 (x.toNat * 2 ^ 20 + h.toNat) := by
  have disjoint : x <<< 20 &&& h.setWidth 64 = 0#64 := by
    ext k hk
    simp only [BitVec.getElem_and, BitVec.getElem_shiftLeft, BitVec.getElem_setWidth, BitVec.getElem_zero]
    by_cases hk20 : k < 20
    · simp [hk20]
    · simp [BitVec.getLsbD_of_ge h k (by omega)]
  rw [← BitVec.add_eq_or_of_and_eq_zero _ _ disjoint]
  apply BitVec.eq_of_toNat_eq
  simp [Nat.shiftLeft_eq]

/-! ### Division -/

theorem sdiv_eq_ofInt (x y : Word) : x.sdiv y = BitVec.ofInt 64 (x.toInt.tdiv y.toInt) :=
  BitVec.eq_of_toInt_eq (by rw [BitVec.toInt_sdiv, BitVec.toInt_ofInt])

theorem srem_eq_ofInt (x y : Word) : x.srem y = BitVec.ofInt 64 (x.toInt - y.toInt * x.toInt.tdiv y.toInt) := by
  rw [← Int.tmod_def, ← BitVec.toInt_srem, BitVec.ofInt_toInt]

theorem divS_eq (x y : Word) : divS x y = if y = 0 then BitVec.allOnes 64
    else if x.toInt = -2 ^ 63 ∧ y.toInt = -1 then BitVec.ofInt 64 (-2 ^ 63)
    else BitVec.ofInt 64 (x.toInt.tdiv y.toInt) := by
  unfold divS
  split
  · rfl
  · split
    · next hover => rw [sdiv_eq_ofInt, hover.1, hover.2]; decide
    · exact sdiv_eq_ofInt x y

theorem remS_eq (x y : Word) : remS x y = if y = 0 then x
    else if x.toInt = -2 ^ 63 ∧ y.toInt = -1 then 0
    else BitVec.ofInt 64 (x.toInt - y.toInt * x.toInt.tdiv y.toInt) := by
  unfold remS
  split
  · rfl
  · split
    · next hover => rw [srem_eq_ofInt, hover.1, hover.2]; decide
    · exact srem_eq_ofInt x y

theorem divU_eq (x y : Word) : divU x y = if y = 0 then BitVec.allOnes 64 else BitVec.ofNat 64 (x.toNat / y.toNat) := by
  rw [← BitVec.toNat_udiv, BitVec.ofNat_toNat, BitVec.setWidth_eq, divU]

theorem remU_eq (x y : Word) : remU x y = if y = 0 then x else BitVec.ofNat 64 (x.toNat % y.toNat) := by
  rw [← BitVec.toNat_umod, BitVec.ofNat_toNat, BitVec.setWidth_eq, remU]

/-! ### Shifts and rotations -/

theorem shiftLeft_eq_ofNat (x : Word) (n : Nat) : x <<< n = BitVec.ofNat 64 (x.toNat * 2 ^ n) :=
  BitVec.eq_of_toNat_eq (by simp [Nat.shiftLeft_eq])

theorem ushiftRight_eq_ofNat (x : Word) (n : Nat) : x >>> n = BitVec.ofNat 64 (x.toNat / 2 ^ n) := by
  rw [← Nat.shiftRight_eq_div_pow, ← BitVec.toNat_ushiftRight, BitVec.ofNat_toNat, BitVec.setWidth_eq]

theorem sshiftRight_eq_ofInt (x : Word) (n : Nat) : x.sshiftRight n = BitVec.ofInt 64 (x.toInt / 2 ^ n) := by
  have shr : x.toInt / 2 ^ n = x.toInt >>> n := by simp [Int.shiftRight_eq_div_pow]
  rw [shr, ← BitVec.toInt_sshiftRight, BitVec.ofInt_toInt]

theorem rotateLeft_eq_or (x : Word) {n : Nat} (h : n < 64) : x.rotateLeft n = x <<< n ||| x >>> (64 - n) := by
  rw [BitVec.rotateLeft_eq_rotateLeftAux_of_lt h, BitVec.rotateLeftAux]

theorem rotateRight_eq_or (x : Word) {n : Nat} (h : n < 64) : x.rotateRight n = x >>> n ||| x <<< (64 - n) := by
  rw [BitVec.rotateRight_eq_rotateRightAux_of_lt h, BitVec.rotateRightAux]

/-! ### Minima, maxima and comparisons -/

theorem ite_sle_eq_min (x y : Word) : (if x.sle y then x else y) = BitVec.ofInt 64 (min x.toInt y.toInt) := by
  rw [Int.min_def, apply_ite (BitVec.ofInt 64), BitVec.ofInt_toInt, BitVec.ofInt_toInt]
  simp only [BitVec.sle_iff_toInt_le]

theorem ite_sle_eq_max (x y : Word) : (if y.sle x then x else y) = BitVec.ofInt 64 (max x.toInt y.toInt) := by
  rw [Int.max_comm, Int.max_def, apply_ite (BitVec.ofInt 64), BitVec.ofInt_toInt, BitVec.ofInt_toInt]
  simp only [BitVec.sle_iff_toInt_le]

theorem ite_ule_eq_min (x y : Word) : (if x.ule y then x else y) = BitVec.ofNat 64 (min x.toNat y.toNat) := by
  rw [Nat.min_def, apply_ite (BitVec.ofNat 64), BitVec.ofNat_toNat, BitVec.ofNat_toNat, BitVec.setWidth_eq, BitVec.setWidth_eq]
  simp only [BitVec.ule_iff_toNat_le]

theorem ite_ule_eq_max (x y : Word) : (if y.ule x then x else y) = BitVec.ofNat 64 (max x.toNat y.toNat) := by
  rw [Nat.max_comm, Nat.max_def, apply_ite (BitVec.ofNat 64), BitVec.ofNat_toNat, BitVec.ofNat_toNat, BitVec.setWidth_eq, BitVec.setWidth_eq]
  simp only [BitVec.ule_iff_toNat_le]

theorem boolWord_decide (p : Prop) [Decidable p] : boolWord (decide p) = if p then 1 else 0 := by
  by_cases h : p <;> simp [boolWord, h]

theorem boolWord_beq (x y : Word) : boolWord (x == y) = if x = y then 1 else 0 := boolWord_decide (x = y)

theorem boolWord_bne (x y : Word) : boolWord (x != y) = if x = y then 0 else 1 := by
  by_cases h : x = y <;> simp [boolWord, h]

theorem boolWord_slt (x y : Word) : boolWord (x.slt y) = if x.toInt < y.toInt then 1 else 0 :=
  boolWord_decide (x.toInt < y.toInt)

theorem boolWord_ult (x y : Word) : boolWord (x.ult y) = if x.toNat < y.toNat then 1 else 0 :=
  boolWord_decide (x.toNat < y.toNat)

/-- The immediate of slti, sign-extended, has the value it was written with. -/
theorem toInt_sext15 (i : BitVec 15) : (sext15 i).toInt = i.toInt := BitVec.toInt_signExtend_of_le (by decide)

theorem boolWord_slt_sext15 (x : Word) (i : BitVec 15) :
    boolWord (x.slt (sext15 i)) = if x.toInt < i.toInt then 1 else 0 := by
  rw [boolWord_slt, toInt_sext15]

theorem ite_bne_zero (c x y : Word) : (if c != 0 then x else y) = if c = 0 then y else x := by
  by_cases h : c = 0 <;> simp [h]

end Sys2Proof.Machine
end

section
/-! SUPPORT. Bits of numbers and words: fields (R293, R298), bytes in reverse (R288, R293), and counts of bits (R288). -/
namespace Sys2Proof.Machine

/-! ### Fields -/

theorem testBit_fld (x lo len k : Nat) : (fld x lo len).testBit k = (decide (k < len) && x.testBit (lo + k)) := by
  rw [fld, Nat.testBit_mod_two_pow, Nat.testBit_div_two_pow, Nat.add_comm]

theorem testBit_wfld (w : Word) (lo len k : Nat) :
    (wfld w lo len).testBit k = (decide (k < len) && w.getLsbD (lo + k)) := testBit_fld ..

/-- A word with a field replaced has the field's bits there, and its own elsewhere. -/
theorem getLsbD_putFld (w : Word) (lo len v : Nat) {k : Nat} (hk : k < 64) :
    (putFld w lo len v).getLsbD k = if lo ≤ k ∧ k < lo + len then v.testBit (k - lo) else w.getLsbD k := by
  simp only [putFld, BitVec.getLsbD_or, BitVec.getLsbD_and, BitVec.getLsbD_not, BitVec.getLsbD_ofNat, hk, decide_true,
    Bool.true_and, Nat.testBit_mul_two_pow, Nat.testBit_two_pow_sub_one, Nat.testBit_mod_two_pow]
  by_cases hlo : lo ≤ k
  · by_cases hhi : k < lo + len
    · simp [hlo, hhi, show k - lo < len by omega]
    · simp [hlo, hhi, show ¬ k - lo < len by omega]
  · simp [hlo]

/-- Above its n bits a sign-extended number repeats the topmost of them. -/
theorem getLsbD_sextNat {n : Nat} (hn : 0 < n) (v : Nat) {k : Nat} (hk : k < 64) :
    (sextNat n v).getLsbD k = v.testBit (min k (n - 1)) := by
  rw [sextNat, BitVec.getLsbD_signExtend, BitVec.msb_eq_getLsbD_last, BitVec.getLsbD_ofNat, BitVec.getLsbD_ofNat]
  by_cases hkn : k < n
  · simp [hk, hkn, show min k (n - 1) = k by omega]
  · have htop : n - 1 < n := by omega
    simp [hk, hkn, htop, show min k (n - 1) = n - 1 by omega]

/-! ### Bytes -/

/-- A bit of a number that bytes hold lies in the byte of its place. -/
theorem testBit_ofBytes (bs : List Byte) (j : Nat) : (ofBytes bs).testBit j = (bs.getD (j / 8) 0).getLsbD (j % 8) := by
  induction bs generalizing j with
  | nil => simp [ofBytes]
  | cons b r ih =>
    rw [ofBytes, Nat.add_comm, show 256 = 2 ^ 8 from rfl, Nat.testBit_two_pow_mul_add _ b.isLt]
    by_cases hj : j < 8
    · simp [hj, Nat.div_eq_of_lt, Nat.mod_eq_of_lt, BitVec.testBit_toNat]
    · have hdiv : j / 8 = (j - 8) / 8 + 1 := by omega
      have hmod : (j - 8) % 8 = j % 8 := by omega
      rw [if_neg hj, ih, hdiv, hmod, List.getD_cons_succ]

theorem getD_toBytes (n v i : Nat) (hi : i < n) : (toBytes n v).getD i 0 = BitVec.ofNat 8 (v / 2 ^ (8 * i)) := by
  induction n generalizing v i with
  | zero => omega
  | succ n ih =>
    cases i with
    | zero => simp [toBytes]
    | succ i =>
      rw [toBytes, List.getD_cons_succ, ih _ _ (by omega), Nat.div_div_eq_div_mul, show 256 = 2 ^ 8 from rfl, ← Nat.pow_add]
      congr 3
      omega

/-- Of n bytes reversed, bit j is the bit of the same place in the byte as far from the other end. -/
theorem testBit_revBytes {n j : Nat} (x : Nat) (hj : j < 8 * n) :
    (revBytes n x).testBit j = x.testBit (8 * (n - 1 - j / 8) + j % 8) := by
  have hrev : (toBytes n x).reverse.getD (j / 8) 0 = (toBytes n x).getD (n - 1 - j / 8) 0 := by
    simp only [List.getD_eq_getElem?_getD]
    rw [List.getElem?_reverse (by simp; omega), toBytes_length]
  have hmod : j % 8 < 8 := Nat.mod_lt _ (by decide)
  rw [revBytes, testBit_ofBytes, hrev, getD_toBytes _ _ _ (by omega), BitVec.getLsbD_ofNat, Nat.testBit_div_two_pow,
    Nat.add_comm (j % 8)]
  simp [hmod]

/-- Above its n bytes a reversed number has no bits. -/
theorem testBit_revBytes_of_le {n j : Nat} (x : Nat) (hj : 8 * n ≤ j) : (revBytes n x).testBit j = false := by
  have hlen : (toBytes n x).reverse.length ≤ j / 8 := by
    rw [List.length_reverse, toBytes_length]
    omega
  rw [revBytes, testBit_ofBytes, List.getD_eq_getElem?_getD, List.getElem?_eq_none hlen]
  exact BitVec.getLsbD_zero

theorem wfld_bswap (x : Word) {j : Nat} (hj : j < 8) :
    wfld (BitVec.ofNat 64 (revBytes 8 x.toNat)) (8 * j) 8 = wfld x (8 * (7 - j)) 8 := by
  refine Nat.eq_of_testBit_eq fun k => ?_
  rw [testBit_wfld, testBit_wfld]
  by_cases hk : k < 8
  · have hdiv : (8 * j + k) / 8 = j := by omega
    have hmod : (8 * j + k) % 8 = k := by omega
    rw [BitVec.getLsbD_ofNat, testBit_revBytes _ (by omega), hdiv, hmod, BitVec.testBit_toNat]
    simp [show 8 * j + k < 64 by omega]
  · simp [hk]

/-! ### Header fields (R293) -/

/-- The bit of a field that stands for bit j of its value: with BE the field's bytes are reversed. -/
def hdrPlace (be : Bool) (len j : Nat) : Nat := if be then 8 * (len / 8 - 1 - j / 8) + j % 8 else j

/-- A field's value, its bytes reversed with BE. -/
def hdrValue (be : Bool) (len x : Nat) : Nat := if be then revBytes (len / 8) x else x

theorem hdrPack_eq (e old v : Word) :
    hdrPack e old v = putFld old (wfld e 0 6) (wfld e 6 7) (hdrValue (e.getLsbD 13) (wfld e 6 7) (wfld v 0 (wfld e 6 7))) := rfl

theorem hdrUnpk_eq (e w : Word) : hdrUnpk e w =
    if e.getLsbD 14 then sextNat (wfld e 6 7) (hdrValue (e.getLsbD 13) (wfld e 6 7) (wfld w (wfld e 0 6) (wfld e 6 7)))
    else BitVec.ofNat 64 (hdrValue (e.getLsbD 13) (wfld e 6 7) (wfld w (wfld e 0 6) (wfld e 6 7))) := rfl

theorem testBit_hdrValue {be : Bool} {len j : Nat} (hbe : be = true → len % 8 = 0) (hj : j < len) (w : Word) (lo : Nat) :
    (hdrValue be len (wfld w lo len)).testBit j = w.getLsbD (lo + hdrPlace be len j) := by
  cases be with
  | false => simp [hdrValue, hdrPlace, testBit_wfld, hj]
  | true =>
    have hlen := hbe rfl
    have hplace : 8 * (len / 8 - 1 - j / 8) + j % 8 < len := by omega
    simp only [hdrValue, hdrPlace, if_true]
    rw [testBit_revBytes _ (by omega), testBit_wfld]
    simp [hplace]

theorem testBit_hdrValue_of_le (be : Bool) {len j : Nat} (hj : len ≤ j) (w : Word) (lo : Nat) :
    (hdrValue be len (wfld w lo len)).testBit j = false := by
  cases be with
  | false => rw [hdrValue, if_neg Bool.false_ne_true, testBit_wfld, decide_eq_false (Nat.not_lt.2 hj), Bool.false_and]
  | true => exact testBit_revBytes_of_le _ (by omega)

/-- The entries that do not trap. -/
theorem hdrBad_eq_false_iff (e : Word) : hdrBad e = false ↔ e.getLsbD 15 = true ∧ 1 ≤ wfld e 6 7 ∧ wfld e 6 7 ≤ 64 ∧
    wfld e 0 6 + wfld e 6 7 ≤ 64 ∧ (e.getLsbD 13 = true → wfld e 6 7 % 8 = 0 ∧ wfld e 0 6 % 8 = 0) := by
  simp only [hdrBad, Bool.or_eq_false_iff, Bool.not_eq_false', beq_eq_false_iff_ne, decide_eq_false_iff_not, Nat.not_lt,
    Bool.and_eq_false_imp, bne_eq_false_iff_eq, Nat.one_le_iff_ne_zero, and_assoc]
  exact Iff.rfl

section
variable {e : Word}

/-- hdr.unpk gives the bits of the field. -/
theorem getLsbD_hdrUnpk (he : hdrBad e = false) (w : Word) {j : Nat} (hj : j < wfld e 6 7) :
    (hdrUnpk e w).getLsbD j = w.getLsbD (wfld e 0 6 + hdrPlace (e.getLsbD 13) (wfld e 6 7) j) := by
  obtain ⟨-, hpos, hlen, -, hbe⟩ := (hdrBad_eq_false_iff e).1 he
  rw [← testBit_hdrValue (fun h => (hbe h).1) hj, hdrUnpk_eq]
  split
  · rw [getLsbD_sextNat hpos _ (by omega), show min j (wfld e 6 7 - 1) = j by omega]
  · rw [BitVec.getLsbD_ofNat, decide_eq_true (by omega), Bool.true_and]

/-- Above the field, hdr.unpk gives the field's topmost bit with SX, else 0. -/
theorem getLsbD_hdrUnpk_of_le (he : hdrBad e = false) (w : Word) {k : Nat} (hk : wfld e 6 7 ≤ k) (hk64 : k < 64) :
    (hdrUnpk e w).getLsbD k = (e.getLsbD 14 && (hdrUnpk e w).getLsbD (wfld e 6 7 - 1)) := by
  obtain ⟨-, hpos, hlen, -, -⟩ := (hdrBad_eq_false_iff e).1 he
  rw [hdrUnpk_eq]
  split
  · next hsx =>
    rw [getLsbD_sextNat hpos _ hk64, getLsbD_sextNat hpos _ (by omega), hsx, Bool.true_and]
    congr 1
    omega
  · next hsx =>
    rw [BitVec.getLsbD_ofNat, testBit_hdrValue_of_le _ hk, Bool.and_false, eq_false_of_ne_true hsx, Bool.false_and]

/-- hdr.pack puts the low bits of its source into the field. -/
theorem getLsbD_hdrPack (he : hdrBad e = false) (old v : Word) {j : Nat} (hj : j < wfld e 6 7) :
    (hdrPack e old v).getLsbD (wfld e 0 6 + j) = v.getLsbD (hdrPlace (e.getLsbD 13) (wfld e 6 7) j) := by
  obtain ⟨-, -, -, hfit, hbe⟩ := (hdrBad_eq_false_iff e).1 he
  rw [hdrPack_eq, getLsbD_putFld _ _ _ _ (by omega), if_pos (by omega), Nat.add_sub_cancel_left,
    testBit_hdrValue (fun h => (hbe h).1) hj, Nat.zero_add]

/-- hdr.pack keeps every bit outside the field. -/
theorem getLsbD_hdrPack_outside (e old v : Word) {k : Nat} (hk : k < 64) (hout : k < wfld e 0 6 ∨ wfld e 0 6 + wfld e 6 7 ≤ k) :
    (hdrPack e old v).getLsbD k = old.getLsbD k := by
  rw [hdrPack_eq, getLsbD_putFld _ _ _ _ hk, if_neg (by omega)]

end

/-! ### Bit fields (R298) -/

section
variable (w : Word) (p l : Nat) {k : Nat} (hk : k < 64)
include hk

theorem getLsbD_ext : (BitVec.ofNat 64 (wfld w p (l + 1))).getLsbD k = (decide (k ≤ l) && w.getLsbD (p + k)) := by
  simp only [BitVec.getLsbD_ofNat, hk, decide_true, Bool.true_and, testBit_wfld, Nat.lt_add_one_iff]

theorem getLsbD_extS : (sextNat (l + 1) (wfld w p (l + 1))).getLsbD k = w.getLsbD (p + min k l) := by
  have hin : min k l < l + 1 := by omega
  rw [getLsbD_sextNat (n := l + 1) (Nat.succ_pos l) _ hk, testBit_wfld, Nat.add_sub_cancel, decide_eq_true hin, Bool.true_and]

theorem getLsbD_ins (old : Word) : (putFld old p (l + 1) w.toNat).getLsbD k =
    if p ≤ k ∧ k ≤ p + l then w.getLsbD (k - p) else old.getLsbD k := by
  rw [getLsbD_putFld _ _ _ _ hk, BitVec.testBit_toNat]
  simp only [← Nat.add_assoc, Nat.lt_add_one_iff]

end

/-! ### Counts -/

/-- The leading zeros of a word end at its highest one bit. -/
theorem clzNat_spec (x : Word) : clzNat 64 x.toNat ≤ 64 ∧ (∀ k, 64 - clzNat 64 x.toNat ≤ k → x.getLsbD k = false) ∧
    (clzNat 64 x.toNat < 64 → x.getLsbD (63 - clzNat 64 x.toNat) = true) := by
  by_cases h0 : x.toNat = 0
  · have hx : x = 0#64 := BitVec.eq_of_toNat_eq h0
    simp [clzNat, hx]
  · have hlog : x.toNat.log2 < 64 := (Nat.log2_lt h0).2 x.isLt
    have hclz : clzNat 64 x.toNat = 63 - x.toNat.log2 := by simp [clzNat, h0]
    rw [hclz]
    refine ⟨by omega, fun k hk => ?_, fun _ => ?_⟩
    · have hlt : x.toNat < 2 ^ k := Nat.lt_of_lt_of_le Nat.lt_log2_self (Nat.pow_le_pow_right (by decide) (by omega))
      exact Nat.testBit_lt_two_pow hlt
    · rw [show 63 - (63 - x.toNat.log2) = x.toNat.log2 by omega]
      exact Nat.testBit_log2 h0

/-- The trailing zeros among the n lowest bits end at the lowest one bit. -/
theorem ctzNat_spec (x n : Nat) : ctzNat x n ≤ n ∧ (∀ k, k < ctzNat x n → x.testBit k = false) ∧
    (ctzNat x n < n → x.testBit (ctzNat x n) = true) := by
  induction n generalizing x with
  | zero => simp [ctzNat]
  | succ n ih =>
    obtain ⟨hle, hzeros, hone⟩ := ih (x / 2)
    by_cases hodd : x % 2 = 1
    · simp [ctzNat, hodd, Nat.testBit_zero]
    · have heven : ctzNat x (n + 1) = ctzNat (x / 2) n + 1 := by simp [ctzNat, hodd, Nat.add_comm]
      rw [heven]
      refine ⟨by omega, fun k hk => ?_, fun hlt => ?_⟩
      · cases k with
        | zero => simpa [Nat.testBit_zero] using hodd
        | succ k => rw [← Nat.testBit_div_two]; exact hzeros k (by omega)
      · rw [← Nat.testBit_div_two]; exact hone (by omega)

theorem popNat_eq_countP (x n : Nat) : popNat x n = (List.range n).countP fun k => x.testBit k := by
  induction n generalizing x with
  | zero => rfl
  | succ n ih =>
    have hlow : x % 2 = if x.testBit 0 then 1 else 0 := by
      rw [Nat.testBit_zero]
      rcases Nat.mod_two_eq_zero_or_one x with h | h <;> simp [h]
    rw [popNat, ih, List.range_succ_eq_map, List.countP_cons, List.countP_map, hlow, Nat.add_comm]
    congr 2
    funext k
    exact Nat.testBit_div_two x k

end Sys2Proof.Machine
end

section
/-! SUPPORT. The carry-less product and the CRC step (R290, R291) as the spec's loops over the bits of a word. -/
namespace Sys2Proof.Machine

/-! ### Carry-less products -/

/-- The last bit of the multiplier adds the multiplicand at its place. -/
theorem clmulNat_succ (a b n : Nat) :
    clmulNat a b (n + 1) = clmulNat a b n ^^^ (if b.testBit n then a * 2 ^ n else 0) := by
  induction n generalizing b with
  | zero => simp [clmulNat, Nat.testBit_zero]
  | succ n ih =>
    have hhigh : 2 * (if (b / 2).testBit n then a * 2 ^ n else 0) = if b.testBit (n + 1) then a * 2 ^ (n + 1) else 0 := by
      rw [Nat.testBit_div_two]
      split
      · rw [Nat.mul_left_comm, Nat.pow_succ']
      · rfl
    have htwo (p q : Nat) : 2 * (p ^^^ q) = 2 * p ^^^ 2 * q := by
      simpa [Nat.shiftLeft_eq, Nat.mul_comm] using Nat.shiftLeft_xor_distrib (a := p) (b := q) (i := 1)
    rw [clmulNat, ih, htwo, hhigh, ← Nat.xor_assoc]
    rfl

/-- The loop of R290: the product of the n lowest bits is the sum over them of the shifted multiplicand. -/
def clmulStep (x y : Word) (p : BitVec 128) (i : Nat) : BitVec 128 :=
  if y.getLsbD i then p ^^^ (x.setWidth 128 <<< i) else p

theorem toNat_foldl_clmulStep (x y : Word) {n : Nat} (hn : n ≤ 64) :
    ((List.range n).foldl (clmulStep x y) 0).toNat = clmulNat x.toNat y.toNat n := by
  induction n with
  | zero => rfl
  | succ n ih =>
    have hfit : x.toNat * 2 ^ n < 2 ^ 128 := by
      calc x.toNat * 2 ^ n < 2 ^ 64 * 2 ^ n := Nat.mul_lt_mul_of_pos_right x.isLt (Nat.two_pow_pos n)
        _ = 2 ^ (64 + n) := (Nat.pow_add ..).symm
        _ ≤ 2 ^ 128 := Nat.pow_le_pow_right (by decide) (by omega)
    have hshift : (x.setWidth 128 <<< n).toNat = x.toNat * 2 ^ n := by
      rw [BitVec.toNat_shiftLeft, BitVec.toNat_setWidth_of_le (by decide), Nat.shiftLeft_eq, Nat.mod_eq_of_lt hfit]
    rw [List.range_succ, List.foldl_append, List.foldl_cons, List.foldl_nil, clmulNat_succ, ← ih (by omega), clmulStep,
      BitVec.testBit_toNat]
    split
    · rw [BitVec.toNat_xor, hshift]
    · rw [Nat.xor_zero]

theorem clmulNat_eq_setWidth (x y : Word) :
    BitVec.ofNat 64 (clmulNat x.toNat y.toNat 64) = ((List.range 64).foldl (clmulStep x y) 0).setWidth 64 := by
  rw [← toNat_foldl_clmulStep x y (Nat.le_refl 64), BitVec.ofNat_toNat]

theorem clmulNat_div_eq_setWidth (x y : Word) : BitVec.ofNat 64 (clmulNat x.toNat y.toNat 64 / 2 ^ 64) =
    ((List.range 64).foldl (clmulStep x y) 0 >>> 64).setWidth 64 := by
  rw [← toNat_foldl_clmulStep x y (Nat.le_refl 64), ← Nat.shiftRight_eq_div_pow, ← BitVec.toNat_ushiftRight,
    BitVec.ofNat_toNat]

/-! ### The CRC step -/

/-- One turn of the loop of R291. -/
def crcStep (m : Word) (c : BitVec 32) (i : Nat) : BitVec 32 :=
  if c.getLsbD 0 != m.getLsbD i then (c >>> 1) ^^^ 0x82F63B78 else c >>> 1

/-- The model's turn, on numbers. -/
def crcTurn (c : Nat) (b : Bool) : Nat := if c.testBit 0 != b then (c / 2) ^^^ 0x82F63B78 else c / 2

theorem crcNat_succ (c m n : Nat) : crcNat c m (n + 1) = crcTurn (crcNat c m n) (m.testBit n) := by
  have turn (c m : Nat) : (if (c ^^^ m) % 2 = 1 then c / 2 ^^^ 0x82F63B78 else c / 2) = crcTurn c (m.testBit 0) := by
    have hbit : (c ^^^ m) % 2 = 1 ↔ (c.testBit 0 != m.testBit 0) = true := by
      change _ ↔ (c.testBit 0 ^^ m.testBit 0) = true
      rw [← Nat.testBit_xor, Nat.testBit_zero, decide_eq_true_eq]
    simp only [crcTurn, hbit]
  induction n generalizing c m with
  | zero => exact turn c m
  | succ n ih =>
    rw [crcNat, ih, Nat.testBit_div_two]
    rfl

theorem toNat_crcStep (m : Word) (c : BitVec 32) (i : Nat) : (crcStep m c i).toNat = crcTurn c.toNat (m.getLsbD i) := by
  have hshift : (c >>> 1).toNat = c.toNat / 2 := by rw [BitVec.toNat_ushiftRight, Nat.shiftRight_eq_div_pow, Nat.pow_one]
  rw [crcStep, crcTurn, BitVec.testBit_toNat]
  split
  · rw [BitVec.toNat_xor, hshift]; rfl
  · exact hshift

theorem toNat_foldl_crcStep (m : Word) (c : BitVec 32) (n : Nat) :
    ((List.range n).foldl (crcStep m) c).toNat = crcNat c.toNat m.toNat n := by
  induction n with
  | zero => rfl
  | succ n ih =>
    rw [List.range_succ, List.foldl_append, List.foldl_cons, List.foldl_nil, toNat_crcStep, ih, crcNat_succ]
    rfl

theorem crcNat_eq_setWidth (x m : Word) : BitVec.ofNat 64 (crcNat (x.toNat % 2 ^ 32) m.toNat 64) =
    ((List.range 64).foldl (crcStep m) (x.setWidth 32)).setWidth 64 := by
  rw [← BitVec.toNat_setWidth, ← toNat_foldl_crcStep, BitVec.ofNat_toNat]

end Sys2Proof.Machine
end

section
/-! SUPPORT. Branches, jumps and loops (R305 to R311): what their units complete with. -/
namespace Sys2Proof.Machine
open Sys2Proof.Safety

/-! ### Targets -/

/-- Offsets count halfwords (R260). -/
theorem add_two_mul_signExtend {n : Nat} (pc : Word) (o : BitVec n) :
    pc + 2 * o.signExtend 64 = pc + BitVec.ofInt 64 (2 * o.toInt) := by
  rw [BitVec.ofInt_mul]
  rfl

theorem putBit_zero_false (w : Word) : putBit w 0 false = w &&& ~~~1 := by
  simp [putBit, putFld]

theorem jalrTarget_eq (a : Act) (x : Nat) (i : Word) : jalrTarget a x i = (sreg a x + i) &&& ~~~1 := putBit_zero_false _

theorem jalrTarget_zero (a : Act) (x : Nat) : jalrTarget a x 0 = sreg a x &&& ~~~1 := by
  have hsum : sreg a x + 0 = sreg a x := BitVec.add_zero _
  rw [jalrTarget_eq, hsum]

theorem bne_eq_decide_ne (x y : Word) : (x != y) = decide (x ≠ y) := Bool.eq_iff_iff.2 (by simp)

/-! ### Jumps -/

/-- A unit that jumps and writes v, or nothing when d is 0. -/
theorem putAct_jumpTo_jumpsTo (s : State) (a : Act) (t : Word) {d : Nat} (v : Word) (hd : d < 32) :
    JumpsTo s a t d v (.next (putAct s (jumpTo (setS { a with wait := .run } d v) t))) := by
  rw [setS_shape]
  refine ⟨_, _, rfl, ⟨rfl, fun _ => rfl⟩, rfl, jumpTo_jumps a t, rfl, rfl, ⟨rfl, rfl, rfl, rfl, rfl, rfl⟩, fun k => ?_⟩
  exact sreg_setS { a with wait := .run } d k v hd

/-- What a jump would write into s0 does not matter (R254). -/
theorem jumpsTo_zero {s : State} {a : Act} {t v w : Word} {o : Out} (h : JumpsTo s a t 0 v o) : JumpsTo s a t 0 w o := by
  simpa only [JumpsTo, ne_eq, not_true_eq_false, and_false, if_false] using h

section
variable {s : State} {a : Act} {ns rs : List Nat} {t : Word}

/-- A jump goes to its target as it was before the link is written. -/
theorem jumpUnit_jumpsTo {len d : Nat} {target : Act → Word} (h : Issues s a (sNames ns)) (hr : rs ⊆ ns) (hw : [d] ⊆ ns)
    (hd : d < 32) (ht : target a = t) : JumpsTo s a t d (a.regs.pc + BitVec.ofNat 64 len) (jumpUnit len rs d target s) := by
  rw [jumpUnit, issueUnit_of_names h hr hw, ht]
  exact putAct_jumpTo_jumpsTo s a t _ hd

/-- A jump without a link. -/
theorem jumpUnit_jumpsTo_zero {len : Nat} {target : Act → Word} (h : Issues s a (sNames ns)) (hr : rs ⊆ ns)
    (ht : target a = t) : JumpsTo s a t 0 0 (jumpUnit len rs 0 target s) :=
  jumpsTo_zero (jumpUnit_jumpsTo (ns := 0 :: ns) h (List.subset_cons_of_subset 0 hr) (by simp) (by decide) ht)

/-! ### Branches -/

/-- A branch of n bytes: to its target where its condition c holds, and on in sequence where it does not. -/
def Branches (s : State) (a : Act) (c : Bool) (target : Word) (n : Nat) (o : Out) : Prop :=
  if c then JumpsTo s a target 0 0 o else SetsS s a 0 0 n o

theorem branchUnit_branches {len : Nat} {off : Word} {taken : Act → Bool} {c : Bool} (h : Issues s a (sNames ns))
    (hr : rs ⊆ ns) (hc : taken a = c) (ht : a.regs.pc + 2 * off = t) : Branches s a c t len (branchUnit len rs off taken s) := by
  rw [branchUnit, issueUnit_of_reads h hr, hc, ht]
  cases c with
  | false => exact retire_setS s a 0 len 0 (by decide)
  | true => exact putAct_jumpTo_jumpsTo s a t (d := 0) 0 (by decide)

/-! ### Loops -/

/-- An activation behind a loop instruction: behind the body where the count is 0, else in the body, whose bounds are offsets in the image
(R308, R311). -/
def loopEntered (a : Act) (count : Word) (dist : Nat) : Act :=
  { a with wait := .run, regs := { a.regs with
      pc := if count = 0 then a.regs.pc + BitVec.ofNat 64 (2 * dist) else a.regs.pc + 4
      lcnt := count
      lstart := if count = 0 then a.regs.lstart else (a.regs.pc + 4 - BitVec.ofNat 64 a.cls.img).setWidth 32
      lend := if count = 0 then a.regs.lend
        else (a.regs.pc + BitVec.ofNat 64 (2 * dist) - BitVec.ofNat 64 a.cls.img).setWidth 32 } }

theorem startLoop_eq (s : State) {a : Act} (count : Word) (dist : Nat) (h : a.regs.lcnt = 0) :
    startLoop s a count dist = { s with acts := mset s.acts a.ctx (loopEntered a count dist) } := by
  by_cases hc : count = 0
  · simp [startLoop, loopEntered, putAct, setAct, setPc, h, hc]
  · simp only [startLoop, loopEntered, putAct, setAct, h, bne_self_eq_false, Bool.false_eq_true, if_neg hc, if_false]

theorem startLoop_traps (s : State) {a : Act} (count : Word) (dist : Nat) (h : a.regs.lcnt ≠ 0) :
    startLoop s a count dist = trap s a cIllegal := by
  rw [startLoop, if_pos (bne_iff_ne.2 h)]

/-- A loop instruction starts its loop, or traps within a loop and where its body is too short. -/
def StartsLoop (s : State) (a : Act) (dist : Nat) (count : Word) (o : Out) : Prop :=
  (3 ≤ dist → a.regs.lcnt = 0 → ∃ t b, o = .next t ∧ OnlyAct s t a b ∧ b = loopEntered a count dist) ∧
    ((dist < 3 ∨ a.regs.lcnt ≠ 0) → o = .next (trap s a cIllegal))

theorem loopUnit_startsLoop {dist : Nat} (count : Act → Word) (h : Issues s a (sNames ns)) (hr : rs ⊆ ns) :
    StartsLoop s a dist (count a)
      (issueUnit s (okDist dist) (fun _ => sNames rs) (fun _ => []) fun r => startLoop s r (count r) dist) := by
  refine ⟨fun hdist hcnt => ?_, fun hbad => ?_⟩
  · rw [show okDist dist = true from decide_eq_true hdist, issueUnit_of_reads h hr, startLoop_eq s _ dist hcnt]
    exact ⟨_, _, rfl, ⟨rfl, fun _ => rfl⟩, rfl⟩
  · refine issueUnit_traps (ws := []) h hr (List.nil_subset ns) fun hl => startLoop_traps s _ dist ?_
    have hdist : 3 ≤ dist := of_decide_eq_true hl
    exact hbad.resolve_left (by omega)

theorem execLoop_startsLoop {x : BitVec 5} (i : BitVec 15) (h : Issues s a (sNames [x.toNat])) :
    StartsLoop s a i.toNat (sreg a x.toNat) (execLoop x i s) :=
  loopUnit_startsLoop (fun r => sreg r x.toNat) h (List.Subset.refl _)

theorem execLoopi_startsLoop (dist n : BitVec 10) (h : Issues s a (sNames ns)) :
    StartsLoop s a dist.toNat (BitVec.ofNat 64 n.toNat) (execLoopi dist n s) := by
  rw [BitVec.ofNat_toNat]
  exact loopUnit_startsLoop (rs := []) (fun _ => n.setWidth 64) h (List.nil_subset _)

end

end Sys2Proof.Machine
end

section
/-! PROOF. Scalar arithmetic, division and comparison (R284 to R286, R289, R294 to R296). Each clause is the law of an arithmetic unit
together with the value of that unit's function. The ascriptions name the unit that exec calls, so that Lean reads its function there and
does not search for it through the arms of exec. -/
open Sys2Proof Sys2Proof.Machine Sys2Proof.Safety

/-- Settles O1: the functions of the units have the values of R285, R294 and R296. -/
theorem scalarArithmeticResults : Obligations.ScalarArithmeticResults := by
  intro s a d x y i k h hi D X Y
  have hdx : Issues s a (sNames [d.toNat, x.toNat]) := issues_of_subset hi (by simp)
  have hd : Issues s a (sNames [d.toNat]) := issues_of_subset hi (by simp)
  exact ⟨
    rrr_setsS hi rfl,
    rrr_setsS hi rfl,
    rrr_setsS hi (mul_eq_ofInt X Y),
    rrr_setsS hi rfl,
    rrr_setsS hi rfl,
    (rr_setsS hdx (add_sext15 X i) : SetsS s a _ _ 4 (execAddi d x i s)),
    rr16_setsS hdx rfl,
    rr16_setsS hdx rfl,
    (aluUnit_setsS hd (by simp) (by simp) (add_sext6 D k) : SetsS s a _ _ 2 (execAddi6 d k s)),
    (aluUnit_setsS hd (by simp) (by simp) (sext15_eq_ofInt i) : SetsS s a _ _ 4 (execLi d i s)),
    (aluUnit_setsS hd (by simp) (by simp) (sext6_eq_ofInt k) : SetsS s a _ _ 2 (execLi6 d k s)),
    (aluUnit_setsS hd (by simp) (by simp) (shl20_or_eq D h) : SetsS s a _ _ 4 (execLih d h s)),
    (aluUnit_setsS hdx (by simp) (by simp) rfl : SetsS s a _ _ 2 (execMov d x s)),
    execNop_setsS hi⟩

/-- Settles O2: the corner results of R286 are those of the truncated quotient and its remainder. -/
theorem divisionResults : Obligations.DivisionResults := by
  intro s a d x y hi X Y
  exact ⟨
    rrr_setsS hi (divS_eq X Y),
    rrr_setsS hi (remS_eq X Y),
    rrr_setsS hi (divU_eq X Y),
    rrr_setsS hi (remU_eq X Y)⟩

/-- Settles O5: the conditions by which the units select are those of R289 on the signed and the unsigned values. -/
theorem comparisonResults : Obligations.ComparisonResults := by
  intro s a d x y i hi D X Y
  have hdx : Issues s a (sNames [d.toNat, x.toNat]) := issues_of_subset hi (by simp)
  exact ⟨
    (rrr_setsS hi (ite_sle_eq_min X Y) : SetsS s a _ _ 4 (execMin d x y s)),
    (rrr_setsS hi (ite_sle_eq_max X Y) : SetsS s a _ _ 4 (execMax d x y s)),
    (rrr_setsS hi (ite_ule_eq_min X Y) : SetsS s a _ _ 4 (execMinz d x y s)),
    (rrr_setsS hi (ite_ule_eq_max X Y) : SetsS s a _ _ 4 (execMaxz d x y s)),
    (rrr_setsS hi (boolWord_beq X Y) : SetsS s a _ _ 4 (execSeq d x y s)),
    (rrr_setsS hi (boolWord_bne X Y) : SetsS s a _ _ 4 (execSne d x y s)),
    (rrr_setsS hi (boolWord_slt X Y) : SetsS s a _ _ 4 (execSlt d x y s)),
    (rrr_setsS hi (boolWord_ult X Y) : SetsS s a _ _ 4 (execSltz d x y s)),
    (rr_setsS hdx (boolWord_slt_sext15 X i) : SetsS s a _ _ 4 (execSlti d x i s)),
    (aluUnit_setsS hi (by simp) (by simp) (ite_bne_zero D X Y) : SetsS s a _ _ 4 (execSel d x y s))⟩

end

section
/-! PROOF. Logic, shifts, bit fields and header fields (R284, R287, R293, R294, R297, R298); counts, carry-less products and the CRC step
(R288, R290, R291). -/
open Sys2Proof Sys2Proof.Machine Sys2Proof.Safety

/-- Settles O3: the values bit by bit, from the bits of a field; the entries that trap are those of hdrBad. -/
theorem logicAndBitFieldResults : Obligations.LogicAndBitFieldResults := by
  refine ⟨?_, ?_⟩
  · intro s a d x y i n hi D X Y I m
    have hdx : Issues s a (sNames [d.toNat, x.toNat]) := issues_of_subset hi (by simp)
    have hd : Issues s a (sNames [d.toNat]) := issues_of_subset hi (by simp)
    have hm : m < 64 := Nat.mod_lt _ (by decide)
    exact ⟨
      (rrr_setsS hi rfl : SetsS s a _ _ 4 (execAnd d x y s)),
      (rrr_setsS hi rfl : SetsS s a _ _ 4 (execAndn d x y s)),
      (rrr_setsS hi rfl : SetsS s a _ _ 4 (execOr d x y s)),
      (rrr_setsS hi rfl : SetsS s a _ _ 4 (execXor d x y s)),
      (rr_setsS hdx rfl : SetsS s a _ _ 4 (execAndi d x i s)),
      (rr_setsS hdx rfl : SetsS s a _ _ 4 (execOri d x i s)),
      (rr_setsS hdx rfl : SetsS s a _ _ 4 (execXori d x i s)),
      (rr16_setsS hdx rfl : SetsS s a _ _ 2 (execAnd16 d x s)),
      (rr16_setsS hdx rfl : SetsS s a _ _ 2 (execOr16 d x s)),
      (rrr_setsS hi (shiftLeft_eq_ofNat X m) : SetsS s a _ _ 4 (execShl d x y s)),
      (rrr_setsS hi (ushiftRight_eq_ofNat X m) : SetsS s a _ _ 4 (execShr d x y s)),
      (rrr_setsS hi (sshiftRight_eq_ofInt X m) : SetsS s a _ _ 4 (execSra d x y s)),
      (rrr_setsS hi (rotateLeft_eq_or X hm) : SetsS s a _ _ 4 (execRol d x y s)),
      (rr_setsS hdx (shiftLeft_eq_ofNat X n.toNat) : SetsS s a _ _ 4 (execShli d x n s)),
      (rr_setsS hdx (ushiftRight_eq_ofNat X n.toNat) : SetsS s a _ _ 4 (execShri d x n s)),
      (rr_setsS hdx (sshiftRight_eq_ofInt X n.toNat) : SetsS s a _ _ 4 (execSrai d x n s)),
      (rr_setsS hdx (rotateRight_eq_or X n.isLt) : SetsS s a _ _ 4 (execRori d x n s)),
      (aluUnit_setsS hd (by simp) (by simp) (shiftLeft_eq_ofNat D n.toNat) : SetsS s a _ _ 2 (execShli16 d n s)),
      (aluUnit_setsS hd (by simp) (by simp) (ushiftRight_eq_ofNat D n.toNat) : SetsS s a _ _ 2 (execShri16 d n s))⟩
  · intro s a d x y p l hi D X e pos len be at_ ok
    have hdx : Issues s a (sNames [d.toNat, x.toNat]) := issues_of_subset hi (by simp)
    refine ⟨fun hfit => ?_, fun hout => ?_, fun hok => ?_, fun hbad => ?_⟩
    · have hf : okField p l = true := decide_eq_true (by omega)
      exact ⟨⟨_, fun k => getLsbD_ext X p.toNat l.toNat, execExt_setsS hdx hf⟩,
        ⟨_, fun k => getLsbD_extS X p.toNat l.toNat, execExtS_setsS hdx hf⟩,
        ⟨_, fun k hk => getLsbD_ins X p.toNat l.toNat hk D, execIns_setsS hdx hf⟩⟩
    · have hf : okField p l = false := decide_eq_false (by omega)
      have illegal {rs ws : List Nat} {k : Act → State} :
          issueUnit s (okField p l) (fun _ => sNames rs) (fun _ => sNames ws) k = .next (trap s a 1) := by
        rw [hf]; exact issueUnit_illegal hi.1
      exact ⟨illegal, illegal, illegal⟩
    · have he : hdrBad e = false := (hdrBad_eq_false_iff e).2 hok
      exact ⟨⟨_, execHdrUnpk_setsS hi he, fun j => getLsbD_hdrUnpk he X, fun k => getLsbD_hdrUnpk_of_le he X⟩,
        ⟨_, execHdrPack_setsS hi he, fun j => getLsbD_hdrPack he D X, fun k => getLsbD_hdrPack_outside e D X⟩⟩
    · have he : hdrBad e = true := by simpa using mt (hdrBad_eq_false_iff e).1 hbad
      exact ⟨execHdrUnpk_traps hi he, execHdrPack_traps hi he⟩

/-- Settles O4: the model's recursions on the bits of a number count and multiply as the loops of the spec do. -/
theorem bitCountAndPolynomialResults : Obligations.BitCountAndPolynomialResults := by
  refine ⟨?_, ?_⟩
  · intro s a d x hi X
    obtain ⟨hclz, hhigh, hhighest⟩ := clzNat_spec X
    obtain ⟨hctz, hlow, hlowest⟩ := ctzNat_spec X.toNat 64
    exact ⟨
      ⟨_, hclz, hhigh, hhighest, (rr_setsS hi rfl : SetsS s a _ _ 4 (execClz d x s))⟩,
      ⟨_, hctz, hlow, hlowest, (rr_setsS hi rfl : SetsS s a _ _ 4 (execCtz d x s))⟩,
      (rr_setsS hi (congrArg (BitVec.ofNat 64) (popNat_eq_countP X.toNat 64)) : SetsS s a _ _ 4 (execPopc d x s)),
      ⟨_, fun j => wfld_bswap X, (rr_setsS hi rfl : SetsS s a _ _ 4 (execBswap d x s))⟩⟩
  · intro s a d x y hi X Y p c
    exact ⟨
      (rrr_setsS hi (clmulNat_eq_setWidth X Y) : SetsS s a _ _ 4 (execClmul d x y s)),
      (rrr_setsS hi (clmulNat_div_eq_setWidth X Y) : SetsS s a _ _ 4 (execClmulh d x y s)),
      (rrr_setsS hi (crcNat_eq_setWidth X Y) : SetsS s a _ _ 4 (execCrc d x y s))⟩

end

section
/-! PROOF. Branches, jumps, links and hardware loops (R305 to R311). -/
open Sys2Proof Sys2Proof.Machine Sys2Proof.Safety

/-- Settles O6: the laws of the branch, jump and loop units, with offsets counted in halfwords and bit 0 of a register's target cleared. -/
theorem controlFlowResults : Obligations.ControlFlowResults := by
  refine ⟨?_, ?_, ?_⟩
  · intro s a x y o i hi X Y far near does
    have hx : [x.toNat] ⊆ [x.toNat, y.toNat] := by simp
    have hfar := add_two_mul_signExtend a.regs.pc o
    have hnear := add_two_mul_signExtend a.regs.pc i
    exact ⟨
      (branchUnit_branches hi (List.Subset.refl _) rfl hfar : Branches s a _ _ 4 (execBEq x y o s)),
      (branchUnit_branches hi (List.Subset.refl _) (bne_eq_decide_ne X Y) hfar : Branches s a _ _ 4 (execBNe x y o s)),
      (branchUnit_branches hi (List.Subset.refl _) rfl hfar : Branches s a _ _ 4 (execBLt x y o s)),
      (branchUnit_branches hi (List.Subset.refl _) rfl hfar : Branches s a _ _ 4 (execBGe x y o s)),
      (branchUnit_branches hi hx rfl hfar : Branches s a _ _ 4 (execBLtz x o s)),
      (branchUnit_branches hi hx rfl hfar : Branches s a _ _ 4 (execBGez x o s)),
      (branchUnit_branches hi hx rfl hnear : Branches s a _ _ 2 (execBz x i s)),
      (branchUnit_branches hi hx (bne_eq_decide_ne X 0) hnear : Branches s a _ _ 2 (execBnz x i s))⟩
  · intro s a d x i o h hi t
    exact ⟨
      (jumpUnit_jumpsTo hi (by simp) (by simp) d.isLt (add_two_mul_signExtend a.regs.pc o) :
        JumpsTo s a _ _ _ (execJal d o s)),
      (jumpUnit_jumpsTo_zero hi (by simp) (add_two_mul_signExtend a.regs.pc h) : JumpsTo s a _ _ _ (execB16 h s)),
      (jumpUnit_jumpsTo hi (by simp) (by simp) d.isLt (jalrTarget_eq a x.toNat (sext15 i)) :
        JumpsTo s a _ _ _ (execJalr d x i s)),
      (jumpUnit_jumpsTo_zero hi (by simp) (jalrTarget_zero a 31) : JumpsTo s a _ _ _ (execRet s))⟩
  · intro s a x i d n hi starts
    exact ⟨execLoop_startsLoop i hi, execLoopi_startsLoop d n hi⟩

end
